-- ==== Sys2Proof/Word.lean ====
section
/-! DEFINITION. The words of the Jeckor 640 and the fixed tables its registers stand in. -/

namespace Sys2Proof

/-- One byte of a window word or of a unit link frame. -/
abbrev Byte := BitVec 8

/-- A window word: 64 bits, numbered 63 down to 0 (chapter 10). -/
abbrev Word := BitVec 64

/-- An up-side address: the number of an 8-byte word of the 32-bit byte space (section 1.1). -/
abbrev WordAddr := BitVec 29

/-- A byte address of the 32-bit space. -/
abbrev ByteAddr := BitVec 32

/-- A fixed number of like things, such as the 24 unit links. -/
structure Bank (n : Nat) (α : Type) where
  cells : Vector α n
deriving DecidableEq, Repr

namespace Bank

variable {n : Nat} {α : Type}

/-- The thing at place `i`. -/
def get (b : Bank n α) (i : Fin n) : α := b.cells[i.val]

/-- The bank with `a` at place `i` and every other place as it was. -/
def put (b : Bank n α) (i : Fin n) (a : α) : Bank n α := ⟨b.cells.set i a⟩

/-- The bank that holds `f i` at each place `i`. -/
def tabulate (f : Fin n → α) : Bank n α := ⟨Vector.ofFn f⟩

/-- The bank that holds `a` at every place. -/
def fill (a : α) : Bank n α := tabulate fun _ => a

end Bank

end Sys2Proof
end

