-- ==== Sys2Proof/Config.lean ====
section
/-! DEFINITION. The sizes the Jeckor 640 is built with (00_scope, Table 0-1, Table 0-5, and the
rooms the chapters give). The spec leaves no result of an event open, so there is no free value. -/

namespace Sys2Proof

/-- A radio unit, and the unit link that serves it (0 to 23). -/
abbrev UnitId := Fin 24

/-- A carrier slot (0 to 95). -/
abbrev SlotId := Fin 96

/-- A sector (0 to 11). -/
abbrev SectorId := Fin 12

/-- An operator: the value `k` stands for operator number `k + 1` (1 to 6). -/
abbrev Operator := Fin 6

/-- A carrier index on a unit (0 to 3). -/
abbrev CarrierIndex := Fin 4

/-- An initiator of the head-end interconnect (0 to 7). -/
abbrev Initiator := Fin 8

namespace Config

/-- Room of the accepted list (R1). -/
def acceptedRoom : Nat := 16

/-- The value at which the passing run stays (R20). -/
def passingRunTop : Nat := 4

/-- Room of the notice queue (R150). -/
def noticeRoom : Nat := 16

/-- The end of the 32-bit byte space, counted in 8-byte words (R5). -/
def spaceWords : Nat := 2 ^ 29

/-- The end of the 32-bit byte space, counted in bytes (R31). -/
def spaceBytes : Nat := 2 ^ 32

/-- Top of the 8-bit counters that stop (R106, Table 7-1, Table 8-1). -/
def byteTop : Nat := 255

/-- Top of the 16-bit counts that stop (R106, R81, R130, R150). -/
def halfTop : Nat := 65535

/-- Top of an alarm filter's runs (R113). -/
def runTop : Nat := 8

/-- Most moves a search can make: each is at least one raster step and the limits lie within
0 to 65535 (R77, R78). -/
def walkBound : Nat := 65536

end Config

end Sys2Proof
end

