-- ==== Sys2Proof/Syntax.lean ====
section
/-! DEFINITION. The commands of the block: one constructor for each row of spec/opcode_table.json,
with the operands the rows' rules name. -/

namespace Sys2Proof

/-- One beat of an up-side WRITE: its data word and its eight byte enables (section 1.1). -/
structure Beat where
  data : Word
  enables : BitVec 8
deriving DecidableEq, Repr

/-- Kind, length and, for a WRITE, the beats of an up-side request (section 1.1). -/
inductive RequestBody where
  | read (length : Nat)
  | write (beats : List Beat)
deriving DecidableEq, Repr

/-- An up-side request (section 1.1). The address is that of an 8-byte word. -/
structure Request where
  initiator : Initiator
  address : WordAddr
  body : RequestBody
deriving DecidableEq, Repr

/-- The memory controller's answer to a write (R16, R154). -/
inductive Answer where
  | okay
  | fault
deriving DecidableEq, Repr

/-- The memory controller's answer to a read, with one word a beat (R19, R29). -/
inductive ReadAnswer where
  | okay (data : List Word)
  | fault
deriving DecidableEq, Repr

/-- A character as the receiver samples it: three samples in each of its 11 bit times (R101).
Place 0 is the start bit, places 1 to 8 the data bits, least significant first, place 9 the mark
bit, place 10 the stop bit (R90). -/
abbrev Samples := Bank 11 (BitVec 3)

/-- The commands of the Jeckor 640, in the order of spec/opcode_table.json. -/
inductive Instr where
  | pinReset (anchor : BitVec 8)
  | requestArrival (request : Request)
  | takeRequest
  | arbiterGrant
  | memoryWriteResponse (answer : Answer)
  | memoryReadResponse (answer : ReadAnswer)
  | responseReturn
  | serveRequest
  | configRequest
  | loadReadAnswer (answer : ReadAnswer)
  | consumerWrite (value : BitVec 16)
  | acknowledgeProtection
  | acknowledgeLapse
  | clearDepositFault
  | fullPost (operator : Operator) (data : Word)
  | shortPost (operator : Operator) (data : Word) (enables : BitVec 8)
  | changedSetRemove (operator : Operator) (high : Bool) (names : Word)
  | validateTune
  | validateSearch
  | validateRelease
  | unitAcknowledge (unit : UnitId) (kinds : BitVec 7)
  | adminOut (unit : UnitId)
  | adminIn (unit : UnitId)
  | revive (unit : UnitId)
  | holeAcknowledge (sector : SectorId) (operators : BitVec 6)
  | dispatch (link : UnitId)
  | frameSendEnd (link : UnitId)
  | breakBegin (link : UnitId)
  | breakEnd (link : UnitId)
  | replyTimerExpiry (link : UnitId)
  | tunedReply (link : UnitId) (character : Samples)
  | droppedReply (link : UnitId) (character : Samples)
  | levelReply (link : UnitId) (character : Samples)
  | statusReply (link : UnitId) (character : Samples)
  | strayFrame (link : UnitId) (character : Samples)
  | checkDiscard (link : UnitId) (character : Samples)
  | noiseDiscard (link : UnitId) (character : Samples)
  | framingDiscard (link : UnitId) (character : Samples)
  | breakReceived (link : UnitId) (character : Samples)
  | guardExpiry (unit : UnitId)
  | recoveryExpiry (unit : UnitId)
  | pollExpiry
  | epochExpiry
  | depositAnswer (answer : Answer)
  | lapseExpiry
  | goodCharacterReceived (link : UnitId) (character : Samples)
  | lineConditionReady (link : UnitId)
  | siteTimeCount
deriving DecidableEq, Repr

end Sys2Proof
end

