-- ==== Sys2Proof/Decode.lean ====
section
/-! DEFINITION. The commands that words spell. No row of the table gives any bits, so none does. -/

namespace Sys2Proof

/-- The command that a word of `nbits` bits spells by the table's bits: none, since no row of
spec/opcode_table.json has fields. Commands reach the part as events, not as words (log 19). -/
def decodeTableWord (_nbits _w : Nat) : Option Instr := none

end Sys2Proof
end

