-- ==== Sys2Proof/Machine/Types.lean ====
section
/-! DEFINITION. The data the eight blocks of the part hold, block by block. -/

namespace Sys2Proof.Machine

open Sys2Proof

/-! ## Names shared by the blocks -/

/-- The service modes (Table 2-1). -/
inductive Mode where
  | config | starting | serving | hold | stopping
deriving DecidableEq, Repr

/-- The descriptor error codes (Table 2-2). -/
inductive ErrorCode where
  | none | loadFault | abandoned | badWindow | badCount | badBand | badRole | badSector | badTuning
deriving DecidableEq, Repr

/-- The roles of initiators (R10). -/
inductive Role where
  | none
  | operator (k : Operator)
  | observer
  | controller
deriving DecidableEq, Repr

/-- READ or WRITE. -/
inductive AccessKind where
  | read | write
deriving DecidableEq, Repr

/-- Why a request is refused with a PROTECTION trip (R13). `wordClass` is the reason CLASS. -/
inductive RefusalReason where
  | span | role | wordClass
deriving DecidableEq, Repr

/-- The outcome codes (Table 3-3). -/
inductive Outcome where
  | none | accepted | done | released | noClear | unitReject | badSlot | notOwner | slotBusy
  | unitDown | linkPoor | badField | outOfRange | outOfBand | overlap | notServing
deriving DecidableEq, Repr

/-- The ten fault kinds, in kind order (Table 9-1). -/
inductive FaultKind where
  | supply | amplifier | temp | antenna | silent | garbled | restart | hole | protection | lapse
deriving DecidableEq, Repr

/-! ## Path Interpreter (chapter 1) -/

/-- The six windows (Table 1-2). -/
inductive WindowId where
  | descriptor | stage | carrier | unit | sector | ring
deriving DecidableEq, Repr

/-- What a word of the address space is to the part: a word of an entry of a window, or plain
memory (R4). Word numbers count from the start of the entry. -/
inductive WordRef where
  | plainMemory
  | descriptor (w : Fin 32)
  | stage (k : Operator) (w : Fin 8)
  | carrier (n : SlotId) (w : Fin 4)
  | unit (n : UnitId) (w : Fin 8)
  | sector (n : SectorId) (w : Fin 16)
  | ring
deriving DecidableEq, Repr

/-- The word classes (R6). -/
inductive WordClass where
  | plain | captured | action | overlaid
deriving DecidableEq, Repr

/-- The five windows Site Control installs at the entry to SERVING (R4): their byte bases, and the
number of ring entries. -/
structure ServingWindows where
  stage : ByteAddr
  carrier : ByteAddr
  unit : ByteAddr
  sector : ByteAddr
  ring : ByteAddr
  ringSize : Nat
deriving DecidableEq, Repr

/-- The stages of an accepted-list entry (Table 1-1). -/
inductive EntryStage where
  | accepted | held | atMemory | ready
deriving DecidableEq, Repr

/-- OKAY, REFUSED or FAULT (R2). -/
inductive ResponseCode where
  | okay | refused | fault
deriving DecidableEq, Repr

/-- What taking records in an entry: the mode, the initiator's role, and the decoding (R3). -/
structure Taken where
  mode : Mode
  role : Role
  words : List WordRef
deriving DecidableEq, Repr

/-- An entry of the accepted list (R1). `taken` is absent while the entry is ACCEPTED; `response`
is settled when it is READY; `data` is the memory data kept for an OKAY READ (R19). -/
structure Entry where
  request : Request
  stage : EntryStage
  taken : Option Taken
  response : Option ResponseCode
  data : List Word
deriving DecidableEq, Repr

/-- What an own access is for: a service start load read (Table 2-7) or a notice deposit (R153). -/
inductive OwnPurpose where
  | loadL1 | loadL2 | loadL3
  | loadSector (n : SectorId)
  | deposit
deriving DecidableEq, Repr

/-- An access of the down side: the request channel's fields (R20, R21). -/
structure DownAccess where
  kind : AccessKind
  address : ByteAddr
  length : Nat
  beats : List Beat
deriving DecidableEq, Repr

/-- An own access, with the mark R30 gives an abandoned load read. -/
structure OwnAccess where
  purpose : OwnPurpose
  access : DownAccess
  abandoned : Bool
deriving DecidableEq, Repr

/-- An access granted and not yet answered, and whether it is an own access (R20, R21). -/
structure Granted where
  own : Bool
  access : DownAccess
deriving DecidableEq, Repr

/-- A response as it returns on the up side (R2). -/
structure UpResponse where
  initiator : Initiator
  code : ResponseCode
  data : List Word
deriving DecidableEq, Repr

/-- The Path Interpreter's state. -/
structure Path where
  anchor : BitVec 8
  windows : Option ServingWindows
  roles : Bank 8 Role
  entries : List Entry
  upWaiting : List Request
  passingRun : Nat
  ownPresented : Option OwnAccess
  ownInFlight : Option OwnAccess
  granted : List Granted
  lastReturned : Option UpResponse
deriving DecidableEq, Repr

/-! ## Site Control (chapter 2) -/

/-- Site Control's state. Place `i` of `copy` is descriptor word w(5 + i). A load in progress is the
load read that `Path` holds presented or in flight. -/
structure Site where
  mode : Mode
  error : ErrorCode
  copy : Bank 17 Word
  time : BitVec 32
  owingBreaks : BitVec 24
deriving DecidableEq, Repr

/-! ## Request Stages (chapter 3) -/

/-- The mode of a post (Table 3-1). -/
inductive PostMode where
  | tune | search | release
deriving DecidableEq, Repr

/-- A post: the stored post fields and the copies of s0 and s1 (Table 3-1). -/
structure Post where
  mode : PostMode
  slot : Byte
  tuning : Word
  search : Word
deriving DecidableEq, Repr

/-- One operator stage (Table 3-1). `front` is the front half; `back` is the back half's post,
absent while it is IDLE and present while it is WAITING. -/
structure Stage where
  front : Post
  back : Option Post
  pending : Bool
  lastOutcome : Outcome
  lastSlot : Byte
  serial : BitVec 8
deriving DecidableEq, Repr

/-- Request Stages' state: the six stages and the validator's stage served last (section 3.1). -/
structure Stages where
  bank : Bank 6 Stage
  lastServed : Operator
deriving DecidableEq, Repr

/-! ## Carrier Control (chapters 4 and 5) -/

/-- The carrier states (Table 4-2). -/
inductive CarrierState where
  | vacant | searching | waiting | tuning | onAir | releasing | suspended
deriving DecidableEq, Repr

/-- A tuning: channel, bandwidth code and power (section 4.1). -/
structure Tuning where
  channel : BitVec 16
  bandwidth : Byte
  power : Byte
deriving DecidableEq, Repr

/-- Where a requested tuning came from (R54). -/
inductive TuningSource where
  | post | search
deriving DecidableEq, Repr

/-- A requested tuning with its source (Table 4-1). -/
structure Requested where
  tuning : Tuning
  source : TuningSource
deriving DecidableEq, Repr

/-- The search direction (section 5.1). -/
inductive Direction where
  | up | down
deriving DecidableEq, Repr

/-- A search record (section 5.1), with the two limits fixed when it is created (R76). -/
structure SearchRecord where
  candidate : BitVec 16
  direction : Direction
  step : Nat
  stopLevel : Nat
  bandwidth : Byte
  power : Byte
  lastLevel : Nat
  steps : Nat
  lower : Nat
  upper : Nat
deriving DecidableEq, Repr

/-- A search summary (R87). -/
structure SearchSummary where
  candidate : BitVec 16
  lastLevel : Nat
  steps : Nat
deriving DecidableEq, Repr

/-- A command of a unit link: its kind, the slot it serves, and its frame's fields (section 6.1). -/
inductive Command where
  | tune (slot : SlotId) (tuning : Tuning)
  | drop (slot : SlotId)
  | scan (slot : SlotId) (channel : BitVec 16) (bandwidth : Byte)
  | poll
deriving DecidableEq, Repr

/-- A carrier context (Table 4-1), with the search summary (R87), orphan mark and deferred command
(R84). The unit-holds mark is set exactly while the held tuning is present. -/
structure Context where
  state : CarrierState
  owner : Option Operator
  requested : Option Requested
  held : Option Tuning
  search : Option SearchRecord
  bandLimit : Bool
  ready : Bool
  outcome : Outcome
  reason : Byte
  summary : SearchSummary
  orphan : Bool
  deferred : Option Command
deriving DecidableEq, Repr

/-- A half-open interval of raster steps (section 4.2 of 00_scope). -/
structure Interval where
  low : Int
  high : Int
deriving DecidableEq, Repr

/-- An occupancy list entry: an interval, the slot that claims it, and whether it is that slot's
held interval or its requested one (R56). -/
structure Claim where
  interval : Interval
  slot : SlotId
  isHeld : Bool
deriving DecidableEq, Repr

/-- Carrier Control's state: contexts, occupancy lists, and each operator's changed set, whose bit
`n` says that slot `n` is a member (R49). -/
structure Carriers where
  contexts : Bank 96 Context
  occupancy : Bank 24 (List Claim)
  changed : Bank 6 (BitVec 96)
deriving DecidableEq, Repr

/-! ## Link Engine (chapter 6) -/

/-- A character on a line (R90): its 11 bits in the order they are sent, the start bit at place 0. -/
abbrev LineCharacter := BitVec 11

/-- Transmitter states (R93, R94). -/
inductive TxState where
  | idle | preamble | frame | sendingBreak
deriving DecidableEq, Repr

/-- Line condition of a receiver (R101). -/
inductive LineCondition where
  | ready | settling
deriving DecidableEq, Repr

/-- Frame states of a receiver (Table 6-4). -/
inductive RxState where
  | hunt | body | skip
deriving DecidableEq, Repr

/-- The in-flight command with its tag and re-send mark (Table 6-1). -/
structure InFlight where
  command : Command
  tag : BitVec 4
  resent : Bool
deriving DecidableEq, Repr

/-- The six link counters (Table 6-1). -/
structure Counters where
  framing : Nat
  noise : Nat
  check : Nat
  stray : Nat
  resends : Nat
  timeouts : Nat
deriving DecidableEq, Repr

/-- One unit link (Table 6-1). `txFrame` is the frame on the transmit line, character by
character; `replyTimer` the period
in milliseconds the running timer was started for. -/
structure Link where
  tx : TxState
  breakRequest : Bool
  txFrame : List LineCharacter
  line : LineCondition
  rx : RxState
  buffer : List Byte
  queue : List Command
  inFlight : Option InFlight
  replyTimer : Option Nat
  nextTag : BitVec 4
  counters : Counters
  errorWindow : Nat
deriving DecidableEq, Repr

/-! ## Unit Supervisor (chapter 7) -/

/-- Unit states (Table 7-2). -/
inductive UnitState where
  | off | out | resetting | probing | live | down
deriving DecidableEq, Repr

/-- The admin request held (Table 7-1). -/
inductive AdminRequest where
  | goIn | goOut
deriving DecidableEq, Repr

/-- An alarm filter (R113). -/
structure AlarmFilter where
  onset : Nat
  clear : Nat
  present : Bool
deriving DecidableEq, Repr

/-- Users and attaches of one carrier index in a STATUS (Table 6-3). -/
structure Figures where
  users : Nat
  attaches : Nat
deriving DecidableEq, Repr

/-- A unit record (Table 7-1). The filters stand in the order SUPPLY, AMPLIFIER, TEMP, ANTENNA;
`recovery` is the interval in seconds the running timer was started for. -/
structure UnitRecord where
  state : UnitState
  admin : AdminRequest
  guard : Bool
  recovery : Option Nat
  attempts : Nat
  exhausted : Bool
  filters : Bank 4 AlarmFilter
  silent : Bool
  garbled : Bool
  impaired : Bool
  lastAlarms : BitVec 4
  lastTime : BitVec 32
  lastFigures : Bank 4 Figures
deriving DecidableEq, Repr

/-! ## Steering Engine (chapter 8) -/

/-- A sector definition in force (R127). -/
structure SectorDef where
  members : BitVec 24
  neighbours : List SectorId
deriving DecidableEq, Repr

/-- A sector definition as its two words were loaded (R29). -/
structure SectorWords where
  d0 : Word
  d1 : Word
deriving DecidableEq, Repr

/-- Cell trends (Table 8-1). -/
inductive Trend where
  | inactive | neutral | over | under | dark
deriving DecidableEq, Repr

/-- A steering cell (Table 8-1). -/
structure Cell where
  trend : Trend
  streak : Nat
  offset : Int
  holding : Nat
  capacity : Nat
  load : Nat
  accumulator : Nat
  saturated : Bool
  lastAttaches : Nat
  surge : Bool
deriving DecidableEq, Repr

/-- A steering record (R128). `onAir` is the bandwidth code of the held tuning while on air. -/
structure SteeringRecord where
  operator : Option Operator
  onAir : Option Nat
  users : Nat
deriving DecidableEq, Repr

/-- The Steering Engine's state: definitions in force, words loaded by the sector reads, the 72
cells (sector-major), the steering records, and the epoch timer's period in units of 100 ms. -/
structure Steering where
  defs : Bank 12 SectorDef
  loaded : Bank 12 SectorWords
  cells : Bank 72 Cell
  records : Bank 96 SteeringRecord
  epochTimer : Option Nat
deriving DecidableEq, Repr

/-! ## Fault Reporter (chapter 9) -/

/-- A latch record (Table 9-2). -/
structure Latch where
  set : Bool
  acknowledged : Bool
  condition : Bool
  raised : Option (BitVec 16)
  alarms : BitVec 4
deriving DecidableEq, Repr

/-- The seven unit fault kinds, in kind order. -/
abbrev UnitKind := Fin 7

/-- Which of the 242 latches (R142). -/
inductive LatchId where
  | unit (n : UnitId) (k : UnitKind)
  | hole (n : SectorId) (k : Operator)
  | protection
  | lapse
deriving DecidableEq, Repr

/-- The protection detail (R13, R146). -/
structure ProtectionDetail where
  initiator : Initiator
  reason : RefusalReason
  kind : AccessKind
  address : ByteAddr
deriving DecidableEq, Repr

/-- Notice kinds (Table 9-3). -/
inductive NoticeKind where
  | raised | cleared | started | stopped | suppressed
deriving DecidableEq, Repr

/-- What a notice says, before it is numbered and timed: its kind, the latch of a RAISED or CLEARED
notice, and its detail. -/
structure NoticeBody where
  kind : NoticeKind
  latch : Option LatchId
  subject : BitVec 5
  operator : BitVec 3
  detail : BitVec 32
deriving DecidableEq, Repr

/-- A notice record (Table 9-3). The latch gives the fault kind. -/
structure Notice where
  sequence : BitVec 16
  time : BitVec 32
  body : NoticeBody
deriving DecidableEq, Repr

/-- The Fault Reporter's state. The unit latches stand unit by unit, seven a unit; the HOLE latches
sector by sector, six a sector. `lapseTimer` is the period in seconds the running timer was
started for. -/
structure Faults where
  unitLatches : Bank 168 Latch
  holeLatches : Bank 72 Latch
  protection : Latch
  lapse : Latch
  detail : ProtectionDetail
  queue : List Notice
  sequence : BitVec 16
  suppressed : Nat
  producer : Nat
  consumer : Nat
  ringSize : Nat
  ringBase : ByteAddr
  depositFault : Bool
  lapseTimer : Option Nat
deriving DecidableEq, Repr

end Sys2Proof.Machine
end

