-- ==== Sys2Proof/Machine/Reset.lean ====
section
/-! DEFINITION. The values each block takes at pin reset; most are taken again at service start. -/

namespace Sys2Proof.Machine

open Sys2Proof

/-- The default role table: initiator 0 CONTROLLER, the others NONE (R10). -/
def defaultRoles : Bank 8 Role :=
  Bank.tabulate fun i => if i = 0 then .controller else .none

/-- The Path Interpreter after pin reset, with the anchor sampled (R22). -/
def Path.afterReset (anchor : BitVec 8) : Path where
  anchor := anchor
  windows := none
  roles := defaultRoles
  entries := []
  upWaiting := []
  passingRun := 0
  ownPresented := none
  ownInFlight := none
  granted := []
  lastReturned := none

/-- Site Control after pin reset (R38). -/
def Site.afterReset : Site where
  mode := .config
  error := .none
  copy := Bank.fill 0
  time := 0
  owingBreaks := 0

/-- A post of zeros: TUNE on slot 0 with zero copies (Table 3-4). -/
def Post.afterReset : Post where
  mode := .tune
  slot := 0
  tuning := 0
  search := 0

/-- A stage after pin reset and at service start (Table 3-4). -/
def Stage.afterReset : Stage where
  front := Post.afterReset
  back := none
  pending := false
  lastOutcome := .none
  lastSlot := 0
  serial := 0

/-- Request Stages after pin reset and at service start: stage 6 served last (R52). -/
def Stages.afterReset : Stages where
  bank := Bank.fill Stage.afterReset
  lastServed := 5

/-- The zero search summary (R87). -/
def SearchSummary.zero : SearchSummary where
  candidate := 0
  lastLevel := 0
  steps := 0

/-- A carrier context after pin reset and at service start (Table 4-8, R88). -/
def Context.afterReset : Context where
  state := .vacant
  owner := none
  requested := none
  held := none
  search := none
  bandLimit := false
  ready := false
  outcome := .none
  reason := 0
  summary := SearchSummary.zero
  orphan := false
  deferred := none

/-- Carrier Control after pin reset and at service start (R74). -/
def Carriers.afterReset : Carriers where
  contexts := Bank.fill Context.afterReset
  occupancy := Bank.fill []
  changed := Bank.fill 0

/-- Link counters at zero (R108). -/
def Counters.zero : Counters where
  framing := 0
  noise := 0
  check := 0
  stray := 0
  resends := 0
  timeouts := 0

/-- A unit link after pin reset and at service start (R108, R109). -/
def Link.afterReset : Link where
  tx := .idle
  breakRequest := false
  txFrame := []
  line := .ready
  rx := .hunt
  buffer := []
  queue := []
  inFlight := none
  replyTimer := none
  nextTag := 0
  counters := Counters.zero
  errorWindow := 0

/-- A filter with its runs at 0 and its condition released (R113). -/
def AlarmFilter.afterReset : AlarmFilter where
  onset := 0
  clear := 0
  present := false

/-- A unit record after pin reset and at service start (Table 7-3). -/
def UnitRecord.afterReset : UnitRecord where
  state := .off
  admin := .goIn
  guard := false
  recovery := none
  attempts := 0
  exhausted := false
  filters := Bank.fill AlarmFilter.afterReset
  silent := false
  garbled := false
  impaired := false
  lastAlarms := 0
  lastTime := 0
  lastFigures := Bank.fill ⟨0, 0⟩

/-- A definition with no members and no neighbours (Table 8-3). -/
def SectorDef.empty : SectorDef where
  members := 0
  neighbours := []

/-- An INACTIVE cell with every figure zero (Table 8-3). -/
def Cell.afterReset : Cell where
  trend := .inactive
  streak := 0
  offset := 0
  holding := 0
  capacity := 0
  load := 0
  accumulator := 0
  saturated := false
  lastAttaches := 0
  surge := false

/-- A steering record of no operator (Table 8-3). -/
def SteeringRecord.afterReset : SteeringRecord where
  operator := none
  onAir := none
  users := 0

/-- The Steering Engine after pin reset (Table 8-3). -/
def Steering.afterReset : Steering where
  defs := Bank.fill SectorDef.empty
  loaded := Bank.fill ⟨0, 0⟩
  cells := Bank.fill Cell.afterReset
  records := Bank.fill SteeringRecord.afterReset
  epochTimer := none

/-- A clear latch with its condition released (Table 9-4). -/
def Latch.afterReset : Latch where
  set := false
  acknowledged := false
  condition := false
  raised := none
  alarms := 0

/-- The protection detail after pin reset and at service start (Table 9-4). -/
def ProtectionDetail.afterReset : ProtectionDetail where
  initiator := 0
  reason := .span
  kind := .read
  address := 0

/-- The Fault Reporter after pin reset (Table 9-4). The ring base is a DESIGN CHOICE (log 6). -/
def Faults.afterReset : Faults where
  unitLatches := Bank.fill Latch.afterReset
  holeLatches := Bank.fill Latch.afterReset
  protection := Latch.afterReset
  lapse := Latch.afterReset
  detail := ProtectionDetail.afterReset
  queue := []
  sequence := 0
  suppressed := 0
  producer := 0
  consumer := 0
  ringSize := 16
  ringBase := 0
  depositFault := false
  lapseTimer := none

end Sys2Proof.Machine
end

