-- ==== Sys2Proof/Machine/State.lean ====
section
/-! DEFINITION. The state of the part: the eight blocks' data, and the queue of commands that wait. -/

namespace Sys2Proof.Machine

open Sys2Proof

/-- The state of the Jeckor 640 with the commands waiting, oldest first. `linkRate` is the rate code
taken at the last service start (R89, R109); `pollTimer` is the period of the site poll timer in
units of 10 ms while it runs (R110). -/
structure State where
  pending : List Instr
  path : Path
  site : Site
  stages : Stages
  carriers : Carriers
  links : Bank 24 Link
  linkRate : Byte
  units : Bank 24 UnitRecord
  pollTimer : Option Nat
  steering : Steering
  faults : Faults
deriving DecidableEq, Repr

/-- The part never stops with a fault: every event the spec describes has an effect, and what the
spec calls a fault is state of the Fault Reporter or an answer on a bus. So there is no constructor. -/
inductive Fault where
deriving DecidableEq, Repr

/-- Why a command has no meaning. -/
inductive Refusal where
  /-- Raised by an arm of `exec` whose row has no meaning yet; no arm is left that raises it. Safe. -/
  | notModelled (mnemonic : String)
deriving DecidableEq, Repr

/-- The part after pin reset with the straps `anchor`, and `pending` still waiting (R22, R38, R52,
R74, R88, R108, R126, R141, R161). The link rate code is a DESIGN CHOICE (log 6). -/
def State.afterPinReset (anchor : BitVec 8) (pending : List Instr) : State where
  pending := pending
  path := Path.afterReset anchor
  site := Site.afterReset
  stages := Stages.afterReset
  carriers := Carriers.afterReset
  links := Bank.fill Link.afterReset
  linkRate := 0
  units := Bank.fill UnitRecord.afterReset
  pollTimer := none
  steering := Steering.afterReset
  faults := Faults.afterReset

/-- The part right after reset, with no command waiting. The sampled anchor is a DESIGN CHOICE
(log 5): the straps are not the part's. -/
def State.reset : State := State.afterPinReset 0 []

end Sys2Proof.Machine
end

