-- ==== Sys2Proof/Machine/Operands.lean ====
section
/-! DEFINITION. The operand forms: fields of window words, byte enables, requests, posts, sampled
characters and intervals, and the code numbers of Table 10-1. -/

namespace Sys2Proof.Machine

open Sys2Proof

/-! ## Fields of a word (chapter 10) -/

/-- The value of the `width` bits of `w` that start at bit `lo`. -/
def field (w : Word) (lo width : Nat) : Nat := w.toNat / 2 ^ lo % 2 ^ width

/-- Bit `i` of a word, as a flag (set at 1). -/
def flag (w : Word) (i : Nat) : Bool := w.getLsbD i

/-- A field placed in a word: its lowest bit, its width and its value. -/
structure Placed where
  lo : Nat
  width : Nat
  value : Nat

/-- The word with the given fields and 0 in every unused position (R162). -/
def pack (fields : List Placed) : Word :=
  BitVec.ofNat 64 (fields.foldr (fun p rest => p.value % 2 ^ p.width * 2 ^ p.lo + rest) 0)

/-- The mask of the bytes named by a set of byte enables: byte `i` is bits 8i + 7 to 8i. -/
def byteMask (enables : BitVec 8) : Word :=
  (List.range 8).foldl (fun m i => if enables.getLsbD i then m ||| (0xFF#64 <<< (8 * i)) else m) 0

/-- `old` with the bytes of `new` under set enables (R7, R18). -/
def mergeBytes (old new : Word) (enables : BitVec 8) : Word :=
  (old &&& ~~~ byteMask enables) ||| (new &&& byteMask enables)

/-- All eight byte enables set. -/
def allEnables : BitVec 8 := 0xFF#8

/-! ## Codes (Table 10-1) -/

/-- Service mode codes. -/
def Mode.code : Mode → Nat
  | .config => 0 | .starting => 1 | .serving => 2 | .hold => 3 | .stopping => 4

/-- Descriptor error codes. -/
def ErrorCode.code : ErrorCode → Nat
  | .none => 0 | .loadFault => 1 | .abandoned => 2 | .badWindow => 3 | .badCount => 4
  | .badBand => 5 | .badRole => 6 | .badSector => 7 | .badTuning => 8

/-- The role a code of w10 stands for; 9 to 15 are undefined. -/
def Role.ofCode (n : Nat) : Option Role :=
  if n = 0 then some .none
  else if n = 7 then some .observer
  else if n = 8 then some .controller
  else if h : n - 1 < 6 then some (.operator ⟨n - 1, h⟩)
  else none

/-- Outcome codes. -/
def Outcome.code : Outcome → Nat
  | .none => 0 | .accepted => 1 | .done => 2 | .released => 3 | .noClear => 4 | .unitReject => 5
  | .badSlot => 6 | .notOwner => 7 | .slotBusy => 8 | .unitDown => 9 | .linkPoor => 10
  | .badField => 11 | .outOfRange => 12 | .outOfBand => 13 | .overlap => 14 | .notServing => 15

/-- Carrier state codes. -/
def CarrierState.code : CarrierState → Nat
  | .vacant => 0 | .searching => 1 | .waiting => 2 | .tuning => 3 | .onAir => 4 | .releasing => 5
  | .suspended => 6

/-- Unit state codes. -/
def UnitState.code : UnitState → Nat
  | .off => 0 | .out => 1 | .resetting => 2 | .probing => 3 | .live => 4 | .down => 5

/-- Cell trend codes. -/
def Trend.code : Trend → Nat
  | .inactive => 0 | .neutral => 1 | .over => 2 | .under => 3 | .dark => 4

/-- Fault kind codes, in kind order. -/
def FaultKind.code : FaultKind → Nat
  | .supply => 0 | .amplifier => 1 | .temp => 2 | .antenna => 3 | .silent => 4 | .garbled => 5
  | .restart => 6 | .hole => 7 | .protection => 8 | .lapse => 9

/-- Notice kind codes. -/
def NoticeKind.code : NoticeKind → Nat
  | .raised => 1 | .cleared => 2 | .started => 3 | .stopped => 4 | .suppressed => 5

/-- Refusal reason codes. -/
def RefusalReason.code : RefusalReason → Nat
  | .span => 0 | .role => 1 | .wordClass => 2

/-- Access kind codes. -/
def AccessKind.code : AccessKind → Nat
  | .read => 0 | .write => 1

/-- Command kind codes. -/
def Command.code : Command → Nat
  | .tune .. => 1 | .drop .. => 2 | .scan .. => 3 | .poll => 4

/-- Operator fields hold 0 for none and 1 to 6 for operators. -/
def operatorCode : Option Operator → Nat
  | none => 0
  | some k => k.val + 1

/-- Post mode codes (Table 10-5). -/
def PostMode.code : PostMode → Nat
  | .tune => 0 | .search => 1 | .release => 2

/-- The post mode a code of s2 stands for; 3 is undefined (Table 10-5). -/
def PostMode.ofCode (n : Nat) : Option PostMode :=
  if n = 0 then some .tune else if n = 1 then some .search else if n = 2 then some .release else none

/-- Direction code of s1 (Table 10-5). -/
def Direction.ofFlag (down : Bool) : Direction := if down then .down else .up

/-! ## Requests (section 1.1) -/

end Sys2Proof.Machine

namespace Sys2Proof

open Sys2Proof.Machine

/-- READ or WRITE. -/
def Request.kind (r : Request) : AccessKind :=
  match r.body with
  | .read _ => .read
  | .write _ => .write

/-- The number of beats. -/
def Request.length (r : Request) : Nat :=
  match r.body with
  | .read n => n
  | .write beats => beats.length

/-- The beats of a WRITE; a READ carries none. -/
def Request.beats (r : Request) : List Beat :=
  match r.body with
  | .read _ => []
  | .write beats => beats

/-- The byte address of beat `i`: the request address plus 8i. -/
def Request.beatAddress (r : Request) (i : Nat) : Nat := 8 * (r.address.toNat + i)

/-- The byte address of a request. -/
def Request.byteAddress (r : Request) : ByteAddr := BitVec.ofNat 32 (8 * r.address.toNat)

end Sys2Proof

namespace Sys2Proof.Machine

open Sys2Proof

/-! ## Posts (Table 10-5) -/

/-- The tuning a post carries: channel, bandwidth code and power of s0. -/
def Post.tuningFields (p : Post) : Tuning where
  channel := BitVec.ofNat 16 (field p.tuning 0 16)
  bandwidth := BitVec.ofNat 8 (field p.tuning 16 8)
  power := BitVec.ofNat 8 (field p.tuning 24 8)

/-- The start channel of s1. -/
def Post.startChannel (p : Post) : BitVec 16 := BitVec.ofNat 16 (field p.search 0 16)

/-- The direction of s1. -/
def Post.direction (p : Post) : Direction := Direction.ofFlag (flag p.search 16)

/-- The step of s1. -/
def Post.step (p : Post) : Nat := field p.search 24 8

/-- The stop level of s1. -/
def Post.stopLevel (p : Post) : Nat := field p.search 32 4

/-- The mode code the stored post fields would hold after a write of s2 (R41): byte 0 decides. -/
def Post.modeAfter (p : Post) (b : Beat) : Nat :=
  if b.enables.getLsbD 0 then field b.data 0 2 else p.mode.code

/-- The stored post fields with the enabled bytes of a write of s2 (R41): the mode is in byte 0 and
the slot in byte 1. -/
def Post.store (p : Post) (b : Beat) : Post :=
  { p with
    mode := (PostMode.ofCode (p.modeAfter b)).getD p.mode
    slot := if b.enables.getLsbD 1 then BitVec.ofNat 8 (field b.data 8 8) else p.slot }

/-- The slot a slot value names, if there is one. -/
def slotOfValue (v : Byte) : Option SlotId := if h : v.toNat < 96 then some ⟨v.toNat, h⟩ else none

/-! ## Slots and units (R54) -/

/-- The unit a slot lies on. -/
def slotUnit (n : SlotId) : UnitId := ⟨n.val / 4, by omega⟩

/-- The carrier index of a slot on its unit. -/
def slotIndex (n : SlotId) : CarrierIndex := ⟨n.val % 4, by omega⟩

/-- The slot at a carrier index of a unit. -/
def slotAt (u : UnitId) (i : CarrierIndex) : SlotId := ⟨4 * u.val + i.val, by omega⟩

/-- The four slots of a unit, in ascending order. -/
def unitSlots (u : UnitId) : List SlotId := [slotAt u 0, slotAt u 1, slotAt u 2, slotAt u 3]

/-! ## Intervals (section 4.2 of 00_scope) -/

/-- The interval of a centre channel and a bandwidth code: channel − 25b up to but not including
channel + 25b, on whole numbers. -/
def intervalOf (channel : Int) (bandwidth : Byte) : Interval where
  low := channel - 25 * bandwidth.toNat
  high := channel + 25 * bandwidth.toNat

/-- The interval of a tuning. -/
def Tuning.interval (t : Tuning) : Interval := intervalOf t.channel.toNat t.bandwidth

/-- Two intervals share at least one raster step. -/
def Interval.overlaps (a b : Interval) : Bool :=
  decide (max a.low b.low < min a.high b.high)

/-- An interval lies inside a band or range from `low` to `high`. -/
def Interval.inside (a : Interval) (low high : Nat) : Bool :=
  decide ((low : Int) ≤ a.low ∧ a.high ≤ (high : Int))

/-! ## Characters (R90, R101) -/

/-- The bit the majority of three samples gives. -/
def majority (b : BitVec 3) : Bool :=
  (b.getLsbD 0 && b.getLsbD 1) || (b.getLsbD 0 && b.getLsbD 2) || (b.getLsbD 1 && b.getLsbD 2)

/-- The three samples do not all agree. -/
def unsteady (b : BitVec 3) : Bool := b != 0#3 && b != 7#3

/-- What a received character is (R101). -/
inductive Character where
  | falseStart
  | breakCharacter
  | noisy
  | framing
  | good (head : Bool) (data : Byte)
deriving DecidableEq, Repr

/-- The data byte of a character: least significant bit first (R90). -/
def dataByte (c : Samples) : Byte :=
  (List.range 8).foldl
    (fun b i => if majority (c.get (Fin.ofNat 11 (i + 1))) then b ||| (1#8 <<< i) else b) 0

/-- The mark bit of a character: 1 for a head character (R90). -/
def markBit (c : Samples) : Bool := majority (c.get 9)

/-- The stop bit of a character (R90). -/
def stopBit (c : Samples) : Bool := majority (c.get 10)

/-- The first class of R101 that applies to a sampled character. A false start is none of them. -/
def classify (c : Samples) : Character :=
  if majority (c.get 0) then .falseStart
  else if !stopBit c && !markBit c && dataByte c == 0 then .breakCharacter
  else if (List.finRange 11).any fun i => unsteady (c.get i) then .noisy
  else if !stopBit c then .framing
  else .good (markBit c) (dataByte c)

/-- A character as the part sends it (R90): the start bit 0, the data bits least significant first,
the mark bit, 1 in a head character and 0 in a body character, and the stop bit 1. -/
def sentCharacter (head : Bool) (data : Byte) : LineCharacter :=
  1#1 ++ BitVec.ofBool head ++ data ++ 0#1

/-- A character received as it was sent: every sample shows its bit. -/
def cleanSamples (head : Bool) (data : Byte) : Samples :=
  Bank.tabulate fun i => if (sentCharacter head data).getLsbD i.val then 7#3 else 0#3

end Sys2Proof.Machine
end

