-- ==== Sys2Proof/Machine/Ops.lean ====
section
/-! DEFINITION. The named updates of State, one for each block and each banked record, and the
counting, folding and clock-free timer operations the blocks share. -/

namespace Sys2Proof.Machine

open Sys2Proof

/-! ## Counting -/

/-- A counter that increases by one and stops at `top`. -/
def countUp (top n : Nat) : Nat := if n < top then n + 1 else n

/-! ## Updates of State, block by block -/

/-- The state with another command queue. -/
def State.setPending (s : State) (x : List Instr) : State := { s with pending := x }

/-- The state with another Path Interpreter. -/
def State.setPath (s : State) (x : Path) : State := { s with path := x }

/-- The state with another Site Control. -/
def State.setSite (s : State) (x : Site) : State := { s with site := x }

/-- The state with other Request Stages. -/
def State.setStages (s : State) (x : Stages) : State := { s with stages := x }

/-- The state with another Carrier Control. -/
def State.setCarriers (s : State) (x : Carriers) : State := { s with carriers := x }

/-- The state with other unit links. -/
def State.setLinks (s : State) (x : Bank 24 Link) : State := { s with links := x }

/-- The state with another link rate code. -/
def State.setLinkRate (s : State) (x : Byte) : State := { s with linkRate := x }

/-- The state with other unit records. -/
def State.setUnits (s : State) (x : Bank 24 UnitRecord) : State := { s with units := x }

/-- The state with another site poll timer. -/
def State.setPollTimer (s : State) (x : Option Nat) : State := { s with pollTimer := x }

/-- The state with another Steering Engine. -/
def State.setSteering (s : State) (x : Steering) : State := { s with steering := x }

/-- The state with another Fault Reporter. -/
def State.setFaults (s : State) (x : Faults) : State := { s with faults := x }

/-! ## Banked records -/

/-- The link of a unit. -/
def State.link (s : State) (n : UnitId) : Link := s.links.get n

/-- The state with one link changed by `f`. -/
def State.onLink (s : State) (n : UnitId) (f : Link → Link) : State :=
  s.setLinks (s.links.put n (f (s.link n)))

/-- The record of a unit. -/
def State.unit (s : State) (u : UnitId) : UnitRecord := s.units.get u

/-- The state with one unit record changed by `f`. -/
def State.onUnit (s : State) (u : UnitId) (f : UnitRecord → UnitRecord) : State :=
  s.setUnits (s.units.put u (f (s.unit u)))

/-- The stage of an operator. -/
def State.stage (s : State) (k : Operator) : Stage := s.stages.bank.get k

/-- The state with one stage replaced. -/
def State.setStage (s : State) (k : Operator) (g : Stage) : State :=
  s.setStages { s.stages with bank := s.stages.bank.put k g }

/-- The context of a slot. -/
def State.context (s : State) (n : SlotId) : Context := s.carriers.contexts.get n

/-- The state with the service mode changed. -/
def State.setMode (s : State) (m : Mode) : State := s.setSite { s.site with mode := m }

/-- SERVING or HOLD: the part is in service (Table 2-1). -/
def Mode.inService : Mode → Bool
  | .serving => true
  | .hold => true
  | _ => false

/-- SERVING, HOLD or STOPPING: the six windows are interpreted (R4), site time counts (R36), and
deposits are made (R153). -/
def Mode.windowsUp : Mode → Bool
  | .serving => true
  | .hold => true
  | .stopping => true
  | _ => false

/-! ## The descriptor copy (chapter 10, Tables 10-3 and 10-4) -/

/-- Descriptor word w(5 + i) of Site Control's copy. -/
def State.copyWord (s : State) (i : Fin 17) : Word := s.site.copy.get i

/-- Stage base, w5. -/
def Site.stageBase (t : Site) : Nat := field (t.copy.get 0) 0 32

/-- Carrier base, w5. -/
def Site.carrierBase (t : Site) : Nat := field (t.copy.get 0) 32 32

/-- Unit base, w6. -/
def Site.unitBase (t : Site) : Nat := field (t.copy.get 1) 0 32

/-- Sector base, w6. -/
def Site.sectorBase (t : Site) : Nat := field (t.copy.get 1) 32 32

/-- Ring base, w7. -/
def Site.ringBase (t : Site) : Nat := field (t.copy.get 2) 0 32

/-- Ring size code, w7. -/
def Site.ringSizeCode (t : Site) : Nat := field (t.copy.get 2) 32 3

/-- The number of ring entries a size code gives: 16 × 2 raised to the code (R152). -/
def ringEntries (code : Nat) : Nat := 16 * 2 ^ code

/-- Unit count, w8. -/
def Site.unitCount (t : Site) : Nat := field (t.copy.get 3) 0 8

/-- Sector count, w8. -/
def Site.sectorCount (t : Site) : Nat := field (t.copy.get 3) 8 8

/-- Operator count, w8. -/
def Site.operatorCount (t : Site) : Nat := field (t.copy.get 3) 16 8

/-- Link rate code, w8. -/
def Site.linkRateCode (t : Site) : Nat := field (t.copy.get 3) 24 8

/-- Tuning range low channel, w9. -/
def Site.rangeLow (t : Site) : Nat := field (t.copy.get 4) 0 16

/-- Tuning range high channel, w9. -/
def Site.rangeHigh (t : Site) : Nat := field (t.copy.get 4) 16 16

/-- Unit maximum power in dBm, w9. -/
def Site.maxPower (t : Site) : Nat := field (t.copy.get 4) 32 8

/-- The role code of an initiator, w10. -/
def Site.roleCode (t : Site) (i : Initiator) : Nat := field (t.copy.get 5) (4 * i.val) 4

/-- The word that holds an operator's band, w11 to w16. -/
def Site.bandWord (t : Site) (k : Operator) : Word := t.copy.get ⟨6 + k.val, by omega⟩

/-- Low edge of an operator's band. -/
def Site.bandLow (t : Site) (k : Operator) : Nat := field (t.bandWord k) 0 16

/-- High edge of an operator's band. -/
def Site.bandHigh (t : Site) (k : Operator) : Nat := field (t.bandWord k) 16 16

/-- Epoch length in units of 100 ms, w17. -/
def Site.epochLength (t : Site) : Nat := field (t.copy.get 12) 0 8

/-- Poll interval in units of 10 ms, w17. -/
def Site.pollInterval (t : Site) : Nat := field (t.copy.get 12) 8 8

/-- Reply timeout in milliseconds, w17. -/
def Site.replyTimeout (t : Site) : Nat := field (t.copy.get 12) 16 8

/-- Recovery interval in seconds, w17. -/
def Site.recoveryInterval (t : Site) : Nat := field (t.copy.get 12) 24 8

/-- Recovery attempt limit, w18. -/
def Site.attemptLimit (t : Site) : Nat := field (t.copy.get 13) 0 4

/-- Lapse period in seconds, w18. -/
def Site.lapsePeriod (t : Site) : Nat := field (t.copy.get 13) 8 8

/-- Garble threshold, w18. -/
def Site.garbleThreshold (t : Site) : Nat := field (t.copy.get 13) 16 8

/-- High mark, w19. -/
def Site.highMark (t : Site) : Nat := field (t.copy.get 14) 0 8

/-- Low mark, w19. -/
def Site.lowMark (t : Site) : Nat := field (t.copy.get 14) 8 8

/-- Persistence, w19. -/
def Site.persistence (t : Site) : Nat := field (t.copy.get 14) 16 4

/-- Surge mark, w19. -/
def Site.surgeMark (t : Site) : Nat := field (t.copy.get 14) 24 8

/-- FAULT MODES, w20. -/
def Site.faultModes (t : Site) : Word := t.copy.get 15

/-- Onset count of an alarm, w21. -/
def Site.onsetCount (t : Site) (a : Fin 4) : Nat := field (t.copy.get 16) (8 * a.val) 4

/-- Clear count of an alarm, w21. -/
def Site.clearCount (t : Site) (a : Fin 4) : Nat := field (t.copy.get 16) (8 * a.val + 4) 4

end Sys2Proof.Machine
end

