-- ==== Sys2Proof/Machine/Flags.lean ====
section
/-! DEFINITION. The flags the site controller sees: the fault latches with their modes,
acknowledgement and release, the notices they produce, and the attention line. -/

namespace Sys2Proof.Machine

open Sys2Proof

/-! ## Which latch -/

/-- The fault kind of a unit kind, in kind order. -/
def unitFaultKind (k : UnitKind) : FaultKind :=
  match k with
  | 0 => .supply
  | 1 => .amplifier
  | 2 => .temp
  | 3 => .antenna
  | 4 => .silent
  | 5 => .garbled
  | _ => .restart

/-- The fault kind of a latch. -/
def LatchId.kind : LatchId → FaultKind
  | .unit _ k => unitFaultKind k
  | .hole _ _ => .hole
  | .protection => .protection
  | .lapse => .lapse

/-- The subject of a latch's notices but PROTECTION's: unit number, sector number, 0 (Table 9-3). -/
def LatchId.subject : LatchId → BitVec 5
  | .unit n _ => BitVec.ofNat 5 n.val
  | .hole n _ => BitVec.ofNat 5 n.val
  | .protection => 0
  | .lapse => 0

/-- The operator of a latch's notices: 1 to 6 for HOLE, 0 otherwise (Table 9-3). -/
def LatchId.operator : LatchId → BitVec 3
  | .hole _ k => BitVec.ofNat 3 (k.val + 1)
  | _ => 0

/-- The place of a unit latch. -/
def unitLatchPlace (n : UnitId) (k : UnitKind) : Fin 168 := ⟨7 * n.val + k.val, by omega⟩

/-- The place of a sector and operator pair, sector by sector. -/
def cellPlace (n : SectorId) (k : Operator) : Fin 72 := ⟨6 * n.val + k.val, by omega⟩

/-- A latch's record (Table 9-2). -/
def Faults.latch (f : Faults) : LatchId → Latch
  | .unit n k => f.unitLatches.get (unitLatchPlace n k)
  | .hole n k => f.holeLatches.get (cellPlace n k)
  | .protection => f.protection
  | .lapse => f.lapse

/-- The Fault Reporter with one latch replaced. -/
def Faults.setLatch (f : Faults) (id : LatchId) (l : Latch) : Faults :=
  match id with
  | .unit n k => { f with unitLatches := f.unitLatches.put (unitLatchPlace n k) l }
  | .hole n k => { f with holeLatches := f.holeLatches.put (cellPlace n k) l }
  | .protection => { f with protection := l }
  | .lapse => { f with lapse := l }

/-- The latches of a kind, in ascending subject (R148). -/
def latchesOf (k : FaultKind) : List LatchId :=
  let ofUnits (j : UnitKind) := (List.finRange 24).map fun n => LatchId.unit n j
  match k with
  | .supply => ofUnits 0
  | .amplifier => ofUnits 1
  | .temp => ofUnits 2
  | .antenna => ofUnits 3
  | .silent => ofUnits 4
  | .garbled => ofUnits 5
  | .restart => ofUnits 6
  | .hole => (List.finRange 12).flatMap fun n => (List.finRange 6).map fun j => LatchId.hole n j
  | .protection => [.protection]
  | .lapse => [.lapse]

/-! ## Modes and masks (w20) -/

/-- A momentary kind has no release and acts as EDGE whatever its mode (R145). -/
def FaultKind.momentary : FaultKind → Bool
  | .restart => true
  | .protection => true
  | _ => false

/-- What the Fault Reporter reads of the rest of the part at an event: the mode, the live copy of
w20, and site time. -/
structure FaultView where
  mode : Mode
  modes : Word
  time : BitVec 32

/-- The Fault Reporter's view of a state. -/
def State.faultView (s : State) : FaultView where
  mode := s.site.mode
  modes := s.site.faultModes
  time := s.site.time

/-- The kind's mode in w20 is HELD (Table 10-4). -/
def FaultView.isHeld (v : FaultView) (k : FaultKind) : Bool := flag v.modes k.code

/-- The kind's report mask is on (Table 10-4). -/
def FaultView.masked (v : FaultView) (k : FaultKind) : Bool := flag v.modes (16 + k.code)

/-- The kind's latches act as R145 gives: HELD and not momentary. -/
def FaultView.actsHeld (v : FaultView) (k : FaultKind) : Bool := v.isHeld k && !k.momentary

/-! ## Notices (section 9.4) -/

/-- A notice joins the tail of the queue with the next number (R150). -/
def Faults.enqueue (v : FaultView) (body : NoticeBody) (f : Faults) : Faults :=
  { f with
    queue := f.queue ++ [⟨f.sequence, v.time, body⟩]
    sequence := f.sequence + 1 }

/-- The SUPPRESSED notice: its detail is the count it reports (R149). -/
def suppressedBody (count : Nat) : NoticeBody where
  kind := .suppressed
  latch := none
  subject := 0
  operator := 0
  detail := BitVec.ofNat 32 count

/-- A SUPPRESSED notice is queued and the count becomes 0 (R150, R151). -/
def Faults.enqueueSuppressed (v : FaultView) (f : Faults) : Faults :=
  { f.enqueue v (suppressedBody f.suppressed) with suppressed := 0 }

/-- The queue has a free place for the notice: one place, or two while notices have been
suppressed (R150). -/
def Faults.hasRoom (f : Faults) : Bool :=
  if f.suppressed = 0 then decide (f.queue.length < Config.noticeRoom)
  else decide (f.queue.length + 1 < Config.noticeRoom)

/-- A notice is produced: queued, queued behind a SUPPRESSED notice, or suppressed (R150). -/
def Faults.produce (v : FaultView) (body : NoticeBody) (f : Faults) : Faults :=
  if f.hasRoom then
    if f.suppressed = 0 then f.enqueue v body
    else (f.enqueueSuppressed v).enqueue v body
  else
    { f with
      suppressed := countUp Config.halfTop f.suppressed
      sequence := f.sequence + 1 }

/-- The number the next produced notice carries: the one after the SUPPRESSED notice's where one
goes ahead of it (R150). -/
def Faults.nextNumber (f : Faults) : BitVec 16 :=
  if f.hasRoom ∧ f.suppressed ≠ 0 then f.sequence + 1 else f.sequence

/-- A notice of a latch's change: RAISED or CLEARED with its subject and detail (R146, R149). -/
def Faults.latchBody (kind : NoticeKind) (id : LatchId) (f : Faults) : NoticeBody where
  kind := kind
  latch := some id
  subject := if id = .protection then BitVec.ofNat 5 f.detail.initiator.val else id.subject
  operator := id.operator
  detail :=
    match id.kind with
    | .protection => f.detail.address
    | .supply | .amplifier | .temp | .antenna => (f.latch id).alarms.setWidth 32
    | _ => 0

/-! ## Latch changes (section 9.2) -/

/-- A latch is set: a RAISED notice unless its kind is masked, whose number becomes the raised
number (R144, R145, R149). -/
def Faults.raise (v : FaultView) (id : LatchId) (f : Faults) : Faults :=
  let l := f.latch id
  if v.masked id.kind then
    f.setLatch id { l with set := true, acknowledged := false, raised := none }
  else
    (f.setLatch id
      { l with set := true, acknowledged := false, raised := some f.nextNumber }).produce v
        (f.latchBody .raised id)

/-- A latch and its mark are cleared: the raised number becomes none, and a latch that acts as HELD
gives a CLEARED notice unless masked (R144, R145, R149). -/
def Faults.clearLatch (v : FaultView) (id : LatchId) (f : Faults) : Faults :=
  let l := f.latch id
  let f' := f.setLatch id { l with set := false, acknowledged := false, raised := none }
  if v.actsHeld id.kind && !v.masked id.kind then f'.produce v (f.latchBody .cleared id) else f'

/-- One latch is acknowledged (R147), as R144 or R145 gives for its mode. -/
def Faults.acknowledge (v : FaultView) (id : LatchId) (f : Faults) : Faults :=
  let l := f.latch id
  if !l.set then f
  else if !v.actsHeld id.kind then f.clearLatch v id
  else if l.acknowledged then f
  else if l.condition then f.setLatch id { l with acknowledged := true }
  else f.clearLatch v id

/-- A condition's reported value is recorded in its latch, with the raw alarm set of an alarm
kind (R143). -/
def Faults.record (id : LatchId) (present : Bool) (alarms : Option (BitVec 4)) (f : Faults) :
    Faults :=
  let l := f.latch id
  f.setLatch id { l with condition := present, alarms := alarms.getD l.alarms }

/-- A report of a condition that is not momentary (R143): recorded, then the latch acts. A report
outside SERVING and HOLD changes nothing. -/
def Faults.report (v : FaultView) (id : LatchId) (present : Bool) (alarms : Option (BitVec 4))
    (f : Faults) : Faults :=
  if v.mode.inService then
    let f' := f.record id present alarms
    let l := f.latch id
    if present then
      if l.set then f' else f'.raise v id
    else if v.actsHeld id.kind && l.set && l.acknowledged then f'.clearLatch v id
    else f'
  else f

/-- A momentary trip of RESTART or PROTECTION (R143, R145). -/
def Faults.momentaryTrip (v : FaultView) (id : LatchId) (f : Faults) : Faults :=
  if v.mode.inService && !(f.latch id).set then f.raise v id else f

/-- A PROTECTION report: its detail is kept where it sets the latch (R146). -/
def Faults.tripProtection (v : FaultView) (d : ProtectionDetail) (f : Faults) : Faults :=
  if f.protection.set then f
  else if v.mode.inService then ({ f with detail := d }).momentaryTrip v .protection
  else f

/-! ## Changes of mode (R148) -/

/-- What a change of a kind from EDGE to HELD does to one of its latches: set as at a trip where
the condition is present and the latch clear; its mark cleared where it is set. -/
def Faults.toHeld (v : FaultView) (f : Faults) (id : LatchId) : Faults :=
  let l := f.latch id
  if l.set then f.setLatch id { l with acknowledged := false }
  else if l.condition then f.raise v id
  else f

/-- The ten kinds in kind order (Table 9-1). -/
def kindOrder : List FaultKind :=
  [.supply, .amplifier, .temp, .antenna, .silent, .garbled, .restart, .hole, .protection, .lapse]

/-- A write of w20 has been merged in service: each kind that is not momentary and went from EDGE
to HELD is treated, in kind order (R148). `v` sees the new modes. -/
def Faults.modesChanged (v : FaultView) (old : Word) (f : Faults) : Faults :=
  kindOrder.foldl
    (fun f k =>
      if v.actsHeld k && !flag old k.code then (latchesOf k).foldl (Faults.toHeld v) f else f)
    f

/-- Every latch cleared and every condition record released, with no notice (R34, stage 6). -/
def Latch.released (l : Latch) : Latch :=
  { l with set := false, acknowledged := false, condition := false, raised := none }

/-- The service stop's stage 6 at the Fault Reporter (R34, R161). -/
def Faults.releaseAll (f : Faults) : Faults :=
  { f with
    unitLatches := Bank.tabulate fun i => (f.unitLatches.get i).released
    holeLatches := Bank.tabulate fun i => (f.holeLatches.get i).released
    protection := f.protection.released
    lapse := f.lapse.released
    lapseTimer := none }

/-! ## The ring's occupancy (R152) -/

/-- The number of unconsumed entries: producer minus consumer, modulo S. -/
def Faults.unconsumed (f : Faults) : Nat :=
  (f.producer + f.ringSize - f.consumer) % f.ringSize

/-- The ring is empty when the two indices are equal. -/
def Faults.ringEmpty (f : Faults) : Bool := decide (f.producer = f.consumer)

/-- The ring is full when S − 1 entries are unconsumed. -/
def Faults.ringFull (f : Faults) : Bool := decide (f.unconsumed = f.ringSize - 1)

/-! ## The attention line (R37) -/

/-- ATTN_N is asserted, low, while the mode is SERVING, HOLD or STOPPING and the producer index
differs from the consumer index. -/
def State.attention (s : State) : Bool := s.site.mode.windowsUp && !s.faults.ringEmpty

end Sys2Proof.Machine
end

