-- ==== Sys2Proof/Machine/LinkOps.lean ====
section
/-! DEFINITION. The Link Engine's operations on one unit link: the command queue, emptying,
dispatch, frames, breaks, the receiver and the matching of replies (chapter 6). -/

namespace Sys2Proof.Machine

open Sys2Proof

/-! ## The command queue (section 6.4) -/

/-- The slot a command serves; none for a POLL. -/
def Command.slot : Command → Option SlotId
  | .tune n _ => some n
  | .drop n => some n
  | .scan n _ _ => some n
  | .poll => none

/-- A command joins the tail of the queue (R95). -/
def Link.enqueue (c : Command) (l : Link) : Link := { l with queue := l.queue ++ [c] }

/-- Supersede: the fields of the slot's queued TUNE are replaced in its place (R96). -/
def Link.supersede (n : SlotId) (t : Tuning) (l : Link) : Link :=
  { l with
    queue := l.queue.map fun c =>
      match c with
      | .tune m u => if m = n then .tune m t else .tune m u
      | c => c }

/-- Replace with a DROP: the slot's queued TUNE becomes a DROP in its place (R96). -/
def Link.replaceWithDrop (n : SlotId) (l : Link) : Link :=
  { l with
    queue := l.queue.map fun c =>
      match c with
      | .tune m u => if m = n then .drop m else .tune m u
      | c => c }

/-- Remove: the slot's queued command leaves the queue (R96). -/
def Link.remove (n : SlotId) (l : Link) : Link :=
  { l with queue := l.queue.filter fun c => c.slot != some n }

/-- The in-flight command is abandoned: no longer in flight, its timer stopped (R97). -/
def Link.abandon (l : Link) : Link := { l with inFlight := none, replyTimer := none }

/-- Full empty: every queued command leaves, and the in-flight command is abandoned (R97). -/
def Link.fullEmpty (l : Link) : Link := { l.abandon with queue := [] }

/-- Purge keeping the POLL: every queued command but a POLL leaves, and the in-flight command is
abandoned (R97). -/
def Link.purgeKeepingPoll (l : Link) : Link :=
  { l.abandon with queue := l.queue.filter fun c => c == .poll }

/-- A POLL is queued or in flight on the link. -/
def Link.hasPoll (l : Link) : Bool :=
  l.queue.contains .poll ||
    match l.inFlight with
    | some x => x.command == .poll
    | none => false

/-- A POLL is queued, unless one is queued or in flight there (R95, R118). -/
def Link.queuePoll (l : Link) : Link := if l.hasPoll then l else l.enqueue .poll

/-- The in-flight command is the slot's SCAN. -/
def Link.scanInFlight (n : SlotId) (l : Link) : Bool :=
  match l.inFlight with
  | some x =>
    match x.command with
    | .scan m _ _ => m == n
    | _ => false
  | none => false

/-! ## Breaks (R94) -/

/-- A break begins: request and error window count cleared, the in-flight command abandoned, the
rest of the frame not sent. -/
def Link.beginBreak (l : Link) : Link :=
  { l.abandon with tx := .sendingBreak, breakRequest := false, txFrame := [], errorWindow := 0 }

/-- A break is asked for: in IDLE it begins at once; in PREAMBLE and FRAME the request is set, and it
begins at the end of the character in progress; in BREAK the break in progress serves it. -/
def Link.askBreak (l : Link) : Link :=
  match l.tx with
  | .idle => l.beginBreak
  | .preamble => { l with breakRequest := true }
  | .frame => { l with breakRequest := true }
  | .sendingBreak => l

/-- The 22 bit times have passed. -/
def Link.endBreak (l : Link) : Link := { l with tx := .idle }

/-! ## Frames (R91, Table 10-10) -/

/-- The body bytes of a command's frame (Table 10-10): two-byte fields low byte first. -/
def Command.body : Command → List Byte
  | .tune n t =>
    [BitVec.ofNat 8 (slotIndex n).val, t.channel.setWidth 8, (t.channel >>> 8).setWidth 8,
      t.bandwidth, t.power]
  | .drop n => [BitVec.ofNat 8 (slotIndex n).val]
  | .scan _ ch b => [ch.setWidth 8, (ch >>> 8).setWidth 8, b]
  | .poll => []

/-- The head byte: the kind code times 16 plus the tag. -/
def headByte (kindCode : Nat) (tag : BitVec 4) : Byte := BitVec.ofNat 8 (kindCode * 16 + tag.toNat)

/-- The sum of bytes, modulo 256. -/
def byteSum (bytes : List Byte) : Byte := bytes.foldl (· + ·) 0

/-- A frame: head byte, body bytes, and the check byte that makes the sum a multiple of 256. -/
def frameBytes (kindCode : Nat) (tag : BitVec 4) (body : List Byte) : List Byte :=
  let front := headByte kindCode tag :: body
  front ++ [-(byteSum front)]

/-- The characters of a frame (R90, R91): its first byte is a head character's, and the others,
the check byte among them, are body characters'. -/
def frameCharacters : List Byte → List LineCharacter
  | [] => []
  | head :: rest => sentCharacter true head :: rest.map (sentCharacter false)

/-- The frame of the in-flight command, as it is sent. -/
def InFlight.frame (x : InFlight) : List LineCharacter :=
  frameCharacters (frameBytes x.command.code x.tag x.command.body)

/-- The transmitter leaves IDLE with a frame: the preamble first (R93). -/
def Link.beginFrame (x : InFlight) (l : Link) : Link :=
  { l with tx := .preamble, txFrame := x.frame }

/-! ## Dispatch (R98) -/

/-- The command the unit's state permits, and the queue without it: the head in LIVE, the POLL
wherever it stands in PROBING, none otherwise. -/
def permitted (u : UnitState) (queue : List Command) : Option (Command × List Command) :=
  match u with
  | .live =>
    match queue with
    | [] => none
    | c :: rest => some (c, rest)
  | .probing => if queue.contains .poll then some (.poll, queue.erase .poll) else none
  | _ => none

/-- The command a link would dispatch now, with the queue without it: nothing is in flight, the
transmitter is IDLE with no break request set, and the unit permits it. -/
def Link.dispatchable (u : UnitState) (l : Link) : Option (Command × List Command) :=
  if l.inFlight.isNone ∧ l.tx = .idle ∧ l.breakRequest = false then permitted u l.queue else none

/-- A command becomes the in-flight command with the next tag, and its frame begins. -/
def Link.dispatch (c : Command) (rest : List Command) (l : Link) : Link :=
  let x : InFlight := ⟨c, l.nextTag, false⟩
  ({ l with queue := rest, inFlight := some x, nextTag := l.nextTag + 1 }).beginFrame x

/-! ## The end of a frame and the reply timer (R93, R99, R100) -/

/-- The end of the check character: IDLE, and the reply timer starts if the frame's command is
still in flight. -/
def Link.frameEnded (timeout : Nat) (l : Link) : Link :=
  { l with
    tx := .idle
    txFrame := []
    replyTimer := if l.inFlight.isSome then some timeout else l.replyTimer }

/-- The end of the last character of a frame (R93, R94): the end of the send, or the beginning of the
break that has been asked for, which abandons the command and so starts no timer. -/
def Link.sendEnded (timeout : Nat) (l : Link) : Link :=
  if l.breakRequest then l.beginBreak else l.frameEnded timeout

/-- The end of a character in progress that is not a frame's last (R93, R94): the break that has been
asked for begins, whatever of the frame is left; otherwise a preamble is followed by the frame. -/
def Link.characterEnded (l : Link) : Link :=
  match l.tx with
  | .preamble => if l.breakRequest then l.beginBreak else { l with tx := .frame }
  | .frame => if l.breakRequest then l.beginBreak else l
  | .idle => l
  | .sendingBreak => l

/-- The bits of a character, in the order they are sent (R90). -/
def LineCharacter.bits (c : LineCharacter) : List Bool :=
  (List.range 11).map fun i => c.getLsbD i

/-- The idle line is 1 (R90). -/
def idleLevel : Bool := true

/-- What the transmitter sends on LTX in its state, bit by bit (R90, R93, R94): nothing in IDLE, one
character time of 1 as preamble, the characters of the frame back to back, and 22 bit times of 0 as
break. -/
def Link.sentBits (l : Link) : List Bool :=
  match l.tx with
  | .idle => []
  | .preamble => List.replicate 11 idleLevel
  | .frame => l.txFrame.flatMap LineCharacter.bits
  | .sendingBreak => List.replicate 22 false

/-- The level of LTX in bit time `i` of the transmitter's state: the bit it sends then, and where it sends
none, the level of the idle line, at which IDLE holds it (R90, R93). -/
def Link.lineLevel (l : Link) (i : Nat) : Bool := (l.sentBits[i]?).getD idleLevel

/-- The first expiry: the same frame is sent again with the same tag (R99). -/
def Link.resend (x : InFlight) (l : Link) : Link :=
  let y : InFlight := { x with resent := true }
  ({ l with
    inFlight := some y
    replyTimer := none
    counters := { l.counters with resends := countUp Config.byteTop l.counters.resends } }).beginFrame y

/-- The second expiry: the command is abandoned and counted (R100). -/
def Link.timeOut (l : Link) : Link :=
  { l.abandon with
    counters := { l.counters with timeouts := countUp Config.byteTop l.counters.timeouts } }

/-! ## The receiver (section 6.6) -/

/-- The discard classes (Table 6-5). -/
inductive DiscardClass where
  | noise | framing | check | stray
deriving DecidableEq, Repr

/-- One counter increased by one, stopping at 255 (R106). -/
def Counters.bump (d : DiscardClass) (c : Counters) : Counters :=
  match d with
  | .noise => { c with noise := countUp Config.byteTop c.noise }
  | .framing => { c with framing := countUp Config.byteTop c.framing }
  | .check => { c with check := countUp Config.byteTop c.check }
  | .stray => { c with stray := countUp Config.byteTop c.stray }

/-- The receiver counts discards in OUT, PROBING, LIVE and DOWN (R106). -/
def UnitState.counts : UnitState → Bool
  | .out => true
  | .probing => true
  | .live => true
  | .down => true
  | .off => false
  | .resetting => false

/-- One discard is counted, where the unit's state counts (R106). -/
def Link.discard (u : UnitState) (d : DiscardClass) (l : Link) : Link :=
  if u.counts then
    { l with
      counters := l.counters.bump d
      errorWindow := countUp Config.halfTop l.errorWindow }
  else l

/-- The kinds of reply frames (Table 6-3). -/
inductive ReplyKind where
  | tuned | dropped | level | status
deriving DecidableEq, Repr

/-- The reply kind a head byte's upper four bits name, if known (Table 6-3). -/
def ReplyKind.ofHead (b : Byte) : Option ReplyKind :=
  let code := b.toNat / 16
  if code = 9 then some .tuned
  else if code = 10 then some .dropped
  else if code = 11 then some .level
  else if code = 12 then some .status
  else none

/-- The number of body characters of a reply kind (Table 6-3). -/
def ReplyKind.bodyLength : ReplyKind → Nat
  | .tuned => 2
  | .dropped => 1
  | .level => 3
  | .status => 13

/-- The kind of the frame being collected. -/
def Link.collecting (l : Link) : Option ReplyKind :=
  match l.buffer with
  | [] => none
  | b :: _ => ReplyKind.ofHead b

/-- Every body byte is stored, so the next good body character is the check character (R102). -/
def Link.bodyComplete (l : Link) : Bool :=
  decide (l.rx = .body) &&
    match l.collecting with
    | some k => decide (l.buffer.length = k.bodyLength + 1)
    | none => false

/-- A good head character (R102): a known kind begins a frame, an earlier frame in BODY being
STRAY; an unknown kind is one STRAY and puts the receiver in SKIP. -/
def Link.takeHead (u : UnitState) (b : Byte) (l : Link) : Link :=
  if (ReplyKind.ofHead b).isSome then
    { (if l.rx = .body then l.discard u .stray else l) with rx := .body, buffer := [b] }
  else { l.discard u .stray with rx := .skip, buffer := [] }

/-- A good body character that completes no frame (R102). -/
def Link.takeBody (u : UnitState) (b : Byte) (l : Link) : Link :=
  match l.rx with
  | .body => { l with buffer := l.buffer ++ [b] }
  | .hunt => { l.discard u .stray with rx := .skip, buffer := [] }
  | .skip => l

/-- A noisy character or a framing error: one discard of its class, with the frame being
collected, and SKIP (R102). -/
def Link.damaged (u : UnitState) (d : DiscardClass) (l : Link) : Link :=
  { l.discard u d with rx := .skip, buffer := [] }

/-- A break at the receiver: the frame being collected is discarded uncounted, HUNT, and the line
settles (R101, R102). -/
def Link.receiveBreak (l : Link) : Link :=
  { l with rx := .hunt, buffer := [], line := .settling }

/-! ## Completed frames (R103, R104, R164) -/

/-- A reply as it is delivered (R104): the limits on levels and users applied. -/
inductive Reply where
  | tuned (slot : SlotId) (result : Byte)
  | dropped (slot : SlotId)
  | level (slot : SlotId) (level : Nat)
  | status (alarms : BitVec 4) (figures : Bank 4 Figures)
deriving DecidableEq, Repr

/-- Body byte `i` of the frame in the buffer. -/
def Link.bodyByte (l : Link) (i : Nat) : Byte := l.buffer.getD (i + 1) 0

/-- A two-byte field of the frame in the buffer, low byte first. -/
def Link.bodyPair (l : Link) (i : Nat) : Nat := (l.bodyByte i).toNat + 256 * (l.bodyByte (i + 1)).toNat

/-- The figures of a STATUS: users at most 1023, attaches as received (R104, R164). -/
def Link.statusFigures (l : Link) : Bank 4 Figures :=
  Bank.tabulate fun i =>
    { users := min 1023 (l.bodyPair (1 + 3 * i.val))
      attaches := (l.bodyByte (3 + 3 * i.val)).toNat }

/-- The tag of the frame in the buffer: the lower four bits of its head byte (R91). -/
def Link.frameTag (l : Link) : BitVec 4 := (l.buffer.getD 0 0).setWidth 4

/-- The reply the frame in the buffer is to the in-flight command: kind, tag, and carrier index or
channel all match (R103). -/
def Link.matched (l : Link) : Option Reply :=
  match l.inFlight with
  | none => none
  | some x =>
    if l.frameTag = x.tag then
      match l.collecting, x.command with
      | some .tuned, .tune n _ =>
        if (l.bodyByte 0).toNat = (slotIndex n).val then some (.tuned n (l.bodyByte 1)) else none
      | some .dropped, .drop n =>
        if (l.bodyByte 0).toNat = (slotIndex n).val then some (.dropped n) else none
      | some .level, .scan n ch _ =>
        if l.bodyPair 0 = ch.toNat then some (.level n (min 15 (l.bodyByte 2).toNat)) else none
      | some .status, .poll => some (.status ((l.bodyByte 0).setWidth 4) l.statusFigures)
      | _, _ => none
    else none

/-- What a completed frame is: discarded as CHECK or STRAY, or taken as a reply (R103). -/
inductive Judgement where
  | check
  | stray
  | taken (reply : Reply)
deriving DecidableEq, Repr

/-- The judgement of the frame in the buffer with its check byte (R103). -/
def Link.judge (check : Byte) (l : Link) : Judgement :=
  if byteSum (l.buffer ++ [check]) = 0 then
    match l.matched with
    | some r => .taken r
    | none => .stray
  else .check

/-- The judgement a received character completes a frame with, if it completes one: the line is
READY and the character is a good body character after the last body byte (R101 to R103). -/
def Link.completion (c : Samples) (l : Link) : Option Judgement :=
  if l.line = .ready ∧ l.bodyComplete = true then
    match classify c with
    | .good false b => some (l.judge b)
    | _ => none
  else none

/-- The receiver after a completed frame: HUNT, the buffer empty (R102). -/
def Link.frameDone (l : Link) : Link := { l with rx := .hunt, buffer := [] }

/-- The link after a taken frame: the in-flight command ends and its timer stops (R103). -/
def Link.replyTaken (l : Link) : Link := l.frameDone.abandon

end Sys2Proof.Machine
end

