-- ==== Sys2Proof/Machine/SteeringOps.lean ====
section
/-! DEFINITION. The Steering Engine's operations: sector definitions, steering records, cells and
their standing, and the epoch evaluation (chapter 8). -/

namespace Sys2Proof.Machine

open Sys2Proof

/-! ## Sector definitions (R127, Table 10-8) -/

/-- Neighbour entry `m` of d1, if its valid bit is set: the sector number written there. -/
def SectorWords.neighbourEntry (w : SectorWords) (m : Nat) : Option Nat :=
  if flag w.d1 (8 * m + 7) then some (field w.d1 (8 * m) 4) else none

/-- The valid neighbour entries, in order. -/
def SectorWords.neighbourNumbers (w : SectorWords) : List Nat :=
  (List.range 4).filterMap w.neighbourEntry

/-- The definition two loaded words stand for. -/
def SectorWords.definition (w : SectorWords) : SectorDef where
  members := w.d0.setWidth 24
  neighbours := w.neighbourNumbers.filterMap fun n => if h : n < 12 then some ⟨n, h⟩ else none

/-- The number of members of a sector. -/
def SectorDef.memberCount (d : SectorDef) : Nat :=
  ((List.range 24).filter fun u => d.members.getLsbD u).length

/-- The sector a unit belongs to, or none (R127). -/
def Steering.sectorOf (g : Steering) (u : UnitId) : Option SectorId :=
  (List.finRange 12).find? fun n => (g.defs.get n).members.getLsbD u.val

/-! ## Records and cells -/

/-- The cell of a sector and an operator. -/
def Steering.cell (g : Steering) (n : SectorId) (k : Operator) : Cell := g.cells.get (cellPlace n k)

/-- The Steering Engine with one cell changed by `f`. -/
def Steering.onCell (n : SectorId) (k : Operator) (f : Cell → Cell) (g : Steering) : Steering :=
  { g with cells := g.cells.put (cellPlace n k) (f (g.cell n k)) }

/-- The steering record of a slot. -/
def Steering.record (g : Steering) (n : SlotId) : SteeringRecord := g.records.get n

/-- The Steering Engine with one steering record changed by `f`. -/
def Steering.onRecord (n : SlotId) (f : SteeringRecord → SteeringRecord) (g : Steering) :
    Steering :=
  { g with records := g.records.put n (f (g.record n)) }

/-- A change to the cell of an operator in the sector the slot's unit belongs to, if it belongs to
one (R128). -/
def Steering.onSlotCell (n : SlotId) (k : Option Operator) (f : Cell → Cell) (g : Steering) :
    Steering :=
  match k, g.sectorOf (slotUnit n) with
  | some k, some d => g.onCell d k f
  | _, _ => g

/-- The weight of an ON-AIR carrier: twice its bandwidth code, or once while its unit is
impaired (R129). -/
def weight (impaired : Bool) (code : Nat) : Nat := if impaired then code else 2 * code

/-! ## Reports of Carrier Control (R72, R128) -/

/-- Operator gained a slot: operator set, holding count +1. -/
def Steering.gained (n : SlotId) (k : Operator) (g : Steering) : Steering :=
  (g.onRecord n fun r => { r with operator := some k }).onSlotCell n (some k) fun c =>
    { c with holding := c.holding + 1 }

/-- Operator lost a slot: operator cleared to none, holding count −1. -/
def Steering.lost (n : SlotId) (g : Steering) : Steering :=
  (g.onRecord n fun r => { r with operator := none }).onSlotCell n (g.record n).operator fun c =>
    { c with holding := c.holding - 1 }

/-- Carrier entered ON-AIR with a bandwidth code: its weight and its user figure are added. -/
def Steering.enteredOnAir (n : SlotId) (code : Nat) (impaired : Bool) (g : Steering) : Steering :=
  (g.onRecord n fun r => { r with onAir := some code }).onSlotCell n (g.record n).operator fun c =>
    { c with
      capacity := c.capacity + weight impaired code
      load := c.load + (g.record n).users }

/-- Carrier left ON-AIR: its weight and its user figure are removed. -/
def Steering.leftOnAir (n : SlotId) (impaired : Bool) (g : Steering) : Steering :=
  match (g.record n).onAir with
  | none => g
  | some code =>
    (g.onRecord n fun r => { r with onAir := none }).onSlotCell n (g.record n).operator fun c =>
      { c with
        capacity := c.capacity - weight impaired code
        load := c.load - (g.record n).users }

/-! ## Reports of the Unit Supervisor (R129, R131) -/

/-- One ON-AIR carrier's weight is recomputed for a changed impaired mark (R129). -/
def Steering.reweigh (impaired : Bool) (g : Steering) (n : SlotId) : Steering :=
  match (g.record n).onAir with
  | none => g
  | some code =>
    g.onSlotCell n (g.record n).operator fun c =>
      { c with capacity := c.capacity - weight (!impaired) code + weight impaired code }

/-- A unit's impaired mark has changed to `impaired` (R129). -/
def Steering.impairedChanged (u : UnitId) (impaired : Bool) (g : Steering) : Steering :=
  (unitSlots u).foldl (Steering.reweigh impaired) g

/-- A unit has left LIVE: the user figures of its four slots become 0 (R131). -/
def Steering.zeroFigures (u : UnitId) (g : Steering) : Steering :=
  (unitSlots u).foldl (fun g n => g.onRecord n fun r => { r with users := 0 }) g

/-! ## A STATUS (R130) -/

/-- Attaches join an accumulator: past 65535 it stops there and the saturation mark is set. -/
def Cell.addAttaches (a : Nat) (c : Cell) : Cell :=
  if c.saturated then c
  else if c.accumulator + a > Config.halfTop then
    { c with accumulator := Config.halfTop, saturated := true }
  else { c with accumulator := c.accumulator + a }

/-- One slot's part of a STATUS: its user figure, and where it is on air its cell's load and
attach accumulator (R130). -/
def Steering.slotStatus (n : SlotId) (x : Figures) (g : Steering) : Steering :=
  let r := g.record n
  let g' := g.onRecord n fun r => { r with users := x.users }
  if r.onAir.isSome then
    g'.onSlotCell n r.operator fun c =>
      ({ c with load := c.load - r.users + x.users }).addAttaches x.attaches
  else g'

/-- A STATUS is delivered to the Steering Engine (R130). -/
def Steering.status (u : UnitId) (figures : Bank 4 Figures) (g : Steering) : Steering :=
  (List.finRange 4).foldl (fun g i => g.slotStatus (slotAt u i) (figures.get i)) g

/-! ## Standing (R132, Table 8-2) -/

/-- The standing of a cell by its holding count and capacity (Table 8-2). -/
def Cell.settle (c : Cell) : Cell :=
  if c.capacity = 0 then
    if c.holding = 0 then
      if c.trend = .inactive then c
      else { c with trend := .inactive, offset := 0, streak := 0, surge := false }
    else if c.trend = .dark then c
    else { c with trend := .dark, offset := 7, streak := 0, surge := false }
  else
    match c.trend with
    | .dark => { c with trend := .neutral, streak := 0 }
    | .inactive => { c with trend := .neutral, offset := 0, streak := 0 }
    | _ => c

/-- The HOLE condition of a cell: present exactly while it is DARK (R132). -/
def Cell.hole (c : Cell) : Bool := decide (c.trend = .dark)

/-- One cell's standing after an event, and the report of a HOLE change it makes (R132, R133).
`before` is the Steering Engine before the event: a cell whose holding count and capacity the
event has not changed keeps its standing. -/
def decideCell (before : Steering) (s : State) (n : SectorId) (k : Operator) : State :=
  let old := before.cell n k
  let now := s.steering.cell n k
  if old.holding = now.holding ∧ old.capacity = now.capacity then s
  else
    let s' := s.setSteering (s.steering.onCell n k Cell.settle)
    if now.settle.hole = now.hole then s'
    else s'.setFaults (s'.faults.report s'.faultView (.hole n k) now.settle.hole none)

/-- The sector and operator pairs, in ascending sector and then ascending operator (R133). -/
def cellOrder : List (SectorId × Operator) :=
  (List.finRange 12).flatMap fun n => (List.finRange 6).map fun k => (n, k)

/-- The standing of every cell the event has changed is decided, in the order of R133. -/
def decideStandings (before : Steering) (s : State) : State :=
  cellOrder.foldl (fun s p => decideCell before s p.1 p.2) s

/-! ## Epoch evaluation (section 8.4) -/

/-- A cell with a load trend: the epoch evaluation passes over the others (R135). -/
def Cell.evaluated (c : Cell) : Bool :=
  match c.trend with
  | .neutral => true
  | .over => true
  | .under => true
  | .inactive => false
  | .dark => false

/-- The trend a cell's load and capacity give (R135, first pass). -/
def Cell.newTrend (t : Site) (c : Cell) : Trend :=
  if c.load > t.highMark * c.capacity then .over
  else if c.load < t.lowMark * c.capacity then .under
  else .neutral

/-- The streak that follows a new trend (R135, first pass). -/
def Cell.newStreak (trend : Trend) (c : Cell) : Nat :=
  if trend = .neutral then 0
  else if trend = c.trend then countUp Config.byteTop c.streak
  else 1

/-- The surge flag an evaluation gives (R135, first pass). -/
def Cell.newSurge (t : Site) (c : Cell) : Bool :=
  c.saturated || (t.surgeMark != 0 && decide (c.accumulator > t.surgeMark * c.capacity))

/-- The first pass on one cell (R135). -/
def Cell.judge (t : Site) (c : Cell) : Cell :=
  if c.evaluated then
    { c with
      trend := c.newTrend t
      streak := c.newStreak (c.newTrend t)
      surge := c.newSurge t }
  else c

/-- A cell judged this epoch is pressed (R135). -/
def Cell.pressed (t : Site) (c : Cell) : Bool :=
  c.evaluated && (c.surge || (decide (c.trend = .over) && decide (t.persistence ≤ c.streak)))

/-- One step toward 0. -/
def relax (offset : Int) : Int :=
  if offset > 0 then offset - 1 else if offset < 0 then offset + 1 else 0

/-- The second pass on one judged cell (R135). -/
def Cell.stepOffset (t : Site) (neighbourPressed : Bool) (c : Cell) : Cell :=
  if c.evaluated then
    if c.pressed t then { c with offset := min 7 (c.offset + 1) }
    else if c.trend = .under ∧ t.persistence ≤ c.streak ∧ neighbourPressed = true then
      { c with offset := max (-8) (c.offset - 1) }
    else { c with offset := relax c.offset }
  else c

/-- At the end of an expiry a cell records its accumulator and clears it (R136). -/
def Cell.roll (c : Cell) : Cell :=
  { c with lastAttaches := c.accumulator, accumulator := 0, saturated := false }

/-- The sector of a cell's place. -/
def placeSector (i : Fin 72) : SectorId := ⟨i.val / 6, by omega⟩

/-- The operator of a cell's place. -/
def placeOperator (i : Fin 72) : Operator := ⟨i.val % 6, by omega⟩

/-- Some neighbour's cell for the same operator is pressed this epoch, among judged cells. -/
def Steering.neighbourPressed (t : Site) (g : Steering) (judged : Bank 72 Cell) (i : Fin 72) : Bool :=
  (g.defs.get (placeSector i)).neighbours.any fun m =>
    (judged.get (cellPlace m (placeOperator i))).pressed t

/-- The evaluation at an epoch expiry: two passes, then the roll of every cell (R135, R136). -/
def Steering.evaluate (t : Site) (g : Steering) : Steering :=
  let judged : Bank 72 Cell := Bank.tabulate fun i => (g.cells.get i).judge t
  { g with
    cells := Bank.tabulate fun i =>
      ((judged.get i).stepOffset t (g.neighbourPressed t judged i)).roll }

/-! ## Start and stop (R127, R141) -/

/-- Service start: Table 8-3, the loaded definitions of the configured sectors in force, and the
epoch timer started. -/
def Steering.start (sectorCount epochLength : Nat) (g : Steering) : Steering :=
  { Steering.afterReset with
    loaded := g.loaded
    defs := Bank.tabulate fun n =>
      if n.val < sectorCount then (g.loaded.get n).definition else SectorDef.empty
    epochTimer := some epochLength }

/-- Service stop: cells and records take the values of Table 8-3, the timer stops, the definitions
in force are kept. -/
def Steering.stop (g : Steering) : Steering :=
  { g with
    cells := Bank.fill Cell.afterReset
    records := Bank.fill SteeringRecord.afterReset
    epochTimer := none }

end Sys2Proof.Machine
end

