-- ==== Sys2Proof/Machine/CarrierOps.lean ====
section
/-! DEFINITION. Carrier Control and the Search Engine: contexts, occupancy lists, changed sets,
validation of posts and their effects, replies, suspension and restoration (chapters 4 and 5). -/

namespace Sys2Proof.Machine

open Sys2Proof

/-! ## Claims and the occupancy list (section 4.2) -/

/-- The requested interval of a context, while a requested tuning is present. -/
def Context.requestedClaim (c : Context) (n : SlotId) : List Claim :=
  match c.requested with
  | some r => [⟨r.tuning.interval, n, false⟩]
  | none => []

/-- The held interval of a context, while the unit-holds mark is set. -/
def Context.heldClaim (c : Context) (n : SlotId) : List Claim :=
  match c.held with
  | some t => [⟨t.interval, n, true⟩]
  | none => []

/-- The requested and held intervals are equal, so the slot has one entry, its held one (R56). -/
def Context.sameInterval (c : Context) : Bool :=
  match c.requested, c.held with
  | some r, some t => r.tuning.interval == t.interval
  | _, _ => false

/-- The intervals a slot claims in its state (Table 4-3), requested before held. -/
def Context.claims (c : Context) (n : SlotId) : List Claim :=
  match c.state with
  | .vacant => []
  | .searching => []
  | .waiting => if c.sameInterval then c.heldClaim n else c.requestedClaim n ++ c.heldClaim n
  | .tuning => if c.sameInterval then c.heldClaim n else c.requestedClaim n ++ c.heldClaim n
  | .onAir => c.heldClaim n
  | .releasing => c.heldClaim n
  | .suspended => c.requestedClaim n

/-- An entry joins a list ordered by low edge, behind the entries of equal low edge (R56). -/
def insertClaim (e : Claim) : List Claim → List Claim
  | [] => [e]
  | x :: rest =>
    if e.interval.low < x.interval.low then e :: x :: rest else x :: insertClaim e rest

/-- The occupancy list of a unit that agrees with Table 4-3: its slots' claims by low edge, equal
low edges by slot number, a slot's requested entry before its held one (R56). -/
def occupancyOf (contexts : Bank 96 Context) (u : UnitId) : List Claim :=
  ((unitSlots u).flatMap fun n => (contexts.get n).claims n).foldl (fun l e => insertClaim e l) []

/-- The interval overlaps an entry of another slot of the slot's unit (R59, R78). -/
def Carriers.overlapsOthers (c : Carriers) (n : SlotId) (i : Interval) : Bool :=
  (c.occupancy.get (slotUnit n)).any fun e => e.slot != n && e.interval.overlaps i

/-! ## Context changes and changed sets (R49) -/

/-- A context is replaced, and its unit's occupancy list brought up to date at once (R56). -/
def State.setContext (s : State) (n : SlotId) (c : Context) : State :=
  let contexts := s.carriers.contexts.put n c
  s.setCarriers
    { s.carriers with
      contexts := contexts
      occupancy := s.carriers.occupancy.put (slotUnit n) (occupancyOf contexts (slotUnit n)) }

/-- A slot joins an operator's changed set. -/
def State.addChanged (s : State) (k : Operator) (n : SlotId) : State :=
  s.setCarriers
    { s.carriers with
      changed := s.carriers.changed.put k (s.carriers.changed.get k ||| (1#96 <<< n.val)) }

/-- The operator whose changed set a change adds to: the owner after it, or the owner before it
where it makes the slot VACANT (R49). -/
def ownerTold (old new : Context) : Option Operator :=
  if new.state = .vacant then old.owner else new.owner

/-- A slot's context changes: where its state or last outcome changes, the slot joins the changed
set of the operator concerned (R49). -/
def State.updateSlot (s : State) (n : SlotId) (c : Context) : State :=
  let old := s.context n
  let s' := s.setContext n c
  if old.state = c.state ∧ old.outcome = c.outcome then s'
  else
    match ownerTold old c with
    | some k => s'.addChanged k n
    | none => s'

/-- The Steering Engine takes a report. -/
def State.onSteering (s : State) (f : Steering → Steering) : State := s.setSteering (f s.steering)

/-- The impaired mark of a slot's unit. -/
def State.impairedAt (s : State) (n : SlotId) : Bool := (s.unit (slotUnit n)).impaired

/-! ## Commands of a slot -/

/-- A slot's command is queued on its unit's link, or held as the slot's deferred command while the
orphan mark is set (R84). -/
def State.queueOrDefer (s : State) (n : SlotId) (c : Command) : State :=
  if (s.context n).orphan then s.setContext n { s.context n with deferred := some c }
  else s.onLink (slotUnit n) (Link.enqueue c)

/-- A WAITING slot's TUNE is given a new tuning where it stands, deferred or queued (R63, R84). -/
def State.supersede (s : State) (n : SlotId) (t : Tuning) : State :=
  if (s.context n).deferred.isSome then
    s.setContext n { s.context n with deferred := some (.tune n t) }
  else s.onLink (slotUnit n) (Link.supersede n t)

/-- A slot's TUNE or SCAN that has not been sent is given up: the deferred command is discarded, or
the queued one removed (R66, R84). -/
def State.withdraw (s : State) (n : SlotId) : State :=
  if (s.context n).deferred.isSome then s.setContext n { s.context n with deferred := none }
  else s.onLink (slotUnit n) (Link.remove n)

/-! ## Context values -/

/-- A VACANT context with the last outcome, the reason, the flags and the summary kept. -/
def Context.vacate (c : Context) : Context :=
  { c with state := .vacant, owner := none, requested := none, held := none, search := none }

/-- A passed validation's record in the slot: its outcome, flags cleared, summary zero (R60, R87). -/
def Context.validated (o : Outcome) (c : Context) : Context :=
  { c with outcome := o, bandLimit := false, ready := false, summary := SearchSummary.zero }

/-- The summary a search record leaves (R87). -/
def SearchRecord.summary (r : SearchRecord) : SearchSummary where
  candidate := r.candidate
  lastLevel := r.lastLevel
  steps := r.steps

/-! ## The search walk (sections 5.2 and 5.3) -/

/-- The tuning a search record would claim. -/
def SearchRecord.tuning (r : SearchRecord) : Tuning where
  channel := r.candidate
  bandwidth := r.bandwidth
  power := r.power

/-- A candidate value lies within the limits (R76). -/
def SearchRecord.within (r : SearchRecord) (candidate : Int) : Bool :=
  (intervalOf candidate r.bandwidth).inside r.lower r.upper

/-- The value one step further, on whole numbers (R77). -/
def SearchRecord.nextValue (r : SearchRecord) : Int :=
  match r.direction with
  | .up => (r.candidate.toNat : Int) + r.step
  | .down => (r.candidate.toNat : Int) - r.step

/-- The candidate is moved by one step, if the new value lies within the limits (R77). -/
def SearchRecord.move (r : SearchRecord) : Option SearchRecord :=
  if r.within r.nextValue then some { r with candidate := BitVec.ofInt 16 r.nextValue } else none

/-- How an examination ends: at a clear candidate, or at the band limit (R78). -/
inductive WalkEnd where
  | clear (r : SearchRecord)
  | limit (r : SearchRecord)
deriving DecidableEq, Repr

/-- Candidates are examined in turn, past the overlapped ones (R78). -/
def examine (claimed : Interval → Bool) : Nat → SearchRecord → WalkEnd
  | 0, r => .limit r
  | fuel + 1, r =>
    if claimed r.tuning.interval then
      match r.move with
      | some r' => examine claimed fuel r'
      | none => .limit r
    else .clear r

/-- The candidate is moved by one step and the new one examined (R77, R78). -/
def moveOn (claimed : Interval → Bool) (r : SearchRecord) : WalkEnd :=
  match r.move with
  | some r' => examine claimed Config.walkBound r'
  | none => .limit r

/-- The context of a search that has ended at the band limit (R79). -/
def Context.atBandLimit (c : Context) (r : SearchRecord) : Context :=
  { c.vacate with bandLimit := true, outcome := .noClear, summary := r.summary }

/-- The SCAN of a candidate (R78). -/
def SearchRecord.scan (n : SlotId) (r : SearchRecord) : Command := .scan n r.candidate r.bandwidth

/-! ## Validation checks (section 4.3) -/

/-- The modes allowed in a slot's state (Table 4-5). -/
def modeAllowed (m : PostMode) (c : CarrierState) : Bool :=
  match c with
  | .vacant => true
  | .searching => m == .release
  | .waiting => m != .search
  | .tuning => false
  | .onAir => m != .search
  | .releasing => false
  | .suspended => m != .search

/-- The interval of checks 8 to 10 (R59). -/
def Post.interval (p : Post) : Interval :=
  match p.mode with
  | .search => intervalOf p.startChannel.toNat p.tuningFields.bandwidth
  | _ => p.tuningFields.interval

/-- Check 7 fails: a field of the post is out of range (Table 4-4). -/
def Post.badField (p : Post) (maxPower : Nat) : Bool :=
  let t := p.tuningFields
  decide (t.bandwidth.toNat < 1 ∨ 4 < t.bandwidth.toNat ∨ maxPower < t.power.toNat) ||
    (p.mode == .search && (p.step == 0 || p.stopLevel == 0))

/-- Checks 3 to 10 on a configured slot, in order: the first that fails (Table 4-4). -/
def checkSlot (s : State) (k : Operator) (p : Post) (n : SlotId) : Option Outcome :=
  let c := s.context n
  let u := s.unit (slotUnit n)
  if c.state ≠ .vacant ∧ c.owner ≠ some k then some .notOwner
  else if !modeAllowed p.mode c.state then some .slotBusy
  else if p.mode = .release then none
  else if u.state ≠ .live ∧ ¬ (p.mode = .tune ∧ c.state = .suspended) then some .unitDown
  else if p.mode = .search ∧ u.garbled = true then some .linkPoor
  else if p.badField s.site.maxPower then some .badField
  else if !p.interval.inside s.site.rangeLow s.site.rangeHigh then some .outOfRange
  else if !p.interval.inside (s.site.bandLow k) (s.site.bandHigh k) then some .outOfBand
  else if p.mode = .tune ∧ s.carriers.overlapsOthers n p.interval = true then some .overlap
  else none

/-- The checks of Table 4-4 in order: the slot where all pass, or the outcome of the first that
fails (R58). -/
def checkPost (s : State) (k : Operator) (p : Post) : SlotId ⊕ Outcome :=
  if !s.site.mode.inService then .inr .notServing
  else if 4 * s.site.unitCount ≤ p.slot.toNat then .inr .badSlot
  else
    match slotOfValue p.slot with
    | none => .inr .badSlot
    | some n =>
      match checkSlot s k p n with
      | some o => .inr o
      | none => .inl n

/-! ## Effects of accepted posts (section 4.4) -/

/-- A requested tuning from a post. -/
def Post.requested (p : Post) : Requested := ⟨p.tuningFields, .post⟩

/-- An accepted TUNE (R61 to R64). -/
def tuneEffect (s : State) (k : Operator) (p : Post) (n : SlotId) : State × Outcome :=
  let c := (s.context n).validated .accepted
  let t := p.tuningFields
  let s' :=
    match (s.context n).state with
    | .vacant =>
      ((s.updateSlot n
          { c with state := .waiting, owner := some k, requested := some p.requested, held := none })
        |>.queueOrDefer n (.tune n t)).onSteering (Steering.gained n k)
    | .onAir =>
      ((s.updateSlot n { c with state := .waiting, requested := some p.requested })
        |>.queueOrDefer n (.tune n t)).onSteering (Steering.leftOnAir n (s.impairedAt n))
    | .waiting => (s.updateSlot n { c with requested := some p.requested }).supersede n t
    | .suspended => s.updateSlot n { c with requested := some p.requested }
    | _ => s
  (s', .accepted)

/-- The search record a SEARCH post creates (R65), with the limits of R76. -/
def searchRecordOf (t : Site) (k : Operator) (p : Post) : SearchRecord where
  candidate := p.startChannel
  direction := p.direction
  step := p.step
  stopLevel := p.stopLevel
  bandwidth := p.tuningFields.bandwidth
  power := p.tuningFields.power
  lastLevel := 0
  steps := 0
  lower := max (t.bandLow k) t.rangeLow
  upper := min (t.bandHigh k) t.rangeHigh

/-- An accepted SEARCH to a VACANT slot (R65): the first candidate is examined at the same event.
A search that ends there makes no steering report. -/
def searchEffect (s : State) (k : Operator) (p : Post) (n : SlotId) : State × Outcome :=
  let c := { (s.context n).validated .accepted with state := .searching, owner := some k }
  let r := searchRecordOf s.site k p
  match examine (s.carriers.overlapsOthers n) Config.walkBound r with
  | .clear r' =>
    (((s.updateSlot n { c with search := some r' }).queueOrDefer n (r'.scan n)).onSteering
      (Steering.gained n k), .accepted)
  | .limit r' =>
    ((s.updateSlot n { c with search := some r' }).updateSlot n
      (({ c with search := some r' } : Context).atBandLimit r'), .noClear)

/-- An accepted RELEASE of a SEARCHING slot: its SCAN is removed, or orphaned where it is in
flight; while the orphan mark is set already, the deferred SCAN is discarded (R66, R84, R85). -/
def releaseSearch (s : State) (n : SlotId) (c : Context) : State :=
  if c.orphan then s.updateSlot n { c.vacate with deferred := none }
  else if (s.link (slotUnit n)).scanInFlight n then s.updateSlot n { c.vacate with orphan := true }
  else (s.updateSlot n c.vacate).onLink (slotUnit n) (Link.remove n)

/-- An accepted RELEASE (R66, Table 4-6). -/
def releaseEffect (s : State) (n : SlotId) : State × Outcome :=
  let c := s.context n
  match c.state with
  | .searching =>
    ((releaseSearch s n (c.validated .released)).onSteering (Steering.lost n), .released)
  | .waiting =>
    match c.held with
    | none =>
      (((s.updateSlot n (c.validated .released).vacate).withdraw n).onSteering (Steering.lost n),
        .released)
    | some _ =>
      ((s.updateSlot n { c.validated .accepted with state := .releasing, requested := none }).onLink
        (slotUnit n) (Link.replaceWithDrop n), .accepted)
  | .onAir =>
    (((s.updateSlot n { c.validated .accepted with state := .releasing, requested := none })
        |>.queueOrDefer n (.drop n)).onSteering (Steering.leftOnAir n (s.impairedAt n)), .accepted)
  | .suspended =>
    ((s.updateSlot n (c.validated .released).vacate).onSteering (Steering.lost n), .released)
  | _ => (s, .released)

/-! ## Dispatch and replies (section 4.5, R81, R82, R84) -/

/-- A slot's TUNE has been dispatched: the slot, which was WAITING, becomes TUNING (R67). -/
def tuneDispatched (s : State) (n : SlotId) : State :=
  if (s.context n).state = .waiting then s.updateSlot n { s.context n with state := .tuning } else s

/-- The context an accepted TUNED leaves (R68). -/
def Context.tunedAccepted (c : Context) (r : Requested) : Context :=
  { c with
    state := .onAir
    held := some r.tuning
    outcome := .done
    reason := 0
    ready := c.ready || r.source == .search }

/-- The context a rejected retune leaves (R68). -/
def Context.retuneRejected (c : Context) (r : Requested) (t : Tuning) (reason : Byte) : Context :=
  { c with
    state := .onAir
    requested := some { r with tuning := t }
    outcome := .unitReject
    reason := reason }

/-- The context a rejected first tuning leaves: VACANT values but outcome and reason (R68). -/
def Context.firstRejected (c : Context) (reason : Byte) : Context :=
  { c.vacate with bandLimit := false, ready := false, outcome := .unitReject, reason := reason }

/-- A TUNED reply for a slot in TUNING (R68): result 0 accepts. -/
def carrierTuned (s : State) (n : SlotId) (result : Byte) : State :=
  let c := s.context n
  match c.state, c.requested with
  | .tuning, some r =>
    if result = 0 then
      (s.updateSlot n (c.tunedAccepted r)).onSteering
        (Steering.enteredOnAir n r.tuning.bandwidth.toNat (s.impairedAt n))
    else
      match c.held with
      | some t =>
        (s.updateSlot n (c.retuneRejected r t result)).onSteering
          (Steering.enteredOnAir n t.bandwidth.toNat (s.impairedAt n))
      | none => (s.updateSlot n (c.firstRejected result)).onSteering (Steering.lost n)
  | _, _ => s

/-- A DROPPED reply for a slot in RELEASING (R69). -/
def carrierDropped (s : State) (n : SlotId) : State :=
  let c := s.context n
  if c.state = .releasing then
    (s.updateSlot n { c.vacate with outcome := .released }).onSteering (Steering.lost n)
  else s

/-- The search goes on from a candidate that was not claimed: a SCAN of the next clear candidate,
or the end at the band limit with a steering report (R77 to R79). -/
def searchOn (s : State) (n : SlotId) (r : SearchRecord) : State :=
  match moveOn (s.carriers.overlapsOthers n) r with
  | .clear r' =>
    (s.updateSlot n { s.context n with search := some r' }).queueOrDefer n (r'.scan n)
  | .limit r' =>
    (s.updateSlot n ((s.context n).atBandLimit r')).onSteering (Steering.lost n)

/-- The search claims its candidate (R82). -/
def searchClaim (s : State) (n : SlotId) (r : SearchRecord) : State :=
  (s.updateSlot n
    { s.context n with
      state := .waiting
      requested := some ⟨r.tuning, .search⟩
      held := none
      search := none
      summary := r.summary }).queueOrDefer n (.tune n r.tuning)

/-- The orphan LEVEL: discarded, the mark cleared, the deferred command queued at the tail (R84). -/
def orphanLevel (s : State) (n : SlotId) : State :=
  let c := s.context n
  let s' := s.setContext n { c with orphan := false, deferred := none }
  match c.deferred with
  | some d => s'.onLink (slotUnit n) (Link.enqueue d)
  | none => s'

/-- A LEVEL reply (R81, R82, R84). -/
def carrierLevel (s : State) (n : SlotId) (level : Nat) : State :=
  let c := s.context n
  if c.orphan then orphanLevel s n
  else
    match c.state, c.search with
    | .searching, some r =>
      let r' := { r with lastLevel := level, steps := countUp Config.halfTop r.steps }
      if level ≤ r.stopLevel ∧ s.carriers.overlapsOthers n r.tuning.interval = false then
        searchClaim s n r'
      else searchOn s n r'
    | _, _ => s

/-! ## Units leaving and reaching LIVE (section 4.6) -/

/-- The context a SEARCHING slot takes when its unit leaves LIVE (R70, R86, R87). -/
def Context.searchLost (c : Context) : Context :=
  { c.vacate with
    outcome := .unitDown
    summary := match c.search with
      | some r => r.summary
      | none => c.summary }

/-- One slot of a unit that leaves LIVE: its orphan mark and deferred command go, then Table 4-7
(R70, R86). -/
def suspendSlot (s : State) (n : SlotId) : State :=
  let c := { s.context n with orphan := false, deferred := none }
  match c.state with
  | .vacant => s.setContext n c
  | .suspended => s.setContext n c
  | .searching => (s.updateSlot n c.searchLost).onSteering (Steering.lost n)
  | .waiting => s.updateSlot n { c with state := .suspended, held := none, outcome := .accepted }
  | .tuning => s.updateSlot n { c with state := .suspended, held := none, outcome := .accepted }
  | .onAir =>
    (s.updateSlot n { c with state := .suspended, held := none, outcome := .accepted }).onSteering
      (Steering.leftOnAir n (s.impairedAt n))
  | .releasing =>
    (s.updateSlot n { c.vacate with outcome := .released }).onSteering (Steering.lost n)

/-- A unit has left LIVE (R70): its four slots in ascending order. -/
def unitLeftLive (s : State) (u : UnitId) : State := (unitSlots u).foldl suspendSlot s

/-- One slot of a unit that reaches LIVE: a SUSPENDED slot becomes WAITING with a TUNE queued
(R71). -/
def restoreSlot (s : State) (n : SlotId) : State :=
  let c := s.context n
  match c.state, c.requested with
  | .suspended, some r =>
    (s.updateSlot n { c with state := .waiting }).queueOrDefer n (.tune n r.tuning)
  | _, _ => s

/-- A unit has reached LIVE (R71): its SUSPENDED slots in ascending order. -/
def unitReachedLive (s : State) (u : UnitId) : State := (unitSlots u).foldl restoreSlot s

/-! ## Service stop (R34 stage 1, R74, R86) -/

/-- The context the service stop leaves: VACANT with last outcome, reason, flags and summary. -/
def Context.stopped (c : Context) : Context := { c.vacate with orphan := false, deferred := none }

/-- Stage 1 of the service stop: every context VACANT, every list and changed set empty. -/
def Carriers.stop (c : Carriers) : Carriers where
  contexts := Bank.tabulate fun n => (c.contexts.get n).stopped
  occupancy := Bank.fill []
  changed := Bank.fill 0

end Sys2Proof.Machine
end

