-- ==== Sys2Proof/Machine/UnitOps.lean ====
section
/-! DEFINITION. The Unit Supervisor's operations: alarm filters, entry to RESETTING, DOWN and LIVE,
a STATUS, timeouts, restarts, admin requests and the poll expiry (chapter 7). -/

namespace Sys2Proof.Machine

open Sys2Proof

/-! ## Alarm filters (R113, R114) -/

/-- An alarm in the filter order SUPPLY, AMPLIFIER, TEMP, ANTENNA. -/
abbrev Alarm := Fin 4

/-- A raw alarm of a STATUS: bit 0 SUPPLY, 1 AMPLIFIER, 2 TEMP, 3 ANTENNA (Table 6-3). -/
def rawAlarm (alarms : BitVec 4) (a : Alarm) : Bool := alarms.getLsbD a.val

/-- One filter updated for one STATUS with the live counts (R113). -/
def AlarmFilter.update (onsetCount clearCount : Nat) (raw : Bool) (f : AlarmFilter) : AlarmFilter :=
  if raw then
    { onset := countUp Config.runTop f.onset
      clear := 0
      present := f.present || decide (onsetCount ≤ countUp Config.runTop f.onset) }
  else
    { onset := 0
      clear := countUp Config.runTop f.clear
      present := f.present && decide (countUp Config.runTop f.clear < clearCount) }

/-- The four filters of a unit updated from a raw alarm set (R113, R114). -/
def UnitRecord.filtered (t : Site) (alarms : BitVec 4) (r : UnitRecord) : Bank 4 AlarmFilter :=
  Bank.tabulate fun a =>
    (r.filters.get a).update (t.onsetCount a) (t.clearCount a) (rawAlarm alarms a)

/-- The last STATUS summary replaced and the four filters updated (R112, R115). -/
def UnitRecord.takeStatus (t : Site) (alarms : BitVec 4) (figures : Bank 4 Figures)
    (r : UnitRecord) : UnitRecord :=
  { r with
    lastAlarms := alarms
    lastTime := t.time
    lastFigures := figures
    filters := r.filtered t alarms }

/-- The condition of an alarm filter. -/
def UnitRecord.condition (r : UnitRecord) (a : Alarm) : Bool := (r.filters.get a).present

/-! ## Reports to the Fault Reporter (R123) -/

/-- A change of a unit fault condition, with the raw alarm set for the four alarm kinds. -/
structure ConditionChange where
  kind : UnitKind
  present : Bool
  alarms : Option (BitVec 4)
deriving DecidableEq, Repr

/-- The unit kind of an alarm. -/
def alarmKind (a : Alarm) : UnitKind := ⟨a.val, by omega⟩

/-- The filters whose condition differs between two records, in filter order, with the raw alarm
set of the STATUS that changed them. -/
def filterChanges (alarms : BitVec 4) (old new : UnitRecord) : List ConditionChange :=
  ((List.finRange 4).filter fun a => old.condition a != new.condition a).map fun a =>
    ⟨alarmKind a, new.condition a, some alarms⟩

/-- A change of SILENT, if there is one. -/
def silentChange (old new : Bool) : List ConditionChange :=
  if old = new then [] else [⟨4, new, none⟩]

/-- A change of GARBLED, if there is one. -/
def garbledChange (old new : Bool) : List ConditionChange :=
  if old = new then [] else [⟨5, new, none⟩]

/-- The reports of one event for one unit, in the order given (R123). -/
def reportChanges (u : UnitId) (changes : List ConditionChange) (s : State) : State :=
  changes.foldl
    (fun s c => s.setFaults (s.faults.report s.faultView (.unit u c.kind) c.present c.alarms)) s

/-- The momentary RESTART trip of a unit (R121). -/
def reportRestart (u : UnitId) (s : State) : State :=
  s.setFaults (s.faults.momentaryTrip s.faultView (.unit u 6))

/-! ## The impaired mark (R119) -/

/-- The impaired mark takes a value; the Steering Engine is told where it changes (R119, R129). -/
def setImpaired (u : UnitId) (v : Bool) (s : State) : State :=
  if (s.unit u).impaired = v then s
  else (s.onUnit u fun r => { r with impaired := v }).onSteering (Steering.impairedChanged u v)

/-- A record calls for the mark: LIVE with TEMP or ANTENNA present. -/
def UnitRecord.shouldImpair (r : UnitRecord) : Bool :=
  decide (r.state = .live) && (r.condition 2 || r.condition 3)

/-- The impaired mark is decided (R119). -/
def decideImpaired (u : UnitId) (s : State) : State := setImpaired u (s.unit u).shouldImpair s

/-! ## Changes of unit state -/

/-- A unit leaves LIVE, after the Link Engine's emptying (R117). -/
def leaveLive (u : UnitId) (s : State) : State :=
  setImpaired u false ((unitLeftLive s u).onSteering (Steering.zeroFigures u))

/-- The handling of R117 where the unit was LIVE. -/
def leaveIfLive (was : UnitState) (u : UnitId) (s : State) : State :=
  if was = .live then leaveLive u s else s

/-- A unit enters RESETTING: its break is asked for and its guard timer stopped (R111). -/
def enterResetting (u : UnitId) (s : State) : State :=
  (s.onUnit u fun r => { r with state := .resetting, guard := false, recovery := none }).onLink u
    Link.askBreak

/-- The record of a unit that enters DOWN: its recovery timer starts, or it is exhausted (R116,
step 4). -/
def UnitRecord.goDown (t : Site) (r : UnitRecord) : UnitRecord :=
  if t.attemptLimit = 0 ∨ r.attempts < t.attemptLimit then
    { r with state := .down, recovery := some t.recoveryInterval }
  else { r with state := .down, exhausted := true }

/-- A unit enters DOWN, steps 1 to 4 of R116. -/
def enterDown (u : UnitId) (s : State) : State :=
  ((leaveIfLive (s.unit u).state u (s.onLink u Link.fullEmpty)).onLink u Link.askBreak).onUnit u
    (UnitRecord.goDown s.site)

/-- A unit enters LIVE from PROBING (R112). -/
def goLive (u : UnitId) (s : State) : State :=
  decideImpaired u
    (unitReachedLive (s.onUnit u fun r => { r with state := .live, attempts := 0 }) u)

/-! ## A STATUS (R112, R115) -/

/-- The raw alarm set holds SUPPLY or AMPLIFIER. -/
def rawFailure (alarms : BitVec 4) : Bool := rawAlarm alarms 0 || rawAlarm alarms 1

/-- The decision of a STATUS in PROBING (R112, step 4). -/
def probingDecision (u : UnitId) (alarms : BitVec 4) (s : State) : State :=
  if rawFailure alarms then enterDown u s
  else if (s.unit u).condition 0 = false ∧ (s.unit u).condition 1 = false ∧
      (s.unit u).silent = false then goLive u s
  else s

/-- A STATUS in PROBING (R112). -/
def probingStatus (u : UnitId) (alarms : BitVec 4) (figures : Bank 4 Figures) (s : State) : State :=
  let old := s.unit u
  let new := { old with silent := false }.takeStatus s.site alarms figures
  reportChanges u (filterChanges alarms old new ++ silentChange old.silent false)
    (probingDecision u alarms (s.onUnit u fun _ => new))

/-- SUPPLY or AMPLIFIER has tripped between two records. -/
def failureTrip (old new : UnitRecord) : Bool :=
  (!old.condition 0 && new.condition 0) || (!old.condition 1 && new.condition 1)

/-- A STATUS in LIVE (R115). -/
def liveStatus (u : UnitId) (alarms : BitVec 4) (figures : Bank 4 Figures) (s : State) : State :=
  let old := s.unit u
  let new := old.takeStatus s.site alarms figures
  let s' := s.onUnit u fun _ => new
  reportChanges u (filterChanges alarms old new)
    (if failureTrip old new then enterDown u s' else decideImpaired u s')

/-- A STATUS is delivered: to the Unit Supervisor, then to the Steering Engine (R104). -/
def takeStatus (u : UnitId) (alarms : BitVec 4) (figures : Bank 4 Figures) (s : State) : State :=
  let s' :=
    match (s.unit u).state with
    | .probing => probingStatus u alarms figures s
    | .live => liveStatus u alarms figures s
    | _ => s
  s'.onSteering (Steering.status u figures)

/-! ## Timeouts and breaks (R120, R121, R111) -/

/-- A second reply timeout on a unit's link (R120). -/
def secondTimeout (u : UnitId) (s : State) : State :=
  let old := (s.unit u).silent
  let s' := s.onUnit u fun r => { r with silent := true }
  match (s.unit u).state with
  | .live => reportChanges u (silentChange old true) (enterDown u s')
  | .probing => reportChanges u (silentChange old true) s'
  | _ => s

/-- A RESTART in LIVE (R121). -/
def restartLive (u : UnitId) (s : State) : State :=
  reportRestart u
    ((leaveLive u ((s.onUnit u fun r => { r with state := .probing }).onLink u
      Link.purgeKeepingPoll)).onLink u Link.queuePoll)

/-- A RESTART in PROBING (R121). -/
def restartProbing (u : UnitId) (s : State) : State :=
  reportRestart u (s.onLink u fun l => l.fullEmpty.queuePoll)

/-- A recovery attempt: the counter increases by one and the unit enters RESETTING (R121, R122). -/
def recoveryAttempt (u : UnitId) (s : State) : State :=
  enterResetting u
    (s.onUnit u fun r => { r with attempts := countUp Config.byteTop r.attempts })

/-- A break received from a unit, as R105 reports it (R121). -/
def unitBreak (u : UnitId) (s : State) : State :=
  match (s.unit u).state with
  | .live => restartLive u s
  | .probing => restartProbing u s
  | .down => if (s.unit u).exhausted then s else recoveryAttempt u s
  | _ => s

/-- The end of a break on a unit's link (R111): the guard timer of a RESETTING unit starts. -/
def UnitRecord.breakEnded (r : UnitRecord) : UnitRecord :=
  if r.state = .resetting then { r with guard := true } else r

/-- The expiry of a RESETTING unit's guard timer (R111). -/
def guardExpired (u : UnitId) (s : State) : State :=
  (s.onUnit u fun r => { r with state := .probing, guard := false }).onLink u Link.queuePoll

/-! ## The poll expiry (R118) -/

/-- The GARBLED evaluation of a link's error window count (R118). -/
def garbledNow (t : Site) (count : Nat) : Bool :=
  t.garbleThreshold != 0 && decide (t.garbleThreshold ≤ count)

/-- A link at a poll expiry: its error window restarts and a POLL is queued (R118). -/
def Link.polled (l : Link) : Link := ({ l with errorWindow := 0 } : Link).queuePoll

/-- The poll expiry at one unit: units in LIVE and PROBING are evaluated and polled (R118). -/
def pollUnit (s : State) (u : UnitId) : State :=
  let g := garbledNow s.site (s.link u).errorWindow
  let old := (s.unit u).garbled
  let s' :=
    reportChanges u (garbledChange old g)
      ((s.onUnit u fun r => { r with garbled := g }).onLink u Link.polled)
  match (s.unit u).state with
  | .live => s'
  | .probing => s'
  | _ => s

/-- The poll expiry: the timer restarts for the live poll interval, then every unit in ascending
number (R118). -/
def pollExpired (s : State) : State :=
  (List.finRange 24).foldl pollUnit (s.setPollTimer (some s.site.pollInterval))

/-! ## Admin requests and revive (R124) -/

/-- The record an OUT request leaves (R124, steps 1 and 5 to 7). -/
def UnitRecord.goOut (r : UnitRecord) : UnitRecord :=
  { r with
    state := .out
    admin := .goOut
    guard := false
    recovery := none
    exhausted := false
    filters := Bank.fill AlarmFilter.afterReset
    silent := false
    garbled := false }

/-- The releases an OUT request reports (R124, step 8): the alarm set is empty, since no STATUS
caused them. -/
def releasedChanges (r : UnitRecord) : List ConditionChange :=
  filterChanges 0 r r.goOut ++ silentChange r.silent false ++ garbledChange r.garbled false

/-- An OUT request that acts (R124). -/
def goOut (u : UnitId) (s : State) : State :=
  reportChanges u (releasedChanges (s.unit u))
    (((leaveIfLive (s.unit u).state u (s.onLink u Link.fullEmpty)).onLink u Link.askBreak).onUnit u
      UnitRecord.goOut)

/-- An OUT request (R124). -/
def requestOut (u : UnitId) (s : State) : State :=
  match (s.unit u).state with
  | .out => s
  | .off => s
  | _ => goOut u s

/-- An IN request (R124). -/
def requestIn (u : UnitId) (s : State) : State :=
  if (s.unit u).state = .out then
    enterResetting u (s.onUnit u fun r => { r with admin := .goIn, attempts := 0 })
  else s

/-- A REVIVE request (R124). -/
def requestRevive (u : UnitId) (s : State) : State :=
  if (s.unit u).state = .down ∧ (s.unit u).exhausted = true then
    enterResetting u (s.onUnit u fun r => { r with exhausted := false, attempts := 0 })
  else s

/-- Unit fault kinds are acknowledged, in kind order (R123, R147). -/
def acknowledgeUnit (u : UnitId) (kinds : BitVec 7) (s : State) : State :=
  s.setFaults
    ((List.finRange 7).foldl
      (fun f k =>
        if kinds.getLsbD k.val then f.acknowledge s.faultView (.unit u k) else f) s.faults)

/-! ## Start and stop (R126) -/

/-- The record of a unit at the entry to SERVING: Table 7-3, and RESETTING where configured. -/
def UnitRecord.atStart (unitCount : Nat) (u : UnitId) : UnitRecord :=
  { UnitRecord.afterReset with state := if u.val < unitCount then .resetting else .off }

/-- The record a service stop leaves (R126). The impaired mark is cleared too (log 12). -/
def UnitRecord.stopped (r : UnitRecord) : UnitRecord :=
  { r with
    state := .off
    guard := false
    recovery := none
    exhausted := false
    filters := Bank.fill AlarmFilter.afterReset
    silent := false
    garbled := false
    impaired := false }

/-- An event is taken whole, and then the standings of the cells it changed are decided (R132). -/
def settling (event : State → State) (s : State) : State := decideStandings s.steering (event s)

end Sys2Proof.Machine
end

