-- ==== Sys2Proof/Machine/LogOps.lean ====
section
/-! DEFINITION. The notice log's operations: deposits, the ring, consumption, the lapse timer and
HOLD (sections 9.4 to 9.6), with the return to CONFIG at the end of a stop (R35). -/

namespace Sys2Proof.Machine

open Sys2Proof

/-! ## Own accesses (R20, R21) -/

/-- An own access is for a notice deposit. -/
def OwnAccess.isDeposit (a : OwnAccess) : Bool := a.purpose == .deposit

/-- A deposit is presented or in flight. -/
def State.depositOutstanding (s : State) : Bool :=
  s.path.ownPresented.any OwnAccess.isDeposit || s.path.ownInFlight.any OwnAccess.isDeposit

/-- An own access is presented to the down-side arbiter by its owner. -/
def State.present (s : State) (a : OwnAccess) : State :=
  s.setPath { s.path with ownPresented := some a }

/-! ## Notice records (Table 10-9) -/

/-- The fault kind field of a notice: the kind's code, or 15 for none. -/
def NoticeBody.kindCode (b : NoticeBody) : Nat :=
  match b.latch with
  | some id => id.kind.code
  | none => 15

/-- Word 0 of a ring entry (Table 10-9). -/
def Notice.word0 (x : Notice) : Word :=
  pack
    [⟨0, 16, x.sequence.toNat⟩, ⟨16, 3, x.body.kind.code⟩, ⟨20, 4, x.body.kindCode⟩,
      ⟨24, 5, x.body.subject.toNat⟩, ⟨29, 3, x.body.operator.toNat⟩, ⟨32, 32, x.time.toNat⟩]

/-- Word 1 of a ring entry (Table 10-9). -/
def Notice.word1 (x : Notice) : Word := pack [⟨0, 32, x.body.detail.toNat⟩]

/-- The byte address of ring entry `n` (R152). -/
def Faults.entryAddress (f : Faults) (n : Nat) : ByteAddr := f.ringBase + BitVec.ofNat 32 (16 * n)

/-- The deposit of a notice: a two-beat WRITE with every enable set at the entry of the producer
index (R153). -/
def Faults.depositOf (f : Faults) (x : Notice) : OwnAccess where
  purpose := .deposit
  access :=
    { kind := .write
      address := f.entryAddress f.producer
      length := 2
      beats := [⟨x.word0, allEnables⟩, ⟨x.word1, allEnables⟩] }
  abandoned := false

/-! ## Presenting deposits (R153, R155, R35) -/

/-- In HOLD a full ring gives up its oldest unconsumed entry (R155). -/
def Faults.freeEntry (f : Faults) : Faults :=
  if f.ringFull then { f with consumer := (f.consumer + 1) % f.ringSize } else f

/-- In STOPPING a head notice that meets a full ring: every queued notice is discarded, each one
counted as suppressed (R35, R151). -/
def Faults.discardQueue (f : Faults) : Faults :=
  { f with queue := [], suppressed := min Config.halfTop (f.suppressed + f.queue.length) }

/-- What becomes of the Fault Reporter at a presentation, by the mode (R153, R155, R35). -/
def Faults.makeRoom (m : Mode) (f : Faults) : Faults :=
  match m with
  | .hold => f.freeEntry
  | .stopping => if f.ringFull then f.discardQueue else f
  | _ => f

/-- The head notice may be presented: the ring is not full, or the mode is HOLD (R153). -/
def Faults.mayDeposit (m : Mode) (f : Faults) : Bool :=
  m.windowsUp && (!f.ringFull || m == .hold)

/-- The head notice's deposit is presented where R153 allows it, after R155 or R35 has acted. -/
def pump (s : State) : State :=
  if s.depositOutstanding then s
  else
    match s.faults.queue with
    | [] => s
    | x :: _ =>
      let s' := s.setFaults (s.faults.makeRoom s.site.mode)
      if s.faults.mayDeposit s.site.mode then s'.present (s'.faults.depositOf x) else s'

/-! ## The end of STOPPING (R35) -/

/-- Entry to CONFIG: the five further windows are removed and the default roles reinstalled (R4,
R10, R35). Site time stops with the mode (R36). -/
def enterConfig (s : State) : State :=
  (s.setMode .config).setPath { s.path with windows := none, roles := defaultRoles }

/-- No link owes a stop break, the notice queue is empty and no deposit is outstanding (R35). -/
def State.stopDone (s : State) : Bool :=
  decide (s.site.mode = .stopping) && s.site.owingBreaks == 0 && s.faults.queue.isEmpty &&
    !s.depositOutstanding

/-- STOPPING ends at the event that completes the last of its work (R35). -/
def finishStop (s : State) : State := if s.stopDone then enterConfig s else s

/-- The end of an event: the next deposit is presented, and a completed stop ends. -/
def close (s : State) : State := finishStop (pump s)

/-! ## The lapse timer (R158) -/

/-- The lapse timer is started or restarted for the live lapse period; with a period of 0 it is
left as it is (R158, R27). -/
def Faults.startLapse (period : Nat) (f : Faults) : Faults :=
  if period = 0 then f else { f with lapseTimer := some period }

/-! ## Deposit answers (R154, R156, R151) -/

/-- Step 1 of R154: the notice leaves the queue; OKAY advances the producer, FAULT sets the
deposit-fault mark. -/
def Faults.deposited (a : Answer) (f : Faults) : Faults :=
  match a with
  | .okay => { f with queue := f.queue.tail, producer := (f.producer + 1) % f.ringSize }
  | .fault => { f with queue := f.queue.tail, depositFault := true }

/-- The latch that a deposited notice acknowledges in HOLD, if there is one (R156). -/
def Faults.holdLatch (f : Faults) (x : Notice) : Option LatchId :=
  match x.body.kind, x.body.latch with
  | .raised, some id =>
    if (f.latch id).set = true ∧ (f.latch id).raised = some x.sequence then some id else none
  | _, _ => none

/-- Step 2 of R154: the HOLD acknowledgement (R156). -/
def Faults.holdAcknowledge (v : FaultView) (a : Answer) (x : Notice) (f : Faults) : Faults :=
  if a = .okay ∧ v.mode = .hold then
    match f.holdLatch x with
    | some id => f.acknowledge v id
    | none => f
  else f

/-- Step 3 of R154: the lapse timer starts where the ring has gone from empty to non-empty in
SERVING. -/
def Faults.lapseAfterDeposit (m : Mode) (period : Nat) (wasEmpty : Bool) (f : Faults) : Faults :=
  if m = .serving ∧ wasEmpty = true ∧ f.ringEmpty = false then f.startLapse period else f

/-- Step 4 of R154: the SUPPRESSED notice of R151. -/
def Faults.reportSuppressed (v : FaultView) (f : Faults) : Faults :=
  if f.queue = [] ∧ 0 < f.suppressed ∧ v.mode.inService = true then f.enqueueSuppressed v else f

/-- The answer to a deposit of `x`, steps 1 to 4 of R154. -/
def Faults.depositAnswered (v : FaultView) (period : Nat) (a : Answer) (x : Notice) (f : Faults) :
    Faults :=
  ((((f.deposited a).holdAcknowledge v a x).lapseAfterDeposit v.mode period f.ringEmpty).reportSuppressed
    v)

/-! ## Consumption (R157 to R159) -/

/-- A consumer value lies on the way from the consumer index to the producer index (R157). -/
def Faults.accepts (f : Faults) (v : Nat) : Bool :=
  decide (v < f.ringSize ∧ (v + f.ringSize - f.consumer) % f.ringSize ≤ f.unconsumed)

/-- The lapse timer after an accepted consumer write in SERVING (R158). -/
def Faults.lapseAfterConsume (period : Nat) (f : Faults) : Faults :=
  if f.ringEmpty then { f with lapseTimer := none } else f.startLapse period

/-- The return from HOLD to SERVING at an accepted consumer write (R159): LAPSE is released and the
lapse timer starts where entries are unconsumed. -/
def Faults.leaveHold (v : FaultView) (period : Nat) (f : Faults) : Faults :=
  let f' := f.report v .lapse false none
  if f'.ringEmpty then f' else f'.startLapse period

/-- An accepted consumer write is applied according to the mode at its delivery (R157). -/
def consume (value : Nat) (s : State) : State :=
  let f := { s.faults with consumer := value }
  match s.site.mode with
  | .serving => s.setFaults (f.lapseAfterConsume s.site.lapsePeriod)
  | .hold =>
    let s' := s.setMode .serving
    s'.setFaults (f.leaveHold s'.faultView s.site.lapsePeriod)
  | .config => s.setFaults f
  | _ => s

/-- The expiry of the lapse timer: HOLD, then the LAPSE trip (R159). -/
def lapseExpired (s : State) : State :=
  let s' := s.setMode .hold
  s'.setFaults (({ s.faults with lapseTimer := none }).report s'.faultView .lapse true none)

/-! ## Acknowledgements of w3 and d2 (R147) -/

/-- The HOLE latches of a sector are acknowledged for the operators named, in ascending order. -/
def acknowledgeHoles (n : SectorId) (operators : BitVec 6) (s : State) : State :=
  s.setFaults
    ((List.finRange 6).foldl
      (fun f k =>
        if operators.getLsbD k.val then f.acknowledge s.faultView (.hole n k) else f) s.faults)

/-- One of the two site latches is acknowledged. -/
def acknowledgeSite (id : LatchId) (s : State) : State :=
  s.setFaults (s.faults.acknowledge s.faultView id)

/-- The deposit-fault mark is cleared. -/
def clearDepositMark (s : State) : State := s.setFaults { s.faults with depositFault := false }

/-! ## Start and stop (R161, R151) -/

/-- The STARTED notice: its detail is the ring size in force. -/
def startedBody (size : Nat) : NoticeBody where
  kind := .started
  latch := none
  subject := 0
  operator := 0
  detail := BitVec.ofNat 32 size

/-- The STOPPED notice. -/
def stoppedBody : NoticeBody where
  kind := .stopped
  latch := none
  subject := 0
  operator := 0
  detail := 0

/-- The Fault Reporter at the entry to SERVING: Table 9-4, the loaded ring, the STARTED notice. -/
def Faults.start (v : FaultView) (base : ByteAddr) (size : Nat) : Faults :=
  ({ Faults.afterReset with ringBase := base, ringSize := size }).enqueue v (startedBody size)

/-- The STOPPED notice of stage 8, with a SUPPRESSED notice before it where two places are free
and notices have been suppressed (R151). -/
def Faults.produceStopped (v : FaultView) (f : Faults) : Faults :=
  if Config.noticeRoom ≤ f.queue.length then f
  else if 0 < f.suppressed ∧ f.queue.length + 2 ≤ Config.noticeRoom then
    (f.enqueueSuppressed v).enqueue v stoppedBody
  else f.enqueue v stoppedBody

end Sys2Proof.Machine
end

