-- ==== Sys2Proof/Machine/StageOps.lean ====
section
/-! DEFINITION. Request Stages: merges into the front half, posts, the validator's choice, the
completion of a post, changed-set removal, and the service stop (chapter 3). -/

namespace Sys2Proof.Machine

open Sys2Proof

/-! ## The front half (R40) -/

/-- A merge into s0 or s1, lost while a post is pending (R40). -/
def Stage.mergeFront (search : Bool) (b : Beat) (g : Stage) : Stage :=
  if g.pending then g
  else if search then
    { g with front := { g.front with search := mergeBytes g.front.search b.data b.enables } }
  else { g with front := { g.front with tuning := mergeBytes g.front.tuning b.data b.enables } }

/-! ## The POST word (R41 to R44) -/

/-- Request Stages refuse a write of s2 at taking: a post is pending, or the mode field after the
store would be undefined (R41, R44, R163). -/
def Stage.refusesPost (b : Beat) (g : Stage) : Bool := g.pending || g.front.modeAfter b == 3

/-- The effect of a full post on the two halves, its bytes being stored (R42, R43). -/
def Stage.post (g : Stage) : Stage :=
  match g.back with
  | none => { g with back := some g.front }
  | some _ => { g with pending := true }

/-- A write of s2 is delivered: lost while a post is pending, otherwise stored, and a full post
then acts (R41 to R44). -/
def Stage.deliverPost (b : Beat) (g : Stage) : Stage :=
  if g.pending then g
  else
    let stored := { g with front := g.front.store b }
    if b.enables = allEnables then stored.post else stored

/-! ## Completion (R46, R53) -/

/-- The status of a completed post: outcome, slot and serial. -/
def Stage.complete (o : Outcome) (slot : Byte) (g : Stage) : Stage :=
  { g with lastOutcome := o, lastSlot := slot, serial := g.serial + 1 }

/-- The completion of the back half's post `p` at its validation (R46). -/
def Stage.validated (o : Outcome) (p : Post) (g : Stage) : Stage :=
  let done := g.complete o p.slot
  if g.pending then { done with back := some g.front, pending := false }
  else { done with back := none }

/-- The service stop at one stage: the waiting post and then the pending one complete with
NOT-SERVING (R53). -/
def Stage.stopped (g : Stage) : Stage :=
  match g.back with
  | none => g
  | some p =>
    let one := { g.complete .notServing p.slot with back := none }
    if g.pending then { one.complete .notServing g.front.slot with pending := false } else one

/-! ## The validator (R45) -/

/-- The stages in cyclic order from the one after `k`. -/
def cyclicAfter (k : Operator) : List Operator := (List.finRange 6).map fun i => k + 1 + i

/-- The stage the validator serves next, and its post: the first in cyclic order whose back half is
WAITING (R45). -/
def Stages.next (t : Stages) : Option (Operator × Post) :=
  (cyclicAfter t.lastServed).findSome? fun k => (t.bank.get k).back.map fun p => (k, p)

/-- Carrier Control's effect of an accepted post, and its outcome (R61 to R66). A RELEASE of a
VACANT slot changes nothing. -/
def postEffect (s : State) (k : Operator) (p : Post) (n : SlotId) : State × Outcome :=
  match p.mode with
  | .tune => tuneEffect s k p n
  | .search => searchEffect s k p n
  | .release => releaseEffect s n

/-- Carrier Control's part of a validation: the checks, and the effect where all pass (R58, R60). -/
def judgePost (s : State) (k : Operator) (p : Post) : State × Outcome :=
  match checkPost s k p with
  | .inr o => (s, o)
  | .inl n => postEffect s k p n

/-- One validation, of the post `p` of stage `k` (R46). -/
def validate (k : Operator) (p : Post) (s : State) : State :=
  let r := judgePost s k p
  let t := r.1.stages
  r.1.setStages { bank := t.bank.put k ((t.bank.get k).validated r.2 p), lastServed := k }

/-! ## Changed sets (R51) -/

/-- The slots a write of s3 or s4 names. -/
def namedSlots (high : Bool) (names : Word) : BitVec 96 :=
  if high then (names.setWidth 32).setWidth 96 <<< 64 else names.setWidth 96

/-- The named slots leave the operator's changed set (R51). -/
def removeChanged (k : Operator) (high : Bool) (names : Word) (s : State) : State :=
  s.setCarriers
    { s.carriers with
      changed := s.carriers.changed.put k
        (s.carriers.changed.get k &&& ~~~ namedSlots high names) }

/-- Stage 7 of the service stop (R53). -/
def Stages.stop (t : Stages) : Stages :=
  { t with bank := Bank.tabulate fun k => (t.bank.get k).stopped }

end Sys2Proof.Machine
end

