-- ==== Sys2Proof/Machine/SiteOps.lean ====
section
/-! DEFINITION. Site Control: the check of live words, the service start with its load reads and
its validation, the entry to SERVING, the abandonment of a start, and the service stop (chapter 2). -/

namespace Sys2Proof.Machine

open Sys2Proof

/-! ## Live words (R26, Table 2-5) -/

/-- A count of 1 to 8. -/
def oneToEight (n : Nat) : Bool := decide (1 ≤ n ∧ n ≤ 8)

/-- w17 is in range: its four fields are 1 to 255. -/
def timingOk (w : Word) : Bool :=
  field w 0 8 != 0 && field w 8 8 != 0 && field w 16 8 != 0 && field w 24 8 != 0

/-- w19 is in range: a high mark of 1 to 255, the low mark below it, persistence 1 to 8. -/
def steeringOk (w : Word) : Bool :=
  decide (field w 8 8 < field w 0 8) && oneToEight (field w 16 4)

/-- w21 is in range: onset and clear counts of 1 to 8. -/
def filtersOk (w : Word) : Bool :=
  (List.range 4).all fun j => oneToEight (field w (8 * j) 4) && oneToEight (field w (8 * j + 4) 4)

/-- The check of live word w(17 + `i`) (R26). Every value of w18 and w20 is in range. -/
def liveOk (i : Fin 5) (w : Word) : Bool :=
  match i with
  | 0 => timingOk w
  | 1 => true
  | 2 => steeringOk w
  | 3 => true
  | 4 => filtersOk w

/-- The copy's place of live word w(17 + `i`). -/
def livePlace (i : Fin 5) : Fin 17 := ⟨12 + i.val, by omega⟩

/-! ## Own reads of the service start (R28, Table 2-7) -/

/-- The anchor base: the sampled straps times 64 KiB (R4). -/
def Path.anchorBase (p : Path) : ByteAddr := p.anchor.setWidth 32 <<< 16

/-- The address and length of a load read (Table 2-7); a deposit's access is R153's. -/
def loadAccess (s : State) (p : OwnPurpose) : DownAccess :=
  match p with
  | .loadL1 => ⟨.read, s.path.anchorBase + 40, 8, []⟩
  | .loadL2 => ⟨.read, s.path.anchorBase + 104, 8, []⟩
  | .loadL3 => ⟨.read, s.path.anchorBase + 168, 1, []⟩
  | .loadSector n => ⟨.read, BitVec.ofNat 32 (s.site.sectorBase + 128 * n.val), 2, []⟩
  | .deposit => ⟨.write, s.faults.entryAddress s.faults.producer, 2, []⟩

/-- A load read is presented. -/
def presentLoad (p : OwnPurpose) (s : State) : State := s.present ⟨p, loadAccess s p, false⟩

/-- The copy with the words from place `first` on replaced by loaded data (R29). -/
def Site.loadWords (first : Nat) (data : List Word) (t : Site) : Site :=
  { t with
    copy := Bank.tabulate fun i =>
      if first ≤ i.val then data.getD (i.val - first) (t.copy.get i) else t.copy.get i }

/-- A sector read's two beats are handed to the Steering Engine (R29). -/
def Steering.loadSector (n : SectorId) (data : List Word) (g : Steering) : Steering :=
  { g with loaded := g.loaded.put n ⟨data.getD 0 0, data.getD 1 0⟩ }

/-! ## Validation (R31, Table 2-8) -/

/-- A stretch of the byte space. -/
structure Extent where
  start : Nat
  size : Nat
deriving DecidableEq, Repr

/-- Two stretches share a byte. -/
def Extent.overlaps (a b : Extent) : Bool :=
  decide (a.start < b.start + b.size ∧ b.start < a.start + a.size)

/-- The byte size of the ring. -/
def Site.ringBytes (t : Site) : Nat := 16 * ringEntries t.ringSizeCode

/-- The six windows at the loaded bases (Table 1-2). -/
def windowExtents (p : Path) (t : Site) : List Extent :=
  [⟨p.anchorBase.toNat, 256⟩, ⟨t.stageBase, 384⟩, ⟨t.carrierBase, 3072⟩, ⟨t.unitBase, 1536⟩,
    ⟨t.sectorBase, 1536⟩, ⟨t.ringBase, t.ringBytes⟩]

/-- Some two of a list of stretches share a byte. -/
def anyOverlap : List Extent → Bool
  | [] => false
  | a :: rest => rest.any a.overlaps || anyOverlap rest

/-- Check 1 of Table 2-8 fails. -/
def badWindow (p : Path) (t : Site) : Bool :=
  decide (6 < t.ringSizeCode) ||
    [t.stageBase, t.carrierBase, t.unitBase, t.sectorBase].any (fun b => b % 4096 != 0) ||
    t.ringBase % max 4096 t.ringBytes != 0 ||
    (windowExtents p t).any (fun x => decide (Config.spaceBytes < x.start + x.size)) ||
    anyOverlap (windowExtents p t)

/-- A count lies outside 1 to `top`. -/
def countOutside (top n : Nat) : Bool := decide (n < 1 ∨ top < n)

/-- Check 2 of Table 2-8 fails. -/
def badCount (t : Site) : Bool :=
  countOutside 24 t.unitCount || countOutside 12 t.sectorCount || countOutside 6 t.operatorCount ||
    decide (3 < t.linkRateCode)

/-- An operator's band is empty or does not lie inside the tuning range. -/
def Site.badBandOf (t : Site) (k : Operator) : Bool :=
  decide (t.bandHigh k ≤ t.bandLow k ∨ t.bandLow k < t.rangeLow ∨ t.rangeHigh < t.bandHigh k)

/-- The operators up to the operator count. -/
def Site.operators (t : Site) : List Operator :=
  (List.finRange 6).filter fun k => decide (k.val < t.operatorCount)

/-- Check 3 of Table 2-8 fails. -/
def badBand (t : Site) : Bool :=
  decide (40 < t.maxPower ∨ t.rangeHigh ≤ t.rangeLow) || t.operators.any t.badBandOf

/-- An initiator's role field is undefined, or names an operator above the operator count. -/
def Site.badRoleOf (t : Site) (i : Initiator) : Bool :=
  match Role.ofCode (t.roleCode i) with
  | none => true
  | some (.operator k) => decide (t.operatorCount ≤ k.val)
  | some _ => false

/-- Check 4 of Table 2-8 fails. -/
def badRole (t : Site) : Bool :=
  (List.finRange 8).any t.badRoleOf ||
    !(List.finRange 8).any fun i => Role.ofCode (t.roleCode i) == some .controller

/-- The sectors up to the sector count. -/
def Site.sectors (t : Site) : List SectorId :=
  (List.finRange 12).filter fun n => decide (n.val < t.sectorCount)

/-- A list names a number twice. -/
def namesTwice : List Nat → Bool
  | [] => false
  | n :: rest => rest.contains n || namesTwice rest

/-- A unit number is named by a sector's d0, bits 0 to 31 (Table 10-8). -/
def SectorWords.names (w : SectorWords) (u : Nat) : Bool := decide (u < 32) && flag w.d0 u

/-- The loaded words of a sector fail check 5 by themselves. -/
def SectorWords.bad (w : SectorWords) (t : Site) (n : SectorId) : Bool :=
  ((List.range 32).any fun u => w.names u && decide (t.unitCount ≤ u)) ||
    (w.neighbourNumbers.any fun m => decide (t.sectorCount ≤ m) || m == n.val) ||
    namesTwice w.neighbourNumbers

/-- A unit is a member of two configured sectors. -/
def memberTwice (t : Site) (g : Steering) (u : Nat) : Bool :=
  decide (2 ≤ (t.sectors.filter fun n => (g.loaded.get n).names u).length)

/-- Check 5 of Table 2-8 fails. -/
def badSector (t : Site) (g : Steering) : Bool :=
  (t.sectors.any fun n => (g.loaded.get n).bad t n) || (List.range 32).any (memberTwice t g)

/-- Check 6 of Table 2-8 fails. -/
def badTuning (t : Site) : Bool :=
  (List.finRange 5).any fun i => !liveOk i (t.copy.get (livePlace i))

/-- The first part of validation: the code of the first check that fails (R31). -/
def firstPart (p : Path) (t : Site) : Option ErrorCode :=
  if badWindow p t then some .badWindow
  else if badCount t then some .badCount
  else none

/-- The second part of validation: the code of the first check that fails (R31). -/
def secondPart (t : Site) (g : Steering) : Option ErrorCode :=
  if badBand t then some .badBand
  else if badRole t then some .badRole
  else if badSector t g then some .badSector
  else if badTuning t then some .badTuning
  else none

/-! ## The start (R28 to R32) -/

/-- An accepted SERVE request (R28). -/
def startLoading (s : State) : State :=
  presentLoad .loadL1 (s.setSite { s.site with mode := .starting, error := .none })

/-- A service start ends without reaching SERVING (R23, R29, R31). -/
def endStart (code : ErrorCode) (s : State) : State :=
  s.setSite { s.site with mode := .config, error := code }

/-- The five further windows at the loaded bases (R4). -/
def Site.windows (t : Site) : ServingWindows where
  stage := BitVec.ofNat 32 t.stageBase
  carrier := BitVec.ofNat 32 t.carrierBase
  unit := BitVec.ofNat 32 t.unitBase
  sector := BitVec.ofNat 32 t.sectorBase
  ring := BitVec.ofNat 32 t.ringBase
  ringSize := ringEntries t.ringSizeCode

/-- The loaded role table (R10). -/
def Site.roles (t : Site) : Bank 8 Role :=
  Bank.tabulate fun i => (Role.ofCode (t.roleCode i)).getD .none

/-- A unit link at the entry to SERVING: the values of R108, with a break asked for where the unit
is configured (R109). -/
def linkAtStart (unitCount : Nat) (n : UnitId) : Link :=
  if n.val < unitCount then Link.afterReset.askBreak else Link.afterReset

/-- The view the STARTED notice is produced under: SERVING, site time 0. -/
def Site.startView (t : Site) : FaultView := ⟨.serving, t.faultModes, 0⟩

/-- The entry to SERVING (R32, Table 2-9). -/
def enterServing (s : State) : State where
  pending := s.pending
  path := { s.path with windows := some s.site.windows, roles := s.site.roles }
  site := { s.site with mode := .serving, time := 0 }
  stages := Stages.afterReset
  carriers := Carriers.afterReset
  links := Bank.tabulate (linkAtStart s.site.unitCount)
  linkRate := BitVec.ofNat 8 s.site.linkRateCode
  units := Bank.tabulate (UnitRecord.atStart s.site.unitCount)
  pollTimer := some s.site.pollInterval
  steering := s.steering.start s.site.sectorCount s.site.epochLength
  faults :=
    Faults.start s.site.startView (BitVec.ofNat 32 s.site.ringBase) (ringEntries s.site.ringSizeCode)

/-- After L3: the first part of validation, then the first sector read (R31). -/
def afterL3 (s : State) : State :=
  match firstPart s.path s.site with
  | some code => endStart code s
  | none => presentLoad (.loadSector 0) s

/-- After the last sector read: the second part of validation (R31, R32). -/
def afterSectors (s : State) : State :=
  match secondPart s.site s.steering with
  | some code => endStart code s
  | none => enterServing s

/-- After the read of sector `n`: the next sector read, or the second part of validation. -/
def afterSector (n : SectorId) (s : State) : State :=
  if h : n.val + 1 < 12 then
    if n.val + 1 < s.site.sectorCount then presentLoad (.loadSector ⟨n.val + 1, h⟩) s
    else afterSectors s
  else afterSectors s

/-- An OKAY answer to a load read (R29). -/
def loadOkay (p : OwnPurpose) (data : List Word) (s : State) : State :=
  match p with
  | .loadL1 => presentLoad .loadL2 (s.setSite (s.site.loadWords 0 data))
  | .loadL2 => presentLoad .loadL3 (s.setSite (s.site.loadWords 8 data))
  | .loadL3 => afterL3 (s.setSite (s.site.loadWords 16 data))
  | .loadSector n => afterSector n (s.onSteering (Steering.loadSector n data))
  | .deposit => s

/-- The answer to a load read that is not abandoned (R29). -/
def loadAnswered (p : OwnPurpose) (a : ReadAnswer) (s : State) : State :=
  match a with
  | .okay data => loadOkay p data s
  | .fault => endStart .loadFault s

/-! ## Abandonment (R30) -/

/-- A load read in flight is marked abandoned; one presented and not granted is withdrawn. -/
def Path.abandonLoad (p : Path) : Path :=
  { p with
    ownPresented := none
    ownInFlight := p.ownInFlight.map fun a => { a with abandoned := true } }

/-- A CONFIG request during STARTING abandons the service start (R30). -/
def abandonStart (s : State) : State := (endStart .abandoned s).setPath s.path.abandonLoad

/-! ## The service stop (R34) -/

/-- The units that are not OFF or OUT, whose links owe a stop break (R35). -/
def owingLinks (units : Bank 24 UnitRecord) : BitVec 24 :=
  (List.finRange 24).foldl
    (fun m u =>
      if (units.get u).state = .off ∨ (units.get u).state = .out then m else m ||| (1#24 <<< u.val))
    0

/-- A link at stages 2 and 3 of the stop: emptied, and asked for a break where it owes one. -/
def Link.stopped (owes : Bool) (l : Link) : Link :=
  if owes then l.fullEmpty.askBreak else l.fullEmpty

/-- The view of the stop's notices. -/
def State.stopView (s : State) : FaultView := ⟨.stopping, s.site.faultModes, s.site.time⟩

/-- The service stop, stages 1 to 8 (R34). -/
def serviceStop (s : State) : State where
  pending := s.pending
  path := s.path
  site := { s.site with mode := .stopping, owingBreaks := owingLinks s.units }
  stages := s.stages.stop
  carriers := s.carriers.stop
  links := Bank.tabulate fun n => (s.links.get n).stopped ((owingLinks s.units).getLsbD n.val)
  linkRate := s.linkRate
  units := Bank.tabulate fun u => (s.units.get u).stopped
  pollTimer := none
  steering := s.steering.stop
  faults := s.faults.releaseAll.produceStopped s.stopView

/-! ## Mode requests (R24, Table 2-3) -/

/-- A mode request of w0. -/
inductive ModeRequest where
  | config | serve
deriving DecidableEq, Repr

/-- The mode request a code of w0 stands for; 0 and 3 are undefined (Table 10-2). -/
def ModeRequest.ofCode (n : Nat) : Option ModeRequest :=
  if n = 1 then some .config else if n = 2 then some .serve else none

/-- Table 2-3: the mode request is accepted in a mode. -/
def ModeRequest.accepted (r : ModeRequest) (m : Mode) : Bool :=
  match r with
  | .config => m != .stopping
  | .serve => m == .config

/-- A CONFIG request is delivered (R24, R30, R34). -/
def requestConfig (s : State) : State :=
  match s.site.mode with
  | .starting => abandonStart s
  | .serving => serviceStop s
  | .hold => serviceStop s
  | _ => s

/-- A SERVE request is delivered (R24, R28). -/
def requestServe (s : State) : State :=
  match s.site.mode with
  | .config => startLoading s
  | _ => s

/-- A mode request is delivered. -/
def ModeRequest.deliver (r : ModeRequest) (s : State) : State :=
  match r with
  | .config => requestConfig s
  | .serve => requestServe s

/-! ## Breaks and time (R35, R36) -/

/-- The end of a break is counted: the link leaves the set owing a stop break (R35). -/
def countStopBreak (n : UnitId) (s : State) : State :=
  s.setSite { s.site with owingBreaks := s.site.owingBreaks &&& ~~~ (1#24 <<< n.val) }

/-- One millisecond of site time (R36). -/
def countTime (s : State) : State :=
  if s.site.mode.windowsUp then s.setSite { s.site with time := s.site.time + 1 } else s

end Sys2Proof.Machine
end

