-- ==== Sys2Proof/Machine/Windows.lean ====
section
/-! DEFINITION. The six windows: decoding an address, word classes, rights, and the words that reads
of ACTION and OVERLAID words return (sections 1.3 to 1.5, chapter 10). -/

namespace Sys2Proof.Machine

open Sys2Proof

/-! ## Decoding (R4, Table 1-2) -/

/-- An interpreted window: its byte base and its number of words. -/
structure WindowSpan where
  id : WindowId
  base : Nat
  words : Nat
deriving DecidableEq, Repr

/-- The spans of the five windows installed in service. -/
def ServingWindows.spans (w : ServingWindows) : List WindowSpan :=
  [⟨.stage, w.stage.toNat, 48⟩, ⟨.carrier, w.carrier.toNat, 384⟩, ⟨.unit, w.unit.toNat, 192⟩,
    ⟨.sector, w.sector.toNat, 192⟩, ⟨.ring, w.ring.toNat, 2 * w.ringSize⟩]

/-- The window map in force: the descriptor window at the anchor base at every time, and the five
further windows while they are installed (R4). -/
def Path.windowMap (p : Path) : List WindowSpan :=
  ⟨.descriptor, p.anchorBase.toNat, 32⟩ ::
    match p.windows with
    | none => []
    | some w => w.spans

/-- A byte address lies in a window. -/
def WindowSpan.holds (x : WindowSpan) (a : Nat) : Bool :=
  decide (x.base ≤ a ∧ a < x.base + 8 * x.words)

/-- The word at place `i` of a window (Table 1-2). -/
def wordAt (id : WindowId) (i : Nat) : WordRef :=
  match id with
  | .descriptor => if h : i < 32 then .descriptor ⟨i, h⟩ else .plainMemory
  | .stage => if h : i / 8 < 6 then .stage ⟨i / 8, h⟩ ⟨i % 8, by omega⟩ else .plainMemory
  | .carrier => if h : i / 4 < 96 then .carrier ⟨i / 4, h⟩ ⟨i % 4, by omega⟩ else .plainMemory
  | .unit => if h : i / 8 < 24 then .unit ⟨i / 8, h⟩ ⟨i % 8, by omega⟩ else .plainMemory
  | .sector => if h : i / 16 < 12 then .sector ⟨i / 16, h⟩ ⟨i % 16, by omega⟩ else .plainMemory
  | .ring => .ring

/-- The word at a byte address, against the window map in force. -/
def Path.decodeByte (p : Path) (a : Nat) : WordRef :=
  match p.windowMap.find? fun x => x.holds a with
  | some x => wordAt x.id ((a - x.base) / 8)
  | none => .plainMemory

/-- The words of a request's span, in ascending order. -/
def Path.decode (p : Path) (r : Request) : List WordRef :=
  (List.range r.length).map fun i => p.decodeByte (r.beatAddress i)

/-- The window a word lies in. -/
def WordRef.window : WordRef → Option WindowId
  | .plainMemory => none
  | .descriptor _ => some .descriptor
  | .stage _ _ => some .stage
  | .carrier _ _ => some .carrier
  | .unit _ _ => some .unit
  | .sector _ _ => some .sector
  | .ring => some .ring

/-- The word lies in an interpreted window. -/
def WordRef.interpreted (w : WordRef) : Bool := w.window.isSome

/-! ## Classes (R6, Table 1-3) -/

/-- The class of a descriptor word. -/
def descriptorClass (w : Nat) : WordClass :=
  if w = 0 ∨ w = 1 ∨ w = 3 then .action
  else if w = 2 ∨ w = 4 then .overlaid
  else if w ≤ 21 then .captured
  else .plain

/-- The class of a stage word. -/
def stageClass (w : Nat) : WordClass :=
  if w ≤ 1 then .captured else if w ≤ 4 then .action else .plain

/-- The class of a sector word. -/
def sectorClass (w : Nat) : WordClass :=
  if w ≤ 1 then .captured else if w = 2 then .action else if w ≤ 9 then .overlaid else .plain

/-- The class of a word (Table 1-3). -/
def WordRef.wordClass : WordRef → WordClass
  | .plainMemory => .plain
  | .descriptor w => descriptorClass w.val
  | .stage _ w => stageClass w.val
  | .carrier _ _ => .overlaid
  | .unit _ w => if w.val = 4 then .action else .overlaid
  | .sector _ w => sectorClass w.val
  | .ring => .plain

/-! ## Rights (R11, Table 1-4) -/

/-- CONTROLLER, an OPERATOR or OBSERVER: every role but NONE. -/
def Role.any : Role → Bool
  | .none => false
  | _ => true

/-- A stage's rights, for a stage not above the operator count. -/
def stageRight (kind : AccessKind) (k : Operator) (r : Role) : Bool :=
  match kind with
  | .read => r == .operator k || r == .controller || r == .observer
  | .write => r == .operator k

/-- A role holds the right a kind of access to a word needs (Table 1-4). -/
def hasRight (operatorCount : Nat) (kind : AccessKind) (r : Role) : WordRef → Bool
  | .plainMemory => true
  | .descriptor _ => if kind = .read then r.any else r == .controller
  | .stage k _ => decide (k.val < operatorCount) && stageRight kind k r
  | .carrier _ _ => kind == .read && r.any
  | .unit _ _ => if kind = .read then r.any else r == .controller
  | .sector _ _ => if kind = .read then r.any else r == .controller
  | .ring => kind == .read && (r == .controller || r == .observer)

/-! ## What reads return (R8, R9, R162) -/

/-- A flag as a field value. -/
def bit (b : Bool) : Nat := if b then 1 else 0

/-- w0 MODE (R23). -/
def readMode (s : State) : Word := pack [⟨0, 3, s.site.mode.code⟩, ⟨8, 4, s.site.error.code⟩]

/-- w1 CONSUMER (R160). -/
def readConsumer (s : State) : Word := pack [⟨0, 16, s.faults.consumer⟩]

/-- w2 LOG STATUS (R160). -/
def readLogStatus (s : State) : Word :=
  pack
    [⟨0, 16, s.faults.producer⟩, ⟨16, 16, s.faults.ringSize⟩, ⟨32, 1, bit s.faults.ringFull⟩,
      ⟨33, 1, bit (s.site.mode == .hold)⟩, ⟨34, 1, bit s.faults.depositFault⟩,
      ⟨48, 16, s.faults.suppressed⟩]

/-- w3 SITE FAULTS (R160). The PROTECTION acknowledged mark reads clear. -/
def readSiteFaults (s : State) : Word :=
  let f := s.faults
  pack
    [⟨0, 1, bit f.protection.set⟩, ⟨2, 1, bit f.lapse.condition⟩, ⟨3, 1, bit f.lapse.set⟩,
      ⟨4, 1, bit f.lapse.acknowledged⟩, ⟨8, 3, f.detail.initiator.val⟩,
      ⟨12, 2, f.detail.reason.code⟩, ⟨14, 1, f.detail.kind.code⟩,
      ⟨32, 32, f.detail.address.toNat⟩]

/-- w4 SITE TIME (R36). -/
def readTime (s : State) : Word := pack [⟨0, 32, s.site.time.toNat⟩]

/-- The part-owned descriptor words; the others return memory. -/
def readDescriptor (s : State) (w : Nat) (memory : Word) : Word :=
  match w with
  | 0 => readMode s
  | 1 => readConsumer s
  | 2 => readLogStatus s
  | 3 => readSiteFaults s
  | 4 => readTime s
  | _ => memory

/-- s2: the stage status (R47). -/
def Stage.status (g : Stage) : Word :=
  pack
    [⟨0, 2, g.front.mode.code⟩, ⟨8, 8, g.front.slot.toNat⟩, ⟨16, 1, bit g.back.isSome⟩,
      ⟨17, 1, bit g.pending⟩, ⟨24, 4, g.lastOutcome.code⟩, ⟨32, 8, g.lastSlot.toNat⟩,
      ⟨40, 8, g.serial.toNat⟩]

/-- s2 to s4 of a stage; the other words return memory (R47, R50). -/
def readStage (s : State) (k : Operator) (w : Nat) (memory : Word) : Word :=
  match w with
  | 2 => (s.stage k).status
  | 3 => (s.carriers.changed.get k).setWidth 64
  | 4 => (s.carriers.changed.get k >>> 64).setWidth 64
  | _ => memory

/-- An initiator's role is that of another operator than the one a word belongs to (R9). -/
def concealed (role : Role) (owner : Option Operator) : Bool :=
  match role, owner with
  | .operator j, some k => j != k
  | _, _ => false

/-- A tuning as c1 and c2 show it; zeros while absent. -/
def tuningWord (t : Option Tuning) : Word :=
  match t with
  | none => 0
  | some t => pack [⟨0, 16, t.channel.toNat⟩, ⟨16, 8, t.bandwidth.toNat⟩, ⟨24, 8, t.power.toNat⟩]

/-- The search figures c3 shows: of the running record while SEARCHING, else the summary (R87). -/
def Context.shownSummary (c : Context) : SearchSummary :=
  match c.state, c.search with
  | .searching, some r => r.summary
  | _, _ => c.summary

/-- A carrier entry's words (R73, Table 10-6). -/
def Context.word (c : Context) (n : SlotId) (w : Fin 4) : Word :=
  match w with
  | 0 =>
    pack
      [⟨0, 3, c.state.code⟩, ⟨8, 3, operatorCode c.owner⟩, ⟨16, 5, (slotUnit n).val⟩,
        ⟨24, 2, (slotIndex n).val⟩, ⟨32, 1, bit c.held.isSome⟩, ⟨33, 1, bit c.ready⟩]
  | 1 => tuningWord (c.requested.map Requested.tuning)
  | 2 => tuningWord c.held
  | 3 =>
    pack
      [⟨0, 4, c.outcome.code⟩, ⟨4, 1, bit c.bandLimit⟩, ⟨8, 8, c.reason.toNat⟩,
        ⟨16, 16, c.shownSummary.candidate.toNat⟩, ⟨32, 4, c.shownSummary.lastLevel⟩,
        ⟨48, 16, c.shownSummary.steps⟩]

/-- A carrier entry's word as a role reads it: zero where it is concealed (R9). A VACANT slot's
owner is none. -/
def readCarrier (s : State) (role : Role) (n : SlotId) (w : Fin 4) : Word :=
  if concealed role (s.context n).owner then 0 else (s.context n).word n w

/-- A sector field of four bits: 15 for none. -/
def sectorCode : Option SectorId → Nat
  | none => 15
  | some n => n.val

/-- The condition of a unit kind as u1 shows it: RESTART reads as released (R125). -/
def UnitRecord.conditionOf (r : UnitRecord) (k : UnitKind) : Bool :=
  match k with
  | 0 => r.condition 0
  | 1 => r.condition 1
  | 2 => r.condition 2
  | 3 => r.condition 3
  | 4 => r.silent
  | 5 => r.garbled
  | _ => false

/-- u0 (R125). -/
def readU0 (s : State) (n : UnitId) : Word :=
  let r := s.unit n
  pack
    [⟨0, 3, r.state.code⟩, ⟨4, 1, bit r.impaired⟩, ⟨5, 1, bit r.exhausted⟩, ⟨8, 8, r.attempts⟩,
      ⟨16, 4, sectorCode (s.steering.sectorOf n)⟩]

/-- u1: condition, latch and mark of each unit kind (R125). -/
def readU1 (s : State) (n : UnitId) : Word :=
  pack
    ((List.finRange 7).flatMap fun k =>
      let l := s.faults.latch (.unit n k)
      [⟨4 * k.val, 1, bit ((s.unit n).conditionOf k)⟩, ⟨4 * k.val + 1, 1, bit l.set⟩,
        ⟨4 * k.val + 2, 1, bit l.acknowledged⟩])

/-- u2: the link counters (R107). -/
def readU2 (s : State) (n : UnitId) : Word :=
  let c := (s.link n).counters
  pack
    [⟨0, 8, c.framing⟩, ⟨8, 8, c.noise⟩, ⟨16, 8, c.check⟩, ⟨24, 8, c.stray⟩, ⟨32, 8, c.resends⟩,
      ⟨40, 8, c.timeouts⟩]

/-- u3: the last STATUS's alarm set and its site time (R125). -/
def readU3 (s : State) (n : UnitId) : Word :=
  pack [⟨0, 4, (s.unit n).lastAlarms.toNat⟩, ⟨32, 32, (s.unit n).lastTime.toNat⟩]

/-- u4: the admin request held (R123). -/
def readU4 (s : State) (n : UnitId) : Word :=
  pack [⟨8, 2, match (s.unit n).admin with | .goOut => 1 | .goIn => 2⟩]

/-- u5 and u6: users and attaches of two carrier indexes (R125). -/
def figuresWord (a b : Figures) : Word :=
  pack [⟨0, 10, a.users⟩, ⟨16, 8, a.attaches⟩, ⟨32, 10, b.users⟩, ⟨48, 8, b.attaches⟩]

/-- u7: the command kind in flight and the queue length (R107). -/
def readU7 (s : State) (n : UnitId) : Word :=
  let l := s.link n
  pack
    [⟨0, 3, match l.inFlight with | none => 0 | some x => x.command.code⟩,
      ⟨8, 3, l.queue.length⟩]

/-- A unit entry's words (Table 10-7). -/
def readUnit (s : State) (n : UnitId) (w : Fin 8) : Word :=
  match w with
  | 0 => readU0 s n
  | 1 => readU1 s n
  | 2 => readU2 s n
  | 3 => readU3 s n
  | 4 => readU4 s n
  | 5 => figuresWord ((s.unit n).lastFigures.get 0) ((s.unit n).lastFigures.get 1)
  | 6 => figuresWord ((s.unit n).lastFigures.get 2) ((s.unit n).lastFigures.get 3)
  | 7 => readU7 s n

/-- d3: HOLE conditions, latches and marks, and the member count (R139). -/
def readD3 (s : State) (n : SectorId) : Word :=
  pack
    (((List.finRange 6).flatMap fun k =>
        let l := s.faults.latch (.hole n k)
        [⟨4 * k.val, 1, bit (s.steering.cell n k).hole⟩, ⟨4 * k.val + 1, 1, bit l.set⟩,
          ⟨4 * k.val + 2, 1, bit l.acknowledged⟩]) ++
      [⟨32, 8, (s.steering.defs.get n).memberCount⟩])

/-- A cell's word (R138, Table 10-8). -/
def Cell.word (c : Cell) : Word :=
  pack
    [⟨0, 4, (BitVec.ofInt 4 c.offset).toNat⟩, ⟨4, 3, c.trend.code⟩, ⟨7, 1, bit c.surge⟩,
      ⟨8, 8, c.streak⟩, ⟨16, 16, c.lastAttaches⟩, ⟨32, 10, c.capacity⟩, ⟨47, 17, c.load⟩]

/-- A cell's word as a role reads it (R9). -/
def readCell (s : State) (role : Role) (n : SectorId) (k : Operator) : Word :=
  if concealed role (some k) then 0 else (s.steering.cell n k).word

/-- A sector entry's words (Table 10-8); captured and plain words return memory. -/
def readSector (s : State) (role : Role) (n : SectorId) (w : Fin 16) (memory : Word) : Word :=
  if w.val = 2 then 0
  else if w.val = 3 then readD3 s n
  else if h : 4 ≤ w.val ∧ w.val - 4 < 6 then readCell s role n ⟨w.val - 4, h.2⟩
  else memory

/-- One beat of an OKAY READ, composed from the part's state and the memory data kept (R19). -/
def composeWord (s : State) (role : Role) (w : WordRef) (memory : Word) : Word :=
  match w with
  | .plainMemory => memory
  | .descriptor w => readDescriptor s w.val memory
  | .stage k w => readStage s k w.val memory
  | .carrier n w => readCarrier s role n w
  | .unit n w => readUnit s n w
  | .sector n w => readSector s role n w memory
  | .ring => memory

end Sys2Proof.Machine
end

