-- ==== Sys2Proof/Machine/PathOps.lean ====
section
/-! DEFINITION. The Path Interpreter: arrival, the stall, the checks of taking, delivery and
merging, the arbiter, memory answers, and the return of responses (chapter 1). -/

namespace Sys2Proof.Machine

open Sys2Proof

/-! ## Arrival (R1) -/

/-- A request as it enters the list (Table 1-1). -/
def Entry.arrived (r : Request) : Entry where
  request := r
  stage := .accepted
  taken := none
  response := none
  data := []

/-- Requests waiting on the up side are accepted, in order, while the list has room (R1). -/
def Path.acceptWaiting (p : Path) : Path :=
  let room := Config.acceptedRoom - p.entries.length
  { p with
    entries := p.entries ++ (p.upWaiting.take room).map Entry.arrived
    upWaiting := p.upWaiting.drop room }

/-- A request is presented on the up side: accepted at once where there is room (R1). -/
def Path.arrive (r : Request) (p : Path) : Path :=
  ({ p with upWaiting := p.upWaiting ++ [r] }).acceptWaiting

/-! ## The entry to be taken (R3) -/

/-- The entry waits for memory: HELD or AT-MEMORY. -/
def Entry.underWay (e : Entry) : Bool :=
  match e.stage with
  | .held => true
  | .atMemory => true
  | _ => false

/-- The windows in which a taken entry writes a CAPTURED word. -/
def Entry.capturedWindows (e : Entry) : List WindowId :=
  match e.request.kind, e.taken with
  | .write, some t =>
    (t.words.filter fun w => decide (w.wordClass = .captured)).filterMap WordRef.window
  | _, _ => []

/-- An earlier entry stalls the taking of a request that decodes to `words` (R3). -/
def Entry.stalls (words : List WordRef) (e : Entry) : Bool :=
  e.underWay && e.capturedWindows.any fun w => words.any fun x => x.window == some w

/-- The list split at its oldest ACCEPTED entry. -/
structure Split where
  earlier : List Entry
  entry : Entry
  later : List Entry

/-- The list split at the first entry of a stage. -/
def splitAt (st : EntryStage) : List Entry → Option Split
  | [] => none
  | e :: rest =>
    if e.stage = st then some ⟨[], e, rest⟩
    else (splitAt st rest).map fun x => { x with earlier := e :: x.earlier }

/-- The list with the entry put back. -/
def Split.put (x : Split) (e : Entry) : List Entry := x.earlier ++ e :: x.later

/-- The oldest ACCEPTED entry that may be taken now: no earlier entry stalls it (R3). -/
def Path.takeable (p : Path) : Option Split :=
  match splitAt .accepted p.entries with
  | none => none
  | some x => if x.earlier.any (Entry.stalls (p.decode x.entry.request)) then none else some x

/-! ## The checks (R5, R12, R13) -/

/-- The span check fails: the span runs past the space, or is only partly in one window (R5). -/
def spanRefused (r : Request) (words : List WordRef) : Bool :=
  decide (Config.spaceWords < r.address.toNat + r.length) ||
    match words with
    | [] => false
    | w :: rest => rest.any fun x => x.window != w.window

/-- The place of the first word that breaks the role's rights. -/
def firstBreaking (operatorCount : Nat) (kind : AccessKind) (role : Role) (words : List WordRef) :
    Option Nat :=
  words.findIdx? fun w => !hasRight operatorCount kind role w

/-- The place of the first OVERLAID word. -/
def firstOverlaid (words : List WordRef) : Option Nat :=
  words.findIdx? fun w => decide (w.wordClass = .overlaid)

/-- The address of beat `i` as the protection detail holds it. -/
def detailAddress (r : Request) (i : Nat) : ByteAddr := BitVec.ofNat 32 (r.beatAddress i)

/-- A refusal that is reported: its reason and the reported address. -/
structure Refused where
  reason : RefusalReason
  address : ByteAddr
deriving DecidableEq, Repr

/-- The span, role and class checks in order: the first that fails (R3, R5, R12, R13). -/
def protectionCheck (operatorCount : Nat) (role : Role) (r : Request) (words : List WordRef) :
    Option Refused :=
  if spanRefused r words then some ⟨.span, r.byteAddress⟩
  else
    match firstBreaking operatorCount r.kind role words with
    | some i => some ⟨.role, detailAddress r i⟩
    | none =>
      match r.kind, firstOverlaid words with
      | .write, some i => some ⟨.wordClass, detailAddress r i⟩
      | _, _ => none

/-! ## The state check (R14, Table 1-5) -/

/-- Not all eight enables are set. -/
def lacksEnables (b : Beat) : Bool := b.enables != allEnables

/-- A write of w0 is refused: an undefined request, or one the mode does not allow (R24). -/
def modeRefused (m : Mode) (b : Beat) : Bool :=
  match ModeRequest.ofCode (field b.data 0 2) with
  | none => true
  | some r => !r.accepted m

/-- The state refusal of a write of a descriptor word (Table 1-5). -/
def descriptorRefused (s : State) (w : Nat) (b : Beat) : Bool :=
  if w = 0 then lacksEnables b || modeRefused s.site.mode b
  else if w = 1 then lacksEnables b || !s.faults.accepts (field b.data 0 16)
  else if w = 3 then lacksEnables b
  else if 5 ≤ w ∧ w ≤ 16 then s.site.mode != .config
  else if h : 17 ≤ w ∧ w - 17 < 5 then
    !liveOk ⟨w - 17, h.2⟩ (mergeBytes (s.site.copy.get (livePlace ⟨w - 17, h.2⟩)) b.data b.enables)
  else false

/-- The state refusal of a write of a stage word (R40, R41, R44, R51). -/
def stageRefused (g : Stage) (w : Nat) (b : Beat) : Bool :=
  if w ≤ 1 then g.pending
  else if w = 2 then g.refusesPost b
  else if w ≤ 4 then lacksEnables b
  else false

/-- The state refusal of a write of a sector word. -/
def sectorRefused (m : Mode) (w : Nat) (b : Beat) : Bool :=
  if w ≤ 1 then m.inService else if w = 2 then lacksEnables b else false

/-- The owning block's refusal of one written word (R14, Table 1-5). -/
def ownerRefuses (s : State) (w : WordRef) (b : Beat) : Bool :=
  match w with
  | .plainMemory => false
  | .descriptor w => descriptorRefused s w.val b
  | .stage k w => stageRefused (s.stage k) w.val b
  | .carrier _ _ => false
  | .unit _ w => w.val == 4 && (lacksEnables b || field b.data 8 2 == 3)
  | .sector _ w => sectorRefused s.site.mode w.val b
  | .ring => false

/-- The mode alone refuses writes to interpreted words: STOPPING, and STARTING but for a request
that writes w0 alone (Table 1-5). -/
def modeRefusesWrites (m : Mode) (words : List WordRef) : Bool :=
  match m with
  | .starting => words.any WordRef.interpreted && words != [.descriptor 0]
  | .stopping => words.any WordRef.interpreted
  | _ => false

/-- The state check of a WRITE fails; a READ is not checked against any state (R14). -/
def stateRefused (s : State) (r : Request) (words : List WordRef) : Bool :=
  match r.kind with
  | .read => false
  | .write =>
    modeRefusesWrites s.site.mode words ||
      (words.zip r.beats).any fun p => ownerRefuses s p.1 p.2

/-! ## Merging and delivery (R7, R8, R15 to R18) -/

/-- The place in Site Control's copy of a CAPTURED descriptor word. -/
def copyPlace (w : Nat) : Fin 17 := ⟨(w - 5) % 17, by omega⟩

/-- Enabled bytes are merged into Site Control's copy of a word. -/
def mergeCopy (w : Nat) (b : Beat) (s : State) : State :=
  s.setSite
    { s.site with
      copy := s.site.copy.put (copyPlace w)
        (mergeBytes (s.site.copy.get (copyPlace w)) b.data b.enables) }

/-- A merge of w20 in SERVING or HOLD is a change of fault modes (R148). -/
def mergeFaultModes (b : Beat) (s : State) : State :=
  let s' := mergeCopy 20 b s
  if s.site.mode.inService then
    close (s'.setFaults (s'.faults.modesChanged s'.faultView s.site.faultModes))
  else s'

/-- A CAPTURED descriptor word is merged; a frame word in CONFIG alone (R25, log 11). -/
def mergeDescriptor (w : Nat) (b : Beat) (s : State) : State :=
  if 5 ≤ w ∧ w ≤ 16 then if s.site.mode = .config then mergeCopy w b s else s
  else if w = 20 then mergeFaultModes b s
  else if 17 ≤ w ∧ w ≤ 21 then mergeCopy w b s
  else s

/-- A sector word is merged into the Steering Engine's copy of the loaded words (R7). -/
def SectorWords.merge (second : Bool) (b : Beat) (w : SectorWords) : SectorWords :=
  if second then { w with d1 := mergeBytes w.d1 b.data b.enables }
  else { w with d0 := mergeBytes w.d0 b.data b.enables }

/-- A CAPTURED word is merged into its owner's copy (R7, R16). -/
def mergeWord (w : WordRef) (b : Beat) (s : State) : State :=
  match w with
  | .descriptor w => mergeDescriptor w.val b s
  | .stage k w =>
    if w.val ≤ 1 then s.setStage k ((s.stage k).mergeFront (w.val == 1) b) else s
  | .sector n w =>
    if w.val ≤ 1 then
      s.onSteering fun g =>
        { g with loaded := g.loaded.put n ((g.loaded.get n).merge (w.val == 1) b) }
    else s
  | _ => s

/-- A write of w0 is delivered (R24). -/
def deliverMode (b : Beat) (s : State) : State :=
  match ModeRequest.ofCode (field b.data 0 2) with
  | some r => r.deliver s
  | none => s

/-- A write of w3 is delivered: PROTECTION, LAPSE, then the deposit-fault mark (R147). -/
def deliverSiteFaults (b : Beat) (s : State) : State :=
  let s1 := if flag b.data 0 then acknowledgeSite .protection s else s
  let s2 := if flag b.data 1 then acknowledgeSite .lapse s1 else s1
  if flag b.data 2 then clearDepositMark s2 else s2

/-- The admin request a write of u4 carries. -/
def deliverAdmin (n : UnitId) (code : Nat) (s : State) : State :=
  if code = 1 then requestOut n s else if code = 2 then requestIn n s else s

/-- A write of u4 is delivered: acknowledges, admin request, revive (R123). -/
def deliverUnit (n : UnitId) (b : Beat) (s : State) : State :=
  let s1 := acknowledgeUnit n (b.data.setWidth 7) s
  let s2 := deliverAdmin n (field b.data 8 2) s1
  if flag b.data 12 then requestRevive n s2 else s2

/-- An ACTION word is delivered to its owner, and the event closed (R8). -/
def deliverWord (w : WordRef) (b : Beat) (s : State) : State :=
  match w with
  | .descriptor w =>
    if w.val = 0 then close (deliverMode b s)
    else if w.val = 1 then close (consume (field b.data 0 16) s)
    else if w.val = 3 then close (deliverSiteFaults b s)
    else s
  | .stage k w =>
    if w.val = 2 then s.setStage k ((s.stage k).deliverPost b)
    else if w.val = 3 then removeChanged k false b.data s
    else if w.val = 4 then removeChanged k true b.data s
    else s
  | .unit n w => if w.val = 4 then close (settling (deliverUnit n b) s) else s
  | .sector n w => if w.val = 2 then close (acknowledgeHoles n (b.data.setWidth 6) s) else s
  | _ => s

/-- The words of a class with their beats, in ascending address order. -/
def wordsOf (c : WordClass) (words : List WordRef) (beats : List Beat) : List (WordRef × Beat) :=
  (words.zip beats).filter fun p => decide (p.1.wordClass = c)

/-- The ACTION words of a WRITE are delivered in ascending address order (R8). -/
def deliverAll (words : List WordRef) (beats : List Beat) (s : State) : State :=
  (wordsOf .action words beats).foldl (fun s p => deliverWord p.1 p.2 s) s

/-- The CAPTURED words of a WRITE are merged in ascending address order (R16). -/
def mergeAll (words : List WordRef) (beats : List Beat) (s : State) : State :=
  (wordsOf .captured words beats).foldl (fun s p => mergeWord p.1 p.2 s) s

/-! ## Taking (R3) -/

/-- The request needs memory: a WRITE with a word that is no ACTION word (R15), or a READ with a
PLAIN or CAPTURED word (R19). -/
def needsMemory (kind : AccessKind) (words : List WordRef) : Bool :=
  match kind with
  | .write => words.any fun w => decide (w.wordClass ≠ .action)
  | .read => words.any fun w => decide (w.wordClass = .plain ∨ w.wordClass = .captured)

/-- The verdict of taking. -/
inductive Verdict where
  | reported (x : Refused)
  | refused
  | held
  | answered
deriving DecidableEq, Repr

/-- The checks of taking, in order (R3). -/
def verdict (s : State) (role : Role) (r : Request) (words : List WordRef) : Verdict :=
  match protectionCheck s.site.operatorCount role r words with
  | some x => .reported x
  | none =>
    if stateRefused s r words then .refused
    else if needsMemory r.kind words then .held
    else .answered

/-- The entry after taking (R3, Table 1-1). -/
def Entry.settle (e : Entry) (t : Taken) (v : Verdict) : Entry :=
  match v with
  | .reported _ => { e with stage := .ready, taken := some t, response := some .refused }
  | .refused => { e with stage := .ready, taken := some t, response := some .refused }
  | .held => { e with stage := .held, taken := some t }
  | .answered => { e with stage := .ready, taken := some t, response := some .okay }

/-- The report of a refusal: a PROTECTION trip in SERVING and HOLD (R13). -/
def tripRefusal (r : Request) (x : Refused) (s : State) : State :=
  close
    (s.setFaults
      (s.faults.tripProtection s.faultView ⟨r.initiator, x.reason, r.kind, x.address⟩))

/-- What taking does beyond the entry: a report, or the delivery of a WRITE of ACTION words. -/
def applyVerdict (v : Verdict) (r : Request) (words : List WordRef) (s : State) : State :=
  match v with
  | .reported x => tripRefusal r x s
  | .refused => s
  | .held => s
  | .answered => deliverAll words r.beats s

/-- What taking records (R3). -/
def State.takenFor (s : State) (r : Request) : Taken where
  mode := s.site.mode
  role := s.path.roles.get r.initiator
  words := s.path.decode r

/-- The oldest ACCEPTED entry is taken (R3). -/
def takeEntry (x : Split) (s : State) : State :=
  let r := x.entry.request
  let t := s.takenFor r
  let v := verdict s t.role r t.words
  applyVerdict v r t.words
    (s.setPath { s.path with entries := x.put (x.entry.settle t v) })

/-! ## The arbiter (R20) -/

/-- What the arbiter grants. -/
inductive Grant where
  | passing
  | own
deriving DecidableEq, Repr

/-- The choice of the arbiter: what waits, whether an own access is in flight, and the passing
run (R20). -/
def arbitrate (passing own inFlight : Bool) (run : Nat) : Option Grant :=
  if passing && own then
    if run = Config.passingRunTop && !inFlight then some .own else some .passing
  else if passing then some .passing
  else if own && !inFlight then some .own
  else none

/-- A forwarded beat: an ACTION word's beat is disabled and zero (R15). -/
def forwardBeat (w : WordRef) (b : Beat) : Beat :=
  if w.wordClass = .action then ⟨0, 0⟩ else b

/-- The down-side access of a passing request (R7, R15, R18, R19). -/
def Entry.access (e : Entry) : DownAccess where
  kind := e.request.kind
  address := e.request.byteAddress
  length := e.request.length
  beats :=
    match e.taken with
    | some t => List.zipWith forwardBeat t.words e.request.beats
    | none => e.request.beats

/-- A granted passing request: HELD becomes AT-MEMORY, and the passing run counts it (R20). -/
def Path.grantPassing (x : Split) (p : Path) : Path :=
  { p with
    entries := x.put { x.entry with stage := .atMemory }
    passingRun := countUp Config.passingRunTop p.passingRun
    granted := p.granted ++ [⟨false, x.entry.access⟩] }

/-- A granted own access: in flight, and the passing run becomes 0 (R20). -/
def Path.grantOwn (a : OwnAccess) (p : Path) : Path :=
  { p with
    ownPresented := none
    ownInFlight := some a
    passingRun := 0
    granted := p.granted ++ [⟨true, a.access⟩] }

/-- One grant, when the memory controller can take an access (R20). -/
def Path.grant (p : Path) : Path :=
  match arbitrate (splitAt .held p.entries).isSome p.ownPresented.isSome p.ownInFlight.isSome
      p.passingRun, splitAt .held p.entries, p.ownPresented with
  | some .passing, some x, _ => p.grantPassing x
  | some .own, _, some a => p.grantOwn a
  | _, _, _ => p

/-! ## Memory answers (R16, R17, R19, R21) -/

/-- The oldest granted access is a passing request of a kind, and its entry (log 9). -/
def Path.answering (kind : AccessKind) (p : Path) : Option Split :=
  match p.granted with
  | g :: _ => if g.own = false ∧ g.access.kind = kind then splitAt .atMemory p.entries else none
  | [] => none

/-- The oldest granted access is the own access in flight, of a kind. -/
def Path.answeringOwn (kind : AccessKind) (p : Path) : Option OwnAccess :=
  match p.granted, p.ownInFlight with
  | g :: _, some a => if g.own = true ∧ a.access.kind = kind then some a else none
  | _, _ => none

/-- The entry answered: READY with its response and the data kept (R16, R19). -/
def Entry.answered (code : ResponseCode) (data : List Word) (e : Entry) : Entry :=
  { e with stage := .ready, response := some code, data := data }

/-- An access is answered: the oldest granted one leaves, and its entry is put back. -/
def Path.settleAnswer (x : Split) (code : ResponseCode) (data : List Word) (p : Path) : Path :=
  { p with entries := x.put (x.entry.answered code data), granted := p.granted.tail }

/-- The own access in flight is answered and handed to its owner (R21). -/
def Path.ownAnswered (p : Path) : Path := { p with ownInFlight := none, granted := p.granted.tail }

/-- Merging and delivery take place at an answer: unless the mode is CONFIG, STARTING or STOPPING
and differs from the mode recorded at taking (R17). -/
def delivers (now recorded : Mode) : Bool := now.inService || now == recorded

/-- An OKAY answer's merges and then deliveries (R16, R17). -/
def writeOkay (e : Entry) (s : State) : State :=
  match e.taken with
  | some t =>
    if delivers s.site.mode t.mode then
      deliverAll t.words e.request.beats (mergeAll t.words e.request.beats s)
    else s
  | none => s

/-- The answer to a forwarded WRITE (R16). -/
def writeAnswered (x : Split) (a : Answer) (s : State) : State :=
  match a with
  | .okay => writeOkay x.entry (s.setPath (s.path.settleAnswer x .okay []))
  | .fault => s.setPath (s.path.settleAnswer x .fault [])

/-- The answer to a forwarded READ (R19). -/
def readAnswered (x : Split) (a : ReadAnswer) (s : State) : State :=
  match a with
  | .okay data => s.setPath (s.path.settleAnswer x .okay data)
  | .fault => s.setPath (s.path.settleAnswer x .fault [])

/-- The answer brings as many words as the access asked for. -/
def answerFits (n : Nat) : ReadAnswer → Bool
  | .okay data => decide (data.length = n)
  | .fault => true

/-! ## The return of a response (R2, R19) -/

/-- The data beats of a response to a READ: composed for OKAY, zero otherwise; none to a WRITE. -/
def composeData (s : State) (e : Entry) (code : ResponseCode) : List Word :=
  match e.request.kind, code, e.taken with
  | .read, .okay, some t =>
    t.words.zipIdx.map fun p => composeWord s t.role p.1 (e.data.getD p.2 0)
  | .read, _, _ => List.replicate e.request.length 0
  | .write, _, _ => []

/-- The response an entry returns. -/
def responseOf (s : State) (e : Entry) (code : ResponseCode) : UpResponse where
  initiator := e.request.initiator
  code := code
  data := composeData s e code

/-- The entry at the head of the list, where it is READY, with its response. -/
def Path.returnable (p : Path) : Option (Entry × ResponseCode × List Entry) :=
  match p.entries with
  | e :: rest =>
    match e.stage, e.response with
    | .ready, some c => some (e, c, rest)
    | _, _ => none
  | [] => none

/-- The READY entry at the head returns its response and leaves the list; a waiting request may
then be accepted (R2, R1). -/
def returnHead (e : Entry) (code : ResponseCode) (rest : List Entry) (s : State) : State :=
  s.setPath
    { s.path with entries := rest, lastReturned := some (responseOf s e code) }.acceptWaiting

end Sys2Proof.Machine
end

