-- ==== Sys2Proof/Machine/LinkCommands.lean ====
section
/-! DEFINITION. The meanings of the unit links' commands: the transmitter, the timer and the receiver (chapter 6). -/

namespace Sys2Proof.Machine

open Sys2Proof

/-! A command whose event cannot happen in the state changes nothing (log 1). -/

/-- DISPATCH (R98, R67): the permitted command becomes the in-flight command. -/
def execDispatch (n : UnitId) (s : State) : Host.Outcome State Fault Refusal :=
  .next
    (match (s.link n).dispatchable (s.unit n).state with
    | some (c, rest) =>
      let s' := s.onLink n (Link.dispatch c rest)
      match c with
      | .tune m _ => tuneDispatched s' m
      | _ => s'
    | none => s)

/-- The check character of a frame can end: the frame is on the line, or its preamble is and no break
request leaves the frame unsent (R94; log 3). -/
def Link.frameCanEnd (l : Link) : Bool :=
  match l.tx with
  | .frame => true
  | .preamble => !l.breakRequest
  | .idle => false
  | .sendingBreak => false

/-- FRAME_SEND_END (R93, R94, R99): the check character of the frame being sent ends. -/
def execFrameSendEnd (n : UnitId) (s : State) : Host.Outcome State Fault Refusal :=
  .next
    (if (s.link n).frameCanEnd then s.onLink n (Link.sendEnded s.site.replyTimeout) else s)

/-- BREAK_BEGIN (R94): the requested break begins at the end of the character in progress. -/
def execBreakBegin (n : UnitId) (s : State) : Host.Outcome State Fault Refusal :=
  .next
    (if (s.link n).breakRequest = true ∧ (s.link n).tx ≠ .sendingBreak then
      s.onLink n Link.beginBreak
    else s)

/-- The end of a break, reported to the Unit Supervisor, and to Site Control in STOPPING. -/
def breakEnded (n : UnitId) (s : State) : State :=
  let s' := (s.onLink n Link.endBreak).onUnit n UnitRecord.breakEnded
  if s.site.mode = .stopping then close (countStopBreak n s') else s'

/-- BREAK_END (R94, R111, R35): the 22 bit times of the break have passed. -/
def execBreakEnd (n : UnitId) (s : State) : Host.Outcome State Fault Refusal :=
  .next (if (s.link n).tx = .sendingBreak then breakEnded n s else s)

/-- The reply timer expires on the in-flight command: a re-send, or the second timeout. -/
def replyTimerExpired (n : UnitId) (x : InFlight) (s : State) : State :=
  if x.resent then close (settling (secondTimeout n) (s.onLink n Link.timeOut))
  else s.onLink n (Link.resend x)

/-- REPLY_TIMER_EXPIRY (R99, R100, R120): the running reply timer expires. -/
def execReplyTimerExpiry (n : UnitId) (s : State) : Host.Outcome State Fault Refusal :=
  .next
    (match (s.link n).replyTimer, (s.link n).inFlight with
    | some _, some x => replyTimerExpired n x s
    | _, _ => s)

/-- A taken reply is delivered after the in-flight command has ended (R103). -/
def delivering (n : UnitId) (effect : State → State) (s : State) : State :=
  close (settling effect (s.onLink n Link.replyTaken))

/-- TUNED_REPLY (R103, R104, R68): the check character completes a TUNED that is taken. -/
def execTunedReply (n : UnitId) (c : Samples) (s : State) : Host.Outcome State Fault Refusal :=
  .next
    (match (s.link n).completion c with
    | some (.taken (.tuned m r)) => delivering n (fun s => carrierTuned s m r) s
    | _ => s)

/-- DROPPED_REPLY (R103, R104, R69): the check character completes a DROPPED that is taken. -/
def execDroppedReply (n : UnitId) (c : Samples) (s : State) : Host.Outcome State Fault Refusal :=
  .next
    (match (s.link n).completion c with
    | some (.taken (.dropped m)) => delivering n (fun s => carrierDropped s m) s
    | _ => s)

/-- LEVEL_REPLY (R103, R104, R81): the check character completes a LEVEL that is taken. -/
def execLevelReply (n : UnitId) (c : Samples) (s : State) : Host.Outcome State Fault Refusal :=
  .next
    (match (s.link n).completion c with
    | some (.taken (.level m v)) => delivering n (fun s => carrierLevel s m v) s
    | _ => s)

/-- STATUS_REPLY (R103, R104, R112, R115): the check character completes a STATUS that is taken. -/
def execStatusReply (n : UnitId) (c : Samples) (s : State) : Host.Outcome State Fault Refusal :=
  .next
    (match (s.link n).completion c with
    | some (.taken (.status a f)) => delivering n (takeStatus n a f) s
    | _ => s)

/-- STRAY_FRAME (R103): the check character completes a frame that matches no command in flight. -/
def execStrayFrame (n : UnitId) (c : Samples) (s : State) : Host.Outcome State Fault Refusal :=
  .next
    (match (s.link n).completion c with
    | some .stray => s.onLink n fun l => l.frameDone.discard (s.unit n).state .stray
    | _ => s)

/-- CHECK_DISCARD (R103): the check character completes a frame whose sum is not 0. -/
def execCheckDiscard (n : UnitId) (c : Samples) (s : State) : Host.Outcome State Fault Refusal :=
  .next
    (match (s.link n).completion c with
    | some .check => s.onLink n fun l => l.frameDone.discard (s.unit n).state .check
    | _ => s)

/-- NOISE_DISCARD (R101, R102): a noisy character arrives. -/
def execNoiseDiscard (n : UnitId) (c : Samples) (s : State) : Host.Outcome State Fault Refusal :=
  .next
    (if (s.link n).line = .ready ∧ classify c = .noisy then
      s.onLink n (Link.damaged (s.unit n).state .noise)
    else s)

/-- FRAMING_DISCARD (R101, R102): a framing error arrives, and the line settles. -/
def execFramingDiscard (n : UnitId) (c : Samples) (s : State) : Host.Outcome State Fault Refusal :=
  .next
    (if (s.link n).line = .ready ∧ classify c = .framing then
      s.onLink n fun l => { l.damaged (s.unit n).state .framing with line := .settling }
    else s)

/-- BREAK_RECEIVED (R101, R102, R105, R121): a break arrives. -/
def execBreakReceived (n : UnitId) (c : Samples) (s : State) : Host.Outcome State Fault Refusal :=
  .next
    (if (s.link n).line = .ready ∧ classify c = .breakCharacter then
      close (settling (unitBreak n) (s.onLink n Link.receiveBreak))
    else s)

/-- A good character that completes no frame (R102). -/
def Link.takeGood (u : UnitState) (head : Bool) (b : Byte) (l : Link) : Link :=
  if head then l.takeHead u b else l.takeBody u b

/-- GOOD_CHARACTER_RECEIVED (R102): a good character arrives that completes no frame. -/
def execGoodCharacterReceived (n : UnitId) (c : Samples) (s : State) :
    Host.Outcome State Fault Refusal :=
  .next
    (match classify c with
    | .good head b =>
      if (s.link n).line = .ready ∧ (s.link n).completion c = none then
        s.onLink n (Link.takeGood (s.unit n).state head b)
      else s
    | _ => s)

/-- LINE_CONDITION_READY (R101): the line has been 1 for one whole bit time. -/
def execLineConditionReady (n : UnitId) (s : State) : Host.Outcome State Fault Refusal :=
  .next
    (if (s.link n).line = .settling then s.onLink n fun l => { l with line := .ready } else s)

end Sys2Proof.Machine
end

