-- ==== Sys2Proof/Machine/LogCommands.lean ====
section
/-! DEFINITION. The meanings of the Fault Reporter's commands (chapter 9). -/

namespace Sys2Proof.Machine

open Sys2Proof

/-! A command whose event cannot happen in the state changes nothing (log 1). -/

/-- Writes of the descriptor's ACTION words w1 and w3 are refused in STARTING and STOPPING
(Table 1-5). -/
def Mode.admitsWrites : Mode → Bool
  | .starting => false
  | .stopping => false
  | _ => true

/-- CONSUMER_WRITE (R157, R166): a write of w1, refused where its value is not on the way from the
consumer index to the producer index. -/
def execConsumerWrite (value : BitVec 16) (s : State) : Host.Outcome State Fault Refusal :=
  .next
    (if s.site.mode.admitsWrites && s.faults.accepts value.toNat then close (consume value.toNat s)
    else s)

/-- ACKNOWLEDGE_PROTECTION (R147): a w3 write names PROTECTION. -/
def execAcknowledgeProtection (s : State) : Host.Outcome State Fault Refusal :=
  .next (if s.site.mode.admitsWrites then close (acknowledgeSite .protection s) else s)

/-- ACKNOWLEDGE_LAPSE (R147): a w3 write names LAPSE. -/
def execAcknowledgeLapse (s : State) : Host.Outcome State Fault Refusal :=
  .next (if s.site.mode.admitsWrites then close (acknowledgeSite .lapse s) else s)

/-- CLEAR_DEPOSIT_FAULT (R154, R147): a w3 write asks for the deposit-fault mark to be cleared. -/
def execClearDepositFault (s : State) : Host.Outcome State Fault Refusal :=
  .next (if s.site.mode.admitsWrites then close (clearDepositMark s) else s)

/-- HOLE_ACKNOWLEDGE (R147): a d2 write names the operators whose HOLE latches it acknowledges. -/
def execHoleAcknowledge (n : SectorId) (operators : BitVec 6) (s : State) :
    Host.Outcome State Fault Refusal :=
  .next (if s.site.mode.inService then close (acknowledgeHoles n operators s) else s)

/-- DEPOSIT_ANSWER (R154): the answer to the deposit of the head notice. -/
def execDepositAnswer (a : Answer) (s : State) : Host.Outcome State Fault Refusal :=
  .next
    (match s.path.answeringOwn .write, s.faults.queue with
    | some _, x :: _ =>
      close
        ((s.setPath s.path.ownAnswered).setFaults
          (s.faults.depositAnswered s.faultView s.site.lapsePeriod a x))
    | _, _ => s)

/-- LAPSE_EXPIRY (R159): the lapse timer, which runs in SERVING alone, expires. -/
def execLapseExpiry (s : State) : Host.Outcome State Fault Refusal :=
  .next
    (if s.site.mode = .serving ∧ s.faults.lapseTimer.isSome = true then close (lapseExpired s)
    else s)

end Sys2Proof.Machine
end

