-- ==== Sys2Proof/WellFormed.lean ====
section
/-! DEFINITION. What a command must satisfy to be one the part's interfaces can carry. The meanings
do not assume it: a command that is not well formed is no event of the part and changes nothing. -/

namespace Sys2Proof

/-- A length of 1 to 8 beats (section 1.1, R21). -/
def lengthOk (n : Nat) : Bool := 1 ≤ n && n ≤ 8

/-- A request's length is 1 to 8 beats (section 1.1). -/
def RequestBody.wellFormed : RequestBody → Bool
  | .read n => lengthOk n
  | .write beats => lengthOk beats.length

/-- A read answer brings 1 to 8 words (R19, R21). -/
def ReadAnswer.wellFormed : ReadAnswer → Bool
  | .okay data => lengthOk data.length
  | .fault => true

/-- The check of a command: the lengths section 1.1 and R21 give, and a short post with fewer than
eight enables (R41). -/
def Instr.wellFormed : Instr → Bool
  | .requestArrival r => r.body.wellFormed
  | .memoryReadResponse a => a.wellFormed
  | .loadReadAnswer a => a.wellFormed
  | .shortPost _ _ en => en != 0xFF#8
  | _ => true

end Sys2Proof
end

