-- ==== Sys2Proof/Machine/PathCommands.lean ====
section
/-! DEFINITION. The meanings of the Path Interpreter's commands (chapter 1). -/

namespace Sys2Proof.Machine

open Sys2Proof

/-! A command whose event cannot happen in the state changes nothing (log 1). -/

/-- PIN_RESET (R22, R38, R52, R74, R88, R108, R126, R141, R161): every block takes its reset values,
with the straps sampled. The queue of commands is the model's own and is kept (log 18). -/
def execPinReset (anchor : BitVec 8) (s : State) : Host.Outcome State Fault Refusal :=
  .next (State.afterPinReset anchor s.pending)

/-- REQUEST_ARRIVAL (R1): a request of 1 to 8 beats is accepted, or waits for room. -/
def execRequestArrival (r : Request) (s : State) : Host.Outcome State Fault Refusal :=
  .next (if r.body.wellFormed then s.setPath (s.path.arrive r) else s)

/-- TAKE_REQUEST (R3): the oldest ACCEPTED entry is taken, once nothing stalls it. -/
def execTakeRequest (s : State) : Host.Outcome State Fault Refusal :=
  .next
    (match s.path.takeable with
    | some x => takeEntry x s
    | none => s)

/-- ARBITER_GRANT (R20): the memory controller can take an access, and the arbiter grants one. -/
def execArbiterGrant (s : State) : Host.Outcome State Fault Refusal :=
  .next (s.setPath s.path.grant)

/-- MEMORY_WRITE_RESPONSE (R16, R17): the answer to the oldest granted access, a forwarded WRITE. -/
def execMemoryWriteResponse (a : Answer) (s : State) : Host.Outcome State Fault Refusal :=
  .next
    (match s.path.answering .write with
    | some x => writeAnswered x a s
    | none => s)

/-- MEMORY_READ_RESPONSE (R19): the answer to the oldest granted access, a forwarded READ. -/
def execMemoryReadResponse (a : ReadAnswer) (s : State) : Host.Outcome State Fault Refusal :=
  .next
    (match s.path.answering .read with
    | some x => if answerFits x.entry.request.length a then readAnswered x a s else s
    | none => s)

/-- RESPONSE_RETURN (R2, R19): the READY entry at the head returns its response. -/
def execResponseReturn (s : State) : Host.Outcome State Fault Refusal :=
  .next
    (match s.path.returnable with
    | some (e, c, rest) => returnHead e c rest s
    | none => s)

end Sys2Proof.Machine
end

