-- ==== Sys2Proof/Machine/SiteCommands.lean ====
section
/-! DEFINITION. The meanings of Site Control's commands (chapter 2). -/

namespace Sys2Proof.Machine

open Sys2Proof

/-! A command whose event cannot happen in the state changes nothing (log 1). -/

/-- SERVE_REQUEST (R24, R28): a SERVE mode request is delivered; CONFIG alone accepts it. -/
def execServeRequest (s : State) : Host.Outcome State Fault Refusal :=
  .next (requestServe s)

/-- CONFIG_REQUEST (R24, R30, R34): a CONFIG mode request is delivered; STOPPING refuses it. -/
def execConfigRequest (s : State) : Host.Outcome State Fault Refusal :=
  .next (if s.site.mode = .stopping then s else close (requestConfig s))

/-- LOAD_READ_ANSWER (R29, R30): the answer to the load read in flight; an abandoned read's answer
is discarded. -/
def execLoadReadAnswer (a : ReadAnswer) (s : State) : Host.Outcome State Fault Refusal :=
  .next
    (match s.path.answeringOwn .read with
    | some x =>
      let s' := s.setPath s.path.ownAnswered
      if !answerFits x.access.length a then s
      else if x.abandoned then s'
      else close (loadAnswered x.purpose a s')
    | none => s)

/-- SITE_TIME_COUNT (R36): one millisecond of site time. -/
def execSiteTimeCount (s : State) : Host.Outcome State Fault Refusal := .next (countTime s)

end Sys2Proof.Machine
end

