-- ==== Sys2Proof/Machine/StageCommands.lean ====
section
/-! DEFINITION. The meanings of Request Stages' commands (chapter 3). -/

namespace Sys2Proof.Machine

open Sys2Proof

/-! A command whose event cannot happen in the state changes nothing (log 1). -/

/-- A stage's words can be written: the stage window is interpreted and takes writes, and the stage
is not above the operator count (R11, Table 1-5). -/
def State.stageWritable (s : State) (k : Operator) : Bool :=
  s.site.mode.inService && decide (k.val < s.site.operatorCount)

/-- A write of s2 that is not refused at taking is delivered (R41, R44). -/
def postWritten (k : Operator) (b : Beat) (s : State) : State :=
  if s.stageWritable k && !(s.stage k).refusesPost b then s.setStage k ((s.stage k).deliverPost b)
  else s

/-- FULL_POST (R41 to R44): a write of s2 with all eight enables set. -/
def execFullPost (k : Operator) (data : Word) (s : State) : Host.Outcome State Fault Refusal :=
  .next (postWritten k ⟨data, allEnables⟩ s)

/-- SHORT_POST (R41): a write of s2 with fewer enables set; it stores its bytes. -/
def execShortPost (k : Operator) (data : Word) (enables : BitVec 8) (s : State) :
    Host.Outcome State Fault Refusal :=
  .next (if enables = allEnables then s else postWritten k ⟨data, enables⟩ s)

/-- CHANGED_SET_REMOVE (R51): a write of s3, or of s4 where `high`. -/
def execChangedSetRemove (k : Operator) (high : Bool) (names : Word) (s : State) :
    Host.Outcome State Fault Refusal :=
  .next (if s.stageWritable k then removeChanged k high names s else s)

/-- The validation of the next post, where its mode is the one a command names (R45, R46). -/
def validation (m : PostMode) (s : State) : State :=
  match s.stages.next with
  | some (k, p) => if p.mode = m then close (settling (validate k p) s) else s
  | none => s

/-- VALIDATE_TUNE (R46, R61 to R64): the post the validator serves next is a TUNE. -/
def execValidateTune (s : State) : Host.Outcome State Fault Refusal := .next (validation .tune s)

/-- VALIDATE_SEARCH (R46, R65): the post the validator serves next is a SEARCH. -/
def execValidateSearch (s : State) : Host.Outcome State Fault Refusal :=
  .next (validation .search s)

/-- VALIDATE_RELEASE (R46, R66): the post the validator serves next is a RELEASE. -/
def execValidateRelease (s : State) : Host.Outcome State Fault Refusal :=
  .next (validation .release s)

end Sys2Proof.Machine
end

