-- ==== Sys2Proof/Machine/SteeringCommands.lean ====
section
/-! DEFINITION. The meaning of the Steering Engine's command (chapter 8). -/

namespace Sys2Proof.Machine

open Sys2Proof

/-! A command whose event cannot happen in the state changes nothing (log 1). -/

/-- The epoch timer restarts for the live epoch length, and the cells are evaluated (R134 to R136). -/
def epochExpired (s : State) : State :=
  s.setSteering { s.steering.evaluate s.site with epochTimer := some s.site.epochLength }

/-- EPOCH_EXPIRY (R134 to R136): the epoch timer expires. -/
def execEpochExpiry (s : State) : Host.Outcome State Fault Refusal :=
  .next (if s.steering.epochTimer.isSome then epochExpired s else s)

end Sys2Proof.Machine
end

