-- ==== Sys2Proof/Machine/UnitCommands.lean ====
section
/-! DEFINITION. The meanings of the Unit Supervisor's commands (chapter 7). -/

namespace Sys2Proof.Machine

open Sys2Proof

/-! A command whose event cannot happen in the state changes nothing (log 1). -/

/-- A part of a u4 write: the unit window is interpreted and takes writes in SERVING and HOLD. -/
def unitWritten (effect : State → State) (s : State) : State :=
  if s.site.mode.inService then close (settling effect s) else s

/-- UNIT_ACKNOWLEDGE (R123, R147): a u4 write names the unit kinds to acknowledge. -/
def execUnitAcknowledge (u : UnitId) (kinds : BitVec 7) (s : State) :
    Host.Outcome State Fault Refusal :=
  .next (unitWritten (acknowledgeUnit u kinds) s)

/-- ADMIN_OUT (R124): a u4 write with an OUT request. -/
def execAdminOut (u : UnitId) (s : State) : Host.Outcome State Fault Refusal :=
  .next (unitWritten (requestOut u) s)

/-- ADMIN_IN (R124): a u4 write with an IN request. -/
def execAdminIn (u : UnitId) (s : State) : Host.Outcome State Fault Refusal :=
  .next (unitWritten (requestIn u) s)

/-- REVIVE (R124): a u4 write with the revive flag. -/
def execRevive (u : UnitId) (s : State) : Host.Outcome State Fault Refusal :=
  .next (unitWritten (requestRevive u) s)

/-- GUARD_EXPIRY (R111): the guard timer of a RESETTING unit expires. -/
def execGuardExpiry (u : UnitId) (s : State) : Host.Outcome State Fault Refusal :=
  .next
    (if (s.unit u).guard = true ∧ (s.unit u).state = .resetting then guardExpired u s else s)

/-- RECOVERY_EXPIRY (R122): the recovery timer of a DOWN unit expires. -/
def execRecoveryExpiry (u : UnitId) (s : State) : Host.Outcome State Fault Refusal :=
  .next
    (if (s.unit u).recovery.isSome = true ∧ (s.unit u).state = .down then recoveryAttempt u s else s)

/-- POLL_EXPIRY (R118): the site poll timer expires. -/
def execPollExpiry (s : State) : Host.Outcome State Fault Refusal :=
  .next (if s.pollTimer.isSome then close (pollExpired s) else s)

end Sys2Proof.Machine
end

