-- ==== Sys2Proof/Machine/Dispatch.lean ====
section
/-! DEFINITION. The meaning of each command of the table, one arm a constructor. -/

namespace Sys2Proof.Machine

open Sys2Proof

def exec (i : Instr) (s : State) : Host.Outcome State Fault Refusal :=
  match i with
  | .pinReset anchor => Sys2Proof.Machine.execPinReset anchor s
  | .requestArrival request => Sys2Proof.Machine.execRequestArrival request s
  | .takeRequest => Sys2Proof.Machine.execTakeRequest s
  | .arbiterGrant => Sys2Proof.Machine.execArbiterGrant s
  | .memoryWriteResponse answer => Sys2Proof.Machine.execMemoryWriteResponse answer s
  | .memoryReadResponse answer => Sys2Proof.Machine.execMemoryReadResponse answer s
  | .responseReturn => Sys2Proof.Machine.execResponseReturn s
  | .serveRequest => Sys2Proof.Machine.execServeRequest s
  | .configRequest => Sys2Proof.Machine.execConfigRequest s
  | .loadReadAnswer answer => Sys2Proof.Machine.execLoadReadAnswer answer s
  | .consumerWrite value => Sys2Proof.Machine.execConsumerWrite value s
  | .acknowledgeProtection => Sys2Proof.Machine.execAcknowledgeProtection s
  | .acknowledgeLapse => Sys2Proof.Machine.execAcknowledgeLapse s
  | .clearDepositFault => Sys2Proof.Machine.execClearDepositFault s
  | .fullPost operator data => Sys2Proof.Machine.execFullPost operator data s
  | .shortPost operator data enables => Sys2Proof.Machine.execShortPost operator data enables s
  | .changedSetRemove operator high names => Sys2Proof.Machine.execChangedSetRemove operator high names s
  | .validateTune => Sys2Proof.Machine.execValidateTune s
  | .validateSearch => Sys2Proof.Machine.execValidateSearch s
  | .validateRelease => Sys2Proof.Machine.execValidateRelease s
  | .unitAcknowledge unit kinds => Sys2Proof.Machine.execUnitAcknowledge unit kinds s
  | .adminOut unit => Sys2Proof.Machine.execAdminOut unit s
  | .adminIn unit => Sys2Proof.Machine.execAdminIn unit s
  | .revive unit => Sys2Proof.Machine.execRevive unit s
  | .holeAcknowledge sector operators => Sys2Proof.Machine.execHoleAcknowledge sector operators s
  | .dispatch link => Sys2Proof.Machine.execDispatch link s
  | .frameSendEnd link => Sys2Proof.Machine.execFrameSendEnd link s
  | .breakBegin link => Sys2Proof.Machine.execBreakBegin link s
  | .breakEnd link => Sys2Proof.Machine.execBreakEnd link s
  | .replyTimerExpiry link => Sys2Proof.Machine.execReplyTimerExpiry link s
  | .tunedReply link character => Sys2Proof.Machine.execTunedReply link character s
  | .droppedReply link character => Sys2Proof.Machine.execDroppedReply link character s
  | .levelReply link character => Sys2Proof.Machine.execLevelReply link character s
  | .statusReply link character => Sys2Proof.Machine.execStatusReply link character s
  | .strayFrame link character => Sys2Proof.Machine.execStrayFrame link character s
  | .checkDiscard link character => Sys2Proof.Machine.execCheckDiscard link character s
  | .noiseDiscard link character => Sys2Proof.Machine.execNoiseDiscard link character s
  | .framingDiscard link character => Sys2Proof.Machine.execFramingDiscard link character s
  | .breakReceived link character => Sys2Proof.Machine.execBreakReceived link character s
  | .guardExpiry unit => Sys2Proof.Machine.execGuardExpiry unit s
  | .recoveryExpiry unit => Sys2Proof.Machine.execRecoveryExpiry unit s
  | .pollExpiry => Sys2Proof.Machine.execPollExpiry s
  | .epochExpiry => Sys2Proof.Machine.execEpochExpiry s
  | .depositAnswer answer => Sys2Proof.Machine.execDepositAnswer answer s
  | .lapseExpiry => Sys2Proof.Machine.execLapseExpiry s
  | .goodCharacterReceived link character => Sys2Proof.Machine.execGoodCharacterReceived link character s
  | .lineConditionReady link => Sys2Proof.Machine.execLineConditionReady link s
  | .siteTimeCount => Sys2Proof.Machine.execSiteTimeCount s

end Sys2Proof.Machine
end

