-- ==== Sys2Proof/Machine/Step.lean ====
section
/-! DEFINITION. One step: the command at the front of the queue, or one character time on the
transmit lines where no command waits. -/

namespace Sys2Proof.Machine

open Sys2Proof

/-- One character time on the transmit lines (log 3): on every link the character in progress ends. -/
def State.characterTime (s : State) : State :=
  s.setLinks (Bank.tabulate fun n => (s.links.get n).characterEnded)

/-- One step: the command at the front of the queue runs on the state with the queue's rest. -/
def step (s : State) : Host.Outcome State Fault Refusal :=
  match s.pending with
  | [] => .next s.characterTime
  | c :: rest => exec c (s.setPending rest)

/-- The state with the command a word spells at the front of its queue; unchanged where the word
spells none. -/
def State.withFetchWord (s : State) (nbits w : Nat) : State :=
  match decodeTableWord nbits w with
  | some c => s.setPending (c :: s.pending)
  | none => s

end Sys2Proof.Machine
end

