-- ==== Sys2Proof/Safety.lean ====
section
/-! DEFINITION. What can be wrong about a state, and what a command may change: the frames and the
invariants the statements are made of. -/

namespace Sys2Proof.Machine

open Sys2Proof

/-! ## Frames: `t` differs from `s` at most in the parts named -/

/-- At most the Path Interpreter differs. -/
def OnlyPath (s t : State) : Prop := t.setPath s.path = s

/-- At most Site Control differs. -/
def OnlySite (s t : State) : Prop := t.setSite s.site = s

/-- At most Request Stages differ. -/
def OnlyStages (s t : State) : Prop := t.setStages s.stages = s

/-- At most Carrier Control differs. -/
def OnlyCarriers (s t : State) : Prop := t.setCarriers s.carriers = s

/-- At most the Steering Engine differs. -/
def OnlySteering (s t : State) : Prop := t.setSteering s.steering = s

/-- At most the link of unit `n` differs. -/
def OnlyLink (n : UnitId) (s t : State) : Prop := t.setLinks (t.links.put n (s.link n)) = s

/-- At most the Fault Reporter differs. -/
def OnlyFaults (s t : State) : Prop := t.setFaults s.faults = s

/-- At most the Fault Reporter and the own access presented to the arbiter differ. -/
def OnlyLog (s t : State) : Prop :=
  (t.setFaults s.faults).setPath { t.path with ownPresented := s.path.ownPresented } = s

/-- At most the record and the link of unit `n` differ. -/
def OnlyUnit (n : UnitId) (s t : State) : Prop :=
  (t.setUnits (t.units.put n (s.unit n))).setLinks (t.links.put n (s.link n)) = s

/-- At most Carrier Control, the link of unit `n`, the Steering Engine, and the log differ: what an
event of a carrier slot of the unit may touch, beside the stages. -/
def OnlyCarrierSide (n : UnitId) (s t : State) : Prop :=
  OnlyLog s
    (((t.setCarriers s.carriers).setLinks (t.links.put n (s.link n))).setSteering s.steering)

/-- What an event of a unit may touch: its record as well. -/
def OnlyUnitSide (n : UnitId) (s t : State) : Prop :=
  OnlyCarrierSide n s (t.setUnits (t.units.put n (s.unit n)))

/-- Nothing but the ring's notices and latches changes in the Fault Reporter: the ring's place and
indices, the marks and the timer stay. -/
def SameRing (f g : Faults) : Prop :=
  g.producer = f.producer ∧ g.consumer = f.consumer ∧ g.ringSize = f.ringSize ∧
    g.ringBase = f.ringBase ∧ g.depositFault = f.depositFault ∧ g.lapseTimer = f.lapseTimer

/-! ## Places in the accepted list -/

/-- `e` is the first entry of its stage `st` in the accepted list, with `pre` before and `post`
behind it. -/
def Path.FirstIn (p : Path) (st : EntryStage) (pre : List Entry) (e : Entry) (post : List Entry) :
    Prop :=
  p.entries = pre ++ e :: post ∧ e.stage = st ∧ ∀ d ∈ pre, d.stage ≠ st

/-- The path with another accepted list. -/
def Path.withEntries (p : Path) (l : List Entry) : Path := { p with entries := l }

/-! ## What a latch becomes (R144, R145) -/

/-- A latch with its mark and raised number gone. -/
def Latch.cleared (l : Latch) : Latch :=
  { l with set := false, acknowledged := false, raised := none }

/-- A latch after an acknowledgement, acting as HELD or as EDGE. -/
def Latch.afterAcknowledge (held : Bool) (l : Latch) : Latch :=
  if l.set = false then l
  else if held = false then l.cleared
  else if l.acknowledged = true then l
  else if l.condition = true then { l with acknowledged := true }
  else l.cleared

/-- A latch after a trip, with the raw alarm set of the report: a clear latch is set with the raised
number it is given, a set one records the condition. -/
def Latch.afterTrip (raised : Option (BitVec 16)) (alarms : BitVec 4) (l : Latch) : Latch :=
  if l.set = true then { l with condition := true, alarms := alarms }
  else { set := true, acknowledged := false, condition := true, raised := raised, alarms := alarms }

/-- A latch after a release, with the raw alarm set of the report. -/
def Latch.afterRelease (held : Bool) (alarms : BitVec 4) (l : Latch) : Latch :=
  if held = true ∧ l.set = true ∧ l.acknowledged = true then
    { l.cleared with condition := false, alarms := alarms }
  else { l with condition := false, alarms := alarms }

/-- What a notice of a latch's change says, by the latch, the raw alarm set recorded in it and the
protection detail (R146, R149, Table 9-3). -/
def LatchId.noticeBody (kind : NoticeKind) (alarms : BitVec 4) (d : ProtectionDetail) :
    LatchId → NoticeBody
  | .unit n k =>
    ⟨kind, some (.unit n k), BitVec.ofNat 5 n.val, 0, if k.val < 4 then alarms.setWidth 32 else 0⟩
  | .hole n k =>
    ⟨kind, some (.hole n k), BitVec.ofNat 5 n.val, BitVec.ofNat 3 (k.val + 1), 0⟩
  | .protection => ⟨kind, some .protection, BitVec.ofNat 5 d.initiator.val, 0, d.address⟩
  | .lapse => ⟨kind, some .lapse, 0, 0, 0⟩

/-! ## The reports of one event (R123, R133, R143) -/

/-- A report of a condition: its latch, whether it tripped or was released, and the raw alarm set of
an alarm kind. -/
structure Report where
  id : LatchId
  present : Bool
  alarms : Option (BitVec 4)
deriving DecidableEq, Repr

/-- A kind's latches act as HELD: its mode in w20 is HELD, and it is not momentary (R145). -/
def FaultView.latches (v : FaultView) (k : FaultKind) : Bool := v.isHeld k && !k.momentary

/-- A report makes a notice: its kind is not masked, and it sets a clear latch, or clears one that
acts as HELD with its mark set (R144, R145, R149). -/
def Faults.tells (v : FaultView) (f : Faults) (r : Report) : Bool :=
  let l := f.latch r.id
  !v.masked r.id.kind &&
    if r.present then !l.set else v.latches r.id.kind && l.set && l.acknowledged

/-- The raised number of a latch that is set when its event has made `earlier` notices already: none
where its kind is masked, otherwise the number of its notice (R149, R150). -/
def Faults.raisedNumber (v : FaultView) (f : Faults) (k : FaultKind) (earlier : Nat) :
    Option (BitVec 16) :=
  if v.masked k then none else some (f.nextNumber + BitVec.ofNat 16 earlier)

/-- The Fault Reporter's latches after the reports of one event, made in this order on different
latches behind `earlier` notices of the same event: each acts on its own latch (R144, R145). -/
def Faults.AfterReports (v : FaultView) (earlier : Nat) (reports : List Report) (f g : Faults) :
    Prop :=
  ∀ (i : Nat) (r : Report), reports[i]? = some r →
    let l := f.latch r.id
    g.latch r.id =
      if r.present then
        l.afterTrip
          (f.raisedNumber v r.id.kind (earlier + (reports.take i).countP (f.tells v)))
          (r.alarms.getD l.alarms)
      else l.afterRelease (v.latches r.id.kind) (r.alarms.getD l.alarms)

/-- The cells that became DARK or ceased to be, as reports of HOLE, in the order of R133. -/
def holeChanges (s t : State) : List Report :=
  cellOrder.filterMap fun p =>
    let dark := (t.steering.cell p.1 p.2).hole
    if (s.steering.cell p.1 p.2).hole = dark then none else some ⟨.hole p.1 p.2, dark, none⟩

/-- The reports of an event, in this order and behind `earlier` other notices, act on their latches in
SERVING and HOLD; every other latch but `except`, and in other modes every latch, stays. -/
def OnlyReports (except : LatchId → Prop) (earlier : Nat) (reports : List Report) (s t : State) :
    Prop :=
  (s.site.mode.inService = true →
    s.faults.AfterReports s.faultView earlier reports t.faults) ∧
  ∀ id, ¬ except id →
    (s.site.mode.inService = false ∨ ∀ r ∈ reports, r.id ≠ id) →
    t.faults.latch id = s.faults.latch id

/-! ## What a deposit's answer leaves (R35, R151, R155, R156) -/

/-- A deposited notice is the RAISED notice of this latch's present setting (R156). -/
def Faults.RaisedBy (f : Faults) (x : Notice) (id : LatchId) : Prop :=
  x.body.kind = .raised ∧ x.body.latch = some id ∧ (f.latch id).set = true ∧
    (f.latch id).raised = some x.sequence

/-- An empty queue reports what was suppressed (R151). -/
def Faults.afterSuppressedReport (time : BitVec 32) (f : Faults) : Faults :=
  if f.queue = [] ∧ 0 < f.suppressed then
    { f with
      queue := [⟨f.sequence, time, ⟨.suppressed, none, 0, 0, BitVec.ofNat 32 f.suppressed⟩⟩]
      sequence := f.sequence + 1
      suppressed := 0 }
  else f

/-- In HOLD a head notice that waits and meets a full ring takes the oldest entry, where no other
deposit is outstanding (R155). -/
def Faults.afterRoomMade (free : Bool) (f : Faults) : Faults :=
  if free = true ∧ f.queue ≠ [] ∧ f.ringFull = true then
    { f with consumer := (f.consumer + 1) % f.ringSize }
  else f

/-- In STOPPING a head notice that waits and meets a full ring is discarded with the whole queue,
where no deposit is outstanding, and each notice counts as suppressed (R35, R151). -/
def Faults.afterFullRing (free : Bool) (f : Faults) : Faults :=
  if free = true ∧ f.queue ≠ [] ∧ f.ringFull = true then
    { f with queue := [], suppressed := min 65535 (f.suppressed + f.queue.length) }
  else f

/-- The deposit of the head notice `x`: its two words, every byte enabled, at the ring entry of the
producer index (R153). -/
def Faults.headDeposit (f : Faults) (x : Notice) : OwnAccess :=
  ⟨.deposit,
    ⟨.write, f.ringBase + BitVec.ofNat 32 (16 * f.producer), 2,
      [⟨x.word0, 0xFF#8⟩, ⟨x.word1, 0xFF#8⟩]⟩, false⟩

/-- What the end of an event in SERVING or HOLD, `t` being the state after it, leaves of the own access
presented: the head notice's deposit, where a notice is queued, no deposit was outstanding (`free`),
and the ring has room or the mode is HOLD; otherwise what the path `p` before it presented (R153,
R155). In the other modes it stays. -/
def PresentsNext (free : Bool) (p : Path) (t : State) : Prop :=
  t.path.ownPresented =
    if free = true ∧
        (t.site.mode = .hold ∨ (t.site.mode = .serving ∧ t.faults.ringFull = false)) then
      match t.faults.queue with
      | [] => p.ownPresented
      | x :: _ => some (t.faults.headDeposit x)
    else p.ownPresented

/-! ## The notices of one event (R143, R147 to R150) -/

/-- The Fault Reporter with the latches of another. -/
def Faults.withLatches (f g : Faults) : Faults :=
  { f with
    unitLatches := g.unitLatches, holeLatches := g.holeLatches
    protection := g.protection, lapse := g.lapse }

/-- The Fault Reporter once notices have been produced in order. -/
def Faults.produceAll (v : FaultView) (bodies : List NoticeBody) (f : Faults) : Faults :=
  bodies.foldl (fun g b => g.produce v b) f

/-- The notice a report makes, if it makes one: RAISED for a trip, CLEARED for a release, with the raw
alarm set the report leaves recorded (R144, R145, R149). -/
def Report.notice (v : FaultView) (f : Faults) (r : Report) : Option NoticeBody :=
  if f.tells v r then
    some (r.id.noticeBody (if r.present then .raised else .cleared)
      (r.alarms.getD (f.latch r.id).alarms) f.detail)
  else none

/-- The notices that the reports of one event make, on different latches and in this order: none
outside SERVING and HOLD (R143). -/
def State.noticesOf (s : State) (reports : List Report) : List NoticeBody :=
  if s.site.mode.inService then reports.filterMap (Report.notice s.faultView s.faults) else []

/-- An acknowledgement clears this latch with a CLEARED notice: it acts as HELD, is set without its
mark, its condition is not present, and its kind is not masked (R145, R149). -/
def Faults.clearsAt (v : FaultView) (f : Faults) (id : LatchId) : Bool :=
  let l := f.latch id
  v.latches id.kind && !v.masked id.kind && l.set && !l.acknowledged && !l.condition

/-- The CLEARED notices of the acknowledgement of different latches, in this order (R147, R149). -/
def State.clearings (s : State) (ids : List LatchId) : List NoticeBody :=
  (ids.filter (s.faults.clearsAt s.faultView)).map fun id =>
    id.noticeBody .cleared (s.faults.latch id).alarms s.faults.detail

/-- Beside its latches, the Fault Reporter changes by the notices the event makes, and by the entry a
full ring gives up to a notice that waits in HOLD (R150, R155): nothing else of it does. -/
def LogTells (bodies : List NoticeBody) (s t : State) : Prop :=
  let f := s.faults.produceAll s.faultView bodies
  t.faults.withLatches s.faults =
    if s.site.mode = .hold then f.afterRoomMade (!s.depositOutstanding) else f

/-- What an event in STOPPING leaves of Site Control and the Path Interpreter, `t` being the state after
it: CONFIG with the windows removed and the default roles where no link owes a break, no notice
is queued and no deposit outstanding; otherwise a head notice that can be deposited is presented
(R35). `free` says that no deposit is outstanding. -/
def StopGoesOn (free : Bool) (p : Path) (t : State) : Prop :=
  let ended := t.site.owingBreaks = 0 ∧ t.faults.queue = [] ∧ free = true
  (ended → t.site.mode = .config ∧
    t.path = { p with windows := none, roles := t.path.roles } ∧
    ∀ i, t.path.roles.get i = if i = 0 then .controller else .none) ∧
  (¬ ended → t.site.mode = .stopping ∧
    t.path = { p with
      ownPresented :=
        if free then
          match t.faults.queue with
          | [] => p.ownPresented
          | x :: _ => some (t.faults.headDeposit x)
        else p.ownPresented })

/-! ## Values after reset -/

/-- A carrier slot is VACANT with no history (Table 4-8, R88). -/
def Context.IsReset (c : Context) : Prop :=
  c.state = .vacant ∧ c.owner = none ∧ c.requested = none ∧ c.held = none ∧ c.search = none ∧
    c.bandLimit = false ∧ c.ready = false ∧ c.outcome = .none ∧ c.reason = 0 ∧
    c.summary = ⟨0, 0, 0⟩ ∧ c.orphan = false ∧ c.deferred = none

/-- A stage as Table 3-4 gives it. -/
def Stage.IsReset (g : Stage) : Prop :=
  g.front = ⟨.tune, 0, 0, 0⟩ ∧ g.back = none ∧ g.pending = false ∧ g.lastOutcome = .none ∧
    g.lastSlot = 0 ∧ g.serial = 0

/-- A link as R108 gives it. -/
def Link.IsReset (l : Link) : Prop :=
  l.tx = .idle ∧ l.breakRequest = false ∧ l.txFrame = [] ∧ l.line = .ready ∧ l.rx = .hunt ∧ l.buffer = [] ∧
    l.queue = [] ∧ l.inFlight = none ∧ l.replyTimer = none ∧ l.nextTag = 0 ∧
    l.counters = ⟨0, 0, 0, 0, 0, 0⟩ ∧ l.errorWindow = 0

/-- A unit record as Table 7-3 gives it. -/
def UnitRecord.IsReset (r : UnitRecord) : Prop :=
  r.state = .off ∧ r.admin = .goIn ∧ r.guard = false ∧ r.recovery = none ∧ r.attempts = 0 ∧
    r.exhausted = false ∧ (∀ a, r.filters.get a = ⟨0, 0, false⟩) ∧ r.silent = false ∧
    r.garbled = false ∧ r.impaired = false ∧ r.lastAlarms = 0 ∧ r.lastTime = 0 ∧
    ∀ i, r.lastFigures.get i = ⟨0, 0⟩

/-! ## What an event does to a slot -/

/-- The operator whose changed set a context change adds its slot to, if the change is one of state
or last outcome: the owner after it, or the owner before where the slot becomes VACANT (R49). -/
def Context.told (old new : Context) : Option Operator :=
  if old.state = new.state ∧ old.outcome = new.outcome then none
  else if new.state = .vacant then old.owner
  else new.owner

/-- In Carrier Control, slot `n` takes the context `c` and joins the changed set of the operator
`told`, if there is one; its unit's occupancy list agrees with the contexts, and nothing else
changes (R49, R56). -/
def SlotChanged (n : SlotId) (c : Context) (told : Option Operator) (s t : State) : Prop :=
  t.context n = c ∧ (∀ m, m ≠ n → t.context m = s.context m) ∧
  (∀ u, t.carriers.occupancy.get u =
    if u = slotUnit n then occupancyOf t.carriers.contexts u else s.carriers.occupancy.get u) ∧
  ∀ (k : Operator) (m : SlotId), (t.carriers.changed.get k).getLsbD m.val =
    ((s.carriers.changed.get k).getLsbD m.val || decide (m = n ∧ told = some k))

/-- A cell whose figures have changed from `old` to `new`: its standing is decided where the holding
count or the capacity changed (R132; log 15). -/
def Cell.decided (old new : Cell) : Cell :=
  if old.holding = new.holding ∧ old.capacity = new.capacity then new else new.settle

/-- In the Steering Engine, slot `n`'s record becomes `r`, and the cell of operator `k` in the sector
of the slot's unit, if there is one, changes by `f` and has its standing decided; nothing else
changes (R128, R132). -/
def SlotFigures (n : SlotId) (k : Option Operator) (r : SteeringRecord) (f : Cell → Cell)
    (s t : State) : Prop :=
  t.steering.record n = r ∧ (∀ m, m ≠ n → t.steering.record m = s.steering.record m) ∧
  (∀ d j, t.steering.cell d j =
    if k = some j ∧ s.steering.sectorOf (slotUnit n) = some d then
      Cell.decided (s.steering.cell d j) (f (s.steering.cell d j))
    else s.steering.cell d j) ∧
  t.steering.defs = s.steering.defs ∧ t.steering.loaded = s.steering.loaded ∧
  t.steering.epochTimer = s.steering.epochTimer

/-- No latch but those of HOLE changes. -/
def OnlyHoleLatches (s t : State) : Prop :=
  ∀ id, (∀ d k, id ≠ .hole d k) → t.faults.latch id = s.faults.latch id

/-- A stage whose back half's post `p` has completed with `o` (R46). -/
def Stage.afterValidation (o : Outcome) (p : Post) (g : Stage) : Stage :=
  { g with
    back := if g.pending then some g.front else none
    pending := false
    lastOutcome := o
    lastSlot := p.slot
    serial := g.serial + 1 }

/-- The stages after the validation of stage `k`'s post `p` with outcome `o` (R45, R46). -/
def Stages.afterValidation (k : Operator) (p : Post) (o : Outcome) (t : Stages) : Stages where
  bank := t.bank.put k ((t.bank.get k).afterValidation o p)
  lastServed := k

/-! ## What an event does to a unit -/

/-- A slot's context when its unit leaves LIVE (Table 4-7, R70, R86). -/
def Context.afterUnitLoss (c : Context) : Context :=
  let d := { c with orphan := false, deferred := none }
  match c.state with
  | .vacant => d
  | .suspended => d
  | .searching =>
    { d with
      state := .vacant, owner := none, requested := none, held := none, search := none
      outcome := .unitDown
      summary := (c.search.map fun r => ⟨r.candidate, r.lastLevel, r.steps⟩).getD c.summary }
  | .waiting => { d with state := .suspended, held := none, outcome := .accepted }
  | .tuning => { d with state := .suspended, held := none, outcome := .accepted }
  | .onAir => { d with state := .suspended, held := none, outcome := .accepted }
  | .releasing =>
    { d with
      state := .vacant, owner := none, requested := none, held := none, search := none
      outcome := .released }

/-- In Carrier Control, the four slots of unit `u` take the contexts `f` makes of them and join the
changed sets; the unit's occupancy list agrees with the contexts, and nothing else changes. -/
def UnitSlotsChanged (u : UnitId) (f : Context → Context) (s t : State) : Prop :=
  (∀ m, t.context m = if slotUnit m = u then f (s.context m) else s.context m) ∧
  (∀ v, t.carriers.occupancy.get v =
    if v = u then occupancyOf t.carriers.contexts u else s.carriers.occupancy.get v) ∧
  ∀ (k : Operator) (m : SlotId), (t.carriers.changed.get k).getLsbD m.val =
    ((s.carriers.changed.get k).getLsbD m.val ||
      decide (slotUnit m = u ∧ (s.context m).told (t.context m) = some k))

/-- In the Steering Engine only the records of unit `u`'s slots and the cells of its sector
change. -/
def OnlyUnitFigures (u : UnitId) (s t : State) : Prop :=
  (∀ m, slotUnit m ≠ u → t.steering.record m = s.steering.record m) ∧
  (∀ d j, s.steering.sectorOf u ≠ some d → t.steering.cell d j = s.steering.cell d j) ∧
  t.steering.defs = s.steering.defs ∧ t.steering.loaded = s.steering.loaded ∧
  t.steering.epochTimer = s.steering.epochTimer

/-- The steering records of a unit that has left LIVE: no user figures, nothing on air, and no
operator where the slot became VACANT (R72, R128, R131). -/
def UnitRecordsLost (u : UnitId) (s t : State) : Prop :=
  ∀ m, slotUnit m = u → t.steering.record m =
    { operator :=
        if (s.context m).state = .searching ∨ (s.context m).state = .releasing then none
        else (s.steering.record m).operator
      onAir := if (s.context m).state = .onAir then none else (s.steering.record m).onAir
      users := 0 }

/-- A link after one discard, where the unit's state `u` counts: `f` moves the class's counter, and
the error window count moves too (R106). -/
def Link.counted (u : UnitState) (f : Counters → Counters) (l : Link) : Link :=
  if u = .off ∨ u = .resetting then l
  else { l with counters := f l.counters, errorWindow := countUp 65535 l.errorWindow }

/-- A unit record after a STATUS: the summary replaced and each filter updated (R112, R113). -/
def UnitRecord.AfterStatus (t : Site) (alarms : BitVec 4) (figures : Bank 4 Figures)
    (old new : UnitRecord) : Prop :=
  new.lastAlarms = alarms ∧ new.lastTime = t.time ∧ new.lastFigures = figures ∧
  ∀ a : Fin 4, new.filters.get a =
    if alarms.getLsbD a.val then
      let run := countUp 8 (old.filters.get a).onset
      ⟨run, 0, (old.filters.get a).present || decide (t.onsetCount a ≤ run)⟩
    else
      let run := countUp 8 (old.filters.get a).clear
      ⟨0, run, (old.filters.get a).present && decide (run < t.clearCount a)⟩

/-- A unit record after its entry to DOWN (R116, step 4). -/
def UnitRecord.afterDown (t : Site) (r : UnitRecord) : UnitRecord :=
  { r with
    state := .down
    impaired := false
    recovery :=
      if t.attemptLimit = 0 ∨ r.attempts < t.attemptLimit then some t.recoveryInterval
      else r.recovery
    exhausted :=
      if t.attemptLimit = 0 ∨ r.attempts < t.attemptLimit then r.exhausted else true }

/-- A link whose break has begun (R94). -/
def Link.inBreak (l : Link) : Link :=
  { l with
    tx := .sendingBreak, txFrame := [], breakRequest := false
    inFlight := none, replyTimer := none, errorWindow := 0 }

/-- A link after a break request (R94): in IDLE the break begins at once, in PREAMBLE and FRAME the
request is set, and a break in progress serves it. -/
def Link.afterBreakRequest (l : Link) : Link :=
  if l.tx = .idle then l.inBreak
  else if l.tx = .sendingBreak then l
  else { l with breakRequest := true }

/-- A link after the emptying and the break request of an entry to DOWN, of an OUT request or of the
service stop (R94, R97, R116). -/
def Link.afterUnitLoss (l : Link) : Link :=
  ({ l with queue := [], inFlight := none, replyTimer := none } : Link).afterBreakRequest

/-! ## Invariants -/

/-- The accepted list holds at most 16 entries, a request waits only while it is full (R1), and the
passing run is 0 to 4 (section 1.9). -/
def Path.ListInv (p : Path) : Prop :=
  p.entries.length ≤ 16 ∧ (p.upWaiting ≠ [] → p.entries.length = 16) ∧ p.passingRun ≤ 4

/-- The notice queue holds at most 16 notices, and the suppressed count stops at 65535 (R150). -/
def Faults.QueueInv (f : Faults) : Prop := f.queue.length ≤ 16 ∧ f.suppressed ≤ 65535

/-- The parts of a context that stand or fall with its state (Table 4-1, Table 4-3, R84). -/
def Context.Coherent (c : Context) : Prop :=
  (c.state = .vacant ↔ c.owner = none) ∧
  (c.state = .searching ↔ c.search.isSome = true) ∧
  (c.requested.isSome = true ↔
    c.state = .waiting ∨ c.state = .tuning ∨ c.state = .onAir ∨ c.state = .suspended) ∧
  (c.held.isSome = true →
    c.state = .waiting ∨ c.state = .tuning ∨ c.state = .onAir ∨ c.state = .releasing) ∧
  (c.state = .onAir ∨ c.state = .releasing → c.held.isSome = true) ∧
  (c.deferred.isSome = true → c.orphan = true)

/-- Every context is coherent, and every occupancy list agrees with the contexts (R56). -/
def Carriers.Inv (c : Carriers) : Prop :=
  (∀ n, (c.contexts.get n).Coherent) ∧ ∀ u, c.occupancy.get u = occupancyOf c.contexts u

/-- A link's counters stop at their tops (R106); while a break is sent nothing is in flight, and a
break is waited for in PREAMBLE and FRAME alone (R94); the reply timer runs only for a command in
flight whose frame has ended (R99). -/
def Link.Inv (l : Link) : Prop :=
  l.counters.framing ≤ 255 ∧ l.counters.noise ≤ 255 ∧ l.counters.check ≤ 255 ∧
  l.counters.stray ≤ 255 ∧ l.counters.resends ≤ 255 ∧ l.counters.timeouts ≤ 255 ∧
  l.errorWindow ≤ 65535 ∧
  (l.tx = .sendingBreak → l.inFlight = none) ∧
  (l.breakRequest = true → l.tx = .preamble ∨ l.tx = .frame) ∧
  (l.replyTimer.isSome = true → l.inFlight.isSome = true ∧ l.tx = .idle)

/-- A unit record's marks and timers go with its state (sections 7.1 to 7.6). -/
def UnitRecord.Inv (r : UnitRecord) : Prop :=
  r.attempts ≤ 255 ∧
  (∀ a, (r.filters.get a).onset ≤ 8 ∧ (r.filters.get a).clear ≤ 8) ∧
  (r.guard = true → r.state = .resetting) ∧
  (r.recovery.isSome = true → r.state = .down ∧ r.exhausted = false) ∧
  (r.exhausted = true → r.state = .down) ∧
  (r.impaired = true → r.state = .live) ∧
  (r.state = .out → r.admin = .goOut) ∧
  (r.state = .resetting ∨ r.state = .probing ∨ r.state = .live ∨ r.state = .down →
    r.admin = .goIn)

/-- A cell's offset is −8 to +7; a DARK cell's is +7 and an INACTIVE cell's 0, both with no streak
and no surge (Table 8-1, Table 8-2); streak and accumulator stop at their tops. -/
def Cell.Inv (c : Cell) : Prop :=
  -8 ≤ c.offset ∧ c.offset ≤ 7 ∧
  (c.trend = .dark → c.offset = 7 ∧ c.streak = 0 ∧ c.surge = false) ∧
  (c.trend = .inactive → c.offset = 0 ∧ c.streak = 0 ∧ c.surge = false) ∧
  c.streak ≤ 255 ∧ c.accumulator ≤ 65535

/-- The requested interval is claimed in WAITING, TUNING and SUSPENDED (Table 4-3). -/
def Context.ClaimsRequested (c : Context) (i : Interval) : Prop :=
  (c.state = .waiting ∨ c.state = .tuning ∨ c.state = .suspended) ∧
    c.requested.map (fun r => r.tuning.interval) = some i

/-- The held interval is claimed in WAITING, TUNING, ON-AIR and RELEASING, while the unit-holds mark is
set (Table 4-3). -/
def Context.ClaimsHeld (c : Context) (i : Interval) : Prop :=
  (c.state = .waiting ∨ c.state = .tuning ∨ c.state = .onAir ∨ c.state = .releasing) ∧
    c.held.map Tuning.interval = some i

/-- The order of an occupancy list: by low edge, equal low edges by slot number, a slot's requested entry
before its held one (R56). -/
def Claim.Before (a b : Claim) : Prop :=
  a.interval.low < b.interval.low ∨
    (a.interval.low = b.interval.low ∧
      (a.slot < b.slot ∨ (a.slot = b.slot ∧ a.isHeld = false ∧ b.isHeld = true)))

/-- The slots of sector `d` that operator `k` holds, as the steering records have them (R128). -/
def Steering.held (g : Steering) (d : SectorId) (k : Operator) : List SlotId :=
  (List.finRange 96).filter fun n =>
    decide (g.sectorOf (slotUnit n) = some d ∧ (g.record n).operator = some k)

/-- The weight a slot adds to its cell's capacity: that of its carrier on air, or 0 (R129). -/
def State.slotWeight (s : State) (n : SlotId) : Nat :=
  ((s.steering.record n).onAir.map
    fun code => if (s.unit (slotUnit n)).impaired then code else 2 * code).getD 0

/-- The users a slot adds to its cell's load: its figure while its carrier is on air, or 0 (R130). -/
def State.slotUsers (s : State) (n : SlotId) : Nat :=
  if (s.steering.record n).onAir.isSome then (s.steering.record n).users else 0

/-- The steering records agree with the contexts, and every cell's holding count, capacity and load
are the sums over the slots its operator holds in its sector (R128 to R131). -/
def State.SteeringInv (s : State) : Prop :=
  (∀ n, (s.steering.record n).operator = (s.context n).owner ∧
    (s.steering.record n).onAir =
      if (s.context n).state = .onAir then (s.context n).held.map fun t => t.bandwidth.toNat
      else none) ∧
  ∀ d k,
    (s.steering.cell d k).holding = (s.steering.held d k).length ∧
    (s.steering.cell d k).capacity = ((s.steering.held d k).map s.slotWeight).sum ∧
    (s.steering.cell d k).load = ((s.steering.held d k).map s.slotUsers).sum

/-- A cell's standing goes with its figures (Table 8-2): INACTIVE exactly where its operator holds
nothing in the sector and no capacity is on air, DARK exactly where slots are held and none is. -/
def Cell.Standing (c : Cell) : Prop :=
  (c.trend = .inactive ↔ c.capacity = 0 ∧ c.holding = 0) ∧
  (c.trend = .dark ↔ c.capacity = 0 ∧ c.holding ≠ 0)

/-- What an event of unit `u` leaves of the cells of its sector: each one's holding count, capacity and
load are the sums over the slots its operator holds afterwards, its standing is decided where its
holding count or capacity changed, and its other fields stay (R128 to R132). -/
def UnitCellsDecided (u : UnitId) (s t : State) : Prop :=
  ∀ d k, s.steering.sectorOf u = some d →
    let y := s.steering.cell d k
    let held := t.steering.held d k
    t.steering.cell d k =
      y.decided
        { y with
          holding := held.length
          capacity := (held.map t.slotWeight).sum
          load := (held.map t.slotUsers).sum }

/-- A cell the epoch evaluation found pressed, by its new trend, streak and surge (R135). -/
def Cell.isPressed (t : Site) (c : Cell) : Prop :=
  c.trend ≠ .inactive ∧ c.trend ≠ .dark ∧
    (c.surge = true ∨ (c.trend = .over ∧ t.persistence ≤ c.streak))

/-- A load read that counts: not abandoned. -/
def OwnAccess.isLiveLoad (a : OwnAccess) : Bool := !a.isDeposit && !a.abandoned

/-- An own access writes exactly where it deposits a notice, and reads otherwise (R28, R153). -/
def OwnAccess.KindFits (a : OwnAccess) : Prop := a.access.kind = .write ↔ a.isDeposit = true

/-- The windows are installed exactly in SERVING, HOLD and STOPPING, and the default roles are in
force otherwise (R4, R10); load reads belong to STARTING, one at a time (R28), and deposits to
SERVING, HOLD and STOPPING (R153); deposits write, and load reads read. -/
def State.ModeInv (s : State) : Prop :=
  (s.path.windows.isSome = s.site.mode.windowsUp) ∧
  (s.site.mode.windowsUp = false → s.path.roles = defaultRoles) ∧
  (s.path.ownPresented.any (fun a => !a.isDeposit) = true →
    s.site.mode = .starting ∧ s.path.ownInFlight.any OwnAccess.isLiveLoad = false) ∧
  (s.path.ownInFlight.any OwnAccess.isLiveLoad = true →
    s.site.mode = .starting ∧ s.path.ownPresented = none) ∧
  (s.depositOutstanding = true → s.site.mode.windowsUp = true) ∧
  (∀ a, s.path.ownPresented = some a → a.KindFits) ∧ ∀ a, s.path.ownInFlight = some a → a.KindFits

/-- A deposit presented or in flight is that of the head notice, at the ring entry of the producer
index, and there is one at a time (R153). -/
def State.DepositInv (s : State) : Prop :=
  (∀ a, s.path.ownPresented = some a ∨ s.path.ownInFlight = some a → a.isDeposit = true →
    ∃ x rest, s.faults.queue = x :: rest ∧ a = s.faults.headDeposit x) ∧
  (s.path.ownPresented.any OwnAccess.isDeposit = true →
    s.path.ownInFlight.any OwnAccess.isDeposit = false)

/-- Nothing is left for the end of an event to do: a queued notice's deposit is outstanding, but in
SERVING at a full ring; and in STOPPING some work of the stop is left (R35, R153, R155). -/
def State.Closed (s : State) : Prop :=
  (s.site.mode = .serving → s.faults.queue ≠ [] → s.depositOutstanding = false →
    s.faults.ringFull = true) ∧
  (s.site.mode = .hold ∨ s.site.mode = .stopping → s.faults.queue ≠ [] →
    s.depositOutstanding = true) ∧
  (s.site.mode = .stopping →
    s.site.owingBreaks ≠ 0 ∨ s.faults.queue ≠ [] ∨ s.depositOutstanding = true)

end Sys2Proof.Machine
end

