-- ==== Sys2Proof/Certificates/Slice0/Obligations.lean ====
section
/-! DEFINITION. The statements about the model, from the spec's numbered rules. -/

open Sys2Proof Sys2Proof.Machine

/-! ## The machine -/

/-- A step runs the command at the front of the queue on the state with the queue's rest.

On an empty queue one character time passes, the model's choice (log 3): on every link the character
in progress ends. A preamble is followed by the frame, but where a break is asked for the break
begins, whatever of the frame is left (R93, R94); nothing else changes. -/
def Obligations.StepRunsTheFrontCommand : Prop :=
  (∀ (c : Instr) (rest : List Instr) (s : State),
     step (s.setPending (c :: rest)) = exec c (s.setPending rest)) ∧
  (∀ s : State, s.pending = [] →
     ∃ t, step s = .next t ∧ t.setLinks s.links = s ∧
       ∀ n, t.link n =
         if (s.link n).tx = .idle ∨ (s.link n).tx = .sendingBreak then s.link n
         else if (s.link n).breakRequest = true then (s.link n).inBreak
         else { s.link n with tx := .frame })

/-- Every command of the table answers a next state in every state, and keeps the queue. Both are the
model's choices: a command whose event cannot happen in the state answers the state as it is
(log 1), and PIN_RESET keeps the queue, which is no part of the block (log 18). -/
def Obligations.EveryCommandAnswersNextAndKeepsTheQueue : Prop :=
  ∀ (c : Instr) (s : State), ∃ t, exec c s = .next t ∧ t.pending = s.pending

/-! ## Reset -/

/-- PIN_RESET, in any state: every part of the state takes its reset value, the straps are sampled
as the anchor, and the queue is kept (log 18). The link rate code and the ring base are the model's
choice (log 6) and are left out. A link's and a unit record's reset values are the ones
`LastSectorReadEntersServing` starts from. -/
def Obligations.PinResetSetsEveryBlock : Prop :=
  ∀ (anchor : BitVec 8) (s : State), ∃ t, exec (.pinReset anchor) s = .next t ∧
    t.pending = s.pending ∧
    (t.path.anchor = anchor ∧ t.path.windows = none ∧ t.path.entries = [] ∧
      t.path.passingRun = 0 ∧ t.path.ownPresented = none ∧ t.path.ownInFlight = none ∧
      t.path.granted = [] ∧
      ∀ i, t.path.roles.get i = if i = 0 then .controller else .none) ∧
    (t.site.mode = .config ∧ t.site.error = .none ∧ (∀ i, t.site.copy.get i = 0) ∧
      t.site.time = 0 ∧ t.site.owingBreaks = 0 ∧ t.attention = false) ∧
    (t.stages.lastServed = 5 ∧ ∀ k, (t.stage k).IsReset) ∧
    ((∀ n, (t.context n).IsReset) ∧ (∀ u, t.carriers.occupancy.get u = []) ∧
      ∀ k, t.carriers.changed.get k = 0) ∧
    (∀ n, (t.link n).IsReset) ∧
    ((∀ u, (t.unit u).IsReset) ∧ t.pollTimer = none) ∧
    ((∀ d k, t.steering.cell d k = ⟨.inactive, 0, 0, 0, 0, 0, 0, false, 0, false⟩) ∧
      (∀ d, t.steering.defs.get d = ⟨0, []⟩) ∧ (∀ n, t.steering.record n = ⟨none, none, 0⟩) ∧
      t.steering.epochTimer = none) ∧
    (∀ id, t.faults.latch id = ⟨false, false, false, none, 0⟩) ∧
    (t.faults.detail = ⟨0, .span, .read, 0⟩ ∧ t.faults.queue = [] ∧ t.faults.sequence = 0 ∧
      t.faults.suppressed = 0 ∧ t.faults.producer = 0 ∧ t.faults.consumer = 0 ∧
      t.faults.ringSize = 16 ∧ t.faults.depositFault = false ∧ t.faults.lapseTimer = none) ∧
    Link.afterReset.IsReset ∧ UnitRecord.afterReset.IsReset

/-! ## The memory path -/

/-- The delivery of one ACTION word (R8) is what the word's rows of the table do by themselves, in the
states in which those rows act (the rows as deliveries of one word: log 2): w0 is CONFIG_REQUEST or
SERVE_REQUEST, w1 CONSUMER_WRITE, w3 the two acknowledgements and CLEAR_DEPOSIT_FAULT, s2 FULL_POST and
SHORT_POST, s3 and s4 CHANGED_SET_REMOVE, u4 UNIT_ACKNOWLEDGE, ADMIN_OUT, ADMIN_IN and REVIVE, and d2
HOLE_ACKNOWLEDGE. A word of another class delivers nothing.

A word that carries several parts delivers each part it carries, one after the other: w3 the
acknowledgement of PROTECTION, that of LAPSE, and the clearing of the deposit-fault mark (R147); u4 the
acknowledgements, the admin request, and revive (R123). -/
def Obligations.ActionWordsAreDeliveredAsTheirRows : Prop :=
  ∀ (u : State) (b : Beat),
    let w := b.data
    (field w 0 2 = 1 → u.site.mode ≠ .stopping →
      exec .configRequest u = .next (deliverWord (.descriptor 0) b u)) ∧
    (field w 0 2 = 2 → u.site.mode = .config →
      exec .serveRequest u = .next (deliverWord (.descriptor 0) b u)) ∧
    (∀ v : BitVec 16, v.toNat = field w 0 16 → v.toNat < u.faults.ringSize →
      (v.toNat + u.faults.ringSize - u.faults.consumer) % u.faults.ringSize ≤
        (u.faults.producer + u.faults.ringSize - u.faults.consumer) % u.faults.ringSize →
      u.site.mode ≠ .starting → u.site.mode ≠ .stopping →
      exec (.consumerWrite v) u = .next (deliverWord (.descriptor 1) b u)) ∧
    (u.site.mode ≠ .starting → u.site.mode ≠ .stopping →
      (field w 0 3 = 1 →
        exec .acknowledgeProtection u = .next (deliverWord (.descriptor 3) b u)) ∧
      (field w 0 3 = 2 → exec .acknowledgeLapse u = .next (deliverWord (.descriptor 3) b u)) ∧
      (field w 0 3 = 4 → exec .clearDepositFault u = .next (deliverWord (.descriptor 3) b u)) ∧
      (field w 0 3 ≠ 0 → ∀ x y : State,
        (if w.getLsbD 0 then exec .acknowledgeProtection u = .next x else x = u) →
        (if w.getLsbD 1 then exec .acknowledgeLapse x = .next y else y = x) →
        if w.getLsbD 2 then
          exec .clearDepositFault y = .next (deliverWord (.descriptor 3) b u)
        else deliverWord (.descriptor 3) b u = y)) ∧
    (∀ k : Operator, u.site.mode.inService = true → k.val < u.site.operatorCount →
      (b.enables = 0xFF#8 → field w 0 2 ≠ 3 →
        exec (.fullPost k w) u = .next (deliverWord (.stage k 2) b u)) ∧
      (b.enables ≠ 0xFF#8 → b.enables.getLsbD 0 = false ∨ field w 0 2 ≠ 3 →
        exec (.shortPost k w b.enables) u = .next (deliverWord (.stage k 2) b u)) ∧
      exec (.changedSetRemove k false w) u = .next (deliverWord (.stage k 3) b u) ∧
      exec (.changedSetRemove k true w) u = .next (deliverWord (.stage k 4) b u)) ∧
    (∀ n : UnitId, u.site.mode.inService = true →
      (field w 8 2 = 0 → w.getLsbD 12 = false →
        exec (.unitAcknowledge n (w.setWidth 7)) u = .next (deliverWord (.unit n 4) b u)) ∧
      (field w 0 7 = 0 → field w 8 2 = 1 → w.getLsbD 12 = false →
        exec (.adminOut n) u = .next (deliverWord (.unit n 4) b u)) ∧
      (field w 0 7 = 0 → field w 8 2 = 2 → w.getLsbD 12 = false →
        exec (.adminIn n) u = .next (deliverWord (.unit n 4) b u)) ∧
      (field w 0 7 = 0 → field w 8 2 = 0 → w.getLsbD 12 = true →
        exec (.revive n) u = .next (deliverWord (.unit n 4) b u)) ∧
      (∀ x y : State, exec (.unitAcknowledge n (w.setWidth 7)) u = .next x →
        (field w 8 2 = 0 ∧ y = x ∨ field w 8 2 = 1 ∧ exec (.adminOut n) x = .next y ∨
          field w 8 2 = 2 ∧ exec (.adminIn n) x = .next y) →
        if w.getLsbD 12 then exec (.revive n) y = .next (deliverWord (.unit n 4) b u)
        else deliverWord (.unit n 4) b u = y)) ∧
    (∀ n : SectorId, u.site.mode.inService = true →
      exec (.holeAcknowledge n (w.setWidth 6)) u = .next (deliverWord (.sector n 2) b u)) ∧
    (∀ r : WordRef, r.wordClass ≠ .action → deliverWord r b u = u)

/-- TAKE_REQUEST of a request that no earlier entry stalls and that passes every check: where it
needs memory it becomes HELD; a READ that needs none becomes READY with OKAY. The entry records the
mode, the initiator's role and the decoding in force; nothing else changes.

TAKE_REQUEST of a WRITE of ACTION words alone that passes every check: READY with OKAY, and then the
words are delivered at once, in ascending address order, each on what the one before left (R8, R15).
Which requests need memory is R15's and R19's rule.

TAKE_REQUEST of a request that only the owning blocks' states refuse: READY with REFUSED, and
nothing else changes, so no PROTECTION trip results.

TAKE_REQUEST while an earlier WRITE of a CAPTURED word of the same window is HELD or AT-MEMORY:
nothing is taken. No other entry stalls a taking (R3). -/
def Obligations.TakingAdmitsRefusesOrStalls : Prop :=
  (∀ (s : State) (pre post : List Entry) (e : Entry),
     s.path.FirstIn .accepted pre e post →
     (∀ d ∈ pre, d.stalls (s.path.decode e.request) = false) →
     protectionCheck s.site.operatorCount (s.path.roles.get e.request.initiator) e.request
       (s.path.decode e.request) = none →
     stateRefused s e.request (s.path.decode e.request) = false →
     let ready := s.setPath (s.path.withEntries
       (pre ++ { e with stage := .ready, taken := some (s.takenFor e.request),
                        response := some .okay } :: post))
     (needsMemory e.request.kind (s.path.decode e.request) = true →
       exec .takeRequest s = .next
         (s.setPath (s.path.withEntries
           (pre ++ { e with stage := .held, taken := some (s.takenFor e.request) } :: post)))) ∧
     (needsMemory e.request.kind (s.path.decode e.request) = false → e.request.kind = .read →
       exec .takeRequest s = .next ready) ∧
     (e.request.kind = .write → (∀ w ∈ s.path.decode e.request, w.wordClass = .action) →
       exec .takeRequest s = .next
         (((s.path.decode e.request).zip e.request.beats).foldl
           (fun u p => deliverWord p.1 p.2 u) ready))) ∧
  (∀ words : List WordRef,
     (needsMemory .write words = true ↔ ∃ w ∈ words, w.wordClass ≠ .action) ∧
     (needsMemory .read words = true ↔
       ∃ w ∈ words, w.wordClass = .plain ∨ w.wordClass = .captured)) ∧
  (∀ (s : State) (pre post : List Entry) (e : Entry),
     s.path.FirstIn .accepted pre e post →
     (∀ d ∈ pre, d.stalls (s.path.decode e.request) = false) →
     protectionCheck s.site.operatorCount (s.path.roles.get e.request.initiator) e.request
       (s.path.decode e.request) = none →
     stateRefused s e.request (s.path.decode e.request) = true →
     exec .takeRequest s = .next
       (s.setPath (s.path.withEntries
         (pre ++ { e with stage := .ready, taken := some (s.takenFor e.request),
                          response := some .refused } :: post)))) ∧
  (∀ (s : State) (pre post : List Entry) (e d : Entry) (t : Taken) (w v : WordRef),
     s.path.FirstIn .accepted pre e post →
     d ∈ pre → d.request.kind = .write → (d.stage = .held ∨ d.stage = .atMemory) →
     d.taken = some t → w ∈ t.words → w.wordClass = .captured →
     v ∈ s.path.decode e.request → w.window ≠ none → v.window = w.window →
     exec .takeRequest s = .next s) ∧
  (∀ (d : Entry) (words : List WordRef), d.stalls words = true ↔
     d.request.kind = .write ∧ (d.stage = .held ∨ d.stage = .atMemory) ∧
       ∃ t, d.taken = some t ∧ ∃ w ∈ t.words, w.wordClass = .captured ∧ w.window ≠ none ∧
         ∃ v ∈ words, v.window = w.window) ∧
  (∀ (s : State) (r : Request),
     s.takenFor r = ⟨s.site.mode, s.path.roles.get r.initiator, s.path.decode r⟩)

/-- TAKE_REQUEST of a request that the span, role or class check refuses: READY with REFUSED, and no
latch but PROTECTION changes. In SERVING and HOLD a clear PROTECTION latch is set, keeps the detail and,
unless it is masked, the number of its RAISED notice, which joins the log; in HOLD that notice may take
the oldest entry of a full ring, and the next deposit is presented (R13, R144, R146, R149, R155). In
CONFIG and STARTING nothing but the list changes.

In STOPPING, and in SERVING and HOLD where the latch is set already, latch and detail stay; and in a state
in which no event has left a deposit to present or a stop to end, as every event does, nothing but the
list changes. -/
def Obligations.ProtectionRefusalTripsTheLatch : Prop :=
  ∀ (s : State) (pre post : List Entry) (e : Entry) (x : Refused),
    s.path.FirstIn .accepted pre e post →
    (∀ d ∈ pre, d.stalls (s.path.decode e.request) = false) →
    protectionCheck s.site.operatorCount (s.path.roles.get e.request.initiator) e.request
      (s.path.decode e.request) = some x →
    let path := s.path.withEntries
      (pre ++ { e with stage := .ready, taken := some (s.takenFor e.request),
                       response := some .refused } :: post)
    let detail : ProtectionDetail := ⟨e.request.initiator, x.reason, e.request.kind, x.address⟩
    let told :=
      if s.faultView.masked .protection then s.faults
      else s.faults.produce s.faultView (LatchId.protection.noticeBody .raised 0 detail)
    let tripped : Faults :=
      { told with
        detail := detail
        protection := { s.faults.protection with
          set := true, acknowledged := false
          raised := s.faults.raisedNumber s.faultView .protection 0 } }
    ∃ t, exec .takeRequest s = .next t ∧ t.path.entries = path.entries ∧
      (∀ j, j ≠ .protection → t.faults.latch j = s.faults.latch j) ∧
      (s.site.mode ≠ .stopping →
        OnlyLog (s.setPath path) t ∧ PresentsNext (!s.depositOutstanding) path t) ∧
      (s.faults.protection.set = false →
        (s.site.mode = .serving → t.faults = tripped) ∧
        (s.site.mode = .hold → t.faults = tripped.afterRoomMade (!s.depositOutstanding))) ∧
      (s.site.mode = .config ∨ s.site.mode = .starting → t = s.setPath path) ∧
      (s.site.mode = .stopping ∨ s.faults.protection.set = true →
        t.faults.protection = s.faults.protection ∧ t.faults.detail = s.faults.detail ∧
        (s.Closed → t = s.setPath path))

/-- The checks in order: the span check; then the lowest word that breaks the role's rights; then,
for a WRITE, the lowest OVERLAID word. A READ is not refused for class.

The span check fails exactly where the span runs past the 32-bit space, or holds a word of an
interpreted window and a word outside that window (R5).

A READ asks for a number of beats and carries none; a WRITE carries its beats; beat i of either lies 8i
above the request's address, which counts words of 8 bytes. -/
def Obligations.ChecksReportTheLowestWord : Prop :=
  (∀ (count : Nat) (role : Role) (r : Request) (words : List WordRef),
     (spanRefused r words = true →
       protectionCheck count role r words = some ⟨.span, r.byteAddress⟩) ∧
     (spanRefused r words = false → ∀ i : Nat, ∀ w : WordRef, words[i]? = some w →
       hasRight count r.kind role w = false →
       (∀ j < i, ∀ v : WordRef, words[j]? = some v → hasRight count r.kind role v = true) →
       protectionCheck count role r words = some ⟨.role, BitVec.ofNat 32 (r.beatAddress i)⟩) ∧
     (spanRefused r words = false → (∀ w ∈ words, hasRight count r.kind role w = true) →
       (r.kind = .read → protectionCheck count role r words = none) ∧
       ((∀ w ∈ words, w.wordClass ≠ .overlaid) → protectionCheck count role r words = none) ∧
       (∀ i : Nat, ∀ w : WordRef, r.kind = .write → words[i]? = some w →
         w.wordClass = .overlaid →
         (∀ j < i, ∀ v : WordRef, words[j]? = some v → v.wordClass ≠ .overlaid) →
         protectionCheck count role r words =
           some ⟨.wordClass, BitVec.ofNat 32 (r.beatAddress i)⟩))) ∧
  (∀ (r : Request) (words : List WordRef),
     spanRefused r words = true ↔
       2 ^ 32 < 8 * (r.address.toNat + r.length) ∨
       ∃ w ∈ words, ∃ v ∈ words, w.window ≠ none ∧ v.window ≠ w.window) ∧
  (∀ r : Request,
     (∀ n, r.body = .read n → r.kind = .read ∧ r.length = n ∧ r.beats = []) ∧
     (∀ beats, r.body = .write beats →
       r.kind = .write ∧ r.length = beats.length ∧ r.beats = beats) ∧
     r.byteAddress = BitVec.ofNat 32 (8 * r.address.toNat) ∧
     ∀ i, r.beatAddress i = 8 * (r.address.toNat + i))

/-- The window map, the decoding of an address against it, the classes of the words, and the rights of
each role over each window (Tables 1-2 to 1-4). At an address that no two windows hold, a word of a
window decodes to its entry and its place in the entry; outside every window it is plain memory. A word
of an entry belongs to that entry's window, plain memory to none. -/
def Obligations.WindowsClassesAndRightsFollowTheTables : Prop :=
  (∀ p : Path,
     p.windowMap =
       ⟨.descriptor, 65536 * p.anchor.toNat, 32⟩ ::
         (match p.windows with
         | none => []
         | some x =>
           [⟨.stage, x.stage.toNat, 48⟩, ⟨.carrier, x.carrier.toNat, 384⟩,
             ⟨.unit, x.unit.toNat, 192⟩, ⟨.sector, x.sector.toNat, 192⟩,
             ⟨.ring, x.ring.toNat, 2 * x.ringSize⟩]) ∧
     (∀ (x : WindowSpan) (a : Nat), x.holds a = true ↔ x.base ≤ a ∧ a < x.base + 8 * x.words) ∧
     (∀ r : Request, (p.decode r).length = r.length ∧ ∀ i < r.length,
       (p.decode r)[i]? = some (p.decodeByte (8 * (r.address.toNat + i)))) ∧
     (∀ a, (∀ x ∈ p.windowMap, x.holds a = false) → p.decodeByte a = .plainMemory) ∧
     (∀ (x : WindowSpan) (a : Nat), x ∈ p.windowMap → x.holds a = true →
       (∀ y ∈ p.windowMap, y.holds a = true → y = x) →
       (∀ w : Fin 32, x.id = .descriptor → a = x.base + 8 * w.val →
         p.decodeByte a = .descriptor w) ∧
       (∀ (k : Operator) (w : Fin 8), x.id = .stage → a = x.base + 64 * k.val + 8 * w.val →
         p.decodeByte a = .stage k w) ∧
       (∀ (n : SlotId) (w : Fin 4), x.id = .carrier → a = x.base + 32 * n.val + 8 * w.val →
         p.decodeByte a = .carrier n w) ∧
       (∀ (n : UnitId) (w : Fin 8), x.id = .unit → a = x.base + 64 * n.val + 8 * w.val →
         p.decodeByte a = .unit n w) ∧
       (∀ (n : SectorId) (w : Fin 16), x.id = .sector → a = x.base + 128 * n.val + 8 * w.val →
         p.decodeByte a = .sector n w) ∧
       (x.id = .ring → p.decodeByte a = .ring))) ∧
  ((∀ w : Fin 32, (WordRef.descriptor w).wordClass =
      if w.val ∈ [0, 1, 3] then .action else if w.val ∈ [2, 4] then .overlaid
      else if w.val ≤ 21 then .captured else .plain) ∧
    (∀ (k : Operator) (w : Fin 8), (WordRef.stage k w).wordClass =
      if w.val ≤ 1 then .captured else if w.val ≤ 4 then .action else .plain) ∧
    (∀ n w, (WordRef.carrier n w).wordClass = .overlaid) ∧
    (∀ (n : UnitId) (w : Fin 8), (WordRef.unit n w).wordClass =
      if w.val = 4 then .action else .overlaid) ∧
    (∀ (n : SectorId) (w : Fin 16), (WordRef.sector n w).wordClass =
      if w.val ≤ 1 then .captured else if w.val = 2 then .action
      else if w.val ≤ 9 then .overlaid else .plain) ∧
    WordRef.ring.wordClass = .plain ∧ WordRef.plainMemory.wordClass = .plain) ∧
  ((∀ w, (WordRef.descriptor w).window = some .descriptor) ∧
    (∀ k w, (WordRef.stage k w).window = some .stage) ∧
    (∀ n w, (WordRef.carrier n w).window = some .carrier) ∧
    (∀ n w, (WordRef.unit n w).window = some .unit) ∧
    (∀ n w, (WordRef.sector n w).window = some .sector) ∧
    WordRef.ring.window = some .ring ∧ WordRef.plainMemory.window = none) ∧
  (∀ (count : Nat) (role : Role),
     (∀ w, hasRight count .read role (.descriptor w) = true ↔ role ≠ .none) ∧
     (∀ w, hasRight count .write role (.descriptor w) = true ↔ role = .controller) ∧
     (∀ k w, hasRight count .read role (.stage k w) = true ↔
       k.val < count ∧ (role = .operator k ∨ role = .controller ∨ role = .observer)) ∧
     (∀ k w, hasRight count .write role (.stage k w) = true ↔
       k.val < count ∧ role = .operator k) ∧
     (∀ n w, hasRight count .read role (.carrier n w) = true ↔ role ≠ .none) ∧
     (∀ n w, hasRight count .write role (.carrier n w) = false) ∧
     (∀ n w, hasRight count .read role (.unit n w) = true ↔ role ≠ .none) ∧
     (∀ n w, hasRight count .write role (.unit n w) = true ↔ role = .controller) ∧
     (∀ n w, hasRight count .read role (.sector n w) = true ↔ role ≠ .none) ∧
     (∀ n w, hasRight count .write role (.sector n w) = true ↔ role = .controller) ∧
     (hasRight count .read role .ring = true ↔ role = .controller ∨ role = .observer) ∧
     hasRight count .write role .ring = false ∧
     ∀ kind, hasRight count kind role .plainMemory = true)

/-- ARBITER_GRANT (R20): the oldest HELD entry is granted unless an own access waits, none is in
flight and the passing run is 4; the own access is granted then, and where no entry is HELD; it
waits while another own access is in flight.

A forwarded WRITE sends every beat as presented but those on ACTION words, which are zero with
no enable set (R15). A forwarded READ asks memory for its full length, from its address, and carries no
beat (R19). -/
def Obligations.ArbiterGrantsByThePassingRun : Prop :=
  (∀ s : State,
     (∀ (pre post : List Entry) (e : Entry), s.path.FirstIn .held pre e post →
       (s.path.ownPresented = none ∨ s.path.passingRun ≠ 4 ∨ s.path.ownInFlight ≠ none) →
       exec .arbiterGrant s = .next
         (s.setPath { s.path with
           entries := pre ++ { e with stage := .atMemory } :: post
           passingRun := if s.path.passingRun < 4 then s.path.passingRun + 1 else s.path.passingRun
           granted := s.path.granted ++ [⟨false, e.access⟩] })) ∧
     (∀ a : OwnAccess, s.path.ownPresented = some a → s.path.ownInFlight = none →
       (s.path.passingRun = 4 ∨ ∀ d ∈ s.path.entries, d.stage ≠ .held) →
       exec .arbiterGrant s = .next
         (s.setPath { s.path with
           ownPresented := none
           ownInFlight := some a
           passingRun := 0
           granted := s.path.granted ++ [⟨true, a.access⟩] })) ∧
     ((∀ d ∈ s.path.entries, d.stage ≠ .held) →
       (s.path.ownPresented = none ∨ s.path.ownInFlight ≠ none) →
       exec .arbiterGrant s = .next s)) ∧
  (∀ (e : Entry) (t : Taken), e.taken = some t → t.words.length = e.request.beats.length →
     e.access.kind = e.request.kind ∧ e.access.address = e.request.byteAddress ∧
     e.access.length = e.request.length ∧
     ∀ i : Nat, ∀ w : WordRef, ∀ b : Beat, t.words[i]? = some w → e.request.beats[i]? = some b →
       e.access.beats[i]? = some (if w.wordClass = .action then ⟨0, 0⟩ else b)) ∧
  (∀ e : Entry, e.request.kind = .read →
     e.access = ⟨.read, e.request.byteAddress, e.request.length, []⟩)

/-- MEMORY_WRITE_RESPONSE that merges and delivers nothing: FAULT; OKAY where the mode is CONFIG,
STARTING or STOPPING and differs from the mode recorded at taking; and OKAY, in every mode, where every
word written is PLAIN, which has no effect in the part (R7, R16, R17). The entry becomes READY with
memory's answer, and nothing else changes.

MEMORY_READ_RESPONSE: OKAY keeps the data in the entry, which becomes READY with OKAY; FAULT
makes it READY with FAULT. Nothing else changes. -/
def Obligations.MemoryAnswersMoveTheEntry : Prop :=
  (∀ (s : State) (pre post : List Entry) (e : Entry) (g : Granted) (rest : List Granted)
     (t : Taken),
     s.path.granted = g :: rest → g.own = false → g.access.kind = .write →
     s.path.FirstIn .atMemory pre e post → e.taken = some t →
     exec (.memoryWriteResponse .fault) s = .next
       (s.setPath { s.path with
         entries := pre ++ { e with stage := .ready, response := some .fault, data := [] } :: post
         granted := rest }) ∧
     ((s.site.mode.inService = false ∧ s.site.mode ≠ t.mode) ∨
         (∀ w ∈ t.words, w.wordClass = .plain) →
       exec (.memoryWriteResponse .okay) s = .next
         (s.setPath { s.path with
           entries := pre ++ { e with stage := .ready, response := some .okay, data := [] } :: post
           granted := rest }))) ∧
  (∀ (s : State) (pre post : List Entry) (e : Entry) (g : Granted) (rest : List Granted),
     s.path.granted = g :: rest → g.own = false → g.access.kind = .read →
     s.path.FirstIn .atMemory pre e post →
     exec (.memoryReadResponse .fault) s = .next
       (s.setPath { s.path with
         entries := pre ++ { e with stage := .ready, response := some .fault, data := [] } :: post
         granted := rest }) ∧
     ∀ data : List Word, data.length = e.request.length →
       exec (.memoryReadResponse (.okay data)) s = .next
         (s.setPath { s.path with
           entries :=
             pre ++ { e with stage := .ready, response := some .okay, data := data } :: post
           granted := rest }))

/-- MEMORY_WRITE_RESPONSE with OKAY for a request that writes any of s0, s1 and s2 of a stage, in SERVING
or HOLD: everything is lost while a post is pending (R40, R44). Otherwise s0 and s1 are merged under
their enables (R40), and then the enabled mode and slot bytes of s2 are stored (R41); a full post copies
the front half that results into an IDLE back half, or waits as pending behind a WAITING one (R42, R43),
and a short post posts nothing (R41).

With OKAY for a request that writes any words of stages in SERVING or HOLD: first every s0 and s1 is
merged into its stage's front half, but while a post is pending there, and nothing else; then the words
are delivered in ascending address order, each on what the one before left (R15, R16). What the delivery
of one word does, and that it is nothing for a word that is not an ACTION word, is
`ActionWordsAreDeliveredAsTheirRows`.

With OKAY for a request that writes words of w5 to w31, in CONFIG where it was taken in CONFIG: each
of w5 to w21 is merged into Site Control's copy, and nothing else changes. In SERVING or HOLD each live
word is merged and a frame word is not (log 11); where w20 is among them the Fault Reporter takes it as a
change of fault modes, and otherwise nothing else changes.

A merge changes the bytes under set enables alone (R7, R18). -/
def Obligations.WriteResponseMergesThenPosts : Prop :=
  (∀ (s : State) (pre post : List Entry) (e : Entry) (g : Granted) (rest : List Granted)
     (t : Taken),
     s.path.granted = g :: rest → g.own = false → g.access.kind = .write →
     s.path.FirstIn .atMemory pre e post → e.taken = some t →
     let answered := s.setPath { s.path with
       entries := pre ++ { e with stage := .ready, response := some .okay, data := [] } :: post
       granted := rest }
     (∀ (k : Operator) (b0 b1 b2 : Option Beat),
       t.words = b0.toList.map (fun _ => .stage k 0) ++ b1.toList.map (fun _ => .stage k 1) ++
         b2.toList.map (fun _ => .stage k 2) →
       e.request.beats = b0.toList ++ b1.toList ++ b2.toList →
       s.site.mode.inService = true →
       let stage := s.stage k
       let front := stage.front
       (stage.pending = true → exec (.memoryWriteResponse .okay) s = .next answered) ∧
       (stage.pending = false →
         (∀ b ∈ b2, b.enables.getLsbD 0 = true → field b.data 0 2 ≠ 3) →
         ∃ p : Post,
           p.tuning = b0.elim front.tuning (fun b => mergeBytes front.tuning b.data b.enables) ∧
           p.search = b1.elim front.search (fun b => mergeBytes front.search b.data b.enables) ∧
           (∀ b ∈ b2, b.enables.getLsbD 0 = true →
             PostMode.ofCode (field b.data 0 2) = some p.mode) ∧
           ((∀ b ∈ b2, b.enables.getLsbD 0 = false) → p.mode = front.mode) ∧
           (∀ b ∈ b2, b.enables.getLsbD 1 = true → p.slot = BitVec.ofNat 8 (field b.data 8 8)) ∧
           ((∀ b ∈ b2, b.enables.getLsbD 1 = false) → p.slot = front.slot) ∧
           exec (.memoryWriteResponse .okay) s = .next
             (answered.setStage k
               (if ∀ b ∈ b2, b.enables ≠ 0xFF#8 then { stage with front := p }
               else if stage.back = none then { stage with front := p, back := some p }
               else { stage with front := p, pending := true })))) ∧
     ((∀ w ∈ t.words, ∃ k i, w = .stage k i) →
       t.words.Nodup → t.words.length = e.request.beats.length →
       s.site.mode.inService = true →
       ∃ bank : Bank 6 Stage,
         (∀ k : Operator,
           let stage := s.stage k
           let written := fun (i : Fin 8) (old new : Word) =>
             (∀ (j : Nat) (b : Beat), t.words[j]? = some (.stage k i) →
               e.request.beats[j]? = some b → new = mergeBytes old b.data b.enables) ∧
             (.stage k i ∉ t.words → new = old)
           (stage.pending = true → bank.get k = stage) ∧
           (stage.pending = false → ∃ tuning search : Word,
             bank.get k =
               { stage with front := { stage.front with tuning := tuning, search := search } } ∧
             written 0 stage.front.tuning tuning ∧ written 1 stage.front.search search)) ∧
         exec (.memoryWriteResponse .okay) s = .next
           ((t.words.zip e.request.beats).foldl (fun u p => deliverWord p.1 p.2 u)
             (answered.setStages { s.stages with bank := bank }))) ∧
     ((∀ w ∈ t.words, ∃ i : Fin 32, 5 ≤ i.val ∧ w = .descriptor i) →
       t.words.Nodup → t.words.length = e.request.beats.length →
       s.site.mode = .config → t.mode = .config →
       ∃ u, exec (.memoryWriteResponse .okay) s = .next u ∧
         u = answered.setSite { s.site with copy := u.site.copy } ∧
         ∀ i : Fin 17,
           (∀ (j : Nat) (w : Fin 32) (b : Beat), w.val = 5 + i.val →
             t.words[j]? = some (.descriptor w) → e.request.beats[j]? = some b →
             u.site.copy.get i = mergeBytes (s.site.copy.get i) b.data b.enables) ∧
           ((∀ w : Fin 32, w.val = 5 + i.val → .descriptor w ∉ t.words) →
             u.site.copy.get i = s.site.copy.get i)) ∧
     ((∀ w ∈ t.words, ∃ i : Fin 32, 5 ≤ i.val ∧ w = .descriptor i) →
       t.words.Nodup → t.words.length = e.request.beats.length →
       s.site.mode.inService = true →
       ∃ copy : Bank 17 Word,
         let merged := answered.setSite { s.site with copy := copy }
         (∀ i : Fin 17,
           (∀ (j : Nat) (w : Fin 32) (b : Beat), w.val = 5 + i.val → 17 ≤ w.val →
             t.words[j]? = some (.descriptor w) → e.request.beats[j]? = some b →
             copy.get i = mergeBytes (s.site.copy.get i) b.data b.enables) ∧
           ((∀ w : Fin 32, w.val = 5 + i.val → 17 ≤ w.val → .descriptor w ∉ t.words) →
             copy.get i = s.site.copy.get i)) ∧
         (.descriptor 20 ∉ t.words → exec (.memoryWriteResponse .okay) s = .next merged) ∧
         (.descriptor 20 ∈ t.words →
           exec (.memoryWriteResponse .okay) s = .next
             (close (merged.setFaults
               (s.faults.modesChanged merged.faultView s.site.faultModes)))))) ∧
  (∀ (old new : Word) (enables : BitVec 8) (i : Nat), i < 64 →
     (mergeBytes old new enables).getLsbD i =
       if enables.getLsbD (i / 8) then new.getLsbD i else old.getLsbD i)

/-- REQUEST_ARRIVAL: with fewer than 16 entries the request joins the tail of the list, stage
ACCEPTED; otherwise it waits. A request waits only while the list is full (`ListInv`). That waiting
requests are accepted first in, first out is the model's choice (log 7).

RESPONSE_RETURN: the READY entry at the head returns its response and leaves the list, and the
waiting request that came first (log 7) is accepted into the room it leaves. A WRITE returns no data; a
READ that is not OKAY returns zeros.

RESPONSE_RETURN of an OKAY READ: each beat is composed from the state at the return and the
memory data kept. -/
def Obligations.RequestsJoinTheListAndReturnFromItsHead : Prop :=
  (∀ (r : Request) (s : State), r.body.wellFormed = true → s.path.ListInv →
     exec (.requestArrival r) s = .next
       (s.setPath
         (if s.path.entries.length < 16 then
           s.path.withEntries (s.path.entries ++ [⟨r, .accepted, none, none, []⟩])
         else { s.path with upWaiting := s.path.upWaiting ++ [r] }))) ∧
  (∀ (s : State) (e : Entry) (rest : List Entry) (c : ResponseCode),
     s.path.ListInv → s.path.entries = e :: rest → e.stage = .ready → e.response = some c →
     ∃ t data, exec .responseReturn s = .next t ∧ OnlyPath s t ∧
       t.path = { s.path with
         entries := rest ++ (s.path.upWaiting.take 1).map fun r => ⟨r, .accepted, none, none, []⟩
         upWaiting := s.path.upWaiting.drop 1
         lastReturned := some ⟨e.request.initiator, c, data⟩ } ∧
       (e.request.kind = .write → data = []) ∧
       (e.request.kind = .read → c ≠ .okay → data = List.replicate e.request.length 0)) ∧
  (∀ (s : State) (e : Entry) (rest : List Entry) (x : Taken),
     s.path.entries = e :: rest → e.stage = .ready → e.response = some .okay →
     e.request.kind = .read → e.taken = some x →
     ∃ t u, exec .responseReturn s = .next t ∧ t.path.lastReturned = some u ∧ u.code = .okay ∧
       u.data.length = x.words.length ∧
       ∀ i : Nat, ∀ w : WordRef, x.words[i]? = some w →
         u.data[i]? = some (composeWord s x.role w (e.data.getD i 0)))

/-- A READ of an OVERLAID or ACTION word holds each field as its owning block holds it, where Tables
10-1 to 10-8 place it, and 0 elsewhere; d2 reads as zero, a CAPTURED or PLAIN word as memory (R162).

A concealed word reads as zero for another operator and as its value for every other reader
(R9): a carrier entry belongs to its slot's owner, d(3 + j) to operator j. -/
def Obligations.WordsAreComposedAndConcealed : Prop :=
  (∀ (s : State) (role : Role) (memory : Word),
     let read := fun w => composeWord s role w memory
     let f := s.faults
     ((read (.descriptor 0)).toNat = s.site.mode.code + 2 ^ 8 * s.site.error.code ∧
       (read (.descriptor 1)).toNat = f.consumer % 65536 ∧
       (read (.descriptor 2)).toNat =
         f.producer % 65536 + 2 ^ 16 * (f.ringSize % 65536) + 2 ^ 32 * f.ringFull.toNat +
           2 ^ 33 * (decide (s.site.mode = .hold)).toNat + 2 ^ 34 * f.depositFault.toNat +
           2 ^ 48 * (f.suppressed % 65536) ∧
       (read (.descriptor 3)).toNat =
         f.protection.set.toNat + 2 ^ 2 * f.lapse.condition.toNat + 2 ^ 3 * f.lapse.set.toNat +
           2 ^ 4 * f.lapse.acknowledged.toNat + 2 ^ 8 * f.detail.initiator.val +
           2 ^ 12 * f.detail.reason.code + 2 ^ 14 * f.detail.kind.code +
           2 ^ 32 * f.detail.address.toNat ∧
       (read (.descriptor 4)).toNat = s.site.time.toNat) ∧
     (∀ k : Operator,
       let g := s.stage k
       (read (.stage k 2)).toNat =
         g.front.mode.code + 2 ^ 8 * g.front.slot.toNat + 2 ^ 16 * g.back.isSome.toNat +
           2 ^ 17 * g.pending.toNat + 2 ^ 24 * g.lastOutcome.code + 2 ^ 32 * g.lastSlot.toNat +
           2 ^ 40 * g.serial.toNat ∧
       (∀ n : SlotId, (s.carriers.changed.get k).getLsbD n.val =
         if n.val < 64 then (read (.stage k 3)).getLsbD n.val
         else (read (.stage k 4)).getLsbD (n.val - 64)) ∧
       ∀ i, 32 ≤ i → (read (.stage k 4)).getLsbD i = false) ∧
     (∀ n : SlotId, let c := s.context n
       (∀ j k, role = .operator j → c.owner = some k → j = k) →
       let shown := if c.state = .searching then
           c.search.elim c.summary fun r => ⟨r.candidate, r.lastLevel, r.steps⟩
         else c.summary
       let tuning := fun t : Option Tuning => t.elim 0 fun t =>
         t.channel.toNat + 2 ^ 16 * t.bandwidth.toNat + 2 ^ 24 * t.power.toNat
       (read (.carrier n 0)).toNat =
         c.state.code + 2 ^ 8 * c.owner.elim 0 (fun k => k.val + 1) + 2 ^ 16 * (n.val / 4) +
           2 ^ 24 * (n.val % 4) + 2 ^ 32 * c.held.isSome.toNat + 2 ^ 33 * c.ready.toNat ∧
       (read (.carrier n 1)).toNat = tuning (c.requested.map Requested.tuning) ∧
       (read (.carrier n 2)).toNat = tuning c.held ∧
       (read (.carrier n 3)).toNat =
         c.outcome.code + 2 ^ 4 * c.bandLimit.toNat + 2 ^ 8 * c.reason.toNat +
           2 ^ 16 * shown.candidate.toNat + 2 ^ 32 * (shown.lastLevel % 16) +
           2 ^ 48 * (shown.steps % 65536)) ∧
     (∀ n w k, (s.context n).owner = some k → (∃ j, role = .operator j ∧ j ≠ k) →
       read (.carrier n w) = 0) ∧
     (∀ n : UnitId,
       let u := s.unit n
       let c := (s.link n).counters
       let figures := fun a b : Figures =>
         a.users % 1024 + 2 ^ 16 * (a.attaches % 256) + 2 ^ 32 * (b.users % 1024) +
           2 ^ 48 * (b.attaches % 256)
       (read (.unit n 0)).toNat =
         u.state.code + 2 ^ 4 * u.impaired.toNat + 2 ^ 5 * u.exhausted.toNat +
           2 ^ 8 * (u.attempts % 256) +
           2 ^ 16 * (s.steering.sectorOf n).elim 15 (fun d => d.val) ∧
       (∀ k : UnitKind,
         (read (.unit n 1)).getLsbD (4 * k.val) =
           (if h : k.val < 4 then (u.filters.get ⟨k.val, h⟩).present
           else if k.val = 4 then u.silent else if k.val = 5 then u.garbled else false) ∧
         (read (.unit n 1)).getLsbD (4 * k.val + 1) = (f.latch (.unit n k)).set ∧
         (read (.unit n 1)).getLsbD (4 * k.val + 2) = (f.latch (.unit n k)).acknowledged) ∧
       (∀ i, i % 4 = 3 ∨ 28 ≤ i → (read (.unit n 1)).getLsbD i = false) ∧
       (read (.unit n 2)).toNat =
         c.framing % 256 + 2 ^ 8 * (c.noise % 256) + 2 ^ 16 * (c.check % 256) +
           2 ^ 24 * (c.stray % 256) + 2 ^ 32 * (c.resends % 256) + 2 ^ 40 * (c.timeouts % 256) ∧
       (read (.unit n 3)).toNat = u.lastAlarms.toNat + 2 ^ 32 * u.lastTime.toNat ∧
       read (.unit n 4) = (if u.admin = .goOut then 0x100#64 else 0x200#64) ∧
       (read (.unit n 5)).toNat = figures (u.lastFigures.get 0) (u.lastFigures.get 1) ∧
       (read (.unit n 6)).toNat = figures (u.lastFigures.get 2) (u.lastFigures.get 3) ∧
       (read (.unit n 7)).toNat =
         (s.link n).inFlight.elim 0 (fun x => x.command.code) +
           2 ^ 8 * ((s.link n).queue.length % 8)) ∧
     (∀ d : SectorId, read (.sector d 2) = 0 ∧
       (∀ k : Operator,
         (read (.sector d 3)).getLsbD (4 * k.val) =
           decide ((s.steering.cell d k).trend = .dark) ∧
         (read (.sector d 3)).getLsbD (4 * k.val + 1) = (f.latch (.hole d k)).set ∧
         (read (.sector d 3)).getLsbD (4 * k.val + 2) = (f.latch (.hole d k)).acknowledged) ∧
       (∀ i, (i < 24 ∧ i % 4 = 3) ∨ (24 ≤ i ∧ i < 32) →
         (read (.sector d 3)).getLsbD i = false) ∧
       (read (.sector d 3)).toNat / 2 ^ 32 =
         ((List.range 24).countP fun u => (s.steering.defs.get d).members.getLsbD u) ∧
       ∀ (k : Operator) (w : Fin 16), w.val = 4 + k.val →
         let c := s.steering.cell d k
         ((∃ j, role = .operator j ∧ j ≠ k) → read (.sector d w) = 0) ∧
         ((∀ j, role = .operator j → j = k) →
           (read (.sector d w)).toNat =
             (c.offset % 16).toNat + 2 ^ 4 * c.trend.code + 2 ^ 7 * c.surge.toNat +
               2 ^ 8 * (c.streak % 256) + 2 ^ 16 * (c.lastAttaches % 65536) +
               2 ^ 32 * (c.capacity % 1024) + 2 ^ 47 * (c.load % 131072))) ∧
     (∀ w : WordRef, w.wordClass = .captured ∨ w.wordClass = .plain → read w = memory)) ∧
  ([Mode.config, .starting, .serving, .hold, .stopping].map Mode.code = List.range 5 ∧
    [ErrorCode.none, .loadFault, .abandoned, .badWindow, .badCount, .badBand, .badRole, .badSector,
      .badTuning].map ErrorCode.code = List.range 9 ∧
    [Outcome.none, .accepted, .done, .released, .noClear, .unitReject, .badSlot, .notOwner,
      .slotBusy, .unitDown, .linkPoor, .badField, .outOfRange, .outOfBand, .overlap,
      .notServing].map Outcome.code = List.range 16 ∧
    [CarrierState.vacant, .searching, .waiting, .tuning, .onAir, .releasing,
      .suspended].map CarrierState.code = List.range 7 ∧
    [UnitState.off, .out, .resetting, .probing, .live, .down].map UnitState.code = List.range 6 ∧
    [Trend.inactive, .neutral, .over, .under, .dark].map Trend.code = List.range 5 ∧
    [RefusalReason.span, .role, .wordClass].map RefusalReason.code = List.range 3 ∧
    [AccessKind.read, .write].map AccessKind.code = List.range 2 ∧
    [PostMode.tune, .search, .release].map PostMode.code = List.range 3) ∧
  (∀ (g : Steering) (u : UnitId) (d : SectorId),
     g.sectorOf u = some d ↔
       (g.defs.get d).members.getLsbD u.val = true ∧
         ∀ e < d, (g.defs.get e).members.getLsbD u.val = false)

/-! ## Site Control -/

/-- SERVE_REQUEST: in CONFIG the mode becomes STARTING, the error code NONE, and the load read L1 of
8 beats at the anchor base plus 40 is presented; in every other mode nothing changes.

CONFIG_REQUEST in STARTING: the mode becomes CONFIG and the error code ABANDONED; no load read
stays presented (log 10), and one in flight is marked abandoned. In CONFIG and STOPPING nothing
changes. -/
def Obligations.ServeStartsAndConfigAbandonsALoad : Prop :=
  (∀ s : State,
     (s.site.mode = .config →
       exec .serveRequest s = .next
         ((s.setSite { s.site with mode := .starting, error := .none }).setPath
           { s.path with
             ownPresented := some
               ⟨.loadL1,
                 ⟨.read, BitVec.ofNat 32 (65536 * s.path.anchor.toNat + 40), 8, []⟩, false⟩ })) ∧
     (s.site.mode ≠ .config → exec .serveRequest s = .next s)) ∧
  (∀ s : State,
     (s.site.mode = .starting →
       exec .configRequest s = .next
         ((s.setSite { s.site with mode := .config, error := .abandoned }).setPath
           { s.path with
             ownPresented := none
             ownInFlight := s.path.ownInFlight.map fun a => { a with abandoned := true } })) ∧
     (s.site.mode = .config ∨ s.site.mode = .stopping → exec .configRequest s = .next s))

/-- CONFIG_REQUEST in SERVING or HOLD: the service stop. The mode becomes STOPPING, or CONFIG at once
where no link owes a break, no deposit is outstanding and the ring is full. Every slot is vacated,
every link emptied, and every link but those of OFF and OUT units asked for its stop break; every unit
is OFF, every cell and steering record as Table 8-3 has it, every latch clear, every timer stopped. The
windows and roles stay, but at an immediate CONFIG the windows are removed and the default roles
reinstalled (R35).

Two clauses are the model's choices: the impaired mark is cleared with the unit (log 12), and each
latch keeps the raw alarm set recorded in it (log 16). -/
def Obligations.ServiceStopVacatesEveryBlock : Prop :=
  ∀ s : State, s.site.mode.inService = true →
    ∃ t, exec .configRequest s = .next t ∧ t.pending = s.pending ∧ t.linkRate = s.linkRate ∧
      StopGoesOn (!s.depositOutstanding) s.path t ∧
      t.site.mode =
        (if (∀ u, (s.unit u).state = .off ∨ (s.unit u).state = .out) ∧
            s.depositOutstanding = false ∧ s.faults.ringFull = true then .config else .stopping) ∧
      (t.site.error = s.site.error ∧ t.site.copy = s.site.copy ∧ t.site.time = s.site.time) ∧
      (∀ u, t.site.owingBreaks.getLsbD u.val = true ↔
        (s.unit u).state ≠ .off ∧ (s.unit u).state ≠ .out) ∧
      (∀ n, t.context n =
        { s.context n with
          state := .vacant, owner := none, requested := none, held := none, search := none
          orphan := false, deferred := none }) ∧
      (∀ u, t.carriers.occupancy.get u = []) ∧ (∀ k, t.carriers.changed.get k = 0) ∧
      (∀ n, t.link n =
        if (s.unit n).state = .off ∨ (s.unit n).state = .out then
          { s.link n with queue := [], inFlight := none, replyTimer := none }
        else (s.link n).afterUnitLoss) ∧
      (∀ u, (t.unit u).state = .off ∧ (t.unit u).guard = false ∧ (t.unit u).recovery = none ∧
        (t.unit u).exhausted = false ∧ (t.unit u).silent = false ∧ (t.unit u).garbled = false ∧
        (t.unit u).impaired = false ∧
        (∀ a, (t.unit u).filters.get a = ⟨0, 0, false⟩) ∧ (t.unit u).admin = (s.unit u).admin ∧
        (t.unit u).attempts = (s.unit u).attempts ∧
        (t.unit u).lastAlarms = (s.unit u).lastAlarms ∧
        (t.unit u).lastTime = (s.unit u).lastTime ∧
        (t.unit u).lastFigures = (s.unit u).lastFigures) ∧ t.pollTimer = none ∧
      ((∀ d k, t.steering.cell d k = ⟨.inactive, 0, 0, 0, 0, 0, 0, false, 0, false⟩) ∧
        (∀ n, t.steering.record n = ⟨none, none, 0⟩) ∧ t.steering.epochTimer = none ∧
        t.steering.defs = s.steering.defs ∧ t.steering.loaded = s.steering.loaded) ∧
      (∀ id, t.faults.latch id = { (s.faults.latch id).cleared with condition := false }) ∧
      t.faults.lapseTimer = none ∧ t.faults.detail = s.faults.detail ∧
      t.faults.producer = s.faults.producer ∧ t.faults.consumer = s.faults.consumer

/-- The service stop completes a WAITING post with NOT-SERVING, and then a pending one, each with its
slot and one more serial; front halves stay (R53).

The STOPPED notice: it joins the queue behind a SUPPRESSED notice where notices were suppressed
and two places are free; it joins alone where one place is free otherwise; with no free place no number
is taken (R151). Then, where no deposit is outstanding: a full ring discards the whole queue, STOPPED with
it, each notice counted as suppressed (R35, R151), and a ring with room has the deposit of the head notice
presented (R153); with a deposit outstanding the queue stays. -/
def Obligations.ServiceStopCompletesPostsAndQueuesStopped : Prop :=
  (∀ (s : State) (k : Operator), s.site.mode.inService = true →
     ∃ t, exec .configRequest s = .next t ∧
       t.stages.lastServed = s.stages.lastServed ∧
       ((s.stage k).back = none → t.stage k = s.stage k) ∧
       (∀ p : Post, (s.stage k).back = some p →
         t.stage k =
           { s.stage k with
             back := none, pending := false, lastOutcome := .notServing
             lastSlot := if (s.stage k).pending then (s.stage k).front.slot else p.slot
             serial := (s.stage k).serial + if (s.stage k).pending then 2 else 1 })) ∧
  (∀ s : State, s.site.mode.inService = true →
     ∃ (t : State) (f : Faults), exec .configRequest s = .next t ∧
       t.faults = f.afterFullRing (!s.depositOutstanding) ∧
       StopGoesOn (!s.depositOutstanding) s.path t ∧
       (f.producer = s.faults.producer ∧ f.consumer = s.faults.consumer ∧
         f.ringSize = s.faults.ringSize ∧ f.ringBase = s.faults.ringBase ∧
         f.depositFault = s.faults.depositFault) ∧
       (16 ≤ s.faults.queue.length →
         f.queue = s.faults.queue ∧ f.sequence = s.faults.sequence ∧
           f.suppressed = s.faults.suppressed) ∧
       (s.faults.queue.length < 16 → s.faults.suppressed = 0 ∨ s.faults.queue.length = 15 →
         f.queue =
           s.faults.queue ++ [⟨s.faults.sequence, s.site.time, ⟨.stopped, none, 0, 0, 0⟩⟩] ∧
         f.sequence = s.faults.sequence + 1 ∧
         f.suppressed = s.faults.suppressed) ∧
       (s.faults.queue.length < 15 → 0 < s.faults.suppressed →
         f.queue =
           s.faults.queue ++
             [⟨s.faults.sequence, s.site.time,
                 ⟨.suppressed, none, 0, 0, BitVec.ofNat 32 s.faults.suppressed⟩⟩,
               ⟨s.faults.sequence + 1, s.site.time, ⟨.stopped, none, 0, 0, 0⟩⟩] ∧
         f.sequence = s.faults.sequence + 2 ∧ f.suppressed = 0))

/-- LOAD_READ_ANSWER, OKAY: L1 fills w5 to w12 and L2 w13 to w20 of the copy, and the next load read
is presented, L2 of 8 beats at the anchor base plus 104 or L3 of one beat at plus 168.

LOAD_READ_ANSWER, FAULT: the start ends in CONFIG with LOAD-FAULT and the copy kept. The answer
to an abandoned read, OKAY or FAULT, is discarded. -/
def Obligations.LoadReadsFillTheCopyOrEndTheStart : Prop :=
  (∀ (s : State) (g : Granted) (rest : List Granted) (a : DownAccess) (data : List Word),
     s.path.granted = g :: rest → g.own = true → a.kind = .read → a.length = 8 →
     data.length = 8 → s.site.mode = .starting →
     (s.path.ownInFlight = some ⟨.loadL1, a, false⟩ →
       ∃ t, exec (.loadReadAnswer (.okay data)) s = .next t ∧
         t.path = { s.path with
           granted := rest
           ownInFlight := none
           ownPresented := some
             ⟨.loadL2,
               ⟨.read, BitVec.ofNat 32 (65536 * s.path.anchor.toNat + 104), 8, []⟩, false⟩ } ∧
         t.setPath s.path = s.setSite { s.site with copy := t.site.copy } ∧
         ∀ i : Fin 17, t.site.copy.get i =
           if i.val < 8 then data.getD i.val 0 else s.site.copy.get i) ∧
     (s.path.ownInFlight = some ⟨.loadL2, a, false⟩ →
       ∃ t, exec (.loadReadAnswer (.okay data)) s = .next t ∧
         t.path = { s.path with
           granted := rest
           ownInFlight := none
           ownPresented := some
             ⟨.loadL3,
               ⟨.read, BitVec.ofNat 32 (65536 * s.path.anchor.toNat + 168), 1, []⟩, false⟩ } ∧
         t.setPath s.path = s.setSite { s.site with copy := t.site.copy } ∧
         ∀ i : Fin 17, t.site.copy.get i =
           if 8 ≤ i.val ∧ i.val < 16 then data.getD (i.val - 8) 0 else s.site.copy.get i)) ∧
  (∀ (s : State) (g : Granted) (rest : List Granted) (p : OwnPurpose) (a : DownAccess),
     s.path.granted = g :: rest → g.own = true → a.kind = .read →
     (s.path.ownInFlight = some ⟨p, a, false⟩ →
       exec (.loadReadAnswer .fault) s = .next
         ((s.setSite { s.site with mode := .config, error := .loadFault }).setPath
           { s.path with granted := rest, ownInFlight := none })) ∧
     (s.path.ownInFlight = some ⟨p, a, true⟩ →
       exec (.loadReadAnswer .fault) s = .next
         (s.setPath { s.path with granted := rest, ownInFlight := none }) ∧
       ∀ data : List Word, data.length = a.length →
         exec (.loadReadAnswer (.okay data)) s = .next
           (s.setPath { s.path with granted := rest, ownInFlight := none })))

/-- LOAD_READ_ANSWER to L3: w21 is loaded and the first two checks made. A failure ends the start in
CONFIG with its code; otherwise the read of sector 0, two beats at the sector base, is presented.

LOAD_READ_ANSWER to a sector read: its two words go to the Steering Engine. A sector that is not
the last is followed by the read of the next, 128 bytes on; after the last, a failing check ends the
start in CONFIG with its code. -/
def Obligations.LoadedWordsAreChecked : Prop :=
  (∀ (s : State) (g : Granted) (rest : List Granted) (a : DownAccess) (w : Word),
     s.path.granted = g :: rest → g.own = true → a.kind = .read → a.length = 1 →
     s.path.ownInFlight = some ⟨.loadL3, a, false⟩ → s.site.mode = .starting →
     let site := { s.site with copy := s.site.copy.put 16 w }
     let path := { s.path with granted := rest, ownInFlight := none }
     (∀ code, firstPart s.path site = some code →
       exec (.loadReadAnswer (.okay [w])) s = .next
         ((s.setSite { site with mode := .config, error := code }).setPath path)) ∧
     (firstPart s.path site = none →
       exec (.loadReadAnswer (.okay [w])) s = .next
         ((s.setSite site).setPath
           { path with
             ownPresented := some
               ⟨.loadSector 0, ⟨.read, BitVec.ofNat 32 site.sectorBase, 2, []⟩, false⟩ }))) ∧
  (∀ (s : State) (g : Granted) (rest : List Granted) (a : DownAccess) (n : SectorId) (w0 w1 : Word),
     s.path.granted = g :: rest → g.own = true → a.kind = .read → a.length = 2 →
     s.path.ownInFlight = some ⟨.loadSector n, a, false⟩ → s.site.mode = .starting →
     let loaded := s.setSteering
       { s.steering with loaded := s.steering.loaded.put n ⟨w0, w1⟩ }
     let path := { s.path with granted := rest, ownInFlight := none }
     (∀ m : SectorId, m.val = n.val + 1 → m.val < s.site.sectorCount →
       exec (.loadReadAnswer (.okay [w0, w1])) s = .next
         (loaded.setPath
           { path with
             ownPresented := some
               ⟨.loadSector m,
                 ⟨.read, BitVec.ofNat 32 (s.site.sectorBase + 128 * m.val), 2, []⟩, false⟩ })) ∧
     (∀ code, s.site.sectorCount ≤ n.val + 1 →
       secondPart s.site loaded.steering = some code →
       exec (.loadReadAnswer (.okay [w0, w1])) s = .next
         ((loaded.setSite { s.site with mode := .config, error := code }).setPath path)))

/-- LOAD_READ_ANSWER to the last sector read, with no check failing: SERVING. The windows and roles
are installed, every block takes the values of Table 2-9, every configured link begins the break its
entry to RESETTING asks for, and the STARTED notice, number 0, is queued and its deposit presented at
the ring base. Every cell and steering record is as Table 8-3 has it, every latch and the protection detail
as Table 9-4 (R141, R161). -/
def Obligations.LastSectorReadEntersServing : Prop :=
  ∀ (s : State) (g : Granted) (rest : List Granted) (a : DownAccess) (n : SectorId) (w0 w1 : Word),
    s.path.granted = g :: rest → g.own = true → a.kind = .read → a.length = 2 →
    s.path.ownInFlight = some ⟨.loadSector n, a, false⟩ → s.path.ownPresented = none →
    s.site.mode = .starting → s.site.sectorCount ≤ n.val + 1 →
    let loaded := { s.steering with loaded := s.steering.loaded.put n ⟨w0, w1⟩ }
    secondPart s.site loaded = none →
    ∃ t, exec (.loadReadAnswer (.okay [w0, w1])) s = .next t ∧ t.pending = s.pending ∧
      (t.site = { s.site with mode := .serving, time := 0 } ∧
        t.path.windows = some s.site.windows ∧ t.path.roles = s.site.roles ∧
        t.path.entries = s.path.entries ∧ t.path.granted = rest ∧ t.path.ownInFlight = none) ∧
      (t.stages.lastServed = 5 ∧ ∀ k, (t.stage k).IsReset) ∧
      ((∀ m, (t.context m).IsReset) ∧ (∀ u, t.carriers.occupancy.get u = []) ∧
        ∀ k, t.carriers.changed.get k = 0) ∧
      (∀ u : UnitId, t.link u =
        if u.val < s.site.unitCount then Link.afterReset.inBreak else Link.afterReset) ∧
      t.linkRate.toNat = s.site.linkRateCode ∧
      ((∀ u : UnitId, t.unit u =
        { UnitRecord.afterReset with
          state := if u.val < s.site.unitCount then .resetting else .off }) ∧
        t.pollTimer = some s.site.pollInterval) ∧
      ((∀ d : SectorId, t.steering.defs.get d =
        if d.val < s.site.sectorCount then (loaded.loaded.get d).definition else ⟨0, []⟩) ∧
        (∀ d k, t.steering.cell d k = ⟨.inactive, 0, 0, 0, 0, 0, 0, false, 0, false⟩) ∧
        (∀ m, t.steering.record m = ⟨none, none, 0⟩) ∧ t.steering.loaded = loaded.loaded ∧
        t.steering.epochTimer = some s.site.epochLength) ∧
      ((∀ id, t.faults.latch id = ⟨false, false, false, none, 0⟩) ∧
        t.faults.detail = ⟨0, .span, .read, 0⟩ ∧
        t.faults.queue =
          [⟨0, 0, ⟨.started, none, 0, 0,
            BitVec.ofNat 32 (16 * 2 ^ s.site.ringSizeCode)⟩⟩] ∧
        t.faults.sequence = 1 ∧ t.faults.suppressed = 0 ∧ t.faults.producer = 0 ∧
        t.faults.consumer = 0 ∧ t.faults.ringSize = 16 * 2 ^ s.site.ringSizeCode ∧
        t.faults.ringBase.toNat = s.site.ringBase ∧ t.faults.depositFault = false ∧
        t.faults.lapseTimer = none) ∧
      ∃ d, t.path.ownPresented = some ⟨.deposit, d, false⟩ ∧ d.kind = .write ∧ d.length = 2 ∧
        d.address = t.faults.ringBase

/-- The checks of Table 2-8 in words: windows, counts, bands, roles, sectors, live words, in that
order. The first that fails gives its code, each part of the validation making its own; no code is
given exactly where all of a part pass.

A live word's value is accepted exactly when its fields lie in the ranges of Table 2-5.

The fields of the loaded words lie where Tables 10-3, 10-4 and 10-8 place them, w(5 + i) in place i of
the copy; the windows and roles that the entry to SERVING installs, and each sector's definition, are
those fields. The live words w17 to w21 stand in places 12 to 16, w20 FAULT MODES in place 15. -/
def Obligations.ValidationChecksFollowTheTable : Prop :=
  (∀ (p : Path) (t : Site) (g : Steering),
     let windows : Prop :=
       6 < t.ringSizeCode ∨ t.stageBase % 4096 ≠ 0 ∨ t.carrierBase % 4096 ≠ 0 ∨
       t.unitBase % 4096 ≠ 0 ∨ t.sectorBase % 4096 ≠ 0 ∨
       t.ringBase % max 4096 (16 * (16 * 2 ^ t.ringSizeCode)) ≠ 0 ∨
       (∃ x ∈ windowExtents p t, 2 ^ 32 < x.start + x.size) ∨
       ¬ (windowExtents p t).Pairwise fun x y =>
         x.start + x.size ≤ y.start ∨ y.start + y.size ≤ x.start
     let counts : Prop :=
       t.unitCount < 1 ∨ 24 < t.unitCount ∨ t.sectorCount < 1 ∨ 12 < t.sectorCount ∨
       t.operatorCount < 1 ∨ 6 < t.operatorCount ∨ 3 < t.linkRateCode
     let bands : Prop :=
       40 < t.maxPower ∨ t.rangeHigh ≤ t.rangeLow ∨
       ∃ k : Operator, k.val < t.operatorCount ∧
         (t.bandHigh k ≤ t.bandLow k ∨ t.bandLow k < t.rangeLow ∨ t.rangeHigh < t.bandHigh k)
     let roles : Prop :=
       (∃ i, 8 < t.roleCode i) ∨ (∀ i, t.roleCode i ≠ 8) ∨
       ∃ i, 1 ≤ t.roleCode i ∧ t.roleCode i ≤ 6 ∧ t.operatorCount < t.roleCode i
     let sectors : Prop := ∃ n : SectorId, n.val < t.sectorCount ∧
       ((∃ u < 32, (g.loaded.get n).d0.getLsbD u = true ∧
           (t.unitCount ≤ u ∨ ∃ m : SectorId, m.val < t.sectorCount ∧ m ≠ n ∧
             (g.loaded.get m).d0.getLsbD u = true)) ∨
         (∃ m ∈ (g.loaded.get n).neighbourNumbers, t.sectorCount ≤ m ∨ m = n.val) ∨
         ¬ (g.loaded.get n).neighbourNumbers.Nodup)
     let live : Prop := ∃ i, liveOk i (t.copy.get (livePlace i)) = false
     windowExtents p t =
       [⟨65536 * p.anchor.toNat, 256⟩, ⟨t.stageBase, 384⟩, ⟨t.carrierBase, 3072⟩,
         ⟨t.unitBase, 1536⟩, ⟨t.sectorBase, 1536⟩,
         ⟨t.ringBase, 16 * (16 * 2 ^ t.ringSizeCode)⟩] ∧
     (windows → firstPart p t = some .badWindow) ∧
     (¬ windows → counts → firstPart p t = some .badCount) ∧
     (¬ windows → ¬ counts → firstPart p t = none) ∧
     (bands → secondPart t g = some .badBand) ∧
     (¬ bands → roles → secondPart t g = some .badRole) ∧
     (¬ bands → ¬ roles → sectors → secondPart t g = some .badSector) ∧
     (¬ bands → ¬ roles → ¬ sectors → live → secondPart t g = some .badTuning) ∧
     (¬ bands → ¬ roles → ¬ sectors → ¬ live → secondPart t g = none)) ∧
  (∀ w : Word,
     (liveOk 0 w = true ↔ 1 ≤ field w 0 8 ∧ 1 ≤ field w 8 8 ∧ 1 ≤ field w 16 8 ∧ 1 ≤ field w 24 8) ∧
     liveOk 1 w = true ∧
     (liveOk 2 w = true ↔
       field w 8 8 < field w 0 8 ∧ 1 ≤ field w 16 4 ∧ field w 16 4 ≤ 8) ∧
     liveOk 3 w = true ∧
     (liveOk 4 w = true ↔ ∀ j < 4, 1 ≤ field w (8 * j) 4 ∧ field w (8 * j) 4 ≤ 8 ∧
       1 ≤ field w (8 * j + 4) 4 ∧ field w (8 * j + 4) 4 ≤ 8)) ∧
  (∀ (w : SectorWords),
     (∀ number : Nat, number ∈ w.neighbourNumbers ↔
       ∃ m < 4, w.d1.getLsbD (8 * m + 7) = true ∧ field w.d1 (8 * m) 4 = number) ∧
     (∀ u, w.definition.members.getLsbD u = (decide (u < 24) && w.d0.getLsbD u)) ∧
     ∀ d : SectorId, d ∈ w.definition.neighbours ↔ d.val ∈ w.neighbourNumbers) ∧
  (∀ t : Site,
     let bits := fun (w : Fin 17) (lo width : Nat) =>
       (t.copy.get w).toNat / 2 ^ lo % 2 ^ width
     (t.stageBase = bits 0 0 32 ∧ t.carrierBase = bits 0 32 32 ∧ t.unitBase = bits 1 0 32 ∧
       t.sectorBase = bits 1 32 32 ∧ t.ringBase = bits 2 0 32 ∧ t.ringSizeCode = bits 2 32 3) ∧
     (t.unitCount = bits 3 0 8 ∧ t.sectorCount = bits 3 8 8 ∧ t.operatorCount = bits 3 16 8 ∧
       t.linkRateCode = bits 3 24 8) ∧
     (t.rangeLow = bits 4 0 16 ∧ t.rangeHigh = bits 4 16 16 ∧ t.maxPower = bits 4 32 8) ∧
     (∀ i : Initiator, t.roleCode i = bits 5 (4 * i.val) 4) ∧
     (∀ (k : Operator) (w : Fin 17), 5 + w.val = 10 + (k.val + 1) →
       t.bandLow k = bits w 0 16 ∧ t.bandHigh k = bits w 16 16) ∧
     (t.faultModes = t.copy.get 15 ∧ ∀ i : Fin 5, (livePlace i).val = 12 + i.val) ∧
     (t.epochLength = bits 12 0 8 ∧ t.pollInterval = bits 12 8 8 ∧ t.replyTimeout = bits 12 16 8 ∧
       t.recoveryInterval = bits 12 24 8) ∧
     (t.attemptLimit = bits 13 0 4 ∧ t.lapsePeriod = bits 13 8 8 ∧
       t.garbleThreshold = bits 13 16 8) ∧
     (t.highMark = bits 14 0 8 ∧ t.lowMark = bits 14 8 8 ∧ t.persistence = bits 14 16 4 ∧
       t.surgeMark = bits 14 24 8) ∧
     (∀ (mode : Mode) (time : BitVec 32) (i : Nat) (k : FaultKind),
       [FaultKind.supply, .amplifier, .temp, .antenna, .silent, .garbled, .restart, .hole,
         .protection, .lapse][i]? = some k →
       let v : FaultView := ⟨mode, t.faultModes, time⟩
       v.isHeld k = (t.copy.get 15).getLsbD i ∧ v.masked k = (t.copy.get 15).getLsbD (16 + i)) ∧
     (∀ a : Fin 4, t.onsetCount a = bits 16 (8 * a.val) 4 ∧
       t.clearCount a = bits 16 (8 * a.val + 4) 4) ∧
     (t.windows.stage.toNat = t.stageBase ∧ t.windows.carrier.toNat = t.carrierBase ∧
       t.windows.unit.toNat = t.unitBase ∧ t.windows.sector.toNat = t.sectorBase ∧
       t.windows.ring.toNat = t.ringBase ∧ t.windows.ringSize = 16 * 2 ^ t.ringSizeCode) ∧
     ∀ i : Initiator,
       (t.roleCode i = 0 → t.roles.get i = .none) ∧
       (∀ k : Operator, t.roleCode i = k.val + 1 → t.roles.get i = .operator k) ∧
       (t.roleCode i = 7 → t.roles.get i = .observer) ∧
       (t.roleCode i = 8 → t.roles.get i = .controller)) ∧
  (∀ (w : Word) (lo width : Nat), field w lo width = w.toNat / 2 ^ lo % 2 ^ width)

/-- SITE_TIME_COUNT: site time counts one millisecond, wrapping, in SERVING, HOLD and STOPPING, and
stands in CONFIG and STARTING; nothing else changes. -/
def Obligations.SiteTimeCountsWhileServing : Prop :=
  ∀ s : State,
    (s.site.mode = .serving ∨ s.site.mode = .hold ∨ s.site.mode = .stopping →
      exec .siteTimeCount s = .next (s.setSite { s.site with time := s.site.time + 1 })) ∧
    (s.site.mode = .config ∨ s.site.mode = .starting → exec .siteTimeCount s = .next s)

/-- ATTN_N is asserted while the mode is SERVING, HOLD or STOPPING and the two ring indices differ,
and deasserted otherwise. -/
def Obligations.AttentionFollowsTheIndices : Prop :=
  ∀ s : State, s.attention = true ↔
    (s.site.mode = .serving ∨ s.site.mode = .hold ∨ s.site.mode = .stopping) ∧
      s.faults.producer ≠ s.faults.consumer

/-! ## The Fault Reporter and its log -/

/-- A produced notice, by the suppressed count and the free places of the queue (R150). Its number is
the one that follows, behind a SUPPRESSED notice that goes before it. -/
def Obligations.NoticeProductionFollowsTheTable : Prop :=
  ∀ (v : FaultView) (b : NoticeBody) (f : Faults),
    (f.suppressed = 0 → f.queue.length < 16 →
      f.produce v b =
        { f with queue := f.queue ++ [⟨f.sequence, v.time, b⟩], sequence := f.sequence + 1 }) ∧
    (16 ≤ f.queue.length ∨ (0 < f.suppressed ∧ f.queue.length = 15) →
      f.produce v b =
        { f with
          sequence := f.sequence + 1
          suppressed := if f.suppressed < 65535 then f.suppressed + 1 else f.suppressed }) ∧
    (0 < f.suppressed → f.queue.length < 15 →
      f.produce v b =
        { f with
          queue := f.queue ++
            [⟨f.sequence, v.time, ⟨.suppressed, none, 0, 0, BitVec.ofNat 32 f.suppressed⟩⟩,
              ⟨f.sequence + 1, v.time, b⟩]
          sequence := f.sequence + 2
          suppressed := 0 }) ∧
    f.nextNumber =
      if 0 < f.suppressed ∧ f.queue.length < 15 then f.sequence + 1 else f.sequence

/-- A condition report in service, on its own latch and on every other, EDGE and HELD (R144, R145):
a trip sets a clear latch with a raised number unless masked; a release clears a HELD latch whose
mark is set. A momentary trip sets a clear latch and records nothing else. A report in another mode
changes nothing. An acknowledgement acts on its latch in every mode.

Which of these produce a notice, and what it says: a set RAISED unless masked, a clearing of a HELD
latch CLEARED unless masked, and nothing else one (R144, R145, R149); the subject, the operator and
the detail are those of Table 9-3 and R149. Beside the latches nothing else of the log changes.

A change of modes (R148): each latch of a kind that is not momentary and goes from EDGE to HELD is
set where its condition is present and it is clear, and loses its mark where it is set; the raised
numbers follow one another in kind order and ascending subject. Every other latch stays. Each latch set
whose kind is not masked makes a RAISED notice, in that order, and beside the latches nothing else of
the log changes.

The kind of each latch, in kind order; RESTART and PROTECTION are momentary; the latches of a kind are
taken by ascending unit, or sector and then operator (R145, R148). -/
def Obligations.ReportsFollowTheLatchTables : Prop :=
  (∀ (v : FaultView) (id : LatchId) (alarms : Option (BitVec 4)) (f : Faults),
     let l := f.latch id
     (v.mode.inService = true →
       (f.report v id true alarms).latch id =
         l.afterTrip (f.raisedNumber v id.kind 0) (alarms.getD l.alarms) ∧
       (f.report v id false alarms).latch id =
         l.afterRelease (v.latches id.kind) (alarms.getD l.alarms) ∧
       (f.momentaryTrip v id).latch id =
         if l.set then l
         else { l with
           set := true, acknowledged := false, raised := f.raisedNumber v id.kind 0 }) ∧
     (f.acknowledge v id).latch id = l.afterAcknowledge (v.latches id.kind) ∧
     (∀ (present : Bool) (j : LatchId), j ≠ id →
       (f.report v id present alarms).latch j = f.latch j ∧
       (f.momentaryTrip v id).latch j = f.latch j ∧
       (f.acknowledge v id).latch j = f.latch j) ∧
     (∀ present : Bool, v.mode.inService = false →
       f.report v id present alarms = f ∧ f.momentaryTrip v id = f)) ∧
  (∀ (v : FaultView) (id : LatchId) (alarms : Option (BitVec 4)) (f : Faults),
     let l := f.latch id
     let tells := fun (g : Faults) (kind : NoticeKind) (a : BitVec 4) =>
       g.withLatches f = f.produce v (id.noticeBody kind a f.detail)
     let quiet := fun g : Faults => g.withLatches f = f
     let tripTells := l.set = false ∧ v.masked id.kind = false
     let clearTells := l.set = true ∧ v.latches id.kind = true ∧ v.masked id.kind = false
     (v.mode.inService = true →
       (tripTells → tells (f.report v id true alarms) .raised (alarms.getD l.alarms) ∧
         tells (f.momentaryTrip v id) .raised l.alarms) ∧
       (¬ tripTells → quiet (f.report v id true alarms) ∧ quiet (f.momentaryTrip v id)) ∧
       (clearTells → l.acknowledged = true →
         tells (f.report v id false alarms) .cleared (alarms.getD l.alarms)) ∧
       (¬ clearTells ∨ l.acknowledged = false → quiet (f.report v id false alarms))) ∧
     (clearTells → l.acknowledged = false → l.condition = false →
       tells (f.acknowledge v id) .cleared l.alarms) ∧
     (¬ clearTells ∨ l.acknowledged = true ∨ l.condition = true →
       quiet (f.acknowledge v id))) ∧
  (∀ (v : FaultView) (old : Word) (f : Faults),
     let turned := fun k : FaultKind =>
       !k.momentary && v.isHeld k && !old.getLsbD k.code
     let raises := fun j : LatchId =>
       turned j.kind && !v.masked j.kind && !(f.latch j).set && (f.latch j).condition
     let order := [FaultKind.supply, .amplifier, .temp, .antenna, .silent, .garbled, .restart, .hole,
       .protection, .lapse].flatMap latchesOf
     (∀ id : LatchId, let l := f.latch id
       (f.modesChanged v old).latch id =
         if turned id.kind = true then
           if l.set then { l with acknowledged := false }
           else if l.condition then
             { l with
               set := true, acknowledged := false
               raised := f.raisedNumber v id.kind ((order.takeWhile (· ≠ id)).countP raises) }
           else l
         else l) ∧
     (f.modesChanged v old).withLatches f =
       f.produceAll v ((order.filter raises).map fun j =>
         j.noticeBody .raised (f.latch j).alarms f.detail)) ∧
  ((∀ (n : UnitId) (k : UnitKind),
      [FaultKind.supply, .amplifier, .temp, .antenna, .silent, .garbled, .restart][k.val]? =
        some (unitFaultKind k) ∧ (LatchId.unit n k).kind = unitFaultKind k) ∧
    (∀ n k, (LatchId.hole n k).kind = .hole) ∧ LatchId.protection.kind = .protection ∧
    LatchId.lapse.kind = .lapse ∧
    (∀ k : FaultKind, k.momentary = true ↔ k = .restart ∨ k = .protection) ∧
    (∀ k : UnitKind, latchesOf (unitFaultKind k) = (List.finRange 24).map fun n => .unit n k) ∧
    latchesOf .hole =
      ((List.finRange 12).flatMap fun n => (List.finRange 6).map fun k => .hole n k) ∧
    latchesOf .protection = [.protection] ∧ latchesOf .lapse = [.lapse] ∧
    (∀ a : Alarm, (alarmKind a).val = a.val) ∧
    ∀ s : State, s.faultView = ⟨s.site.mode, s.site.faultModes, s.site.time⟩)


/-- ACKNOWLEDGE_PROTECTION and ACKNOWLEDGE_LAPSE, in the modes whose writes of w3 are taken: the latch
becomes what an acknowledgement of its mode makes it (PROTECTION acts as EDGE); every other latch
and the detail stay, and beside the log side nothing changes. In STARTING and STOPPING nothing
changes.

CLEAR_DEPOSIT_FAULT, in the modes whose writes of w3 are taken: the mark is cleared, every latch
and detail stay, and beside the log side nothing changes.

UNIT_ACKNOWLEDGE and HOLE_ACKNOWLEDGE in SERVING and HOLD: each latch named becomes what an
acknowledgement of its mode makes it, RESTART as EDGE; every other latch stays, and beside the log
side nothing changes.

Each latch that acts as HELD and is cleared, and whose kind is not masked, makes a CLEARED notice: the
kinds named of a unit in kind order, the operators named in ascending number (R145, R147, R149). Nothing
else joins the log. After each of them the next deposit is presented (R153). -/
def Obligations.AcknowledgementsActByTheMode : Prop :=
  (∀ s : State,
     (s.site.mode = .serving ∨ s.site.mode = .hold ∨ s.site.mode = .config →
       (∃ t, exec .acknowledgeProtection s = .next t ∧ OnlyLog s t ∧
         PresentsNext (!s.depositOutstanding) s.path t ∧ LogTells [] s t ∧
         t.faults.protection = s.faults.protection.afterAcknowledge false ∧
         t.faults.detail = s.faults.detail ∧
         ∀ j, j ≠ .protection → t.faults.latch j = s.faults.latch j) ∧
       (∃ t, exec .acknowledgeLapse s = .next t ∧ OnlyLog s t ∧
         PresentsNext (!s.depositOutstanding) s.path t ∧ LogTells (s.clearings [.lapse]) s t ∧
         t.faults.lapse = s.faults.lapse.afterAcknowledge (s.faultView.isHeld .lapse) ∧
         t.faults.detail = s.faults.detail ∧
         ∀ j, j ≠ .lapse → t.faults.latch j = s.faults.latch j)) ∧
     (s.site.mode = .starting ∨ s.site.mode = .stopping →
       exec .acknowledgeProtection s = .next s ∧ exec .acknowledgeLapse s = .next s)) ∧
  (∀ s : State,
     (s.site.mode = .serving ∨ s.site.mode = .hold ∨ s.site.mode = .config →
       ∃ t, exec .clearDepositFault s = .next t ∧ OnlyLog s t ∧
         PresentsNext (!s.depositOutstanding) s.path t ∧
         let f : Faults := { s.faults with depositFault := false }
         t.faults = if s.site.mode = .hold then f.afterRoomMade (!s.depositOutstanding) else f) ∧
     (s.site.mode = .starting ∨ s.site.mode = .stopping → exec .clearDepositFault s = .next s)) ∧
  (∀ s : State, s.site.mode.inService = true →
     (∀ (u : UnitId) (kinds : BitVec 7), ∃ t,
       exec (.unitAcknowledge u kinds) s = .next t ∧ OnlyLog s t ∧
       PresentsNext (!s.depositOutstanding) s.path t ∧
       LogTells (s.clearings
         (((List.finRange 7).filter fun k => kinds.getLsbD k.val).map fun k => .unit u k)) s t ∧
       (∀ k : UnitKind, t.faults.latch (.unit u k) =
         if kinds.getLsbD k.val then
           (s.faults.latch (.unit u k)).afterAcknowledge
             (s.faultView.isHeld (unitFaultKind k) && decide (k ≠ 6))
         else s.faults.latch (.unit u k)) ∧
       ∀ j, (∀ k, j ≠ .unit u k) → t.faults.latch j = s.faults.latch j) ∧
     (∀ (n : SectorId) (operators : BitVec 6), ∃ t,
       exec (.holeAcknowledge n operators) s = .next t ∧ OnlyLog s t ∧
       PresentsNext (!s.depositOutstanding) s.path t ∧
       LogTells (s.clearings
         (((List.finRange 6).filter fun k => operators.getLsbD k.val).map fun k => .hole n k)) s t ∧
       (∀ k : Operator, t.faults.latch (.hole n k) =
         if operators.getLsbD k.val then
           (s.faults.latch (.hole n k)).afterAcknowledge (s.faultView.isHeld .hole)
         else s.faults.latch (.hole n k)) ∧
       ∀ j, (∀ k, j ≠ .hole n k) → t.faults.latch j = s.faults.latch j))

/-- The state check of the memory path (Table 1-5, R14): a READ is never refused by state; a WRITE is
refused in STARTING where it writes an interpreted word and is not a write of w0 alone, in STOPPING
where it writes an interpreted word, and where the owning block of one of its words refuses that word.

What each owner refuses, word by word: a mode request that is undefined or that the mode does not
allow, a consumer value outside the accepted range, frame words outside CONFIG, live words out of
range once merged, s0 to s2 while a post is pending, an undefined post mode, d0 and d1 in service, an
undefined admin request, and any ACTION word but s2 without all its enables (R24, R26, R41, R44, R157,
R163). -/
def Obligations.StateRefusalsFollowTheTable : Prop :=
  (∀ (s : State) (r : Request) (words : List WordRef),
     (r.kind = .read → stateRefused s r words = false) ∧
     (r.kind = .write → words.length = r.beats.length →
       (stateRefused s r words = true ↔
         (s.site.mode = .starting ∧ (∃ w ∈ words, w.window ≠ none) ∧ words ≠ [.descriptor 0]) ∨
         (s.site.mode = .stopping ∧ ∃ w ∈ words, w.window ≠ none) ∨
         ∃ (i : Nat) (w : WordRef) (b : Beat), words[i]? = some w ∧ r.beats[i]? = some b ∧
           ownerRefuses s w b = true))) ∧
  (∀ (s : State) (b : Beat),
     let short := b.enables ≠ 0xFF#8
     (ownerRefuses s (.descriptor 0) b = true ↔ short ∨ field b.data 0 2 = 0 ∨
       field b.data 0 2 = 3 ∨ (field b.data 0 2 = 1 ∧ s.site.mode = .stopping) ∨
       (field b.data 0 2 = 2 ∧ s.site.mode ≠ .config)) ∧
     (ownerRefuses s (.descriptor 1) b = true ↔ short ∨
       s.faults.ringSize ≤ field b.data 0 16 ∨
       (s.faults.producer + s.faults.ringSize - s.faults.consumer) % s.faults.ringSize <
         (field b.data 0 16 + s.faults.ringSize - s.faults.consumer) % s.faults.ringSize) ∧
     (ownerRefuses s (.descriptor 3) b = true ↔ short) ∧
     (∀ w : Fin 32, 5 ≤ w.val → w.val ≤ 16 →
       (ownerRefuses s (.descriptor w) b = true ↔ s.site.mode ≠ .config)) ∧
     (∀ (w : Fin 32) (i : Fin 5) (j : Fin 17), w.val = 17 + i.val → j.val = 12 + i.val →
       ownerRefuses s (.descriptor w) b =
         !liveOk i (mergeBytes (s.site.copy.get j) b.data b.enables)) ∧
     (∀ w : Fin 32, w.val ∈ [2, 4] ∨ 22 ≤ w.val → ownerRefuses s (.descriptor w) b = false) ∧
     (∀ (k : Operator) (w : Fin 8),
       (w.val ≤ 1 → ownerRefuses s (.stage k w) b = (s.stage k).pending) ∧
       (w.val = 2 → (ownerRefuses s (.stage k w) b = true ↔
         (s.stage k).pending = true ∨ (b.enables.getLsbD 0 = true ∧ field b.data 0 2 = 3))) ∧
       (w.val = 3 ∨ w.val = 4 → (ownerRefuses s (.stage k w) b = true ↔ short)) ∧
       (5 ≤ w.val → ownerRefuses s (.stage k w) b = false)) ∧
     (∀ (n : UnitId) (w : Fin 8), ownerRefuses s (.unit n w) b = true ↔
       w.val = 4 ∧ (short ∨ field b.data 8 2 = 3)) ∧
     (∀ (n : SectorId) (w : Fin 16),
       (w.val ≤ 1 → (ownerRefuses s (.sector n w) b = true ↔
         s.site.mode = .serving ∨ s.site.mode = .hold)) ∧
       (w.val = 2 → (ownerRefuses s (.sector n w) b = true ↔ short)) ∧
       (3 ≤ w.val → ownerRefuses s (.sector n w) b = false)) ∧
     (∀ n w, ownerRefuses s (.carrier n w) b = false) ∧
     ownerRefuses s .ring b = false ∧ ownerRefuses s .plainMemory b = false)

/-- CONSUMER_WRITE of a value on the way from the consumer index to the producer index. In SERVING
the index moves and the lapse timer stops at an empty ring or restarts for a period above 0. In HOLD
the mode becomes SERVING, LAPSE is released, its CLEARED notice joins the log where the release clears a
HELD latch that is not masked, and the timer starts at a ring that is not empty, for a period above 0. In
both the next deposit is presented into the room made (R153, R157 to R159). In CONFIG the index alone
moves.

CONSUMER_WRITE of a value at or above the ring size, or not on the way to the producer index, or
in STARTING or STOPPING: refused, and nothing changes. -/
def Obligations.ConsumerWriteMovesTheIndexOrIsRefused : Prop :=
  (∀ (s : State) (v : BitVec 16), v.toNat < s.faults.ringSize →
     (v.toNat + s.faults.ringSize - s.faults.consumer) % s.faults.ringSize ≤
       (s.faults.producer + s.faults.ringSize - s.faults.consumer) % s.faults.ringSize →
     (s.site.mode = .serving →
       ∃ t, exec (.consumerWrite v) s = .next t ∧ OnlyLog s t ∧
         PresentsNext (!s.depositOutstanding) s.path t ∧
         t.faults = { s.faults with
           consumer := v.toNat
           lapseTimer :=
             if s.faults.producer = v.toNat then none
             else if s.site.lapsePeriod = 0 then s.faults.lapseTimer
             else some s.site.lapsePeriod }) ∧
     (s.site.mode = .hold →
       ∃ t, exec (.consumerWrite v) s = .next t ∧
         OnlyLog s (t.setSite { t.site with mode := .hold }) ∧
         t.site.mode = .serving ∧ PresentsNext (!s.depositOutstanding) s.path t ∧
         (let told :=
           if s.faults.lapse.set = true ∧ s.faults.lapse.acknowledged = true ∧
               s.faultView.isHeld .lapse = true ∧ s.faultView.masked .lapse = false then
             s.faults.produce s.faultView (LatchId.lapse.noticeBody .cleared 0 s.faults.detail)
           else s.faults
         t.faults = { told with
           consumer := v.toNat
           lapse := s.faults.lapse.afterRelease (s.faultView.isHeld .lapse) s.faults.lapse.alarms
           lapseTimer :=
             if s.faults.producer = v.toNat ∨ s.site.lapsePeriod = 0 then s.faults.lapseTimer
             else some s.site.lapsePeriod }) ∧
         ∀ j, j ≠ .lapse → t.faults.latch j = s.faults.latch j) ∧
     (s.site.mode = .config →
       exec (.consumerWrite v) s = .next (s.setFaults { s.faults with consumer := v.toNat }))) ∧
  (∀ (s : State) (v : BitVec 16),
     s.faults.ringSize ≤ v.toNat ∨
       (s.faults.producer + s.faults.ringSize - s.faults.consumer) % s.faults.ringSize <
         (v.toNat + s.faults.ringSize - s.faults.consumer) % s.faults.ringSize ∨
       s.site.mode = .starting ∨ s.site.mode = .stopping →
     exec (.consumerWrite v) s = .next s)

/-- DEPOSIT_ANSWER in SERVING: OKAY advances the producer index modulo S and FAULT sets the mark; the
notice leaves the queue either way; the lapse timer starts where the ring was empty and the answer
is OKAY; an empty queue reports what was suppressed.

In HOLD the index, the mark and the queue change in the same way; an OKAY answer to the RAISED notice
of a latch's present setting acknowledges the latch; an empty queue reports what was suppressed; and
where a next notice waits at a full ring the consumer index gives up the oldest entry (R154 to R156).
In both the next deposit is presented, but in SERVING at a full ring (R153, R154 step 5).

In STOPPING the index, the mark and the queue change in the same way, and nothing more is reported; a
next notice that meets a full ring is discarded with the whole queue, and where no link owes a break
and no notice is left the mode becomes CONFIG (R35). -/
def Obligations.DepositAnswerByTheMode : Prop :=
  ∀ (s : State) (g : Granted) (rest : List Granted) (d : OwnAccess) (x : Notice)
    (queue : List Notice) (answer : Answer),
    s.path.granted = g :: rest → g.own = true → s.path.ownInFlight = some d →
    d.access.kind = .write → s.faults.queue = x :: queue →
    let free := !s.path.ownPresented.any OwnAccess.isDeposit
    let path := { s.path with granted := rest, ownInFlight := none }
    let settled : Faults :=
      if answer = .okay then
        { s.faults with
          queue := queue, producer := (s.faults.producer + 1) % s.faults.ringSize }
      else { s.faults with queue := queue, depositFault := true }
    ∃ t, exec (.depositAnswer answer) s = .next t ∧
      (s.site.mode = .serving → 1 < s.faults.ringSize → s.faults.producer < s.faults.ringSize →
        OnlyLog (s.setPath path) t ∧ PresentsNext free path t ∧
        t.faults = { settled.afterSuppressedReport s.site.time with
          lapseTimer :=
            if answer = .okay ∧ s.faults.producer = s.faults.consumer ∧ s.site.lapsePeriod ≠ 0 then
              some s.site.lapsePeriod
            else s.faults.lapseTimer }) ∧
      (s.site.mode = .hold →
        OnlyLog (s.setPath path) t ∧ PresentsNext free path t ∧
        (∀ id, answer = .okay → s.faults.RaisedBy x id →
          t.faults = ((settled.acknowledge s.faultView id).afterSuppressedReport
            s.site.time).afterRoomMade free) ∧
        (answer = .fault ∨ (∀ id, ¬ s.faults.RaisedBy x id) →
          t.faults = (settled.afterSuppressedReport s.site.time).afterRoomMade free)) ∧
      (s.site.mode = .stopping →
        t.faults = settled.afterFullRing free ∧
        (t.setFaults s.faults).setPath s.path = s.setSite t.site ∧
        t.site = { s.site with mode := t.site.mode } ∧ StopGoesOn free path t)

/-- DEPOSIT_ANSWER, OKAY, in HOLD acknowledges the latch whose RAISED notice it carried, where the
latch is set and its raised number is the notice's; an answer to any other notice, a FAULT, or an
answer in SERVING acknowledges nothing (R156). -/
def Obligations.HoldAcknowledgesTheDepositedRaise : Prop :=
  ∀ (s : State) (g : Granted) (rest : List Granted) (d : OwnAccess) (x : Notice)
    (queue : List Notice) (answer : Answer),
    s.path.granted = g :: rest → g.own = true → s.path.ownInFlight = some d →
    d.access.kind = .write → s.faults.queue = x :: queue →
    ∃ t, exec (.depositAnswer answer) s = .next t ∧
      (∀ id, s.site.mode = .hold → answer = .okay → s.faults.RaisedBy x id →
        t.faults.latch id = (s.faults.latch id).afterAcknowledge
            (s.faultView.isHeld id.kind && !id.kind.momentary) ∧
          ∀ j, j ≠ id → t.faults.latch j = s.faults.latch j) ∧
      ((s.site.mode ≠ .hold ∨ answer = .fault ∨ ∀ id, ¬ s.faults.RaisedBy x id) →
        ∀ j, t.faults.latch j = s.faults.latch j)

/-- LAPSE_EXPIRY in SERVING: the mode becomes HOLD, the timer stops, the LAPSE condition trips and its
latch acts, and a clear latch that is not masked has its RAISED notice join the log. Then, where a notice
is queued, this one included, and no deposit is outstanding, the head notice's deposit is presented, and
at a full ring it takes the place of the oldest entry (R153, R155, R159). Every other latch stays, and
beside the log side only the mode changes. -/
def Obligations.LapseExpiryEntersHold : Prop :=
  ∀ (s : State) (period : Nat),
    s.site.mode = .serving → s.faults.lapseTimer = some period →
    let told :=
      if s.faults.lapse.set = true ∨ s.faultView.masked .lapse = true then s.faults
      else s.faults.produce s.faultView (LatchId.lapse.noticeBody .raised 0 s.faults.detail)
    let lapsed : Faults :=
      { told with
        lapseTimer := none
        lapse := s.faults.lapse.afterTrip (s.faults.raisedNumber s.faultView .lapse 0)
          s.faults.lapse.alarms }
    ∃ t, exec .lapseExpiry s = .next t ∧ t.site.mode = .hold ∧
      OnlyLog s (t.setSite { t.site with mode := .serving }) ∧
      PresentsNext (!s.depositOutstanding) s.path t ∧
      t.faults = lapsed.afterRoomMade (!s.depositOutstanding) ∧
      (∀ j, j ≠ .lapse → t.faults.latch j = s.faults.latch j) ∧
      t.faults.producer = s.faults.producer ∧
      t.faults.consumer =
        if s.depositOutstanding = false ∧ t.faults.queue ≠ [] ∧ s.faults.ringFull = true then
          (s.faults.consumer + 1) % s.faults.ringSize
        else s.faults.consumer

/-- The next deposit: at the end of an event, where a notice is queued, no deposit is outstanding and
the mode is SERVING, HOLD or STOPPING with room in the ring, or HOLD, the head notice's two words are
presented at the entry of the producer index with every enable set; in HOLD a full ring gives up its
oldest entry first (R153, R155). In SERVING a full ring presents nothing. In STOPPING it discards the
queue, and the stop ends where no link owes a break (R35).

The ring is full where all its entries but one are unconsumed (R152), and a deposit is outstanding where
one is presented or in flight. The two words are laid out as
Table 10-9 gives, a notice of no latch with fault kind 15. -/
def Obligations.DepositsArePresented : Prop :=
  (∀ (s : State) (x : Notice) (queue : List Notice),
     s.faults.queue = x :: queue → s.depositOutstanding = false →
     let presented := fun f : Faults =>
       (s.setFaults f).setPath { s.path with
         ownPresented := some
           ⟨.deposit,
             ⟨.write, s.faults.ringBase + BitVec.ofNat 32 (16 * s.faults.producer), 2,
               [⟨x.word0, 0xFF#8⟩, ⟨x.word1, 0xFF#8⟩]⟩, false⟩ }
     (s.site.mode = .serving → s.faults.ringFull = false → close s = presented s.faults) ∧
     (s.site.mode = .serving → s.faults.ringFull = true → close s = s) ∧
     (s.site.mode = .hold → s.faults.ringFull = false → close s = presented s.faults) ∧
     (s.site.mode = .hold → s.faults.ringFull = true →
       close s = presented
         { s.faults with consumer := (s.faults.consumer + 1) % s.faults.ringSize }) ∧
     (s.site.mode = .stopping → s.faults.ringFull = false → close s = presented s.faults) ∧
     (s.site.mode = .stopping → s.faults.ringFull = true →
       (close s).faults = s.faults.afterFullRing true ∧ StopGoesOn true s.path (close s)) ∧
     (s.site.mode = .config ∨ s.site.mode = .starting → close s = s)) ∧
  (∀ f : Faults, f.ringFull = true ↔
     (f.producer + f.ringSize - f.consumer) % f.ringSize = f.ringSize - 1) ∧
  (∀ s : State, s.depositOutstanding = true ↔
     ∃ a : OwnAccess, (s.path.ownPresented = some a ∨ s.path.ownInFlight = some a) ∧
       a.purpose = .deposit) ∧
  (∀ a : OwnAccess, a.isDeposit = true ↔ a.purpose = .deposit) ∧
  (∀ x : Notice,
     x.word0.toNat =
       x.sequence.toNat +
         2 ^ 16 * (match x.body.kind with
           | .raised => 1 | .cleared => 2 | .started => 3 | .stopped => 4 | .suppressed => 5) +
         2 ^ 20 * (match x.body.latch with
           | some (.unit _ k) => k.val
           | some (.hole _ _) => 7
           | some .protection => 8
           | some .lapse => 9
           | none => 15) +
         2 ^ 24 * x.body.subject.toNat + 2 ^ 29 * x.body.operator.toNat +
         2 ^ 32 * x.time.toNat ∧
     x.word1.toNat = x.body.detail.toNat)

/-! ## Request Stages, Carrier Control and the Search Engine -/

/-- FULL_POST and SHORT_POST of an operator within the operator count, in service. A full post stores
mode and slot, and then copies the front half into an IDLE back half or waits as pending. A short
post stores the enabled bytes alone. While a post is pending, or where the mode field would become 3,
nothing changes. -/
def Obligations.PostsAreStoredAndActed : Prop :=
  ∀ (s : State) (k : Operator) (data : Word) (enables : BitVec 8),
    s.site.mode.inService = true → k.val < s.site.operatorCount →
    let g := s.stage k
    let slot := BitVec.ofNat 8 (field data 8 8)
    (∀ m, g.pending = false → PostMode.ofCode (field data 0 2) = some m →
      let p : Post := { g.front with mode := m, slot := slot }
      exec (.fullPost k data) s = .next
        (s.setStage k
          (if g.back = none then { g with front := p, back := some p }
          else { g with front := p, pending := true }))) ∧
    (∀ m, g.pending = false → enables ≠ 0xFF#8 →
      (if enables.getLsbD 0 = true then PostMode.ofCode (field data 0 2) = some m
        else m = g.front.mode) →
      exec (.shortPost k data enables) s = .next
        (s.setStage k
          { g with
            front :=
              { g.front with
                mode := m, slot := if enables.getLsbD 1 then slot else g.front.slot } })) ∧
    (g.pending = true ∨ field data 0 2 = 3 → exec (.fullPost k data) s = .next s) ∧
    (g.pending = true ∨ (enables.getLsbD 0 = true ∧ field data 0 2 = 3) →
      exec (.shortPost k data enables) s = .next s)

/-- CHANGED_SET_REMOVE: the slots a write of s3 (slots 0 to 63) or s4 (64 to 95) names leave the
operator's changed set; no other slot, set, context or list changes (R51). -/
def Obligations.NamedSlotsLeaveTheChangedSet : Prop :=
  ∀ (s : State) (k : Operator) (high : Bool) (names : Word),
    s.site.mode.inService = true → k.val < s.site.operatorCount →
    ∃ t, exec (.changedSetRemove k high names) s = .next t ∧ OnlyCarriers s t ∧
      t.carriers.contexts = s.carriers.contexts ∧ t.carriers.occupancy = s.carriers.occupancy ∧
      (∀ n : SlotId, (t.carriers.changed.get k).getLsbD n.val =
        ((s.carriers.changed.get k).getLsbD n.val &&
          !(if high then decide (64 ≤ n.val) && names.getLsbD (n.val - 64)
            else decide (n.val < 64) && names.getLsbD n.val))) ∧
      ∀ j, j ≠ k → t.carriers.changed.get j = s.carriers.changed.get j

/-- The validator serves the WAITING stage that comes first in cyclic order behind the one served
last. That a validation of another mode than that post's, or with no post WAITING, changes nothing is
the model's choice (log 1): no such event can happen.

A validation whose post fails a check: the stage completes with the outcome, the slot and one
more serial, its pending post moves up, and beside the stages only the log side moves on, with no notice
made and the next deposit presented (R153). -/
def Obligations.ValidatorTakesTurnsAndCompletesPosts : Prop :=
  (∀ s : State,
     (∀ k p, s.stages.next = some (k, p) ↔
       (s.stage k).back = some p ∧
       ∀ j, (s.stage j).back ≠ none →
         (k.val + 5 - s.stages.lastServed.val) % 6 ≤ (j.val + 5 - s.stages.lastServed.val) % 6) ∧
     ((∀ k p, s.stages.next = some (k, p) → p.mode ≠ .tune) → exec .validateTune s = .next s) ∧
     ((∀ k p, s.stages.next = some (k, p) → p.mode ≠ .search) →
       exec .validateSearch s = .next s) ∧
     ((∀ k p, s.stages.next = some (k, p) → p.mode ≠ .release) →
       exec .validateRelease s = .next s)) ∧
  (∀ (s : State) (k : Operator) (p : Post) (o : Outcome) (c : Instr),
     s.stages.next = some (k, p) → checkPost s k p = .inr o → s.site.mode ≠ .stopping →
     (c = .validateTune ∧ p.mode = .tune) ∨ (c = .validateSearch ∧ p.mode = .search) ∨
       (c = .validateRelease ∧ p.mode = .release) →
     ∃ t, exec c s = .next t ∧ t.stages = s.stages.afterValidation k p o ∧
       OnlyLog s (t.setStages s.stages) ∧ PresentsNext (!s.depositOutstanding) s.path t ∧
       LogTells [] s t ∧ ∀ id, t.faults.latch id = s.faults.latch id)

/-- The checks of Table 4-4 in order: the first that fails gives the post its outcome, and a post all
of whose checks pass acts on its slot (R58, R59).

The fields of a post lie in s0 and s1 where Table 10-5 places them: channel, bandwidth code and power of
s0, start channel, direction, step and stop level of s1; and the mode codes of s2 are TUNE 0, SEARCH 1 and
RELEASE 2, with no other defined. -/
def Obligations.PostsPassTheTableOfChecks : Prop :=
  (∀ (s : State) (k : Operator) (p : Post),
    (s.site.mode.inService = false → checkPost s k p = .inr .notServing) ∧
    (s.site.mode.inService = true → 4 * s.site.unitCount ≤ p.slot.toNat ∨ 96 ≤ p.slot.toNat →
      checkPost s k p = .inr .badSlot) ∧
    ∀ n : SlotId, s.site.mode.inService = true → p.slot.toNat = n.val →
      n.val < 4 * s.site.unitCount →
      let c := s.context n
      let u := s.unit (slotUnit n)
      let t := p.tuningFields
      let centre := if p.mode = .search then p.startChannel else t.channel
      let low : Int := centre.toNat - 25 * t.bandwidth.toNat
      let high : Int := centre.toNat + 25 * t.bandwidth.toNat
      let placing := p.mode = .tune ∨ p.mode = .search
      let fails : List (Prop × Outcome) :=
        [(c.state ≠ .vacant ∧ c.owner ≠ some k, .notOwner),
          (¬ (c.state = .vacant ∨ (c.state = .searching ∧ p.mode = .release) ∨
              ((c.state = .waiting ∨ c.state = .onAir ∨ c.state = .suspended) ∧
                p.mode ≠ .search)), .slotBusy),
          (placing ∧ u.state ≠ .live ∧ ¬ (p.mode = .tune ∧ c.state = .suspended), .unitDown),
          (p.mode = .search ∧ u.garbled = true, .linkPoor),
          (placing ∧ (t.bandwidth.toNat < 1 ∨ 4 < t.bandwidth.toNat ∨
            s.site.maxPower < t.power.toNat ∨
            (p.mode = .search ∧ (p.step = 0 ∨ p.stopLevel = 0))), .badField),
          (placing ∧ ¬ ((s.site.rangeLow : Int) ≤ low ∧ high ≤ (s.site.rangeHigh : Int)),
            .outOfRange),
          (placing ∧ ¬ ((s.site.bandLow k : Int) ≤ low ∧ high ≤ (s.site.bandHigh k : Int)),
            .outOfBand),
          (p.mode = .tune ∧ ∃ e ∈ s.carriers.occupancy.get (slotUnit n), e.slot ≠ n ∧
            max e.interval.low low < min e.interval.high high, .overlap)]
      (∀ (i : Nat) (x : Prop × Outcome), fails[i]? = some x → x.1 →
        (∀ (j : Nat) (y : Prop × Outcome), j < i → fails[j]? = some y → ¬ y.1) →
        checkPost s k p = .inr x.2) ∧
      ((∀ x ∈ fails, ¬ x.1) → checkPost s k p = .inl n)) ∧
  (∀ p : Post,
    (p.tuningFields.channel.toNat = p.tuning.toNat % 2 ^ 16 ∧
      p.tuningFields.bandwidth.toNat = p.tuning.toNat / 2 ^ 16 % 2 ^ 8 ∧
      p.tuningFields.power.toNat = p.tuning.toNat / 2 ^ 24 % 2 ^ 8) ∧
    p.startChannel.toNat = p.search.toNat % 2 ^ 16 ∧
    p.direction = (if p.search.getLsbD 16 then .down else .up) ∧
    p.step = p.search.toNat / 2 ^ 24 % 2 ^ 8 ∧ p.stopLevel = p.search.toNat / 2 ^ 32 % 2 ^ 4) ∧
  (PostMode.ofCode 0 = some .tune ∧ PostMode.ofCode 1 = some .search ∧
    PostMode.ofCode 2 = some .release ∧ ∀ n, 3 ≤ n → PostMode.ofCode n = none)

/-- VALIDATE_TUNE of a post that passes: the stage completes ACCEPTED. A VACANT slot becomes WAITING
for its new owner, an ON-AIR one WAITING with what it holds, each with a TUNE at the queue's tail or
deferred behind an orphan; a WAITING slot's TUNE is superseded in its place; a SUSPENDED slot queues
nothing (R61 to R64). The notices of the cells that became DARK or ceased to be join the log, and the
next deposit is presented (R153). -/
def Obligations.TuneIsAcceptedByTheSlotsState : Prop :=
  ∀ (s : State) (k : Operator) (p : Post) (n : SlotId),
    s.stages.next = some (k, p) → p.mode = .tune → checkPost s k p = .inl n →
    let c := s.context n
    let l := s.link (slotUnit n)
    let tune : Command := .tune n p.tuningFields
    let c' : Context :=
      { c with
        outcome := .accepted, bandLimit := false, ready := false, summary := ⟨0, 0, 0⟩
        requested := some ⟨p.tuningFields, .post⟩ }
    let told := if c.outcome = .accepted then none else some k
    ∃ t, exec .validateTune s = .next t ∧
      t.stages = s.stages.afterValidation k p .accepted ∧
      OnlyCarrierSide (slotUnit n) s (t.setStages s.stages) ∧ OnlyHoleLatches s t ∧
      PresentsNext (!s.depositOutstanding) s.path t ∧
      LogTells (s.noticesOf (holeChanges s t)) s t ∧
      (c.state = .vacant →
        SlotChanged n
          { c' with
            state := .waiting, owner := some k, held := none
            deferred := if c.orphan then some tune else c.deferred } (some k) s t ∧
        t.link (slotUnit n) =
          (if c.orphan then l else { l with queue := l.queue ++ [tune] }) ∧
        SlotFigures n (some k) { s.steering.record n with operator := some k }
          (fun x => { x with holding := x.holding + 1 }) s t) ∧
      (c.state = .onAir → ∀ code, (s.steering.record n).onAir = some code →
        SlotChanged n
          { c' with
            state := .waiting, deferred := if c.orphan then some tune else c.deferred }
          (some k) s t ∧
        t.link (slotUnit n) =
          (if c.orphan then l else { l with queue := l.queue ++ [tune] }) ∧
        SlotFigures n (s.steering.record n).operator { s.steering.record n with onAir := none }
          (fun x =>
            { x with
              capacity :=
                x.capacity - (if (s.unit (slotUnit n)).impaired then code else 2 * code)
              load := x.load - (s.steering.record n).users }) s t) ∧
      (c.state = .waiting →
        SlotChanged n
          { c' with deferred := if c.deferred.isSome then some tune else c.deferred } told s t ∧
        t.link (slotUnit n) = { l with queue := (t.link (slotUnit n)).queue } ∧
        (t.link (slotUnit n)).queue.length = l.queue.length ∧
        (∀ (i : Nat) (x : Command), l.queue[i]? = some x →
          (t.link (slotUnit n)).queue[i]? =
            some (if c.deferred.isSome = false ∧ x.code = 1 ∧ x.slot = some n then tune else x)) ∧
        t.steering = s.steering) ∧
      (c.state = .suspended →
        SlotChanged n c' told s t ∧ t.link (slotUnit n) = l ∧ t.steering = s.steering)

/-- VALIDATE_SEARCH of a post that passes: at a clear candidate the slot becomes SEARCHING with its
record and SCAN, and the stage completes ACCEPTED; where the walk ends at the band limit the slot is
VACANT again with the flag and the summary, and the stage completes NO-CLEAR (R65, R79). The notices of
the cells that became DARK or ceased to be join the log, none at NO-CLEAR, and the next deposit is
presented (R153).

The walk over candidates: it stands still at the first candidate that no other slot's interval
overlaps, each candidate one step from the last and inside the limits, and ends at the limit where
every candidate reached is overlapped and the next would leave the limits (R76 to R78). -/
def Obligations.SearchStartsAtTheFirstClearCandidate : Prop :=
  (∀ (s : State) (k : Operator) (p : Post) (n : SlotId) (r : SearchRecord),
     s.stages.next = some (k, p) → p.mode = .search → checkPost s k p = .inl n →
     let c := s.context n
     let l := s.link (slotUnit n)
     let first : SearchRecord :=
       { candidate := p.startChannel, direction := p.direction, step := p.step
         stopLevel := p.stopLevel, bandwidth := p.tuningFields.bandwidth
         power := p.tuningFields.power, lastLevel := 0, steps := 0
         lower := max (s.site.bandLow k) s.site.rangeLow
         upper := min (s.site.bandHigh k) s.site.rangeHigh }
     let claimed := s.carriers.overlapsOthers n
     (examine claimed 65536 first = .clear r →
       ∃ t, exec .validateSearch s = .next t ∧
         t.stages = s.stages.afterValidation k p .accepted ∧
         OnlyCarrierSide (slotUnit n) s (t.setStages s.stages) ∧ OnlyHoleLatches s t ∧
         PresentsNext (!s.depositOutstanding) s.path t ∧
         LogTells (s.noticesOf (holeChanges s t)) s t ∧
         SlotChanged n
           { c with
             state := .searching, owner := some k, outcome := .accepted, bandLimit := false
             ready := false, summary := ⟨0, 0, 0⟩, search := some r
             deferred :=
               if c.orphan then some (.scan n r.candidate r.bandwidth) else c.deferred }
           (some k) s t ∧
         t.link (slotUnit n) =
           (if c.orphan then l
           else { l with queue := l.queue ++ [.scan n r.candidate r.bandwidth] }) ∧
         SlotFigures n (some k) { s.steering.record n with operator := some k }
           (fun x => { x with holding := x.holding + 1 }) s t) ∧
     (examine claimed 65536 first = .limit r →
       ∃ t, exec .validateSearch s = .next t ∧
         t.stages = s.stages.afterValidation k p .noClear ∧
         OnlyCarrierSide (slotUnit n) s (t.setStages s.stages) ∧
         PresentsNext (!s.depositOutstanding) s.path t ∧ LogTells [] s t ∧
         (∀ id, t.faults.latch id = s.faults.latch id) ∧
         SlotChanged n
           { c with
             state := .vacant, owner := none, requested := none, held := none, search := none
             outcome := .noClear, bandLimit := true, ready := false
             summary := ⟨r.candidate, r.lastLevel, r.steps⟩ } (some k) s t ∧
         t.link (slotUnit n) = l ∧ t.steering = s.steering)) ∧
  (∀ (claimed : Interval → Bool) (first r : SearchRecord),
     1 ≤ first.step → first.upper ≤ 65535 →
     let at_ : Nat → Int := fun i =>
       first.candidate.toNat + (if first.direction = .up then (i * first.step : Int)
         else -(i * first.step : Int))
     let inside : Nat → Prop := fun i =>
       (first.lower : Int) ≤ at_ i - 25 * first.bandwidth.toNat ∧
         at_ i + 25 * first.bandwidth.toNat ≤ (first.upper : Int)
     let busy : Nat → Prop := fun i => claimed (intervalOf (at_ i) first.bandwidth) = true
     (examine claimed 65536 first = .clear r →
       ∃ i : Nat, (r.candidate.toNat : Int) = at_ i ∧ r = { first with candidate := r.candidate } ∧
         ¬ busy i ∧ ∀ j < i, busy j ∧ inside (j + 1)) ∧
     (examine claimed 65536 first = .limit r →
       ∃ i : Nat, (r.candidate.toNat : Int) = at_ i ∧ r = { first with candidate := r.candidate } ∧
         busy i ∧ (∀ j < i, busy j ∧ inside (j + 1)) ∧ ¬ inside (i + 1)))

/-- VALIDATE_RELEASE of a post that passes, by the slot's state (R66, Table 4-6): VACANT, nothing
more; SEARCHING, VACANT with its SCAN removed, discarded where deferred, or orphaned where in flight;
WAITING with nothing held, VACANT with its TUNE withdrawn; WAITING with a tuning held, RELEASING with
its TUNE made a DROP in place; ON-AIR, RELEASING with a DROP; SUSPENDED, VACANT. The notices of the cells
that became DARK or ceased to be join the log, and the next deposit is presented (R153). -/
def Obligations.ReleaseActsByTheSlotsState : Prop :=
  ∀ (s : State) (k : Operator) (p : Post) (n : SlotId),
    s.stages.next = some (k, p) → p.mode = .release → checkPost s k p = .inl n →
    let c := s.context n
    let l := s.link (slotUnit n)
    let x := s.steering.record n
    let flags : Context :=
      { c with bandLimit := false, ready := false, summary := ⟨0, 0, 0⟩, requested := none }
    let gone : Context :=
      { flags with
        state := .vacant, owner := none, held := none, search := none, outcome := .released }
    let leaving : Context := { flags with state := .releasing, outcome := .accepted }
    let lost := fun t : State =>
      SlotFigures n x.operator { x with operator := none }
        (fun y => { y with holding := y.holding - 1 }) s t
    let removed : Link := { l with queue := l.queue.filter fun y => y.slot != some n }
    (l.scanInFlight n = true ↔
      ∃ i ch b, l.inFlight = some i ∧ i.command = .scan n ch b) ∧
    ∃ t, exec .validateRelease s = .next t ∧
      t.stages = s.stages.afterValidation k p
        (if c.state = .onAir ∨ (c.state = .waiting ∧ c.held ≠ none) then .accepted
          else .released) ∧
      OnlyCarrierSide (slotUnit n) s (t.setStages s.stages) ∧ OnlyHoleLatches s t ∧
      PresentsNext (!s.depositOutstanding) s.path t ∧
      LogTells (s.noticesOf (holeChanges s t)) s t ∧
      (c.state = .vacant →
        t.carriers = s.carriers ∧ t.links = s.links ∧ t.steering = s.steering) ∧
      (c.state = .searching →
        SlotChanged n
          { gone with
            deferred := if c.orphan then none else c.deferred
            orphan := c.orphan || l.scanInFlight n } (some k) s t ∧
        t.link (slotUnit n) = (if c.orphan ∨ l.scanInFlight n = true then l else removed) ∧
        lost t) ∧
      (c.state = .waiting → c.held = none →
        SlotChanged n { gone with deferred := none } (some k) s t ∧
        t.link (slotUnit n) = (if c.deferred.isSome then l else removed) ∧ lost t) ∧
      (c.state = .waiting → c.held ≠ none →
        SlotChanged n leaving (some k) s t ∧
        t.link (slotUnit n) = { l with queue := (t.link (slotUnit n)).queue } ∧
        (t.link (slotUnit n)).queue.length = l.queue.length ∧
        (∀ (i : Nat) (y : Command), l.queue[i]? = some y →
          (t.link (slotUnit n)).queue[i]? =
            some (if y.code = 1 ∧ y.slot = some n then .drop n else y)) ∧
        t.steering = s.steering) ∧
      (c.state = .onAir → ∀ code, x.onAir = some code →
        SlotChanged n { leaving with deferred := if c.orphan then some (.drop n) else c.deferred }
          (some k) s t ∧
        t.link (slotUnit n) =
          (if c.orphan then l else { l with queue := l.queue ++ [.drop n] }) ∧
        SlotFigures n x.operator { x with onAir := none }
          (fun y =>
            { y with
              capacity :=
                y.capacity - (if (s.unit (slotUnit n)).impaired then code else 2 * code)
              load := y.load - x.users }) s t) ∧
      (c.state = .suspended →
        SlotChanged n gone (some k) s t ∧ t.link (slotUnit n) = l ∧ lost t)

/-! ## The Link Engine -/

/-- DISPATCH: with nothing in flight, the transmitter IDLE and no break asked for, a LIVE unit's link
sends the head of its queue and a PROBING unit's its POLL: the command is in flight with the next tag
and its frame begins. A TUNE makes its WAITING slot TUNING. Otherwise nothing changes (R67, R98).

That a TUNE for a slot not WAITING, which no run dispatches, leaves Carrier Control as it is, is the
model's choice (log 27); so is that a DISPATCH with nothing to send changes nothing (log 1). -/
def Obligations.DispatchSendsThePermittedCommand : Prop :=
  ∀ (s : State) (n : UnitId),
    let l := s.link n
    let sent := fun (c : Command) (rest : List Command) => { l with
      queue := rest
      inFlight := some ⟨c, l.nextTag, false⟩
      nextTag := l.nextTag + 1
      tx := .preamble
      txFrame := frameCharacters (frameBytes c.code l.nextTag c.body) }
    (l.inFlight = none → l.tx = .idle → l.breakRequest = false → (s.unit n).state = .live →
      ∀ (c : Command) (rest : List Command), l.queue = c :: rest →
        (c.code ≠ 1 → exec (.dispatch n) s = .next (s.setLinks (s.links.put n (sent c rest)))) ∧
        ∀ m u, c = .tune m u →
          ∃ t, exec (.dispatch n) s = .next t ∧ t.link n = sent c rest ∧
            (t.setCarriers s.carriers).setLinks s.links = s ∧
            (∀ j, j ≠ n → t.link j = s.link j) ∧
            ((s.context m).state = .waiting →
              SlotChanged m { s.context m with state := .tuning } (s.context m).owner s t) ∧
            ((s.context m).state ≠ .waiting → t.carriers = s.carriers)) ∧
    (l.inFlight = none → l.tx = .idle → l.breakRequest = false → (s.unit n).state = .probing →
      .poll ∈ l.queue →
      exec (.dispatch n) s = .next (s.setLinks (s.links.put n (sent .poll (l.queue.erase .poll))))) ∧
    (l.inFlight ≠ none ∨ l.tx ≠ .idle ∨ l.breakRequest = true ∨
        ((s.unit n).state = .live ∧ l.queue = []) ∨
        ((s.unit n).state = .probing ∧ .poll ∉ l.queue) ∨
        ((s.unit n).state ≠ .live ∧ (s.unit n).state ≠ .probing) →
      exec (.dispatch n) s = .next s)

/-- A command's frame: the head byte holds the kind code over the tag, the body bytes follow as
Table 10-10 lays them out, and the check byte makes the sum a multiple of 256 (R91).

Each byte is sent as one character of 11 bits: a start bit 0, the byte least significant bit first, a
mark bit that is 1 in the frame's first character and 0 in every other, and a stop bit 1 (R90). The
preamble is 11 bit times of 1, the frame its characters back to back, the break 22 bit times of 0. The
line has the level of the bit being sent; in IDLE nothing is sent and the line is held at 1 (R90, R93,
R94). -/
def Obligations.FramesFollowTheTable : Prop :=
  (∀ (tag : BitVec 4) (c : Command),
    (∃ check, frameBytes c.code tag c.body =
      BitVec.ofNat 8 (16 * c.code + tag.toNat) :: c.body ++ [check]) ∧
    (((frameBytes c.code tag c.body).map BitVec.toNat).sum % 256 = 0) ∧
    (∀ n t, c = .tune n t →
      c.code = 1 ∧ c.slot = some n ∧
        ∃ lo hi : Byte, c.body = [BitVec.ofNat 8 (n.val % 4), lo, hi, t.bandwidth, t.power] ∧
        lo.toNat + 256 * hi.toNat = t.channel.toNat) ∧
    (∀ n, c = .drop n → c.code = 2 ∧ c.slot = some n ∧ c.body = [BitVec.ofNat 8 (n.val % 4)]) ∧
    (∀ n ch b, c = .scan n ch b →
      c.code = 3 ∧ c.slot = some n ∧
        ∃ lo hi : Byte, c.body = [lo, hi, b] ∧ lo.toNat + 256 * hi.toNat = ch.toNat) ∧
    (c = .poll → c.code = 4 ∧ c.slot = none ∧ c.body = [])) ∧
  (∀ (bytes : List Byte),
    (frameCharacters bytes).length = bytes.length ∧
    ∀ (i : Nat) (b : Byte), bytes[i]? = some b →
      (frameCharacters bytes)[i]? = some (sentCharacter (decide (i = 0)) b)) ∧
  (∀ (mark : Bool) (b : Byte),
    (sentCharacter mark b).getLsbD 0 = false ∧
    (∀ i < 8, (sentCharacter mark b).getLsbD (i + 1) = b.getLsbD i) ∧
    (sentCharacter mark b).getLsbD 9 = mark ∧ (sentCharacter mark b).getLsbD 10 = true) ∧
  (∀ l : Link,
    (l.tx = .idle → l.sentBits = [] ∧ ∀ i, l.lineLevel i = true) ∧
    (∀ (i : Nat) (b : Bool), l.sentBits[i]? = some b → l.lineLevel i = b) ∧
    (l.tx = .preamble → l.sentBits = List.replicate 11 true) ∧
    (l.tx = .sendingBreak → l.sentBits = List.replicate 22 false) ∧
    (l.tx = .frame → l.sentBits.length = 11 * l.txFrame.length ∧
      ∀ (i j : Nat) (c : LineCharacter), l.txFrame[i]? = some c → j < 11 →
        l.sentBits[11 * i + j]? = some (c.getLsbD j)))

/-- FRAME_SEND_END: the end of a frame leaves the transmitter IDLE and starts the reply timer of a
command still in flight; where a break has been asked for, the break begins in place of it. A break
begun in PREAMBLE leaves the whole frame unsent, so there no frame ends (R93, R94). BREAK_BEGIN: the
break asked for begins, abandoning the command in flight and restarting the error window (R94). That
FRAME_SEND_END is taken in PREAMBLE too is the model's choice (log 3), and so is that either command
otherwise changes nothing (log 1).

BREAK_END: the transmitter is IDLE, and a RESETTING unit's guard timer starts. In STOPPING the
link leaves the set that owes a break; queued notices go on to the ring or, where it is full, are
discarded, and where no link owes a break, no notice is queued and no deposit is outstanding, the mode
becomes CONFIG with the windows removed and the default roles (R35, R111). -/
def Obligations.TransmitterEndsFramesAndBreaks : Prop :=
  (∀ (s : State) (n : UnitId),
     let l := s.link n
     (l.tx = .preamble ∨ l.tx = .frame → l.breakRequest = false →
       exec (.frameSendEnd n) s = .next
         (s.setLinks (s.links.put n
           { l with
             tx := .idle, txFrame := []
             replyTimer :=
               if l.inFlight = none then l.replyTimer else some s.site.replyTimeout }))) ∧
     (l.tx = .frame → l.breakRequest = true →
       exec (.frameSendEnd n) s = .next (s.setLinks (s.links.put n l.inBreak))) ∧
     (l.tx = .preamble → l.breakRequest = true → exec (.frameSendEnd n) s = .next s) ∧
     (l.tx = .idle ∨ l.tx = .sendingBreak → exec (.frameSendEnd n) s = .next s) ∧
     (l.breakRequest = true → l.tx ≠ .sendingBreak →
       exec (.breakBegin n) s = .next (s.setLinks (s.links.put n l.inBreak))) ∧
     (l.breakRequest = false ∨ l.tx = .sendingBreak → exec (.breakBegin n) s = .next s)) ∧
  (∀ (s : State) (n : UnitId), (s.link n).tx = .sendingBreak →
     let u := s.unit n
     let ended :=
       (s.setLinks (s.links.put n { s.link n with tx := .idle })).setUnits
         (s.units.put n { u with guard := u.guard || decide (u.state = .resetting) })
     (s.site.mode ≠ .stopping → exec (.breakEnd n) s = .next ended) ∧
     (s.site.mode = .stopping → ∃ t, exec (.breakEnd n) s = .next t ∧
       (∀ m : UnitId, t.site.owingBreaks.getLsbD m.val =
         (s.site.owingBreaks.getLsbD m.val && decide (m ≠ n))) ∧
       t.site =
         { s.site with owingBreaks := t.site.owingBreaks, mode := t.site.mode } ∧
       t.faults = s.faults.afterFullRing (!s.depositOutstanding) ∧
       StopGoesOn (!s.depositOutstanding) s.path t ∧
       ((t.setSite s.site).setPath s.path).setFaults s.faults = ended))

/-- REPLY_TIMER_EXPIRY: at the first expiry the same frame is sent again with the same tag and a
re-send is counted. At the second the command is abandoned and a timeout counted: a PROBING unit
becomes SILENT, a LIVE one SILENT and DOWN with its slots as Table 4-7 gives; SILENT is reported where
it was not on record, and then the cells that become DARK (R99, R100, R116, R120, R133); the next deposit
is presented (R153). At the loss of a LIVE unit each cell of its sector takes the holding count, capacity
and load of the slots its operator then holds, and its standing is decided (R128 to R132).

R120 says that no second timeout comes in another state; that such a unit would stay as it is, is the
model's choice (log 27). -/
def Obligations.ReplyTimerResendsThenTimesOut : Prop :=
  ∀ (s : State) (n : UnitId) (x : InFlight) (period : Nat),
    (s.link n).replyTimer = some period → (s.link n).inFlight = some x →
    let l := s.link n
    let u := s.unit n
    let timedOut : Link :=
      { l with
        inFlight := none, replyTimer := none
        counters := { l.counters with timeouts := countUp 255 l.counters.timeouts } }
    (x.resent = false →
      exec (.replyTimerExpiry n) s = .next
        (s.setLinks (s.links.put n
          { l with
            inFlight := some { x with resent := true }, replyTimer := none
            tx := .preamble
            txFrame := frameCharacters (frameBytes x.command.code x.tag x.command.body)
            counters := { l.counters with resends := countUp 255 l.counters.resends } }))) ∧
    (x.resent = true → s.site.mode ≠ .stopping →
      ∃ t, exec (.replyTimerExpiry n) s = .next t ∧ OnlyUnitSide n s t ∧
        PresentsNext (!s.depositOutstanding) s.path t ∧
        (let reports : List Report :=
          (if (u.state = .live ∨ u.state = .probing) ∧ u.silent = false then
              [⟨.unit n 4, true, none⟩]
            else []) ++ holeChanges s t
        OnlyReports (fun _ => False) 0 reports s t ∧ LogTells (s.noticesOf reports) s t) ∧
        (u.state = .live →
          t.link n = timedOut.afterUnitLoss ∧
          t.unit n = ({ u with silent := true }).afterDown s.site ∧
          UnitSlotsChanged n Context.afterUnitLoss s t ∧
          OnlyUnitFigures n s t ∧ UnitRecordsLost n s t ∧
          (s.carriers.Inv → s.SteeringInv → UnitCellsDecided n s t)) ∧
        (u.state = .probing →
          t.link n = timedOut ∧ t.unit n = { u with silent := true } ∧
          t.carriers = s.carriers ∧ t.steering = s.steering) ∧
        (u.state ≠ .live → u.state ≠ .probing →
          t.link n = timedOut ∧ t.unit n = u ∧ t.carriers = s.carriers ∧
          t.steering = s.steering))

/-- A completed frame whose sum is not 0 is a CHECK discard; one whose kind, tag, and carrier index
or channel answer the command in flight is taken, with levels above 15 and users above 1023 limited;
every other is STRAY. A character received as it was sent is good.

A frame completes with a good body character on a READY line, once all the body characters of its kind are
stored behind its head: two of TUNED, one of DROPPED, three of LEVEL, thirteen of STATUS (R101, R102,
Table 6-3). No other character completes one. -/
def Obligations.RepliesAreMatchedToTheCommand : Prop :=
  ∀ (l : Link) (check : Byte),
    ((((l.buffer ++ [check]).map BitVec.toNat).sum % 256 ≠ 0) → l.judge check = .check) ∧
    ((((l.buffer ++ [check]).map BitVec.toNat).sum % 256 = 0) →
      (l.inFlight = none → l.judge check = .stray) ∧
      ∀ (x : InFlight) (head : Byte) (body : List Byte),
        l.inFlight = some x → l.buffer = head :: body →
        let byte := fun i => (body.getD i 0).toNat
        let answers := fun code => head.toNat = 16 * code + x.tag.toNat
        (∀ n t, x.command = .tune n t →
          l.judge check =
            if answers 9 ∧ byte 0 = n.val % 4 then .taken (.tuned n (body.getD 1 0)) else .stray) ∧
        (∀ n, x.command = .drop n →
          l.judge check = if answers 10 ∧ byte 0 = n.val % 4 then .taken (.dropped n) else .stray) ∧
        (∀ n ch b, x.command = .scan n ch b →
          l.judge check =
            if answers 11 ∧ byte 0 + 256 * byte 1 = ch.toNat then
              .taken (.level n (min 15 (byte 2)))
            else .stray) ∧
        (x.command = .poll → ∃ f : Bank 4 Figures,
          (∀ i : Fin 4, f.get i =
            ⟨min 1023 (byte (1 + 3 * i.val) + 256 * byte (2 + 3 * i.val)),
              byte (3 + 3 * i.val)⟩) ∧
          l.judge check =
            if answers 12 then .taken (.status (BitVec.ofNat 4 (byte 0)) f) else .stray)) ∧
    (∀ (head : Bool) (b : Byte), classify (cleanSamples head b) = .good head b) ∧
    (∀ c, l.line = .ready → l.bodyComplete = true → classify c = .good false check →
      l.completion c = some (l.judge check)) ∧
    (∀ c, l.line ≠ .ready ∨ l.bodyComplete = false ∨ (∀ b, classify c ≠ .good false b) →
      l.completion c = none) ∧
    (l.bodyComplete = true ↔ l.rx = .body ∧ ∃ (head : Byte) (body : List Byte),
      l.buffer = head :: body ∧
        ((head.toNat / 16 = 9 ∧ body.length = 2) ∨ (head.toNat / 16 = 10 ∧ body.length = 1) ∨
          (head.toNat / 16 = 11 ∧ body.length = 3) ∨ (head.toNat / 16 = 12 ∧ body.length = 13)))

/-- TUNED_REPLY and DROPPED_REPLY that are taken. Result 0 puts the TUNING slot ON-AIR with its
requested tuning; another result returns a retune to what the unit holds, and vacates a first tuning
(R68). DROPPED makes a RELEASING slot VACANT (R69). The notices of the cells that became DARK or ceased to
be join the log, and the next deposit is presented (R153).

At a rejected retune the tuning source is kept and the ready flag left as it was, as the model reads
R68 (log 21). That a reply for a slot in another state, which no run receives, ends the command in
flight alone is the model's choice (log 27). -/
def Obligations.TunedAndDroppedMoveTheSlot : Prop :=
  ∀ (s : State) (n : UnitId) (c : Samples) (m : SlotId), s.site.mode ≠ .stopping →
    let x := s.context m
    let r := s.steering.record m
    let done : Link :=
      { s.link n with rx := .hunt, buffer := [], inFlight := none, replyTimer := none }
    let entered := fun (code : Nat) (y : Cell) => { y with
      capacity := y.capacity + (if (s.unit (slotUnit m)).impaired then code else 2 * code)
      load := y.load + r.users }
    (∀ result, (s.link n).completion c = some (.taken (.tuned m result)) →
      ∃ t, exec (.tunedReply n c) s = .next t ∧ t.link n = done ∧
        PresentsNext (!s.depositOutstanding) s.path t ∧
        OnlyCarrierSide n s t ∧ OnlyHoleLatches s t ∧
        LogTells (s.noticesOf (holeChanges s t)) s t ∧
        (∀ q, x.state = .tuning → x.requested = some q → result = 0 →
          SlotChanged m
            { x with
              state := .onAir, held := some q.tuning, outcome := .done, reason := 0
              ready := x.ready || decide (q.source = .search) } x.owner s t ∧
          SlotFigures m r.operator { r with onAir := some q.tuning.bandwidth.toNat }
            (entered q.tuning.bandwidth.toNat) s t) ∧
        (∀ q h, x.state = .tuning → x.requested = some q → x.held = some h → result ≠ 0 →
          SlotChanged m
            { x with
              state := .onAir, requested := some { q with tuning := h }, outcome := .unitReject
              reason := result } x.owner s t ∧
          SlotFigures m r.operator { r with onAir := some h.bandwidth.toNat }
            (entered h.bandwidth.toNat) s t) ∧
        (∀ q, x.state = .tuning → x.requested = some q → x.held = none → result ≠ 0 →
          SlotChanged m
            { x with
              state := .vacant, owner := none, requested := none, search := none
              bandLimit := false, ready := false, outcome := .unitReject, reason := result }
            x.owner s t ∧
          SlotFigures m r.operator { r with operator := none }
            (fun y => { y with holding := y.holding - 1 }) s t) ∧
        (x.state ≠ .tuning → t.carriers = s.carriers ∧ t.steering = s.steering)) ∧
    ((s.link n).completion c = some (.taken (.dropped m)) →
      ∃ t, exec (.droppedReply n c) s = .next t ∧ t.link n = done ∧
        PresentsNext (!s.depositOutstanding) s.path t ∧
        OnlyCarrierSide n s t ∧ OnlyHoleLatches s t ∧
        LogTells (s.noticesOf (holeChanges s t)) s t ∧
        (x.state = .releasing →
          SlotChanged m
            { x with
              state := .vacant, owner := none, requested := none, held := none, search := none
              outcome := .released } x.owner s t ∧
          SlotFigures m r.operator { r with operator := none }
            (fun y => { y with holding := y.holding - 1 }) s t) ∧
        (x.state ≠ .releasing → t.carriers = s.carriers ∧ t.steering = s.steering))

/-- LEVEL_REPLY that is taken. For a SEARCHING slot the level and one more step are recorded; at or
below the stop level and with the candidate still clear, the search claims it as WAITING with a TUNE;
otherwise it goes on with a SCAN of the next clear candidate, or ends at the band limit (R81, R82).
An orphan's level is discarded and its deferred command queued (R84). The notices of the cells that
became DARK or ceased to be join the log, and the next deposit is presented (R153). That a LEVEL for any
other slot, which no run receives, ends the command in flight alone is the model's choice (log 27).

Going on: the candidate first moves one step, and each candidate reached lies inside the limits; the
walk stands still at the first that no other slot's interval overlaps, and ends at the limit where the
next candidate would leave the limits (R77, R78). -/
def Obligations.LevelClaimsGoesOnOrEnds : Prop :=
  (∀ (s : State) (n : UnitId) (c : Samples) (m : SlotId) (v : Nat),
    s.site.mode ≠ .stopping → slotUnit m = n →
    (s.link n).completion c = some (.taken (.level m v)) →
    let x := s.context m
    let r := s.steering.record m
    let done : Link :=
      { s.link n with rx := .hunt, buffer := [], inFlight := none, replyTimer := none }
    let claimed := s.carriers.overlapsOthers m
    ∃ t, exec (.levelReply n c) s = .next t ∧ OnlyCarrierSide n s t ∧ OnlyHoleLatches s t ∧
      PresentsNext (!s.depositOutstanding) s.path t ∧
      LogTells (s.noticesOf (holeChanges s t)) s t ∧
      (x.orphan = true →
        SlotChanged m { x with orphan := false, deferred := none } none s t ∧
        t.link n = { done with queue := done.queue ++ x.deferred.toList } ∧
        t.steering = s.steering) ∧
      (∀ q, x.orphan = false → x.state = .searching → x.search = some q →
        let q' : SearchRecord := { q with lastLevel := v, steps := countUp 65535 q.steps }
        let here := claimed (intervalOf q.candidate.toNat q.bandwidth)
        let tuning : Tuning := ⟨q.candidate, q.bandwidth, q.power⟩
        (v ≤ q.stopLevel → here = false →
          SlotChanged m
            { x with
              state := .waiting, requested := some ⟨tuning, .search⟩, held := none
              search := none, summary := ⟨q.candidate, v, q'.steps⟩ } x.owner s t ∧
          t.link n = { done with queue := done.queue ++ [.tune m tuning] } ∧
          t.steering = s.steering) ∧
        (q.stopLevel < v ∨ here = true →
          (∀ q'', moveOn claimed q' = .clear q'' →
            SlotChanged m { x with search := some q'' } none s t ∧
            t.link n =
              { done with queue := done.queue ++ [.scan m q''.candidate q''.bandwidth] } ∧
            t.steering = s.steering) ∧
          ∀ q'', moveOn claimed q' = .limit q'' →
            SlotChanged m
              { x with
                state := .vacant, owner := none, requested := none, held := none, search := none
                bandLimit := true, outcome := .noClear
                summary := ⟨q''.candidate, q''.lastLevel, q''.steps⟩ } x.owner s t ∧
            t.link n = done ∧
            SlotFigures m r.operator { r with operator := none }
              (fun y => { y with holding := y.holding - 1 }) s t)) ∧
      (x.orphan = false → x.state ≠ .searching →
        t.carriers = s.carriers ∧ t.steering = s.steering ∧ t.link n = done)) ∧
  (∀ (claimed : Interval → Bool) (q r : SearchRecord), 1 ≤ q.step → q.upper ≤ 65535 →
     let at_ : Nat → Int := fun i =>
       q.candidate.toNat + (if q.direction = .up then (i * q.step : Int) else -(i * q.step : Int))
     let inside : Nat → Prop := fun i =>
       (q.lower : Int) ≤ at_ i - 25 * q.bandwidth.toNat ∧
         at_ i + 25 * q.bandwidth.toNat ≤ (q.upper : Int)
     let busy : Nat → Prop := fun i => claimed (intervalOf (at_ i) q.bandwidth) = true
     (moveOn claimed q = .clear r →
       ∃ i : Nat, 1 ≤ i ∧ (r.candidate.toNat : Int) = at_ i ∧
         r = { q with candidate := r.candidate } ∧
         (∀ j, 1 ≤ j → j ≤ i → inside j) ∧ (∀ j, 1 ≤ j → j < i → busy j) ∧ ¬ busy i) ∧
     (moveOn claimed q = .limit r →
       ∃ i : Nat, (r.candidate.toNat : Int) = at_ i ∧ r = { q with candidate := r.candidate } ∧
         (∀ j, 1 ≤ j → j ≤ i → inside j ∧ busy j) ∧ ¬ inside (i + 1)))

/-- STATUS_REPLY that is taken, in PROBING and LIVE: the summary and the filters are updated and the
Steering Engine takes the user figures. PROBING: SUPPLY or AMPLIFIER raw takes the unit DOWN; a clean
one LIVE, its SUSPENDED slots WAITING with a TUNE each; otherwise it stays. LIVE: a trip of SUPPLY
or AMPLIFIER takes it DOWN; otherwise it is impaired by TEMP or ANTENNA (R112, R115). Each alarm whose
condition changes is reported with the raw alarm set, in alarm order, then in PROBING the end of
SILENT, then the cells that become DARK or cease to be (R114, R123, R133); and the next deposit is
presented (R153).

The steering records of the unit's four slots take the user figures, behind the loss of a unit that
has gone DOWN. Each cell of its sector then has the holding count, capacity and load of the slots its
operator holds, at the weights of the unit's impaired mark now; the attaches of its operator's
carriers on air join its accumulator, which stops at 65535 with the saturation mark; and its standing
is decided (R129 to R132).

That the record of a unit in another state, whose POLL no run answers, stays as it is, is the model's
choice (log 27). -/
def Obligations.StatusDecidesTheUnit : Prop :=
  ∀ (s : State) (n : UnitId) (c : Samples) (alarms : BitVec 4) (figures : Bank 4 Figures),
    s.site.mode ≠ .stopping →
    (s.link n).completion c = some (.taken (.status alarms figures)) →
    let u := s.unit n
    let done : Link :=
      { s.link n with rx := .hunt, buffer := [], inFlight := none, replyTimer := none }
    let failing := alarms.getLsbD 0 = true ∨ alarms.getLsbD 1 = true
    let watched := u.state = .probing ∨ u.state = .live
    ∃ t new, exec (.statusReply n c) s = .next t ∧ OnlyUnitSide n s t ∧ OnlyUnitFigures n s t ∧
      PresentsNext (!s.depositOutstanding) s.path t ∧
      (watched → u.AfterStatus s.site alarms figures new) ∧
      (let changed : Alarm → Option Report := fun a =>
        if (u.filters.get a).present = (new.filters.get a).present then none
        else some ⟨.unit n (alarmKind a), (new.filters.get a).present, some alarms⟩
      let reports : List Report :=
        (if watched then (List.finRange 4).filterMap changed else []) ++
          (if u.state = .probing ∧ u.silent = true then [⟨.unit n 4, false, none⟩] else []) ++
          holeChanges s t
      OnlyReports (fun _ => False) 0 reports s t ∧ LogTells (s.noticesOf reports) s t) ∧
      (∀ i, let m := slotAt n i
        t.steering.record m =
          if u.state = .live ∧ (t.unit n).state = .down then
            { operator :=
                if (s.context m).state = .searching ∨ (s.context m).state = .releasing then none
                else (s.steering.record m).operator
              onAir :=
                if (s.context m).state = .onAir then none else (s.steering.record m).onAir
              users := (figures.get i).users }
          else { s.steering.record m with users := (figures.get i).users }) ∧
      (s.carriers.Inv → s.SteeringInv →
        ∀ d k, s.steering.sectorOf n = some d → (s.steering.cell d k).accumulator ≤ 65535 →
          let y := s.steering.cell d k
          let held := t.steering.held d k
          let total := ((List.finRange 4).map fun i =>
            if (t.steering.record (slotAt n i)).operator = some k ∧
                (t.steering.record (slotAt n i)).onAir.isSome = true then
              (figures.get i).attaches
            else 0).sum
          t.steering.cell d k =
            y.decided
              { y with
                holding := held.length
                capacity := (held.map t.slotWeight).sum
                load := (held.map t.slotUsers).sum
                accumulator :=
                  if y.saturated then y.accumulator else min 65535 (y.accumulator + total)
                saturated := y.saturated || decide (65535 < y.accumulator + total) }) ∧
      (u.state = .probing → failing →
        t.unit n = { ({ u with silent := false }).afterDown s.site with
          impaired := u.impaired, filters := new.filters, lastAlarms := alarms
          lastTime := s.site.time, lastFigures := figures } ∧
        t.link n = done.afterUnitLoss ∧ t.carriers = s.carriers) ∧
      (u.state = .probing → ¬ failing →
        (new.filters.get 0).present = false ∧ (new.filters.get 1).present = false →
        t.unit n = { u with
          state := .live, attempts := 0, silent := false, filters := new.filters
          impaired := (new.filters.get 2).present || (new.filters.get 3).present
          lastAlarms := alarms, lastTime := s.site.time, lastFigures := figures } ∧
        (s.carriers.Inv →
          (∀ m, slotUnit m = n → (s.context m).state = .suspended →
            (s.context m).orphan = false) →
          UnitSlotsChanged n
            (fun x => if x.state = .suspended then { x with state := .waiting } else x) s t ∧
          t.link n = { done with
            queue := done.queue ++
              ((List.finRange 4).filterMap fun i =>
                if (s.context (slotAt n i)).state = .suspended then
                  (s.context (slotAt n i)).requested.map fun q => .tune (slotAt n i) q.tuning
                else none) })) ∧
      (u.state = .probing → ¬ failing →
        (new.filters.get 0).present = true ∨ (new.filters.get 1).present = true →
        t.unit n = { u with
          silent := false, filters := new.filters, lastAlarms := alarms
          lastTime := s.site.time, lastFigures := figures } ∧
        t.link n = done ∧ t.carriers = s.carriers) ∧
      (u.state = .live →
        (∃ a : Fin 4, a.val < 2 ∧ (u.filters.get a).present = false ∧
          (new.filters.get a).present = true) →
        t.unit n = { u.afterDown s.site with
          filters := new.filters, lastAlarms := alarms
          lastTime := s.site.time, lastFigures := figures } ∧
        t.link n = done.afterUnitLoss ∧
        UnitSlotsChanged n Context.afterUnitLoss s t) ∧
      (u.state = .live →
        (∀ a : Fin 4, a.val < 2 → (u.filters.get a).present = true ∨
          (new.filters.get a).present = false) →
        t.unit n = { u with
          impaired := (new.filters.get 2).present || (new.filters.get 3).present
          filters := new.filters, lastAlarms := alarms
          lastTime := s.site.time, lastFigures := figures } ∧
        t.link n = done ∧ t.carriers = s.carriers) ∧
      (¬ watched → t.unit n = u ∧ t.link n = done ∧ t.carriers = s.carriers)

/-- The receiver's discards and good characters, and LINE_CONDITION_READY. A damaged character is
counted, drops the frame being collected and sets SKIP; a framing error also lets the line settle; a
completed frame that is not taken is counted and leaves HUNT; a good head begins a frame or is STRAY;
a good body byte joins the frame, is STRAY in HUNT, and is passed over in SKIP (R101 to R103, R106). A
false start changes nothing, and while the line is SETTLING no character does (R101).

The class of a character, each of its 11 bits being the majority of its three samples (R101): a start bit
1 is a false start; otherwise a stop bit 0 with data and mark bits all 0 is a break; otherwise samples of
one bit that do not all agree make it noisy; otherwise a stop bit 0 is a framing error; otherwise it is
good, a head character where its mark bit is 1, with its data byte least significant bit first. -/
def Obligations.ReceiverCollectsAndDiscards : Prop :=
  (∀ c : Samples,
    let value := fun i : Fin 11 => decide (2 ≤ (List.range 3).countP fun j => (c.get i).getLsbD j)
    let zeros := value 10 = false ∧ ∀ i : Fin 11, 1 ≤ i.val → i.val ≤ 9 → value i = false
    let steady := ∀ i : Fin 11, c.get i = 0 ∨ c.get i = 7
    (value 0 = true → classify c = .falseStart) ∧
    (value 0 = false → zeros → classify c = .breakCharacter) ∧
    (value 0 = false → ¬ zeros → ¬ steady → classify c = .noisy) ∧
    (value 0 = false → ¬ zeros → steady → value 10 = false → classify c = .framing) ∧
    (value 0 = false → ¬ zeros → steady → value 10 = true →
      ∃ b : Byte, classify c = .good (value 9) b ∧
        ∀ (i : Nat) (j : Fin 11), i < 8 → j.val = i + 1 → b.getLsbD i = value j)) ∧
  (∀ top n : Nat, countUp top n = if n < top then n + 1 else n) ∧
  ∀ (s : State) (n : UnitId) (c : Samples),
    let l := s.link n
    let u := (s.unit n).state
    let stray := fun l : Link =>
      l.counted u fun x => { x with stray := countUp 255 x.stray }
    let goes := fun l' : Link => Host.Outcome.next (s.setLinks (s.links.put n l'))
    (l.line = .ready →
      (classify c = .noisy →
        exec (.noiseDiscard n c) s = goes
          { l.counted u (fun x => { x with noise := countUp 255 x.noise }) with
            rx := .skip, buffer := [] }) ∧
      (classify c = .framing →
        exec (.framingDiscard n c) s = goes
          { l.counted u (fun x => { x with framing := countUp 255 x.framing }) with
            rx := .skip, buffer := [], line := .settling }) ∧
      (∀ b, classify c = .good false b → l.bodyComplete = true →
        (l.judge b = .check →
          exec (.checkDiscard n c) s = goes
            ({ l with rx := .hunt, buffer := [] }.counted u
              fun x => { x with check := countUp 255 x.check })) ∧
        (l.judge b = .stray →
          exec (.strayFrame n c) s = goes (stray { l with rx := .hunt, buffer := [] }))) ∧
      (∀ b, classify c = .good true b →
        (9 ≤ b.toNat / 16 → b.toNat / 16 ≤ 12 →
          exec (.goodCharacterReceived n c) s = goes
            { (if l.rx = .body then stray l else l) with rx := .body, buffer := [b] }) ∧
        (b.toNat / 16 < 9 ∨ 12 < b.toNat / 16 →
          exec (.goodCharacterReceived n c) s = goes
            { stray l with rx := .skip, buffer := [] })) ∧
      (∀ b, classify c = .good false b → l.bodyComplete = false →
        (l.rx = .body →
          exec (.goodCharacterReceived n c) s = goes { l with buffer := l.buffer ++ [b] }) ∧
        (l.rx = .hunt →
          exec (.goodCharacterReceived n c) s = goes { stray l with rx := .skip, buffer := [] }) ∧
        (l.rx = .skip → exec (.goodCharacterReceived n c) s = .next s))) ∧
    (l.line = .settling ∨ classify c = .falseStart →
      ∀ x ∈ [Instr.tunedReply n c, .droppedReply n c, .levelReply n c, .statusReply n c,
          .strayFrame n c, .checkDiscard n c, .noiseDiscard n c, .framingDiscard n c,
          .breakReceived n c, .goodCharacterReceived n c],
        exec x s = .next s) ∧
    (l.line = .settling → exec (.lineConditionReady n) s = goes { l with line := .ready })

/-- BREAK_RECEIVED, by the unit's state. LIVE: PROBING, its slots as Table 4-7 gives, its queue purged
to one POLL, a RESTART trip, and then the cells that become DARK reported. PROBING: the queue emptied
to one POLL, a RESTART trip. DOWN and not exhausted: an early recovery into RESETTING, with a break
asked for. Otherwise the receiver alone changes (R94, R105, R121, R133). The next deposit is presented
(R153).

At the loss of a LIVE unit each cell of its sector takes the holding count, capacity and load of the slots
its operator then holds, and its standing is decided (R128 to R132). -/
def Obligations.BreakReceivedRestartsOrRecovers : Prop :=
  ∀ (s : State) (n : UnitId) (c : Samples),
    (s.link n).line = .ready → classify c = .breakCharacter → s.site.mode ≠ .stopping →
    let u := s.unit n
    let heard : Link := { s.link n with rx := .hunt, buffer := [], line := .settling }
    let dropped : Link := { heard with inFlight := none, replyTimer := none }
    let old := s.faults.latch (.unit n 6)
    let restarted := fun t : State =>
      t.faults.latch (.unit n 6) =
        if old.set = true ∨ s.site.mode.inService = false then old
        else { old with
          set := true, acknowledged := false
          raised := s.faults.raisedNumber s.faultView .restart 0 }
    ∃ t, exec (.breakReceived n c) s = .next t ∧ OnlyUnitSide n s t ∧
      PresentsNext (!s.depositOutstanding) s.path t ∧
      OnlyReports (fun id => id = .unit n 6)
        (s.faults.tells s.faultView ⟨.unit n 6, true, none⟩).toNat (holeChanges s t) s t ∧
      LogTells
        (s.noticesOf
          ((if u.state = .live ∨ u.state = .probing then [⟨.unit n 6, true, none⟩] else []) ++
            holeChanges s t)) s t ∧
      (u.state = .live →
        t.unit n = { u with state := .probing, impaired := false } ∧
        (∃ polls, t.link n = { dropped with queue := polls } ∧ polls ≠ [] ∧
          (∀ x ∈ polls, x = .poll) ∧ polls.length = max 1 ((s.link n).queue.count .poll)) ∧
        UnitSlotsChanged n Context.afterUnitLoss s t ∧ OnlyUnitFigures n s t ∧
        UnitRecordsLost n s t ∧ (s.carriers.Inv → s.SteeringInv → UnitCellsDecided n s t) ∧
        restarted t) ∧
      (u.state = .probing →
        t.unit n = u ∧ t.link n = { dropped with queue := [.poll] } ∧
        t.carriers = s.carriers ∧ t.steering = s.steering ∧ restarted t) ∧
      (u.state = .down → u.exhausted = false →
        t.unit n = { u with
          state := .resetting, attempts := countUp 255 u.attempts
          guard := false, recovery := none } ∧
        t.link n = heard.afterBreakRequest ∧
        t.carriers = s.carriers ∧ t.steering = s.steering ∧
        t.faults.latch (.unit n 6) = old) ∧
      (u.state = .off ∨ u.state = .out ∨ u.state = .resetting ∨
          (u.state = .down ∧ u.exhausted = true) →
        t.unit n = u ∧ t.link n = heard ∧ t.carriers = s.carriers ∧ t.steering = s.steering ∧
        t.faults.latch (.unit n 6) = old)

/-! ## The Unit Supervisor -/

/-- ADMIN_OUT, in service. An OUT or OFF unit stays as it is. Any other becomes OUT: its link is
emptied and a break asked for, a LIVE unit's slots take Table 4-7, timers, marks and filters are
reset, and each condition that was present is released at its latch, the alarms with an empty raw
alarm set, and then the cells that become DARK are reported (R124, R133, R149). The next deposit is
presented (R153).

At the loss of a LIVE unit each cell of its sector takes the holding count, capacity and load of the slots
its operator then holds, and its standing is decided (R128 to R132). -/
def Obligations.OutRequestTakesTheUnitOut : Prop :=
  ∀ (s : State) (n : UnitId), s.site.mode.inService = true →
    let u := s.unit n
    let releases : List Report :=
      ((List.finRange 4).filterMap fun a =>
        if (u.filters.get a).present then some ⟨.unit n (alarmKind a), false, some 0⟩ else none) ++
      (if u.silent then [⟨.unit n 4, false, none⟩] else []) ++
      (if u.garbled then [⟨.unit n 5, false, none⟩] else [])
    ∃ t, exec (.adminOut n) s = .next t ∧ OnlyUnitSide n s t ∧
      PresentsNext (!s.depositOutstanding) s.path t ∧
      (u.state = .out ∨ u.state = .off →
        OnlyLog s t ∧ LogTells [] s t ∧ ∀ id, t.faults.latch id = s.faults.latch id) ∧
      (u.state ≠ .out → u.state ≠ .off →
        (t.unit n = { u with
            state := .out, admin := .goOut, guard := false, recovery := none
            exhausted := false, silent := false, garbled := false
            impaired := u.impaired && decide (u.state ≠ .live)
            filters := (t.unit n).filters } ∧
          ∀ a, (t.unit n).filters.get a = ⟨0, 0, false⟩) ∧
        t.link n = (s.link n).afterUnitLoss ∧
        (u.state = .live →
          UnitSlotsChanged n Context.afterUnitLoss s t ∧ OnlyUnitFigures n s t ∧
          UnitRecordsLost n s t ∧ (s.carriers.Inv → s.SteeringInv → UnitCellsDecided n s t)) ∧
        (u.state ≠ .live → t.carriers = s.carriers ∧ t.steering = s.steering) ∧
        OnlyReports (fun _ => False) 0 (releases ++ holeChanges s t) s t ∧
        LogTells (s.noticesOf (releases ++ holeChanges s t)) s t)

/-- The ways into RESETTING but the service start and an early recovery, and on to PROBING: ADMIN_IN
in OUT, REVIVE of an exhausted unit, RECOVERY_EXPIRY in DOWN, each with a break asked for; then
GUARD_EXPIRY in RESETTING queues the POLL (R94, R111, R122, R124). After ADMIN_IN and REVIVE the next
deposit is presented (R153). That an expiry of a timer that does
not run, which cannot happen, changes nothing is the model's choice (log 1). -/
def Obligations.UnitsEnterResettingAndProbing : Prop :=
  ∀ (s : State) (n : UnitId),
    let u := s.unit n
    let l := s.link n
    let entered := fun v : UnitRecord =>
      (s.setUnits (s.units.put n { v with
        state := .resetting, guard := false, recovery := none })).setLinks
          (s.links.put n l.afterBreakRequest)
    (s.site.mode.inService = true →
      (∃ t, exec (.adminIn n) s = .next t ∧
        OnlyLog (if u.state = .out then entered { u with admin := .goIn, attempts := 0 } else s) t ∧
        PresentsNext (!s.depositOutstanding) s.path t ∧ LogTells [] s t ∧
        ∀ id, t.faults.latch id = s.faults.latch id) ∧
      ∃ t, exec (.revive n) s = .next t ∧
        OnlyLog
          (if u.state = .down ∧ u.exhausted = true then
            entered { u with exhausted := false, attempts := 0 }
          else s) t ∧
        PresentsNext (!s.depositOutstanding) s.path t ∧ LogTells [] s t ∧
        ∀ id, t.faults.latch id = s.faults.latch id) ∧
    (u.state = .down → u.recovery ≠ none →
      exec (.recoveryExpiry n) s =
        .next (entered { u with attempts := countUp 255 u.attempts })) ∧
    (u.state ≠ .down ∨ u.recovery = none → exec (.recoveryExpiry n) s = .next s) ∧
    (u.state = .resetting → u.guard = true →
      exec (.guardExpiry n) s = .next
        ((s.setUnits (s.units.put n { u with state := .probing, guard := false })).setLinks
          (s.links.put n { l with
            queue :=
              if .poll ∈ l.queue ∨ l.inFlight.map InFlight.command = some .poll then l.queue
              else l.queue ++ [.poll] }))) ∧
    (u.state ≠ .resetting ∨ u.guard = false → exec (.guardExpiry n) s = .next s)

/-- POLL_EXPIRY: the timer restarts, and each LIVE and PROBING unit's GARBLED is evaluated from its
error window count, the count restarts and a POLL is queued where none waits; the changes of GARBLED
are reported in ascending unit number, and the next deposit is presented (R153). Every other unit, and
everything else, stays (R118). That an
expiry with the timer stopped, which cannot happen, changes nothing is the model's choice (log 1). -/
def Obligations.PollExpiryPollsAndWatches : Prop :=
  ∀ s : State,
    (s.pollTimer = none → exec .pollExpiry s = .next s) ∧
    (s.pollTimer ≠ none → s.site.mode ≠ .stopping →
      let polled : UnitId → Bool := fun u =>
        decide ((s.unit u).state = .live ∨ (s.unit u).state = .probing)
      let garbled : UnitId → Bool := fun u =>
        decide (s.site.garbleThreshold ≠ 0 ∧ s.site.garbleThreshold ≤ (s.link u).errorWindow)
      ∃ t, exec .pollExpiry s = .next t ∧ t.pollTimer = some s.site.pollInterval ∧
        OnlyLog s (((t.setUnits s.units).setLinks s.links).setPollTimer s.pollTimer) ∧
        PresentsNext (!s.depositOutstanding) s.path t ∧
        (∀ u, polled u = true →
          t.unit u = { s.unit u with garbled := garbled u } ∧
          t.link u = { s.link u with
            errorWindow := 0
            queue :=
              if .poll ∈ (s.link u).queue ∨
                  (s.link u).inFlight.map InFlight.command = some .poll then (s.link u).queue
              else (s.link u).queue ++ [.poll] }) ∧
        (∀ u, polled u = false → t.unit u = s.unit u ∧ t.link u = s.link u) ∧
        let reports : List Report := (List.finRange 24).filterMap fun u =>
          if polled u = true ∧ garbled u ≠ (s.unit u).garbled then
            some ⟨.unit u 5, garbled u, none⟩
          else none
        OnlyReports (fun _ => False) 0 reports s t ∧ LogTells (s.noticesOf reports) s t)

/-! ## The Steering Engine -/

/-- The standing of every cell after an event (Table 8-2): a cell whose holding count and capacity
the event has not changed keeps it (log 15); HOLE is reported where DARK is entered or left, in
ascending sector and operator, and acts on its latch; nothing else changes (R132, R133).

At a validated post and at a reply of a carrier slot, in every state: the cells that became DARK or
ceased to be are what the latches learn, and no other latch changes. -/
def Obligations.StandingFollowsTheTable : Prop :=
  (∀ (before : Steering) (s : State),
    let t := decideStandings before s
    (t.setSteering s.steering).setFaults s.faults = s ∧
    t.steering = { s.steering with cells := t.steering.cells } ∧
    OnlyReports (fun _ => False) 0 (holeChanges s t) s t ∧
    ∀ (d : SectorId) (k : Operator),
      t.steering.cell d k = Cell.decided (before.cell d k) (s.steering.cell d k)) ∧
  (∀ old now : Cell,
    (old.holding = now.holding → old.capacity = now.capacity → old.decided now = now) ∧
    (old.holding ≠ now.holding ∨ old.capacity ≠ now.capacity →
      (now.capacity = 0 → now.holding = 0 →
        old.decided now = if now.trend = .inactive then now
          else { now with trend := .inactive, offset := 0, streak := 0, surge := false }) ∧
      (now.capacity = 0 → now.holding ≠ 0 →
        old.decided now = if now.trend = .dark then now
          else { now with trend := .dark, offset := 7, streak := 0, surge := false }) ∧
      (now.capacity ≠ 0 →
        old.decided now = if now.trend = .dark then { now with trend := .neutral, streak := 0 }
          else if now.trend = .inactive then
            { now with trend := .neutral, offset := 0, streak := 0 }
          else now))) ∧
  (∀ c : Cell, c.hole = true ↔ c.trend = .dark) ∧
  cellOrder =
    ((List.finRange 12).flatMap fun d => (List.finRange 6).map fun k => (d, k)) ∧
  (∀ (s : State) (c : Instr),
    c = .validateTune ∨ c = .validateSearch ∨ c = .validateRelease ∨
      (∃ n x, c = .tunedReply n x ∨ c = .droppedReply n x ∨ c = .levelReply n x) →
    ∃ t, exec c s = .next t ∧
      OnlyReports (fun _ => False) 0 (holeChanges s t) s t)

/-- EPOCH_EXPIRY: the timer restarts; every cell records and clears its attaches; each cell with a
load trend takes its new trend, streak and surge, and then steps its offset by whether it, or for an
UNDER cell a neighbour, is pressed (R134 to R136). Nothing else changes. That an expiry with the timer
stopped, which cannot happen, changes nothing is the model's choice (log 1). -/
def Obligations.EpochStepsEveryOffset : Prop :=
  ∀ s : State,
    (s.steering.epochTimer = none → exec .epochExpiry s = .next s) ∧
    (s.steering.epochTimer ≠ none → ∃ t, exec .epochExpiry s = .next t ∧ OnlySteering s t ∧
      t.steering =
        { s.steering with
          cells := t.steering.cells, epochTimer := some s.site.epochLength } ∧
      ∀ d k,
        let c := s.steering.cell d k
        let c' := t.steering.cell d k
        c' = { c with
          trend := c'.trend, streak := c'.streak, surge := c'.surge, offset := c'.offset
          lastAttaches := c.accumulator, accumulator := 0, saturated := false } ∧
        (c.trend = .inactive ∨ c.trend = .dark →
          c'.trend = c.trend ∧ c'.streak = c.streak ∧ c'.surge = c.surge ∧
          c'.offset = c.offset) ∧
        (c.trend = .neutral ∨ c.trend = .over ∨ c.trend = .under →
          (c'.trend =
            if s.site.highMark * c.capacity < c.load then .over
            else if c.load < s.site.lowMark * c.capacity then .under
            else .neutral) ∧
          (c'.streak =
            if c'.trend = .neutral then 0
            else if c'.trend = c.trend then countUp 255 c.streak
            else 1) ∧
          (c'.surge = true ↔ c.saturated = true ∨
            (s.site.surgeMark ≠ 0 ∧ s.site.surgeMark * c.capacity < c.accumulator)) ∧
          (c'.isPressed s.site → c'.offset = min 7 (c.offset + 1)) ∧
          (¬ c'.isPressed s.site →
            (c'.trend = .under → s.site.persistence ≤ c'.streak →
              (∃ m ∈ (s.steering.defs.get d).neighbours,
                (t.steering.cell m k).isPressed s.site) →
              c'.offset = max (-8) (c.offset - 1)) ∧
            (c'.trend ≠ .under ∨ c'.streak < s.site.persistence ∨
                (∀ m ∈ (s.steering.defs.get d).neighbours,
                  ¬ (t.steering.cell m k).isPressed s.site) →
              c'.offset =
                if 0 < c.offset then c.offset - 1
                else if c.offset < 0 then c.offset + 1
                else 0))))

/-! ## Invariants of every step -/

/-- Every step keeps the bounds of the accepted list, the passing run, the notice queue and the
suppressed count. -/
def Obligations.StepKeepsListAndQueueBounds : Prop :=
  ∀ s t : State, step s = .next t →
    (s.path.ListInv → t.path.ListInv) ∧ (s.faults.QueueInv → t.faults.QueueInv)

/-- Every step keeps the contexts coherent and the occupancy lists in agreement with them.

The list that agrees with the contexts holds, for each of its unit's four slots, the requested interval in
WAITING, TUNING and SUSPENDED and, while the unit-holds mark is set, the held one in WAITING, TUNING,
ON-AIR and RELEASING, one held entry where the two are equal, and nothing else; it is ordered by low edge,
then slot, a slot's requested entry first (Table 4-3, R56). Slot n lies on unit n / 4 at carrier index
n % 4 (R54). An interval runs from the channel minus 25 times the bandwidth code up to the channel plus as
much, and another slot claims it where it overlaps an entry of that slot (R56, R78). -/
def Obligations.StepKeepsContextsAndOccupancy : Prop :=
  (∀ s t : State, step s = .next t → s.carriers.Inv → t.carriers.Inv) ∧
  (∀ (contexts : Bank 96 Context) (u : UnitId),
     let list := occupancyOf contexts u
     (∀ (i : Interval) (n : SlotId),
       (⟨i, n, true⟩ ∈ list ↔ slotUnit n = u ∧ (contexts.get n).ClaimsHeld i) ∧
       (⟨i, n, false⟩ ∈ list ↔
         slotUnit n = u ∧ (contexts.get n).ClaimsRequested i ∧ ¬ (contexts.get n).ClaimsHeld i)) ∧
     list.Pairwise Claim.Before) ∧
  (∀ n : SlotId, (slotUnit n).val = n.val / 4 ∧ (slotIndex n).val = n.val % 4) ∧
  (∀ (u : UnitId) (i : CarrierIndex), (slotAt u i).val = 4 * u.val + i.val) ∧
  (∀ (channel : Int) (bandwidth : Byte), intervalOf channel bandwidth =
     ⟨channel - 25 * bandwidth.toNat, channel + 25 * bandwidth.toNat⟩) ∧
  (∀ t : Tuning, t.interval = intervalOf t.channel.toNat t.bandwidth) ∧
  ∀ (c : Carriers) (n : SlotId) (i : Interval),
    c.overlapsOthers n i = true ↔
      ∃ e ∈ c.occupancy.get (slotUnit n), e.slot ≠ n ∧
        max e.interval.low i.low < min e.interval.high i.high

/-- Every step keeps the links' counters, breaks and timers, and the unit records' marks and timers,
as their states allow: a break is waited for in PREAMBLE and FRAME alone. -/
def Obligations.StepKeepsLinksAndUnits : Prop :=
  ∀ s t : State, step s = .next t →
    ((∀ n, (s.link n).Inv) → ∀ n, (t.link n).Inv) ∧ ((∀ u, (s.unit u).Inv) → ∀ u, (t.unit u).Inv)

/-- Every step keeps each cell's offset within −8 to +7, and at +7 where DARK and 0 where INACTIVE.

Every step keeps each cell's standing with its figures: INACTIVE exactly where its operator holds
nothing in the sector and no capacity is on air, DARK exactly where it holds slots and no capacity is on
air (R132). -/
def Obligations.StepKeepsCells : Prop :=
  ∀ s t : State, step s = .next t →
    ((∀ d k, (s.steering.cell d k).Inv) → ∀ d k, (t.steering.cell d k).Inv) ∧
    ((∀ d k, (s.steering.cell d k).Standing) → ∀ d k, (t.steering.cell d k).Standing)

/-- Every step keeps the steering records in agreement with the contexts, and each cell's holding
count, capacity and load the sums over its slots. -/
def Obligations.StepKeepsSteeringSums : Prop :=
  ∀ s t : State, step s = .next t → s.carriers.Inv → s.SteeringInv → t.SteeringInv

/-- Every step keeps windows, roles, load reads and deposits to the modes they belong to, and every own
access presented or in flight a WRITE where it deposits a notice and a READ where it loads (R4, R10, R28,
R153). That a load read presented and not yet granted belongs to STARTING too holds because the model
withdraws it when the start is abandoned, its own choice (log 10). By default the one role is initiator
0's, CONTROLLER (R10).

With it, every step keeps these: a deposit presented or in flight is that of the head notice, at the ring
entry of the producer index, and there is one at a time (R153); in SERVING a notice is queued with no
deposit outstanding only at a full ring, in HOLD and STOPPING never (R153, R155); and in STOPPING some
work of the stop is left (R35). -/
def Obligations.StepKeepsTheModeInvariant : Prop :=
  (∀ s t : State, step s = .next t → s.ModeInv →
    t.ModeInv ∧ (s.DepositInv → t.DepositInv) ∧ (s.Closed → t.Closed)) ∧
  (∀ m : Mode, (m.inService = true ↔ m = .serving ∨ m = .hold) ∧
    (m.windowsUp = true ↔ m = .serving ∨ m = .hold ∨ m = .stopping)) ∧
  ∀ i, defaultRoles.get i = if i = 0 then .controller else .none

/-- Every invariant holds right after reset. -/
def Obligations.InvariantsHoldAtReset : Prop :=
  State.reset.path.ListInv ∧ State.reset.faults.QueueInv ∧ State.reset.carriers.Inv ∧
    (∀ n, (State.reset.link n).Inv) ∧ (∀ u, (State.reset.unit u).Inv) ∧
    (∀ d k, (State.reset.steering.cell d k).Inv ∧ (State.reset.steering.cell d k).Standing) ∧
    State.reset.SteeringInv ∧ State.reset.ModeInv ∧ State.reset.DepositInv ∧ State.reset.Closed
end

