-- ==== Sys2Proof/Laws/Bank.lean ====
section
/-! SUPPORT. Reading a bank after each way of making one, and equality place by place. -/

namespace Sys2Proof.Bank

variable {n : Nat} {α : Type}

@[simp] theorem get_put_self (b : Bank n α) (i : Fin n) (a : α) : (b.put i a).get i = a := by
  simp [put, get]

@[simp] theorem get_put_ne (b : Bank n α) {i j : Fin n} (a : α) (h : j ≠ i) :
    (b.put i a).get j = b.get j := by
  have h' : (i : Nat) ≠ j := fun e => h (Fin.ext e.symm)
  simp [put, get, h']

theorem get_put (b : Bank n α) (i j : Fin n) (a : α) :
    (b.put i a).get j = if j = i then a else b.get j := by
  by_cases h : j = i
  · subst h; simp
  · simp [h]

@[simp] theorem get_tabulate (f : Fin n → α) (i : Fin n) : (tabulate f).get i = f i := by
  simp [tabulate, get]

@[simp] theorem get_fill (a : α) (i : Fin n) : (fill a : Bank n α).get i = a := by
  simp [fill]

theorem ext_get {b c : Bank n α} (h : ∀ i, b.get i = c.get i) : b = c := by
  cases b with | mk v =>
  cases c with | mk w =>
  congr 1
  apply Vector.ext
  intro i hi
  have := h ⟨i, hi⟩
  simpa [get] using this

@[simp] theorem put_get_self (b : Bank n α) (i : Fin n) : b.put i (b.get i) = b := by
  apply ext_get
  intro j
  rw [get_put]
  split
  · next h => rw [h]
  · rfl

@[simp] theorem put_put (b : Bank n α) (i : Fin n) (a c : α) : (b.put i a).put i c = b.put i c := by
  refine ext_get fun j => ?_
  by_cases h : j = i
  · rw [h, get_put_self, get_put_self]
  · rw [get_put_ne _ _ h, get_put_ne _ _ h, get_put_ne _ _ h]

/-- A property of every place survives a put that has it. -/
theorem forall_put {p : Fin n → α → Prop} {b : Bank n α} {i : Fin n} {a : α}
    (hb : ∀ j, p j (b.get j)) (ha : p i a) : ∀ j, p j ((b.put i a).get j) := by
  intro j
  rw [get_put]
  split
  · next h => rw [h]; exact ha
  · exact hb j

end Sys2Proof.Bank
end

