-- ==== Sys2Proof/Laws/State.lean ====
section
/-! SUPPORT. What each update of State leaves in each field: one lemma a field, true by unfolding. -/

namespace Sys2Proof.Machine.State

open Sys2Proof

/-! ## setPending -/

@[simp] theorem setPending_pending (s : State) (x) : (s.setPending x).pending = x := rfl
@[simp] theorem setPending_path (s : State) (x) : (s.setPending x).path = s.path := rfl
@[simp] theorem setPending_site (s : State) (x) : (s.setPending x).site = s.site := rfl
@[simp] theorem setPending_stages (s : State) (x) : (s.setPending x).stages = s.stages := rfl
@[simp] theorem setPending_carriers (s : State) (x) : (s.setPending x).carriers = s.carriers := rfl
@[simp] theorem setPending_links (s : State) (x) : (s.setPending x).links = s.links := rfl
@[simp] theorem setPending_linkRate (s : State) (x) : (s.setPending x).linkRate = s.linkRate := rfl
@[simp] theorem setPending_units (s : State) (x) : (s.setPending x).units = s.units := rfl
@[simp] theorem setPending_pollTimer (s : State) (x) : (s.setPending x).pollTimer = s.pollTimer := rfl
@[simp] theorem setPending_steering (s : State) (x) : (s.setPending x).steering = s.steering := rfl
@[simp] theorem setPending_faults (s : State) (x) : (s.setPending x).faults = s.faults := rfl
@[simp] theorem setPending_self (s : State) : s.setPending s.pending = s := rfl
@[simp] theorem setPending_setPending (s : State) (x y) : (s.setPending x).setPending y = s.setPending y := rfl

/-! ## setPath -/

@[simp] theorem setPath_pending (s : State) (x) : (s.setPath x).pending = s.pending := rfl
@[simp] theorem setPath_path (s : State) (x) : (s.setPath x).path = x := rfl
@[simp] theorem setPath_site (s : State) (x) : (s.setPath x).site = s.site := rfl
@[simp] theorem setPath_stages (s : State) (x) : (s.setPath x).stages = s.stages := rfl
@[simp] theorem setPath_carriers (s : State) (x) : (s.setPath x).carriers = s.carriers := rfl
@[simp] theorem setPath_links (s : State) (x) : (s.setPath x).links = s.links := rfl
@[simp] theorem setPath_linkRate (s : State) (x) : (s.setPath x).linkRate = s.linkRate := rfl
@[simp] theorem setPath_units (s : State) (x) : (s.setPath x).units = s.units := rfl
@[simp] theorem setPath_pollTimer (s : State) (x) : (s.setPath x).pollTimer = s.pollTimer := rfl
@[simp] theorem setPath_steering (s : State) (x) : (s.setPath x).steering = s.steering := rfl
@[simp] theorem setPath_faults (s : State) (x) : (s.setPath x).faults = s.faults := rfl
@[simp] theorem setPath_self (s : State) : s.setPath s.path = s := rfl
@[simp] theorem setPath_setPath (s : State) (x y) : (s.setPath x).setPath y = s.setPath y := rfl

/-! ## setSite -/

@[simp] theorem setSite_pending (s : State) (x) : (s.setSite x).pending = s.pending := rfl
@[simp] theorem setSite_path (s : State) (x) : (s.setSite x).path = s.path := rfl
@[simp] theorem setSite_site (s : State) (x) : (s.setSite x).site = x := rfl
@[simp] theorem setSite_stages (s : State) (x) : (s.setSite x).stages = s.stages := rfl
@[simp] theorem setSite_carriers (s : State) (x) : (s.setSite x).carriers = s.carriers := rfl
@[simp] theorem setSite_links (s : State) (x) : (s.setSite x).links = s.links := rfl
@[simp] theorem setSite_linkRate (s : State) (x) : (s.setSite x).linkRate = s.linkRate := rfl
@[simp] theorem setSite_units (s : State) (x) : (s.setSite x).units = s.units := rfl
@[simp] theorem setSite_pollTimer (s : State) (x) : (s.setSite x).pollTimer = s.pollTimer := rfl
@[simp] theorem setSite_steering (s : State) (x) : (s.setSite x).steering = s.steering := rfl
@[simp] theorem setSite_faults (s : State) (x) : (s.setSite x).faults = s.faults := rfl
@[simp] theorem setSite_self (s : State) : s.setSite s.site = s := rfl
@[simp] theorem setSite_setSite (s : State) (x y) : (s.setSite x).setSite y = s.setSite y := rfl

/-! ## setStages -/

@[simp] theorem setStages_pending (s : State) (x) : (s.setStages x).pending = s.pending := rfl
@[simp] theorem setStages_path (s : State) (x) : (s.setStages x).path = s.path := rfl
@[simp] theorem setStages_site (s : State) (x) : (s.setStages x).site = s.site := rfl
@[simp] theorem setStages_stages (s : State) (x) : (s.setStages x).stages = x := rfl
@[simp] theorem setStages_carriers (s : State) (x) : (s.setStages x).carriers = s.carriers := rfl
@[simp] theorem setStages_links (s : State) (x) : (s.setStages x).links = s.links := rfl
@[simp] theorem setStages_linkRate (s : State) (x) : (s.setStages x).linkRate = s.linkRate := rfl
@[simp] theorem setStages_units (s : State) (x) : (s.setStages x).units = s.units := rfl
@[simp] theorem setStages_pollTimer (s : State) (x) : (s.setStages x).pollTimer = s.pollTimer := rfl
@[simp] theorem setStages_steering (s : State) (x) : (s.setStages x).steering = s.steering := rfl
@[simp] theorem setStages_faults (s : State) (x) : (s.setStages x).faults = s.faults := rfl
@[simp] theorem setStages_self (s : State) : s.setStages s.stages = s := rfl
@[simp] theorem setStages_setStages (s : State) (x y) : (s.setStages x).setStages y = s.setStages y := rfl

/-! ## setCarriers -/

@[simp] theorem setCarriers_pending (s : State) (x) : (s.setCarriers x).pending = s.pending := rfl
@[simp] theorem setCarriers_path (s : State) (x) : (s.setCarriers x).path = s.path := rfl
@[simp] theorem setCarriers_site (s : State) (x) : (s.setCarriers x).site = s.site := rfl
@[simp] theorem setCarriers_stages (s : State) (x) : (s.setCarriers x).stages = s.stages := rfl
@[simp] theorem setCarriers_carriers (s : State) (x) : (s.setCarriers x).carriers = x := rfl
@[simp] theorem setCarriers_links (s : State) (x) : (s.setCarriers x).links = s.links := rfl
@[simp] theorem setCarriers_linkRate (s : State) (x) : (s.setCarriers x).linkRate = s.linkRate := rfl
@[simp] theorem setCarriers_units (s : State) (x) : (s.setCarriers x).units = s.units := rfl
@[simp] theorem setCarriers_pollTimer (s : State) (x) : (s.setCarriers x).pollTimer = s.pollTimer := rfl
@[simp] theorem setCarriers_steering (s : State) (x) : (s.setCarriers x).steering = s.steering := rfl
@[simp] theorem setCarriers_faults (s : State) (x) : (s.setCarriers x).faults = s.faults := rfl
@[simp] theorem setCarriers_self (s : State) : s.setCarriers s.carriers = s := rfl
@[simp] theorem setCarriers_setCarriers (s : State) (x y) : (s.setCarriers x).setCarriers y = s.setCarriers y := rfl

/-! ## setLinks -/

@[simp] theorem setLinks_pending (s : State) (x) : (s.setLinks x).pending = s.pending := rfl
@[simp] theorem setLinks_path (s : State) (x) : (s.setLinks x).path = s.path := rfl
@[simp] theorem setLinks_site (s : State) (x) : (s.setLinks x).site = s.site := rfl
@[simp] theorem setLinks_stages (s : State) (x) : (s.setLinks x).stages = s.stages := rfl
@[simp] theorem setLinks_carriers (s : State) (x) : (s.setLinks x).carriers = s.carriers := rfl
@[simp] theorem setLinks_links (s : State) (x) : (s.setLinks x).links = x := rfl
@[simp] theorem setLinks_linkRate (s : State) (x) : (s.setLinks x).linkRate = s.linkRate := rfl
@[simp] theorem setLinks_units (s : State) (x) : (s.setLinks x).units = s.units := rfl
@[simp] theorem setLinks_pollTimer (s : State) (x) : (s.setLinks x).pollTimer = s.pollTimer := rfl
@[simp] theorem setLinks_steering (s : State) (x) : (s.setLinks x).steering = s.steering := rfl
@[simp] theorem setLinks_faults (s : State) (x) : (s.setLinks x).faults = s.faults := rfl
@[simp] theorem setLinks_self (s : State) : s.setLinks s.links = s := rfl
@[simp] theorem setLinks_setLinks (s : State) (x y) : (s.setLinks x).setLinks y = s.setLinks y := rfl

/-! ## setLinkRate -/

@[simp] theorem setLinkRate_pending (s : State) (x) : (s.setLinkRate x).pending = s.pending := rfl
@[simp] theorem setLinkRate_path (s : State) (x) : (s.setLinkRate x).path = s.path := rfl
@[simp] theorem setLinkRate_site (s : State) (x) : (s.setLinkRate x).site = s.site := rfl
@[simp] theorem setLinkRate_stages (s : State) (x) : (s.setLinkRate x).stages = s.stages := rfl
@[simp] theorem setLinkRate_carriers (s : State) (x) : (s.setLinkRate x).carriers = s.carriers := rfl
@[simp] theorem setLinkRate_links (s : State) (x) : (s.setLinkRate x).links = s.links := rfl
@[simp] theorem setLinkRate_linkRate (s : State) (x) : (s.setLinkRate x).linkRate = x := rfl
@[simp] theorem setLinkRate_units (s : State) (x) : (s.setLinkRate x).units = s.units := rfl
@[simp] theorem setLinkRate_pollTimer (s : State) (x) : (s.setLinkRate x).pollTimer = s.pollTimer := rfl
@[simp] theorem setLinkRate_steering (s : State) (x) : (s.setLinkRate x).steering = s.steering := rfl
@[simp] theorem setLinkRate_faults (s : State) (x) : (s.setLinkRate x).faults = s.faults := rfl
@[simp] theorem setLinkRate_self (s : State) : s.setLinkRate s.linkRate = s := rfl
@[simp] theorem setLinkRate_setLinkRate (s : State) (x y) : (s.setLinkRate x).setLinkRate y = s.setLinkRate y := rfl

/-! ## setUnits -/

@[simp] theorem setUnits_pending (s : State) (x) : (s.setUnits x).pending = s.pending := rfl
@[simp] theorem setUnits_path (s : State) (x) : (s.setUnits x).path = s.path := rfl
@[simp] theorem setUnits_site (s : State) (x) : (s.setUnits x).site = s.site := rfl
@[simp] theorem setUnits_stages (s : State) (x) : (s.setUnits x).stages = s.stages := rfl
@[simp] theorem setUnits_carriers (s : State) (x) : (s.setUnits x).carriers = s.carriers := rfl
@[simp] theorem setUnits_links (s : State) (x) : (s.setUnits x).links = s.links := rfl
@[simp] theorem setUnits_linkRate (s : State) (x) : (s.setUnits x).linkRate = s.linkRate := rfl
@[simp] theorem setUnits_units (s : State) (x) : (s.setUnits x).units = x := rfl
@[simp] theorem setUnits_pollTimer (s : State) (x) : (s.setUnits x).pollTimer = s.pollTimer := rfl
@[simp] theorem setUnits_steering (s : State) (x) : (s.setUnits x).steering = s.steering := rfl
@[simp] theorem setUnits_faults (s : State) (x) : (s.setUnits x).faults = s.faults := rfl
@[simp] theorem setUnits_self (s : State) : s.setUnits s.units = s := rfl
@[simp] theorem setUnits_setUnits (s : State) (x y) : (s.setUnits x).setUnits y = s.setUnits y := rfl

/-! ## setPollTimer -/

@[simp] theorem setPollTimer_pending (s : State) (x) : (s.setPollTimer x).pending = s.pending := rfl
@[simp] theorem setPollTimer_path (s : State) (x) : (s.setPollTimer x).path = s.path := rfl
@[simp] theorem setPollTimer_site (s : State) (x) : (s.setPollTimer x).site = s.site := rfl
@[simp] theorem setPollTimer_stages (s : State) (x) : (s.setPollTimer x).stages = s.stages := rfl
@[simp] theorem setPollTimer_carriers (s : State) (x) : (s.setPollTimer x).carriers = s.carriers := rfl
@[simp] theorem setPollTimer_links (s : State) (x) : (s.setPollTimer x).links = s.links := rfl
@[simp] theorem setPollTimer_linkRate (s : State) (x) : (s.setPollTimer x).linkRate = s.linkRate := rfl
@[simp] theorem setPollTimer_units (s : State) (x) : (s.setPollTimer x).units = s.units := rfl
@[simp] theorem setPollTimer_pollTimer (s : State) (x) : (s.setPollTimer x).pollTimer = x := rfl
@[simp] theorem setPollTimer_steering (s : State) (x) : (s.setPollTimer x).steering = s.steering := rfl
@[simp] theorem setPollTimer_faults (s : State) (x) : (s.setPollTimer x).faults = s.faults := rfl
@[simp] theorem setPollTimer_self (s : State) : s.setPollTimer s.pollTimer = s := rfl
@[simp] theorem setPollTimer_setPollTimer (s : State) (x y) : (s.setPollTimer x).setPollTimer y = s.setPollTimer y := rfl

/-! ## setSteering -/

@[simp] theorem setSteering_pending (s : State) (x) : (s.setSteering x).pending = s.pending := rfl
@[simp] theorem setSteering_path (s : State) (x) : (s.setSteering x).path = s.path := rfl
@[simp] theorem setSteering_site (s : State) (x) : (s.setSteering x).site = s.site := rfl
@[simp] theorem setSteering_stages (s : State) (x) : (s.setSteering x).stages = s.stages := rfl
@[simp] theorem setSteering_carriers (s : State) (x) : (s.setSteering x).carriers = s.carriers := rfl
@[simp] theorem setSteering_links (s : State) (x) : (s.setSteering x).links = s.links := rfl
@[simp] theorem setSteering_linkRate (s : State) (x) : (s.setSteering x).linkRate = s.linkRate := rfl
@[simp] theorem setSteering_units (s : State) (x) : (s.setSteering x).units = s.units := rfl
@[simp] theorem setSteering_pollTimer (s : State) (x) : (s.setSteering x).pollTimer = s.pollTimer := rfl
@[simp] theorem setSteering_steering (s : State) (x) : (s.setSteering x).steering = x := rfl
@[simp] theorem setSteering_faults (s : State) (x) : (s.setSteering x).faults = s.faults := rfl
@[simp] theorem setSteering_self (s : State) : s.setSteering s.steering = s := rfl
@[simp] theorem setSteering_setSteering (s : State) (x y) : (s.setSteering x).setSteering y = s.setSteering y := rfl

/-! ## setFaults -/

@[simp] theorem setFaults_pending (s : State) (x) : (s.setFaults x).pending = s.pending := rfl
@[simp] theorem setFaults_path (s : State) (x) : (s.setFaults x).path = s.path := rfl
@[simp] theorem setFaults_site (s : State) (x) : (s.setFaults x).site = s.site := rfl
@[simp] theorem setFaults_stages (s : State) (x) : (s.setFaults x).stages = s.stages := rfl
@[simp] theorem setFaults_carriers (s : State) (x) : (s.setFaults x).carriers = s.carriers := rfl
@[simp] theorem setFaults_links (s : State) (x) : (s.setFaults x).links = s.links := rfl
@[simp] theorem setFaults_linkRate (s : State) (x) : (s.setFaults x).linkRate = s.linkRate := rfl
@[simp] theorem setFaults_units (s : State) (x) : (s.setFaults x).units = s.units := rfl
@[simp] theorem setFaults_pollTimer (s : State) (x) : (s.setFaults x).pollTimer = s.pollTimer := rfl
@[simp] theorem setFaults_steering (s : State) (x) : (s.setFaults x).steering = s.steering := rfl
@[simp] theorem setFaults_faults (s : State) (x) : (s.setFaults x).faults = x := rfl
@[simp] theorem setFaults_self (s : State) : s.setFaults s.faults = s := rfl
@[simp] theorem setFaults_setFaults (s : State) (x y) : (s.setFaults x).setFaults y = s.setFaults y := rfl

/-! ## onLink -/

@[simp] theorem onLink_pending (s : State) (n f) : (s.onLink n f).pending = s.pending := rfl
@[simp] theorem onLink_path (s : State) (n f) : (s.onLink n f).path = s.path := rfl
@[simp] theorem onLink_site (s : State) (n f) : (s.onLink n f).site = s.site := rfl
@[simp] theorem onLink_stages (s : State) (n f) : (s.onLink n f).stages = s.stages := rfl
@[simp] theorem onLink_carriers (s : State) (n f) : (s.onLink n f).carriers = s.carriers := rfl
@[simp] theorem onLink_linkRate (s : State) (n f) : (s.onLink n f).linkRate = s.linkRate := rfl
@[simp] theorem onLink_units (s : State) (n f) : (s.onLink n f).units = s.units := rfl
@[simp] theorem onLink_pollTimer (s : State) (n f) : (s.onLink n f).pollTimer = s.pollTimer := rfl
@[simp] theorem onLink_steering (s : State) (n f) : (s.onLink n f).steering = s.steering := rfl
@[simp] theorem onLink_faults (s : State) (n f) : (s.onLink n f).faults = s.faults := rfl

/-! ## onUnit -/

@[simp] theorem onUnit_pending (s : State) (u f) : (s.onUnit u f).pending = s.pending := rfl
@[simp] theorem onUnit_path (s : State) (u f) : (s.onUnit u f).path = s.path := rfl
@[simp] theorem onUnit_site (s : State) (u f) : (s.onUnit u f).site = s.site := rfl
@[simp] theorem onUnit_stages (s : State) (u f) : (s.onUnit u f).stages = s.stages := rfl
@[simp] theorem onUnit_carriers (s : State) (u f) : (s.onUnit u f).carriers = s.carriers := rfl
@[simp] theorem onUnit_links (s : State) (u f) : (s.onUnit u f).links = s.links := rfl
@[simp] theorem onUnit_linkRate (s : State) (u f) : (s.onUnit u f).linkRate = s.linkRate := rfl
@[simp] theorem onUnit_pollTimer (s : State) (u f) : (s.onUnit u f).pollTimer = s.pollTimer := rfl
@[simp] theorem onUnit_steering (s : State) (u f) : (s.onUnit u f).steering = s.steering := rfl
@[simp] theorem onUnit_faults (s : State) (u f) : (s.onUnit u f).faults = s.faults := rfl

/-! ## setStage -/

@[simp] theorem setStage_pending (s : State) (k g) : (s.setStage k g).pending = s.pending := rfl
@[simp] theorem setStage_path (s : State) (k g) : (s.setStage k g).path = s.path := rfl
@[simp] theorem setStage_site (s : State) (k g) : (s.setStage k g).site = s.site := rfl
@[simp] theorem setStage_carriers (s : State) (k g) : (s.setStage k g).carriers = s.carriers := rfl
@[simp] theorem setStage_links (s : State) (k g) : (s.setStage k g).links = s.links := rfl
@[simp] theorem setStage_linkRate (s : State) (k g) : (s.setStage k g).linkRate = s.linkRate := rfl
@[simp] theorem setStage_units (s : State) (k g) : (s.setStage k g).units = s.units := rfl
@[simp] theorem setStage_pollTimer (s : State) (k g) : (s.setStage k g).pollTimer = s.pollTimer := rfl
@[simp] theorem setStage_steering (s : State) (k g) : (s.setStage k g).steering = s.steering := rfl
@[simp] theorem setStage_faults (s : State) (k g) : (s.setStage k g).faults = s.faults := rfl

/-! ## setMode -/

@[simp] theorem setMode_pending (s : State) (m) : (s.setMode m).pending = s.pending := rfl
@[simp] theorem setMode_path (s : State) (m) : (s.setMode m).path = s.path := rfl
@[simp] theorem setMode_stages (s : State) (m) : (s.setMode m).stages = s.stages := rfl
@[simp] theorem setMode_carriers (s : State) (m) : (s.setMode m).carriers = s.carriers := rfl
@[simp] theorem setMode_links (s : State) (m) : (s.setMode m).links = s.links := rfl
@[simp] theorem setMode_linkRate (s : State) (m) : (s.setMode m).linkRate = s.linkRate := rfl
@[simp] theorem setMode_units (s : State) (m) : (s.setMode m).units = s.units := rfl
@[simp] theorem setMode_pollTimer (s : State) (m) : (s.setMode m).pollTimer = s.pollTimer := rfl
@[simp] theorem setMode_steering (s : State) (m) : (s.setMode m).steering = s.steering := rfl
@[simp] theorem setMode_faults (s : State) (m) : (s.setMode m).faults = s.faults := rfl

/-! ## present -/

@[simp] theorem present_pending (s : State) (a) : (s.present a).pending = s.pending := rfl
@[simp] theorem present_site (s : State) (a) : (s.present a).site = s.site := rfl
@[simp] theorem present_stages (s : State) (a) : (s.present a).stages = s.stages := rfl
@[simp] theorem present_carriers (s : State) (a) : (s.present a).carriers = s.carriers := rfl
@[simp] theorem present_links (s : State) (a) : (s.present a).links = s.links := rfl
@[simp] theorem present_linkRate (s : State) (a) : (s.present a).linkRate = s.linkRate := rfl
@[simp] theorem present_units (s : State) (a) : (s.present a).units = s.units := rfl
@[simp] theorem present_pollTimer (s : State) (a) : (s.present a).pollTimer = s.pollTimer := rfl
@[simp] theorem present_steering (s : State) (a) : (s.present a).steering = s.steering := rfl
@[simp] theorem present_faults (s : State) (a) : (s.present a).faults = s.faults := rfl

/-! ## setContext -/

@[simp] theorem setContext_pending (s : State) (n c) : (s.setContext n c).pending = s.pending := rfl
@[simp] theorem setContext_path (s : State) (n c) : (s.setContext n c).path = s.path := rfl
@[simp] theorem setContext_site (s : State) (n c) : (s.setContext n c).site = s.site := rfl
@[simp] theorem setContext_stages (s : State) (n c) : (s.setContext n c).stages = s.stages := rfl
@[simp] theorem setContext_links (s : State) (n c) : (s.setContext n c).links = s.links := rfl
@[simp] theorem setContext_linkRate (s : State) (n c) : (s.setContext n c).linkRate = s.linkRate := rfl
@[simp] theorem setContext_units (s : State) (n c) : (s.setContext n c).units = s.units := rfl
@[simp] theorem setContext_pollTimer (s : State) (n c) : (s.setContext n c).pollTimer = s.pollTimer := rfl
@[simp] theorem setContext_steering (s : State) (n c) : (s.setContext n c).steering = s.steering := rfl
@[simp] theorem setContext_faults (s : State) (n c) : (s.setContext n c).faults = s.faults := rfl

/-! ## addChanged -/

@[simp] theorem addChanged_pending (s : State) (k n) : (s.addChanged k n).pending = s.pending := rfl
@[simp] theorem addChanged_path (s : State) (k n) : (s.addChanged k n).path = s.path := rfl
@[simp] theorem addChanged_site (s : State) (k n) : (s.addChanged k n).site = s.site := rfl
@[simp] theorem addChanged_stages (s : State) (k n) : (s.addChanged k n).stages = s.stages := rfl
@[simp] theorem addChanged_links (s : State) (k n) : (s.addChanged k n).links = s.links := rfl
@[simp] theorem addChanged_linkRate (s : State) (k n) : (s.addChanged k n).linkRate = s.linkRate := rfl
@[simp] theorem addChanged_units (s : State) (k n) : (s.addChanged k n).units = s.units := rfl
@[simp] theorem addChanged_pollTimer (s : State) (k n) : (s.addChanged k n).pollTimer = s.pollTimer := rfl
@[simp] theorem addChanged_steering (s : State) (k n) : (s.addChanged k n).steering = s.steering := rfl
@[simp] theorem addChanged_faults (s : State) (k n) : (s.addChanged k n).faults = s.faults := rfl

/-! ## onSteering -/

@[simp] theorem onSteering_pending (s : State) (f) : (s.onSteering f).pending = s.pending := rfl
@[simp] theorem onSteering_path (s : State) (f) : (s.onSteering f).path = s.path := rfl
@[simp] theorem onSteering_site (s : State) (f) : (s.onSteering f).site = s.site := rfl
@[simp] theorem onSteering_stages (s : State) (f) : (s.onSteering f).stages = s.stages := rfl
@[simp] theorem onSteering_carriers (s : State) (f) : (s.onSteering f).carriers = s.carriers := rfl
@[simp] theorem onSteering_links (s : State) (f) : (s.onSteering f).links = s.links := rfl
@[simp] theorem onSteering_linkRate (s : State) (f) : (s.onSteering f).linkRate = s.linkRate := rfl
@[simp] theorem onSteering_units (s : State) (f) : (s.onSteering f).units = s.units := rfl
@[simp] theorem onSteering_pollTimer (s : State) (f) : (s.onSteering f).pollTimer = s.pollTimer := rfl
@[simp] theorem onSteering_faults (s : State) (f) : (s.onSteering f).faults = s.faults := rfl

/-! ## Banked records -/

@[simp] theorem link_onLink_self (s : State) (n f) : (s.onLink n f).link n = f (s.link n) := by
  simp [link, onLink]

theorem link_onLink_ne (s : State) {n m : UnitId} (f) (h : m ≠ n) :
    (s.onLink n f).link m = s.link m := by
  simp [link, onLink, h]

theorem link_onLink (s : State) (n m : UnitId) (f) :
    (s.onLink n f).link m = if m = n then f (s.link n) else s.link m := by
  simp [link, onLink, Bank.get_put]

@[simp] theorem unit_onUnit_self (s : State) (u f) : (s.onUnit u f).unit u = f (s.unit u) := by
  simp [unit, onUnit]

theorem unit_onUnit_ne (s : State) {u v : UnitId} (f) (h : v ≠ u) :
    (s.onUnit u f).unit v = s.unit v := by
  simp [unit, onUnit, h]

theorem unit_onUnit (s : State) (u v : UnitId) (f) :
    (s.onUnit u f).unit v = if v = u then f (s.unit u) else s.unit v := by
  simp [unit, onUnit, Bank.get_put]

@[simp] theorem stage_setStage_self (s : State) (k g) : (s.setStage k g).stage k = g := by
  simp [stage, setStage]

theorem stage_setStage (s : State) (k j : Operator) (g) :
    (s.setStage k g).stage j = if j = k then g else s.stage j := by
  simp [stage, setStage, Bank.get_put]

@[simp] theorem lastServed_setStage (s : State) (k g) :
    (s.setStage k g).stages.lastServed = s.stages.lastServed := rfl

@[simp] theorem context_setContext_self (s : State) (n c) : (s.setContext n c).context n = c := by
  simp [context, setContext]

theorem context_setContext (s : State) (n m : SlotId) (c) :
    (s.setContext n c).context m = if m = n then c else s.context m := by
  simp [context, setContext, Bank.get_put]

@[simp] theorem changed_setContext (s : State) (n c) :
    (s.setContext n c).carriers.changed = s.carriers.changed := rfl

@[simp] theorem context_addChanged (s : State) (k n m) :
    (s.addChanged k n).context m = s.context m := rfl

@[simp] theorem occupancy_addChanged (s : State) (k n) :
    (s.addChanged k n).carriers.occupancy = s.carriers.occupancy := rfl

@[simp] theorem onSteering_steering (s : State) (f) : (s.onSteering f).steering = f s.steering := rfl

@[simp] theorem setMode_mode (s : State) (m) : (s.setMode m).site.mode = m := rfl

@[simp] theorem unit_eq (s : State) (u : UnitId) : s.units.get u = s.unit u := rfl

@[simp] theorem link_eq (s : State) (n : UnitId) : s.links.get n = s.link n := rfl

@[simp] theorem stage_eq (s : State) (k : Operator) : s.stages.bank.get k = s.stage k := rfl

@[simp] theorem context_eq (s : State) (n : SlotId) : s.carriers.contexts.get n = s.context n := rfl

/-! ## Banked records through updates of other parts -/

@[simp] theorem unit_setPending' (s : State) (x) (w : UnitId) : (s.setPending x).unit w = s.unit w := rfl
@[simp] theorem link_setPending' (s : State) (x) (w : UnitId) : (s.setPending x).link w = s.link w := rfl
@[simp] theorem stage_setPending' (s : State) (x) (w : Operator) : (s.setPending x).stage w = s.stage w := rfl
@[simp] theorem context_setPending' (s : State) (x) (w : SlotId) : (s.setPending x).context w = s.context w := rfl
@[simp] theorem unit_setPath' (s : State) (x) (w : UnitId) : (s.setPath x).unit w = s.unit w := rfl
@[simp] theorem link_setPath' (s : State) (x) (w : UnitId) : (s.setPath x).link w = s.link w := rfl
@[simp] theorem stage_setPath' (s : State) (x) (w : Operator) : (s.setPath x).stage w = s.stage w := rfl
@[simp] theorem context_setPath' (s : State) (x) (w : SlotId) : (s.setPath x).context w = s.context w := rfl
@[simp] theorem unit_setSite' (s : State) (x) (w : UnitId) : (s.setSite x).unit w = s.unit w := rfl
@[simp] theorem link_setSite' (s : State) (x) (w : UnitId) : (s.setSite x).link w = s.link w := rfl
@[simp] theorem stage_setSite' (s : State) (x) (w : Operator) : (s.setSite x).stage w = s.stage w := rfl
@[simp] theorem context_setSite' (s : State) (x) (w : SlotId) : (s.setSite x).context w = s.context w := rfl
@[simp] theorem unit_setStages' (s : State) (x) (w : UnitId) : (s.setStages x).unit w = s.unit w := rfl
@[simp] theorem link_setStages' (s : State) (x) (w : UnitId) : (s.setStages x).link w = s.link w := rfl
@[simp] theorem context_setStages' (s : State) (x) (w : SlotId) : (s.setStages x).context w = s.context w := rfl
@[simp] theorem unit_setCarriers' (s : State) (x) (w : UnitId) : (s.setCarriers x).unit w = s.unit w := rfl
@[simp] theorem link_setCarriers' (s : State) (x) (w : UnitId) : (s.setCarriers x).link w = s.link w := rfl
@[simp] theorem stage_setCarriers' (s : State) (x) (w : Operator) : (s.setCarriers x).stage w = s.stage w := rfl
@[simp] theorem unit_setLinks' (s : State) (x) (w : UnitId) : (s.setLinks x).unit w = s.unit w := rfl
@[simp] theorem stage_setLinks' (s : State) (x) (w : Operator) : (s.setLinks x).stage w = s.stage w := rfl
@[simp] theorem context_setLinks' (s : State) (x) (w : SlotId) : (s.setLinks x).context w = s.context w := rfl
@[simp] theorem link_setUnits' (s : State) (x) (w : UnitId) : (s.setUnits x).link w = s.link w := rfl
@[simp] theorem stage_setUnits' (s : State) (x) (w : Operator) : (s.setUnits x).stage w = s.stage w := rfl
@[simp] theorem context_setUnits' (s : State) (x) (w : SlotId) : (s.setUnits x).context w = s.context w := rfl
@[simp] theorem unit_setPollTimer' (s : State) (x) (w : UnitId) : (s.setPollTimer x).unit w = s.unit w := rfl
@[simp] theorem link_setPollTimer' (s : State) (x) (w : UnitId) : (s.setPollTimer x).link w = s.link w := rfl
@[simp] theorem stage_setPollTimer' (s : State) (x) (w : Operator) : (s.setPollTimer x).stage w = s.stage w := rfl
@[simp] theorem context_setPollTimer' (s : State) (x) (w : SlotId) : (s.setPollTimer x).context w = s.context w := rfl
@[simp] theorem unit_setSteering' (s : State) (x) (w : UnitId) : (s.setSteering x).unit w = s.unit w := rfl
@[simp] theorem link_setSteering' (s : State) (x) (w : UnitId) : (s.setSteering x).link w = s.link w := rfl
@[simp] theorem stage_setSteering' (s : State) (x) (w : Operator) : (s.setSteering x).stage w = s.stage w := rfl
@[simp] theorem context_setSteering' (s : State) (x) (w : SlotId) : (s.setSteering x).context w = s.context w := rfl
@[simp] theorem unit_setFaults' (s : State) (x) (w : UnitId) : (s.setFaults x).unit w = s.unit w := rfl
@[simp] theorem link_setFaults' (s : State) (x) (w : UnitId) : (s.setFaults x).link w = s.link w := rfl
@[simp] theorem stage_setFaults' (s : State) (x) (w : Operator) : (s.setFaults x).stage w = s.stage w := rfl
@[simp] theorem context_setFaults' (s : State) (x) (w : SlotId) : (s.setFaults x).context w = s.context w := rfl
@[simp] theorem unit_onLink' (s : State) (n f) (w : UnitId) : (s.onLink n f).unit w = s.unit w := rfl
@[simp] theorem stage_onLink' (s : State) (n f) (w : Operator) : (s.onLink n f).stage w = s.stage w := rfl
@[simp] theorem context_onLink' (s : State) (n f) (w : SlotId) : (s.onLink n f).context w = s.context w := rfl
@[simp] theorem link_onUnit' (s : State) (u f) (w : UnitId) : (s.onUnit u f).link w = s.link w := rfl
@[simp] theorem stage_onUnit' (s : State) (u f) (w : Operator) : (s.onUnit u f).stage w = s.stage w := rfl
@[simp] theorem context_onUnit' (s : State) (u f) (w : SlotId) : (s.onUnit u f).context w = s.context w := rfl
@[simp] theorem unit_setStage' (s : State) (k g) (w : UnitId) : (s.setStage k g).unit w = s.unit w := rfl
@[simp] theorem link_setStage' (s : State) (k g) (w : UnitId) : (s.setStage k g).link w = s.link w := rfl
@[simp] theorem context_setStage' (s : State) (k g) (w : SlotId) : (s.setStage k g).context w = s.context w := rfl
@[simp] theorem unit_setMode' (s : State) (m) (w : UnitId) : (s.setMode m).unit w = s.unit w := rfl
@[simp] theorem link_setMode' (s : State) (m) (w : UnitId) : (s.setMode m).link w = s.link w := rfl
@[simp] theorem stage_setMode' (s : State) (m) (w : Operator) : (s.setMode m).stage w = s.stage w := rfl
@[simp] theorem context_setMode' (s : State) (m) (w : SlotId) : (s.setMode m).context w = s.context w := rfl
@[simp] theorem unit_present' (s : State) (a) (w : UnitId) : (s.present a).unit w = s.unit w := rfl
@[simp] theorem link_present' (s : State) (a) (w : UnitId) : (s.present a).link w = s.link w := rfl
@[simp] theorem stage_present' (s : State) (a) (w : Operator) : (s.present a).stage w = s.stage w := rfl
@[simp] theorem context_present' (s : State) (a) (w : SlotId) : (s.present a).context w = s.context w := rfl
@[simp] theorem unit_setContext' (s : State) (n c) (w : UnitId) : (s.setContext n c).unit w = s.unit w := rfl
@[simp] theorem link_setContext' (s : State) (n c) (w : UnitId) : (s.setContext n c).link w = s.link w := rfl
@[simp] theorem stage_setContext' (s : State) (n c) (w : Operator) : (s.setContext n c).stage w = s.stage w := rfl
@[simp] theorem unit_addChanged' (s : State) (k n) (w : UnitId) : (s.addChanged k n).unit w = s.unit w := rfl
@[simp] theorem link_addChanged' (s : State) (k n) (w : UnitId) : (s.addChanged k n).link w = s.link w := rfl
@[simp] theorem stage_addChanged' (s : State) (k n) (w : Operator) : (s.addChanged k n).stage w = s.stage w := rfl
@[simp] theorem unit_onSteering' (s : State) (f) (w : UnitId) : (s.onSteering f).unit w = s.unit w := rfl
@[simp] theorem link_onSteering' (s : State) (f) (w : UnitId) : (s.onSteering f).link w = s.link w := rfl
@[simp] theorem stage_onSteering' (s : State) (f) (w : Operator) : (s.onSteering f).stage w = s.stage w := rfl
@[simp] theorem context_onSteering' (s : State) (f) (w : SlotId) : (s.onSteering f).context w = s.context w := rfl

end Sys2Proof.Machine.State
end

