-- ==== Sys2Proof/Laws/Log.lean ====
section
/-! SUPPORT. What the Fault Reporter's operations can do: the ring stays (`SameRing`), the notice
queue keeps its bounds (`QueueInv`), and the end of an event touches the log side alone. -/

namespace Sys2Proof.Machine

open Sys2Proof

/-! ## Folds -/

/-- A property that every step of a fold keeps, the fold keeps. -/
theorem foldl_keeps {σ α : Type} {p : σ → Prop} {f : σ → α → σ} (l : List α)
    (step : ∀ s a, p s → p (f s a)) : ∀ s, p s → p (l.foldl f s) := by
  induction l with
  | nil => intro s h; exact h
  | cons a l ih => intro s h; exact ih _ (step s a h)

/-- A relation to the start that every step of a fold keeps, the fold keeps. -/
theorem foldl_related {σ α : Type} {r : σ → σ → Prop} {f : σ → α → σ} (l : List α)
    (refl : ∀ s, r s s) (step : ∀ s a, r s (f s a)) (trans : ∀ a b c, r a b → r b c → r a c) :
    ∀ s, r s (l.foldl f s) := by
  induction l with
  | nil => intro s; exact refl s
  | cons a l ih => intro s; exact trans _ _ _ (step s a) (ih _)

/-- A field that no step of a fold changes, the fold does not change. -/
theorem foldl_field {σ α β : Type} (g : σ → β) {f : σ → α → σ} (l : List α)
    (step : ∀ s a, g (f s a) = g s) : ∀ s, g (l.foldl f s) = g s := by
  induction l with
  | nil => intro s; rfl
  | cons a l ih => intro s; rw [List.foldl_cons, ih, step]

/-! ## The ring stays -/

theorem SameRing.refl (f : Faults) : SameRing f f := ⟨rfl, rfl, rfl, rfl, rfl, rfl⟩

theorem SameRing.trans {f g h : Faults} (a : SameRing f g) (b : SameRing g h) : SameRing f h := by
  obtain ⟨a1, a2, a3, a4, a5, a6⟩ := a
  obtain ⟨b1, b2, b3, b4, b5, b6⟩ := b
  exact ⟨b1.trans a1, b2.trans a2, b3.trans a3, b4.trans a4, b5.trans a5, b6.trans a6⟩

theorem Faults.setLatch_ring (f : Faults) (id l) : SameRing f (f.setLatch id l) := by
  cases id <;> exact ⟨rfl, rfl, rfl, rfl, rfl, rfl⟩

theorem Faults.enqueue_ring (f : Faults) (v b) : SameRing f (f.enqueue v b) :=
  ⟨rfl, rfl, rfl, rfl, rfl, rfl⟩

theorem Faults.enqueueSuppressed_ring (f : Faults) (v) : SameRing f (f.enqueueSuppressed v) :=
  ⟨rfl, rfl, rfl, rfl, rfl, rfl⟩

theorem Faults.produce_ring (f : Faults) (v b) : SameRing f (f.produce v b) := by
  unfold Faults.produce
  split
  · split
    · exact f.enqueue_ring v b
    · exact (f.enqueueSuppressed_ring v).trans (Faults.enqueue_ring _ v b)
  · exact ⟨rfl, rfl, rfl, rfl, rfl, rfl⟩

theorem Faults.raise_ring (f : Faults) (v id) : SameRing f (f.raise v id) := by
  unfold Faults.raise
  simp only
  split
  · exact f.setLatch_ring id _
  · exact (f.setLatch_ring id _).trans (Faults.produce_ring _ v _)

theorem Faults.clearLatch_ring (f : Faults) (v id) : SameRing f (f.clearLatch v id) := by
  unfold Faults.clearLatch
  simp only
  split
  · exact (f.setLatch_ring id _).trans (Faults.produce_ring _ v _)
  · exact f.setLatch_ring id _

theorem Faults.acknowledge_ring (f : Faults) (v id) : SameRing f (f.acknowledge v id) := by
  unfold Faults.acknowledge
  simp only
  split
  · exact .refl f
  · split
    · exact f.clearLatch_ring v id
    · split
      · exact .refl f
      · split
        · exact f.setLatch_ring id _
        · exact f.clearLatch_ring v id

theorem Faults.report_ring (f : Faults) (v id p a) : SameRing f (f.report v id p a) := by
  unfold Faults.report
  simp only
  split
  · split
    · split
      · exact f.setLatch_ring id _
      · exact (f.setLatch_ring id _).trans (Faults.raise_ring _ v id)
    · split
      · exact (f.setLatch_ring id _).trans (Faults.clearLatch_ring _ v id)
      · exact f.setLatch_ring id _
  · exact .refl f

theorem Faults.momentaryTrip_ring (f : Faults) (v id) : SameRing f (f.momentaryTrip v id) := by
  unfold Faults.momentaryTrip
  split
  · exact f.raise_ring v id
  · exact .refl f

theorem Faults.tripProtection_ring (f : Faults) (v d) : SameRing f (f.tripProtection v d) := by
  unfold Faults.tripProtection
  split
  · exact .refl f
  · split
    · exact SameRing.trans ⟨rfl, rfl, rfl, rfl, rfl, rfl⟩ (Faults.momentaryTrip_ring _ v _)
    · exact .refl f

theorem Faults.toHeld_ring (f : Faults) (v id) : SameRing f (f.toHeld v id) := by
  unfold Faults.toHeld
  simp only
  split
  · exact f.setLatch_ring id _
  · split
    · exact f.raise_ring v id
    · exact .refl f

theorem Faults.modesChanged_ring (f : Faults) (v old) : SameRing f (f.modesChanged v old) := by
  refine foldl_related (r := SameRing) kindOrder SameRing.refl ?_
    (fun _ _ _ => SameRing.trans) f
  intro g k
  split
  · exact foldl_related (r := SameRing) (latchesOf k) SameRing.refl
      (fun g id => g.toHeld_ring v id) (fun _ _ _ => SameRing.trans) g
  · exact .refl g

/-! ## The notice queue keeps its bounds -/

theorem Faults.QueueInv.of_eq {f g : Faults} (h : f.QueueInv) (hq : g.queue = f.queue)
    (hs : g.suppressed = f.suppressed) : g.QueueInv := by
  unfold Faults.QueueInv
  rw [hq, hs]
  exact h

theorem Faults.setLatch_queue (f : Faults) (id l) : (f.setLatch id l).queue = f.queue := by
  cases id <;> rfl

theorem Faults.setLatch_suppressed (f : Faults) (id l) :
    (f.setLatch id l).suppressed = f.suppressed := by
  cases id <;> rfl

theorem Faults.QueueInv.setLatch {f : Faults} (h : f.QueueInv) (id l) :
    (f.setLatch id l).QueueInv :=
  h.of_eq (f.setLatch_queue id l) (f.setLatch_suppressed id l)

theorem countUp_le {top n : Nat} (h : n ≤ top) : countUp top n ≤ top := by
  unfold countUp
  split <;> omega

theorem Faults.QueueInv.enqueue {f : Faults} (h : f.queue.length < 16) (hs : f.suppressed ≤ 65535)
    (v b) : (f.enqueue v b).QueueInv := by
  refine ⟨?_, hs⟩
  show (f.queue ++ [_]).length ≤ 16
  rw [List.length_append, List.length_singleton]
  omega

theorem Faults.QueueInv.produce {f : Faults} (h : f.QueueInv) (v b) : (f.produce v b).QueueInv := by
  obtain ⟨h1, h2⟩ := h
  unfold Faults.produce
  split
  · next hr =>
    unfold Faults.hasRoom Config.noticeRoom at hr
    split
    · next hs =>
      rw [if_pos hs] at hr
      exact .enqueue (of_decide_eq_true hr) h2 v b
    · next hs =>
      rw [if_neg hs] at hr
      have hr := of_decide_eq_true hr
      refine .enqueue ?_ (by simp [Faults.enqueueSuppressed]) v b
      show (f.queue ++ [_]).length < 16
      rw [List.length_append, List.length_singleton]
      omega
  · exact ⟨h1, countUp_le h2⟩

theorem Faults.QueueInv.raise {f : Faults} (h : f.QueueInv) (v id) : (f.raise v id).QueueInv := by
  unfold Faults.raise
  simp only
  split
  · exact h.setLatch id _
  · exact (h.setLatch id _).produce v _

theorem Faults.QueueInv.clearLatch {f : Faults} (h : f.QueueInv) (v id) :
    (f.clearLatch v id).QueueInv := by
  unfold Faults.clearLatch
  simp only
  split
  · exact (h.setLatch id _).produce v _
  · exact h.setLatch id _

theorem Faults.QueueInv.acknowledge {f : Faults} (h : f.QueueInv) (v id) :
    (f.acknowledge v id).QueueInv := by
  unfold Faults.acknowledge
  simp only
  split
  · exact h
  · split
    · exact h.clearLatch v id
    · split
      · exact h
      · split
        · exact h.setLatch id _
        · exact h.clearLatch v id

theorem Faults.QueueInv.report {f : Faults} (h : f.QueueInv) (v id p a) :
    (f.report v id p a).QueueInv := by
  unfold Faults.report
  simp only
  split
  · split
    · split
      · exact h.setLatch id _
      · exact Faults.QueueInv.raise (h.setLatch id _) v id
    · split
      · exact Faults.QueueInv.clearLatch (h.setLatch id _) v id
      · exact h.setLatch id _
  · exact h

theorem Faults.QueueInv.momentaryTrip {f : Faults} (h : f.QueueInv) (v id) :
    (f.momentaryTrip v id).QueueInv := by
  unfold Faults.momentaryTrip
  split
  · exact h.raise v id
  · exact h

theorem Faults.QueueInv.tripProtection {f : Faults} (h : f.QueueInv) (v d) :
    (f.tripProtection v d).QueueInv := by
  unfold Faults.tripProtection
  split
  · exact h
  · split
    · exact Faults.QueueInv.momentaryTrip (f := { f with detail := d }) ⟨h.1, h.2⟩ v _
    · exact h

theorem Faults.QueueInv.modesChanged {f : Faults} (h : f.QueueInv) (v old) :
    (f.modesChanged v old).QueueInv := by
  refine foldl_keeps (p := Faults.QueueInv) kindOrder ?_ f h
  intro g k hg
  split
  · refine foldl_keeps (p := Faults.QueueInv) (latchesOf k) ?_ g hg
    intro g id hg
    unfold Faults.toHeld
    simp only
    split
    · exact hg.setLatch id _
    · split
      · exact hg.raise v id
      · exact hg
  · exact hg

/-! ## Notices join at the tail -/

/-- Notices may join the queue at its tail; those there stay. -/
def NoticesJoin (f g : Faults) : Prop := ∃ more, g.queue = f.queue ++ more

theorem NoticesJoin.of_eq {f g : Faults} (h : g.queue = f.queue) : NoticesJoin f g :=
  ⟨[], by rw [h, List.append_nil]⟩

theorem NoticesJoin.refl (f : Faults) : NoticesJoin f f := .of_eq rfl

theorem NoticesJoin.trans {f g h : Faults} (a : NoticesJoin f g) (b : NoticesJoin g h) :
    NoticesJoin f h := by
  obtain ⟨l, hl⟩ := a
  obtain ⟨m, hm⟩ := b
  exact ⟨l ++ m, by rw [hm, hl, List.append_assoc]⟩

theorem Faults.setLatch_joins (f : Faults) (id l) : NoticesJoin f (f.setLatch id l) :=
  .of_eq (f.setLatch_queue id l)

theorem Faults.produce_joins (f : Faults) (v b) : NoticesJoin f (f.produce v b) := by
  unfold Faults.produce
  split
  · split
    · exact ⟨_, rfl⟩
    · exact ⟨_, List.append_assoc _ _ _⟩
  · exact .of_eq rfl

theorem Faults.raise_joins (f : Faults) (v id) : NoticesJoin f (f.raise v id) := by
  unfold Faults.raise
  simp only
  split
  · exact f.setLatch_joins id _
  · exact (f.setLatch_joins id _).trans (Faults.produce_joins _ v _)

theorem Faults.clearLatch_joins (f : Faults) (v id) : NoticesJoin f (f.clearLatch v id) := by
  unfold Faults.clearLatch
  simp only
  split
  · exact (f.setLatch_joins id _).trans (Faults.produce_joins _ v _)
  · exact f.setLatch_joins id _

theorem Faults.acknowledge_joins (f : Faults) (v id) : NoticesJoin f (f.acknowledge v id) := by
  unfold Faults.acknowledge
  simp only
  split
  · exact .refl f
  split
  · exact f.clearLatch_joins v id
  split
  · exact .refl f
  split
  · exact f.setLatch_joins id _
  · exact f.clearLatch_joins v id

theorem Faults.report_joins (f : Faults) (v id p a) : NoticesJoin f (f.report v id p a) := by
  unfold Faults.report Faults.record
  split
  · simp only
    split
    · split
      · exact f.setLatch_joins id _
      · exact (f.setLatch_joins id _).trans (Faults.raise_joins _ v id)
    · split
      · exact (f.setLatch_joins id _).trans (Faults.clearLatch_joins _ v id)
      · exact f.setLatch_joins id _
  · exact .refl f

theorem Faults.momentaryTrip_joins (f : Faults) (v id) : NoticesJoin f (f.momentaryTrip v id) := by
  unfold Faults.momentaryTrip
  split
  · exact f.raise_joins v id
  · exact .refl f

theorem Faults.tripProtection_joins (f : Faults) (v d) : NoticesJoin f (f.tripProtection v d) := by
  unfold Faults.tripProtection
  split
  · exact .refl f
  · split
    · exact Faults.momentaryTrip_joins { f with detail := d } v .protection
    · exact .refl f

theorem Faults.toHeld_joins (f : Faults) (v id) : NoticesJoin f (f.toHeld v id) := by
  unfold Faults.toHeld
  simp only
  split
  · exact f.setLatch_joins id _
  · split
    · exact f.raise_joins v id
    · exact .refl f

theorem Faults.modesChanged_joins (f : Faults) (v old) : NoticesJoin f (f.modesChanged v old) := by
  unfold Faults.modesChanged
  refine foldl_related (r := NoticesJoin) _ NoticesJoin.refl ?_ (fun _ _ _ => NoticesJoin.trans) f
  intro f k
  split
  · exact foldl_related (r := NoticesJoin) _ NoticesJoin.refl
      (fun f id => f.toHeld_joins v id) (fun _ _ _ => NoticesJoin.trans) f
  · exact .refl f

theorem Faults.QueueInv.makeRoom {f : Faults} (h : f.QueueInv) (m : Mode) :
    (f.makeRoom m).QueueInv := by
  unfold Faults.makeRoom
  split
  · unfold Faults.freeEntry
    split
    · exact h.of_eq rfl rfl
    · exact h
  · split
    · exact ⟨by simp [Faults.discardQueue], by simp [Faults.discardQueue, Config.halfTop]⟩
    · exact h
  · exact h

theorem Faults.QueueInv.depositAnswered {f : Faults} (h : f.QueueInv) (v period a x) :
    (f.depositAnswered v period a x).QueueInv := by
  have h1 : (f.deposited a).QueueInv := by
    obtain ⟨q, s⟩ := h
    cases a <;> exact ⟨by simp [Faults.deposited]; omega, s⟩
  have h2 : ((f.deposited a).holdAcknowledge v a x).QueueInv := by
    unfold Faults.holdAcknowledge
    split
    · split
      · exact h1.acknowledge v _
      · exact h1
    · exact h1
  have h3 : (((f.deposited a).holdAcknowledge v a x).lapseAfterDeposit v.mode period
      f.ringEmpty).QueueInv := by
    unfold Faults.lapseAfterDeposit Faults.startLapse
    split
    · split
      · exact h2
      · exact h2.of_eq rfl rfl
    · exact h2
  unfold Faults.depositAnswered Faults.reportSuppressed
  split
  · next hc =>
    refine ⟨?_, by simp [Faults.enqueueSuppressed]⟩
    simp [Faults.enqueueSuppressed, Faults.enqueue, hc.1]
  · exact h3

/-! ## The end of an event -/

section

variable (s : State)

@[simp] theorem pump_pending : (pump s).pending = s.pending := by
  unfold pump; split; · rfl
  split
  · rfl
  · simp only; split <;> rfl
@[simp] theorem pump_site : (pump s).site = s.site := by
  unfold pump; split; · rfl
  split
  · rfl
  · simp only; split <;> rfl
@[simp] theorem pump_stages : (pump s).stages = s.stages := by
  unfold pump; split; · rfl
  split
  · rfl
  · simp only; split <;> rfl
@[simp] theorem pump_carriers : (pump s).carriers = s.carriers := by
  unfold pump; split; · rfl
  split
  · rfl
  · simp only; split <;> rfl
@[simp] theorem pump_links : (pump s).links = s.links := by
  unfold pump; split; · rfl
  split
  · rfl
  · simp only; split <;> rfl
@[simp] theorem pump_linkRate : (pump s).linkRate = s.linkRate := by
  unfold pump; split; · rfl
  split
  · rfl
  · simp only; split <;> rfl
@[simp] theorem pump_units : (pump s).units = s.units := by
  unfold pump; split; · rfl
  split
  · rfl
  · simp only; split <;> rfl
@[simp] theorem pump_pollTimer : (pump s).pollTimer = s.pollTimer := by
  unfold pump; split; · rfl
  split
  · rfl
  · simp only; split <;> rfl
@[simp] theorem pump_steering : (pump s).steering = s.steering := by
  unfold pump; split; · rfl
  split
  · rfl
  · simp only; split <;> rfl

/-- Beside the presented own access, the path stays. -/
theorem pump_path :
    (pump s).path = { s.path with ownPresented := (pump s).path.ownPresented } := by
  unfold pump; split; · rfl
  split
  · rfl
  · simp only; split <;> rfl

/-- The pump leaves the Fault Reporter, or makes room in it. -/
theorem pump_faults :
    (pump s).faults = s.faults ∨ (pump s).faults = s.faults.makeRoom s.site.mode := by
  unfold pump; split
  · exact .inl rfl
  split
  · exact .inl rfl
  · simp only; split <;> exact .inr rfl

theorem finishStop_eq (h : s.site.mode ≠ .stopping) : finishStop s = s := by
  unfold finishStop State.stopDone
  simp [h]

theorem close_eq (h : s.site.mode ≠ .stopping) : close s = pump s := by
  unfold close
  exact finishStop_eq _ (by simpa using h)

@[simp] theorem close_pending : (close s).pending = s.pending := by
  unfold close finishStop enterConfig
  split <;> simp [State.setMode]
@[simp] theorem close_stages : (close s).stages = s.stages := by
  unfold close finishStop enterConfig
  split <;> simp [State.setMode]
@[simp] theorem close_carriers : (close s).carriers = s.carriers := by
  unfold close finishStop enterConfig
  split <;> simp [State.setMode]
@[simp] theorem close_links : (close s).links = s.links := by
  unfold close finishStop enterConfig
  split <;> simp [State.setMode]
@[simp] theorem close_linkRate : (close s).linkRate = s.linkRate := by
  unfold close finishStop enterConfig
  split <;> simp [State.setMode]
@[simp] theorem close_units : (close s).units = s.units := by
  unfold close finishStop enterConfig
  split <;> simp [State.setMode]
@[simp] theorem close_pollTimer : (close s).pollTimer = s.pollTimer := by
  unfold close finishStop enterConfig
  split <;> simp [State.setMode]
@[simp] theorem close_steering : (close s).steering = s.steering := by
  unfold close finishStop enterConfig
  split <;> simp [State.setMode]

theorem close_site (h : s.site.mode ≠ .stopping) : (close s).site = s.site := by
  rw [close_eq s h, pump_site]

theorem close_faults :
    (close s).faults = s.faults ∨ (close s).faults = s.faults.makeRoom s.site.mode := by
  have h : (close s).faults = (pump s).faults := by
    unfold close finishStop enterConfig
    split <;> simp [State.setMode]
  rw [h]
  exact pump_faults s

theorem close_queueInv (h : s.faults.QueueInv) : (close s).faults.QueueInv := by
  rcases close_faults s with e | e <;> rw [e]
  · exact h
  · exact h.makeRoom _

@[simp] theorem pump_entries : (pump s).path.entries = s.path.entries := by rw [pump_path s]
@[simp] theorem close_entries : (close s).path.entries = s.path.entries := by
  unfold close finishStop enterConfig
  split <;> simp [State.setMode]
@[simp] theorem pump_upWaiting : (pump s).path.upWaiting = s.path.upWaiting := by rw [pump_path s]
@[simp] theorem close_upWaiting : (close s).path.upWaiting = s.path.upWaiting := by
  unfold close finishStop enterConfig
  split <;> simp [State.setMode]
@[simp] theorem pump_passingRun : (pump s).path.passingRun = s.path.passingRun := by rw [pump_path s]
@[simp] theorem close_passingRun : (close s).path.passingRun = s.path.passingRun := by
  unfold close finishStop enterConfig
  split <;> simp [State.setMode]
@[simp] theorem pump_granted : (pump s).path.granted = s.path.granted := by rw [pump_path s]
@[simp] theorem close_granted : (close s).path.granted = s.path.granted := by
  unfold close finishStop enterConfig
  split <;> simp [State.setMode]
@[simp] theorem pump_ownInFlight : (pump s).path.ownInFlight = s.path.ownInFlight := by rw [pump_path s]
@[simp] theorem close_ownInFlight : (close s).path.ownInFlight = s.path.ownInFlight := by
  unfold close finishStop enterConfig
  split <;> simp [State.setMode]
@[simp] theorem pump_anchor : (pump s).path.anchor = s.path.anchor := by rw [pump_path s]
@[simp] theorem close_anchor : (close s).path.anchor = s.path.anchor := by
  unfold close finishStop enterConfig
  split <;> simp [State.setMode]
@[simp] theorem pump_lastReturned : (pump s).path.lastReturned = s.path.lastReturned := by rw [pump_path s]
@[simp] theorem close_lastReturned : (close s).path.lastReturned = s.path.lastReturned := by
  unfold close finishStop enterConfig
  split <;> simp [State.setMode]

end

/-- Outside STOPPING the end of an event touches the log side alone. -/
theorem close_onlyLog (s : State) (h : s.site.mode ≠ .stopping) : OnlyLog s (close s) := by
  unfold OnlyLog
  rw [close_eq s h]
  have hp := pump_path s
  have e : ((pump s).setFaults s.faults).setPath
      { (pump s).path with ownPresented := s.path.ownPresented } = s := by
    rw [hp]
    cases s
    simp [State.setFaults, State.setPath]
  exact e

/-- Outside the three modes that deposit, the end of an event does nothing. -/
theorem close_idle (s : State) (h : s.site.mode.windowsUp = false) : close s = s := by
  rw [close_eq s (by intro e; rw [e] at h; cases h)]
  unfold pump
  split
  · rfl
  · split
    · rfl
    · have e : s.faults.makeRoom s.site.mode = s.faults := by
        unfold Faults.makeRoom
        cases hm : s.site.mode <;> simp_all [Mode.windowsUp]
      have e2 : s.faults.mayDeposit s.site.mode = false := by simp [Faults.mayDeposit, h]
      simp only [e, e2]
      rfl

/-! ## How a frame is shown -/

/-- Two states with the same parts are the same. -/
theorem State.ext_parts {s t : State} (h1 : s.pending = t.pending) (h2 : s.path = t.path)
    (h3 : s.site = t.site) (h4 : s.stages = t.stages) (h5 : s.carriers = t.carriers)
    (h6 : s.links = t.links) (h7 : s.linkRate = t.linkRate) (h8 : s.units = t.units)
    (h9 : s.pollTimer = t.pollTimer) (h10 : s.steering = t.steering) (h11 : s.faults = t.faults) :
    s = t := by
  cases s
  cases t
  simp only at *
  subst_vars
  rfl

/-- Only the log side differs when every other part is the same, and the path beside the presented
own access. -/
theorem OnlyLog.of_parts {s t : State} (h1 : t.pending = s.pending)
    (h2 : { t.path with ownPresented := s.path.ownPresented } = s.path) (h3 : t.site = s.site)
    (h4 : t.stages = s.stages) (h5 : t.carriers = s.carriers) (h6 : t.links = s.links)
    (h7 : t.linkRate = s.linkRate) (h8 : t.units = s.units) (h9 : t.pollTimer = s.pollTimer)
    (h10 : t.steering = s.steering) : OnlyLog s t :=
  State.ext_parts h1 h2 h3 h4 h5 h6 h7 h8 h9 h10 rfl

/-- A change of the Fault Reporter, with its event closed outside STOPPING, stays on the log side. -/
theorem OnlyLog.close_setFaults (s : State) (f : Faults) (h : s.site.mode ≠ .stopping) :
    OnlyLog s (close (s.setFaults f)) := by
  have h' : (s.setFaults f).site.mode ≠ .stopping := h
  rw [close_eq _ h']
  refine .of_parts (by simp) ?_ (by simp) (by simp) (by simp) (by simp) (by simp) (by simp)
    (by simp) (by simp)
  rw [pump_path]
  rfl

end Sys2Proof.Machine
end

