-- ==== Sys2Proof/Laws/Frames.lean ====
section
/-! SUPPORT. What the blocks' operations leave alone: one relation for Carrier Control's operations,
one for the Unit Supervisor's, with a lemma for each operation. -/

namespace Sys2Proof.Machine

open Sys2Proof

/-! ## Carrier Control -/

/-- Nothing but Carrier Control, links and the Steering Engine differs. -/
structure CarrierFrame (s t : State) : Prop where
  pending : t.pending = s.pending
  path : t.path = s.path
  site : t.site = s.site
  stages : t.stages = s.stages
  linkRate : t.linkRate = s.linkRate
  units : t.units = s.units
  pollTimer : t.pollTimer = s.pollTimer
  faults : t.faults = s.faults

namespace CarrierFrame

theorem refl (s : State) : CarrierFrame s s := ⟨rfl, rfl, rfl, rfl, rfl, rfl, rfl, rfl⟩

theorem trans {a b c : State} (h : CarrierFrame a b) (k : CarrierFrame b c) : CarrierFrame a c :=
  ⟨k.pending.trans h.pending, k.path.trans h.path, k.site.trans h.site, k.stages.trans h.stages,
    k.linkRate.trans h.linkRate, k.units.trans h.units, k.pollTimer.trans h.pollTimer,
    k.faults.trans h.faults⟩

theorem setContext (s : State) (n c) : CarrierFrame s (s.setContext n c) :=
  ⟨rfl, rfl, rfl, rfl, rfl, rfl, rfl, rfl⟩

theorem addChanged (s : State) (k n) : CarrierFrame s (s.addChanged k n) :=
  ⟨rfl, rfl, rfl, rfl, rfl, rfl, rfl, rfl⟩

theorem onLink (s : State) (n f) : CarrierFrame s (s.onLink n f) :=
  ⟨rfl, rfl, rfl, rfl, rfl, rfl, rfl, rfl⟩

theorem onSteering (s : State) (f) : CarrierFrame s (s.onSteering f) :=
  ⟨rfl, rfl, rfl, rfl, rfl, rfl, rfl, rfl⟩

theorem updateSlot (s : State) (n c) : CarrierFrame s (s.updateSlot n c) := by
  unfold State.updateSlot
  simp only
  split
  · exact setContext s n c
  · split
    · exact (setContext s n c).trans (addChanged _ _ _)
    · exact setContext s n c

theorem queueOrDefer (s : State) (n c) : CarrierFrame s (s.queueOrDefer n c) := by
  unfold State.queueOrDefer
  split
  · exact setContext s n _
  · exact onLink s _ _

theorem supersede (s : State) (n t) : CarrierFrame s (s.supersede n t) := by
  unfold State.supersede
  split
  · exact setContext s n _
  · exact onLink s _ _

theorem withdraw (s : State) (n) : CarrierFrame s (s.withdraw n) := by
  unfold State.withdraw
  split
  · exact setContext s n _
  · exact onLink s _ _

theorem tuneEffect (s : State) (k p n) : CarrierFrame s (tuneEffect s k p n).1 := by
  unfold Machine.tuneEffect
  simp only
  split
  · exact ((updateSlot s n _).trans (queueOrDefer _ _ _)).trans (onSteering _ _)
  · exact ((updateSlot s n _).trans (queueOrDefer _ _ _)).trans (onSteering _ _)
  · exact (updateSlot s n _).trans (supersede _ _ _)
  · exact updateSlot s n _
  · exact refl s

theorem searchEffect (s : State) (k p n) : CarrierFrame s (searchEffect s k p n).1 := by
  unfold Machine.searchEffect
  simp only
  split
  · exact ((updateSlot s n _).trans (queueOrDefer _ _ _)).trans (onSteering _ _)
  · exact (updateSlot s n _).trans (updateSlot _ _ _)

theorem releaseSearch (s : State) (n c) : CarrierFrame s (releaseSearch s n c) := by
  unfold Machine.releaseSearch
  split
  · exact updateSlot s n _
  · split
    · exact updateSlot s n _
    · exact (updateSlot s n _).trans (onLink _ _ _)

theorem releaseEffect (s : State) (n) : CarrierFrame s (releaseEffect s n).1 := by
  unfold Machine.releaseEffect
  simp only
  split
  · exact (releaseSearch s n _).trans (onSteering _ _)
  · split
    · exact ((updateSlot s n _).trans (withdraw _ _)).trans (onSteering _ _)
    · exact (updateSlot s n _).trans (onLink _ _ _)
  · exact ((updateSlot s n _).trans (queueOrDefer _ _ _)).trans (onSteering _ _)
  · exact (updateSlot s n _).trans (onSteering _ _)
  · exact refl s

theorem postEffect (s : State) (k p n) : CarrierFrame s (postEffect s k p n).1 := by
  unfold Machine.postEffect
  split
  · exact tuneEffect s k p n
  · exact searchEffect s k p n
  · exact releaseEffect s n

theorem judgePost (s : State) (k p) : CarrierFrame s (judgePost s k p).1 := by
  unfold Machine.judgePost
  split
  · exact refl s
  · exact postEffect s k p _

theorem tuneDispatched (s : State) (n) : CarrierFrame s (tuneDispatched s n) := by
  unfold Machine.tuneDispatched
  split
  · exact updateSlot s n _
  · exact refl s

theorem carrierTuned (s : State) (n r) : CarrierFrame s (carrierTuned s n r) := by
  unfold Machine.carrierTuned
  simp only
  split
  · split
    · exact (updateSlot s n _).trans (onSteering _ _)
    · split <;> exact (updateSlot s n _).trans (onSteering _ _)
  · exact refl s

theorem carrierDropped (s : State) (n) : CarrierFrame s (carrierDropped s n) := by
  unfold Machine.carrierDropped
  simp only
  split
  · exact (updateSlot s n _).trans (onSteering _ _)
  · exact refl s

theorem searchOn (s : State) (n r) : CarrierFrame s (searchOn s n r) := by
  unfold Machine.searchOn
  split
  · exact (updateSlot s n _).trans (queueOrDefer _ _ _)
  · exact (updateSlot s n _).trans (onSteering _ _)

theorem searchClaim (s : State) (n r) : CarrierFrame s (searchClaim s n r) :=
  (updateSlot s n _).trans (queueOrDefer _ _ _)

theorem orphanLevel (s : State) (n) : CarrierFrame s (orphanLevel s n) := by
  unfold Machine.orphanLevel
  simp only
  split
  · exact (setContext s n _).trans (onLink _ _ _)
  · exact setContext s n _

theorem carrierLevel (s : State) (n v) : CarrierFrame s (carrierLevel s n v) := by
  unfold Machine.carrierLevel
  simp only
  split
  · exact orphanLevel s n
  · split
    · split
      · exact searchClaim s n _
      · exact searchOn s n _
    · exact refl s

theorem suspendSlot (s : State) (n) : CarrierFrame s (suspendSlot s n) := by
  unfold Machine.suspendSlot
  simp only
  split
  · exact setContext s n _
  · exact setContext s n _
  · exact (updateSlot s n _).trans (onSteering _ _)
  · exact updateSlot s n _
  · exact updateSlot s n _
  · exact (updateSlot s n _).trans (onSteering _ _)
  · exact (updateSlot s n _).trans (onSteering _ _)

theorem restoreSlot (s : State) (n) : CarrierFrame s (restoreSlot s n) := by
  unfold Machine.restoreSlot
  simp only
  split
  · exact (updateSlot s n _).trans (queueOrDefer _ _ _)
  · exact refl s

theorem unitLeftLive (s : State) (u) : CarrierFrame s (unitLeftLive s u) :=
  foldl_related (r := CarrierFrame) _ refl suspendSlot (fun _ _ _ => trans) s

theorem unitReachedLive (s : State) (u) : CarrierFrame s (unitReachedLive s u) :=
  foldl_related (r := CarrierFrame) _ refl restoreSlot (fun _ _ _ => trans) s

theorem removeChanged (s : State) (k hi w) : CarrierFrame s (removeChanged k hi w s) :=
  ⟨rfl, rfl, rfl, rfl, rfl, rfl, rfl, rfl⟩

end CarrierFrame

/-! ## The Unit Supervisor -/

/-- Nothing but units, Carrier Control, links, the Steering Engine, and the latches and notices of
the Fault Reporter differs; notices join the queue at its tail, which keeps its bounds. -/
structure UnitFrame (s t : State) : Prop where
  pending : t.pending = s.pending
  path : t.path = s.path
  site : t.site = s.site
  stages : t.stages = s.stages
  linkRate : t.linkRate = s.linkRate
  pollTimer : t.pollTimer = s.pollTimer
  ring : SameRing s.faults t.faults
  queue : s.faults.QueueInv → t.faults.QueueInv
  joins : NoticesJoin s.faults t.faults

theorem CarrierFrame.unitFrame {s t : State} (h : CarrierFrame s t) : UnitFrame s t :=
  ⟨h.pending, h.path, h.site, h.stages, h.linkRate, h.pollTimer, by rw [h.faults]; exact .refl _,
    by rw [h.faults]; exact id, .of_eq (by rw [h.faults])⟩

namespace UnitFrame

theorem refl (s : State) : UnitFrame s s := (CarrierFrame.refl s).unitFrame

theorem trans {a b c : State} (h : UnitFrame a b) (k : UnitFrame b c) : UnitFrame a c :=
  ⟨k.pending.trans h.pending, k.path.trans h.path, k.site.trans h.site, k.stages.trans h.stages,
    k.linkRate.trans h.linkRate, k.pollTimer.trans h.pollTimer, h.ring.trans k.ring,
    fun q => k.queue (h.queue q), h.joins.trans k.joins⟩

theorem onUnit (s : State) (u f) : UnitFrame s (s.onUnit u f) :=
  ⟨rfl, rfl, rfl, rfl, rfl, rfl, .refl _, id, .refl _⟩

theorem onLink (s : State) (u f) : UnitFrame s (s.onLink u f) :=
  (CarrierFrame.onLink s u f).unitFrame

theorem onSteering (s : State) (f) : UnitFrame s (s.onSteering f) :=
  (CarrierFrame.onSteering s f).unitFrame

theorem setFaults {s : State} {f : Faults} (r : SameRing s.faults f)
    (q : s.faults.QueueInv → f.QueueInv) (j : NoticesJoin s.faults f) :
    UnitFrame s (s.setFaults f) :=
  ⟨rfl, rfl, rfl, rfl, rfl, rfl, r, q, j⟩

theorem decideCell (b : Steering) (s : State) (n k) : UnitFrame s (decideCell b s n k) := by
  unfold Machine.decideCell
  simp only
  split
  · exact refl s
  · split
    · exact onSteering s _
    · exact (onSteering s _).trans
        (setFaults (Faults.report_ring _ _ _ _ _) (fun q => q.report _ _ _ _)
          (Faults.report_joins _ _ _ _ _))

theorem decideStandings (b : Steering) (s : State) : UnitFrame s (decideStandings b s) :=
  foldl_related (r := UnitFrame) cellOrder refl (fun s p => decideCell b s p.1 p.2)
    (fun _ _ _ => trans) s

theorem settling {event : State → State} {s : State} (h : UnitFrame s (event s)) :
    UnitFrame s (settling event s) :=
  h.trans (decideStandings _ _)

theorem reportChanges (u c) (s : State) : UnitFrame s (reportChanges u c s) :=
  foldl_related (r := UnitFrame) c refl
    (fun _ _ => setFaults (Faults.report_ring _ _ _ _ _) (fun q => q.report _ _ _ _)
      (Faults.report_joins _ _ _ _ _))
    (fun _ _ _ => trans) s

theorem reportRestart (u) (s : State) : UnitFrame s (reportRestart u s) :=
  setFaults (Faults.momentaryTrip_ring _ _ _) (fun q => q.momentaryTrip _ _)
    (Faults.momentaryTrip_joins _ _ _)

theorem setImpaired (u v) (s : State) : UnitFrame s (setImpaired u v s) := by
  unfold Machine.setImpaired
  split
  · exact refl s
  · exact (onUnit s u _).trans (onSteering _ _)

theorem leaveLive (u) (s : State) : UnitFrame s (leaveLive u s) :=
  ((CarrierFrame.unitLeftLive s u).unitFrame.trans (onSteering _ _)).trans (setImpaired u _ _)

theorem leaveIfLive (w u) (s : State) : UnitFrame s (leaveIfLive w u s) := by
  unfold Machine.leaveIfLive
  split
  · exact leaveLive u s
  · exact refl s

theorem enterResetting (u) (s : State) : UnitFrame s (enterResetting u s) :=
  (onUnit s u _).trans (onLink _ u _)

theorem enterDown (u) (s : State) : UnitFrame s (enterDown u s) :=
  (((onLink s u _).trans (leaveIfLive _ u _)).trans (onLink _ u _)).trans (onUnit _ u _)

theorem goLive (u) (s : State) : UnitFrame s (goLive u s) :=
  ((onUnit s u _).trans (CarrierFrame.unitReachedLive _ u).unitFrame).trans (setImpaired u _ _)

theorem probingDecision (u a) (s : State) : UnitFrame s (probingDecision u a s) := by
  unfold Machine.probingDecision
  split
  · exact enterDown u s
  · split
    · exact goLive u s
    · exact refl s

theorem probingStatus (u a f) (s : State) : UnitFrame s (probingStatus u a f s) :=
  ((onUnit s u _).trans (probingDecision u a _)).trans (reportChanges u _ _)

theorem liveStatus (u a f) (s : State) : UnitFrame s (liveStatus u a f s) := by
  unfold Machine.liveStatus
  simp only
  refine UnitFrame.trans ?_ (reportChanges u _ _)
  split
  · exact (onUnit s u _).trans (enterDown u _)
  · exact (onUnit s u _).trans (setImpaired u _ _)

theorem takeStatus (u a f) (s : State) : UnitFrame s (takeStatus u a f s) := by
  unfold Machine.takeStatus
  simp only
  refine UnitFrame.trans ?_ (onSteering _ _)
  split
  · exact probingStatus u a f s
  · exact liveStatus u a f s
  · exact refl s

theorem secondTimeout (u) (s : State) : UnitFrame s (secondTimeout u s) := by
  unfold Machine.secondTimeout
  simp only
  split
  · exact ((onUnit s u _).trans (enterDown u _)).trans (reportChanges u _ _)
  · exact (onUnit s u _).trans (reportChanges u _ _)
  · exact refl s

theorem restartLive (u) (s : State) : UnitFrame s (restartLive u s) :=
  ((((onUnit s u _).trans (onLink _ u _)).trans (leaveLive u _)).trans (onLink _ u _)).trans
    (reportRestart u _)

theorem restartProbing (u) (s : State) : UnitFrame s (restartProbing u s) :=
  (onLink s u _).trans (reportRestart u _)

theorem recoveryAttempt (u) (s : State) : UnitFrame s (recoveryAttempt u s) :=
  (onUnit s u _).trans (enterResetting u _)

theorem unitBreak (u) (s : State) : UnitFrame s (unitBreak u s) := by
  unfold Machine.unitBreak
  split
  · exact restartLive u s
  · exact restartProbing u s
  · split
    · exact refl s
    · exact recoveryAttempt u s
  · exact refl s

theorem guardExpired (u) (s : State) : UnitFrame s (guardExpired u s) :=
  (onUnit s u _).trans (onLink _ u _)

theorem pollUnit (s : State) (u) : UnitFrame s (pollUnit s u) := by
  unfold Machine.pollUnit
  simp only
  split
  · exact ((onUnit s u _).trans (onLink _ u _)).trans (reportChanges u _ _)
  · exact ((onUnit s u _).trans (onLink _ u _)).trans (reportChanges u _ _)
  · exact refl s

theorem pollUnits (s : State) : UnitFrame s ((List.finRange 24).foldl Machine.pollUnit s) :=
  foldl_related (r := UnitFrame) _ refl pollUnit (fun _ _ _ => trans) s

theorem goOut (u) (s : State) : UnitFrame s (goOut u s) :=
  ((((onLink s u _).trans (leaveIfLive _ u _)).trans (onLink _ u _)).trans (onUnit _ u _)).trans
    (reportChanges u _ _)

theorem requestOut (u) (s : State) : UnitFrame s (requestOut u s) := by
  unfold Machine.requestOut
  split
  · exact refl s
  · exact refl s
  · exact goOut u s

theorem requestIn (u) (s : State) : UnitFrame s (requestIn u s) := by
  unfold Machine.requestIn
  split
  · exact (onUnit s u _).trans (enterResetting u _)
  · exact refl s

theorem requestRevive (u) (s : State) : UnitFrame s (requestRevive u s) := by
  unfold Machine.requestRevive
  split
  · exact (onUnit s u _).trans (enterResetting u _)
  · exact refl s

theorem acknowledgeUnit (u k) (s : State) : UnitFrame s (acknowledgeUnit u k s) := by
  refine setFaults ?_ ?_ ?_
  · refine foldl_related (r := SameRing) _ SameRing.refl ?_ (fun _ _ _ => SameRing.trans) _
    intro f j
    split
    · exact f.acknowledge_ring _ _
    · exact .refl f
  · refine foldl_keeps (p := Faults.QueueInv) _ ?_ _
    intro f j h
    split
    · exact h.acknowledge _ _
    · exact h
  · refine foldl_related (r := NoticesJoin) _ NoticesJoin.refl ?_ (fun _ _ _ => NoticesJoin.trans) _
    intro f j
    split
    · exact f.acknowledge_joins _ _
    · exact .refl f

theorem acknowledgeHoles (n k) (s : State) : UnitFrame s (acknowledgeHoles n k s) := by
  refine setFaults ?_ ?_ ?_
  · refine foldl_related (r := SameRing) _ SameRing.refl ?_ (fun _ _ _ => SameRing.trans) _
    intro f j
    split
    · exact f.acknowledge_ring _ _
    · exact .refl f
  · refine foldl_keeps (p := Faults.QueueInv) _ ?_ _
    intro f j h
    split
    · exact h.acknowledge _ _
    · exact h
  · refine foldl_related (r := NoticesJoin) _ NoticesJoin.refl ?_ (fun _ _ _ => NoticesJoin.trans) _
    intro f j
    split
    · exact f.acknowledge_joins _ _
    · exact .refl f

theorem acknowledgeSite (id) (s : State) : UnitFrame s (acknowledgeSite id s) :=
  setFaults (Faults.acknowledge_ring _ _ _) (fun q => q.acknowledge _ _)
    (Faults.acknowledge_joins _ _ _)

theorem deliverUnit (n b) (s : State) : UnitFrame s (deliverUnit n b s) := by
  have h2 : ∀ c s, UnitFrame s (deliverAdmin n c s) := by
    intro c s
    unfold deliverAdmin
    split
    · exact requestOut n s
    · split
      · exact requestIn n s
      · exact refl s
  unfold Machine.deliverUnit
  simp only
  split
  · exact ((acknowledgeUnit n _ s).trans (h2 _ _)).trans (requestRevive n _)
  · exact (acknowledgeUnit n _ s).trans (h2 _ _)

theorem validateJudged (s : State) (k p) : UnitFrame s (judgePost s k p).1 :=
  (CarrierFrame.judgePost s k p).unitFrame

end UnitFrame

end Sys2Proof.Machine
end

