-- ==== Sys2Proof/Laws/Cells.lean ====
section
/-! SUPPORT. Every operation of the Steering Engine keeps the cells' invariant. -/

namespace Sys2Proof.Machine

open Sys2Proof

/-! ## One cell -/

theorem Cell.Inv.afterReset : Cell.afterReset.Inv := by
  simp [Cell.Inv, Cell.afterReset]

/-- The figures of a cell that are not bounded do not matter. -/
theorem Cell.Inv.of_eq {c d : Cell} (h : c.Inv) (h1 : d.offset = c.offset) (h2 : d.trend = c.trend)
    (h3 : d.streak = c.streak) (h4 : d.surge = c.surge) (h5 : d.accumulator = c.accumulator) :
    d.Inv := by
  unfold Cell.Inv
  rw [h1, h2, h3, h4, h5]
  exact h

theorem Cell.Inv.addAttaches {c : Cell} (h : c.Inv) (a) : (c.addAttaches a).Inv := by
  obtain ⟨h1, h2, h3, h4, h5, h6⟩ := h
  unfold Cell.addAttaches Config.halfTop
  split
  · exact ⟨h1, h2, h3, h4, h5, h6⟩
  · split
    · exact ⟨h1, h2, h3, h4, h5, Nat.le_refl _⟩
    · next k => exact ⟨h1, h2, h3, h4, h5, by simpa using k⟩

theorem Cell.Inv.settle {c : Cell} (h : c.Inv) : c.settle.Inv := by
  obtain ⟨h1, h2, h3, h4, h5, h6⟩ := h
  unfold Cell.settle
  split
  · split
    · split
      · exact ⟨h1, h2, h3, h4, h5, h6⟩
      · exact ⟨by simp, by simp, by simp, by simp, Nat.zero_le _, h6⟩
    · split
      · exact ⟨h1, h2, h3, h4, h5, h6⟩
      · exact ⟨by simp, by simp, by simp, by simp, Nat.zero_le _, h6⟩
  · split
    · exact ⟨h1, h2, by simp, by simp, Nat.zero_le _, h6⟩
    · exact ⟨by simp, by simp, by simp, by simp, Nat.zero_le _, h6⟩
    · exact ⟨h1, h2, h3, h4, h5, h6⟩

theorem Cell.newTrend_load (t : Site) (c : Cell) :
    c.newTrend t ≠ .dark ∧ c.newTrend t ≠ .inactive := by
  unfold Cell.newTrend
  split
  · simp
  · split <;> simp

theorem Cell.Inv.judge {c : Cell} (h : c.Inv) (t) : (c.judge t).Inv := by
  unfold Cell.judge
  split
  · obtain ⟨h1, h2, h3, h4, h5, h6⟩ := h
    refine ⟨h1, h2, fun k => absurd k (c.newTrend_load t).1,
      fun k => absurd k (c.newTrend_load t).2, ?_, h6⟩
    show c.newStreak (c.newTrend t) ≤ 255
    unfold Cell.newStreak
    split
    · exact Nat.zero_le _
    · split
      · exact countUp_le h5
      · decide
  · exact h

/-- A cell the evaluation passes over is DARK or INACTIVE, and the others are neither. -/
theorem Cell.evaluated_iff (c : Cell) :
    c.evaluated = true ↔ c.trend ≠ .dark ∧ c.trend ≠ .inactive := by
  unfold Cell.evaluated
  cases c.trend <;> simp

theorem Cell.Inv.stepOffset {c : Cell} (h : c.Inv) (t p) : (c.stepOffset t p).Inv := by
  obtain ⟨h1, h2, h3, h4, h5, h6⟩ := h
  unfold Cell.stepOffset
  split
  · next he =>
    have ht := c.evaluated_iff.mp he
    split
    · exact ⟨by show -8 ≤ min 7 (c.offset + 1); omega, by show min 7 (c.offset + 1) ≤ 7; omega,
        fun k => absurd k ht.1, fun k => absurd k ht.2, h5, h6⟩
    · split
      · exact ⟨by show -8 ≤ max (-8) (c.offset - 1); omega,
          by show max (-8) (c.offset - 1) ≤ 7; omega,
          fun k => absurd k ht.1, fun k => absurd k ht.2, h5, h6⟩
      · refine ⟨?_, ?_, fun k => absurd k ht.1, fun k => absurd k ht.2, h5, h6⟩
        · show -8 ≤ relax c.offset
          unfold relax
          split <;> [skip; split] <;> omega
        · show relax c.offset ≤ 7
          unfold relax
          split <;> [skip; split] <;> omega
  · exact ⟨h1, h2, h3, h4, h5, h6⟩

theorem Cell.Inv.roll {c : Cell} (h : c.Inv) : c.roll.Inv := by
  obtain ⟨h1, h2, h3, h4, h5, -⟩ := h
  exact ⟨h1, h2, h3, h4, h5, Nat.zero_le _⟩

/-! ## All cells -/

/-- Every cell has the invariant. -/
def Steering.CellsInv (g : Steering) : Prop := ∀ i, (g.cells.get i).Inv

namespace Steering.CellsInv

variable {g : Steering}

theorem onCell (h : g.CellsInv) {n k f} (hf : (f (g.cell n k)).Inv) : (g.onCell n k f).CellsInv :=
  Bank.forall_put (p := fun _ c => Cell.Inv c) h hf

theorem onRecord (h : g.CellsInv) (n f) : (g.onRecord n f).CellsInv := h

theorem onSlotCell (h : g.CellsInv) {n k f} (hf : ∀ c : Cell, c.Inv → (f c).Inv) :
    (g.onSlotCell n k f).CellsInv := by
  unfold Steering.onSlotCell
  split
  · exact h.onCell (hf _ (h _))
  · exact h

theorem gained (h : g.CellsInv) (n k) : (g.gained n k).CellsInv :=
  (h.onRecord n _).onSlotCell fun _ h => h.of_eq rfl rfl rfl rfl rfl

theorem lost (h : g.CellsInv) (n) : (g.lost n).CellsInv :=
  (h.onRecord n _).onSlotCell fun _ h => h.of_eq rfl rfl rfl rfl rfl

theorem enteredOnAir (h : g.CellsInv) (n c i) : (g.enteredOnAir n c i).CellsInv :=
  (h.onRecord n _).onSlotCell fun _ h => h.of_eq rfl rfl rfl rfl rfl

theorem leftOnAir (h : g.CellsInv) (n i) : (g.leftOnAir n i).CellsInv := by
  unfold Steering.leftOnAir
  split
  · exact h
  · exact (h.onRecord n _).onSlotCell fun _ h => h.of_eq rfl rfl rfl rfl rfl

theorem impairedChanged (h : g.CellsInv) (u i) : (g.impairedChanged u i).CellsInv := by
  refine foldl_keeps (p := Steering.CellsInv) _ ?_ g h
  intro g n h
  unfold Steering.reweigh
  split
  · exact h
  · exact h.onSlotCell fun _ h => h.of_eq rfl rfl rfl rfl rfl

theorem zeroFigures (h : g.CellsInv) (u) : (g.zeroFigures u).CellsInv := by
  refine foldl_keeps (p := Steering.CellsInv) _ ?_ g h
  intro g n h
  exact h.onRecord n _

theorem status (h : g.CellsInv) (u f) : (g.status u f).CellsInv := by
  refine foldl_keeps (p := Steering.CellsInv) _ ?_ g h
  intro g i h
  unfold Steering.slotStatus
  simp only
  split
  · refine (h.onRecord _ _).onSlotCell fun c h => ?_
    refine Cell.Inv.addAttaches ?_ _
    exact h.of_eq rfl rfl rfl rfl rfl
  · exact h

theorem evaluate (h : g.CellsInv) (t) : (g.evaluate t).CellsInv := by
  intro i
  unfold Steering.evaluate
  simp only [Bank.get_tabulate]
  exact (((h i).judge t).stepOffset t _).roll

theorem afterReset : Steering.afterReset.CellsInv := by
  intro i
  simp only [Steering.afterReset, Bank.get_fill]
  exact Cell.Inv.afterReset

theorem start (c e) : (g.start c e).CellsInv := afterReset

theorem stop : g.stop.CellsInv := by
  intro i
  simp only [Steering.stop, Bank.get_fill]
  exact Cell.Inv.afterReset

end Steering.CellsInv

/-- The standing decisions keep the cells' invariant. -/
theorem decideStandings_cells (b) (s : State) (h : s.steering.CellsInv) :
    (decideStandings b s).steering.CellsInv := by
  refine foldl_keeps (p := fun s => s.steering.CellsInv) cellOrder ?_ s h
  intro s p h
  unfold decideCell
  simp only
  split
  · exact h
  · split
    · exact h.onCell (h _).settle
    · exact h.onCell (h _).settle

end Sys2Proof.Machine
end

