-- ==== Sys2Proof/Laws/Contexts.lean ====
section
/-! SUPPORT. Every operation of Carrier Control keeps the contexts coherent and the occupancy lists
in agreement with them. -/

namespace Sys2Proof.Machine

open Sys2Proof

/-! ## One context -/

theorem Context.Coherent.afterReset : Context.afterReset.Coherent := by
  simp [Context.Coherent, Context.afterReset]

/-- Coherence looks at state, owner, tunings, search, deferred command and orphan mark alone. -/
theorem Context.Coherent.of_eq {c d : Context} (h : c.Coherent) (h1 : d.state = c.state)
    (h2 : d.owner = c.owner) (h3 : d.search = c.search)
    (h4 : d.requested.isSome = c.requested.isSome) (h5 : d.held = c.held)
    (h6 : d.deferred.isSome = true → d.orphan = true) : d.Coherent := by
  unfold Context.Coherent at h ⊢
  rw [h1, h2, h3, h4, h5]
  exact ⟨h.1, h.2.1, h.2.2.1, h.2.2.2.1, h.2.2.2.2.1, h6⟩

theorem Context.Coherent.deferred {c : Context} (h : c.Coherent) :
    c.deferred.isSome = true → c.orphan = true := h.2.2.2.2.2

/-- A VACANT context of any outcome and flags is coherent where its deferred command is. -/
theorem Context.Coherent.of_vacant {c : Context} (h1 : c.state = .vacant) (h2 : c.owner = none)
    (h3 : c.search = none) (h4 : c.requested = none) (h5 : c.held = none)
    (h6 : c.deferred.isSome = true → c.orphan = true) : c.Coherent := by
  refine ⟨by simp [h1, h2], by simp [h1, h3], by simp [h1, h4], by simp [h5], by simp [h1], h6⟩

/-! ## Occupancy lists -/

theorem slotUnit_slotAt (u : UnitId) (i : CarrierIndex) : slotUnit (slotAt u i) = u := by
  apply Fin.ext
  simp only [slotUnit, slotAt]
  omega

theorem mem_unitSlots {u : UnitId} {n : SlotId} (h : n ∈ unitSlots u) : slotUnit n = u := by
  simp only [unitSlots, List.mem_cons, List.not_mem_nil, or_false] at h
  rcases h with h | h | h | h <;> rw [h] <;> exact slotUnit_slotAt u _

/-- A unit's occupancy list depends on its own slots' contexts alone. -/
theorem occupancyOf_congr {b c : Bank 96 Context} {u : UnitId}
    (h : ∀ n, slotUnit n = u → b.get n = c.get n) : occupancyOf b u = occupancyOf c u := by
  unfold occupancyOf
  have e : (unitSlots u).flatMap (fun n => (b.get n).claims n) =
      (unitSlots u).flatMap (fun n => (c.get n).claims n) := by
    simp only [unitSlots, List.flatMap_cons, List.flatMap_nil]
    rw [h _ (slotUnit_slotAt u 0), h _ (slotUnit_slotAt u 1), h _ (slotUnit_slotAt u 2),
      h _ (slotUnit_slotAt u 3)]
  rw [e]

/-! ## All contexts -/

/-- Carrier Control's invariant, as a property of the state. -/
def State.CarriersInv (s : State) : Prop := s.carriers.Inv

namespace State.CarriersInv

variable {s : State}

theorem context (h : s.CarriersInv) (n) : (s.context n).Coherent := h.1 n

theorem of_carriers {t : State} (h : s.CarriersInv) (e : t.carriers = s.carriers) :
    t.CarriersInv := by
  unfold State.CarriersInv
  rw [e]
  exact h

theorem onLink (h : s.CarriersInv) (n f) : (s.onLink n f).CarriersInv := h.of_carriers rfl

theorem onUnit (h : s.CarriersInv) (n f) : (s.onUnit n f).CarriersInv := h.of_carriers rfl

theorem onSteering (h : s.CarriersInv) (f) : (s.onSteering f).CarriersInv := h.of_carriers rfl

theorem setFaults (h : s.CarriersInv) (f) : (s.setFaults f).CarriersInv := h.of_carriers rfl

theorem addChanged (h : s.CarriersInv) (k n) : (s.addChanged k n).CarriersInv := h

theorem setContext (h : s.CarriersInv) {n c} (hc : c.Coherent) : (s.setContext n c).CarriersInv := by
  refine ⟨?_, ?_⟩
  · exact Bank.forall_put (p := fun _ c => Context.Coherent c) h.1 hc
  · intro u
    show (s.carriers.occupancy.put (slotUnit n) _).get u = _
    rw [Bank.get_put]
    split
    · next e => rw [e]; rfl
    · next e =>
      rw [h.2 u]
      refine occupancyOf_congr fun m hm => ?_
      have : m ≠ n := by
        intro k
        exact e (by rw [← hm, k])
      exact (Bank.get_put_ne _ _ this).symm

theorem updateSlot (h : s.CarriersInv) {n c} (hc : c.Coherent) : (s.updateSlot n c).CarriersInv := by
  unfold State.updateSlot
  simp only
  split
  · exact h.setContext hc
  · split
    · exact (h.setContext hc).addChanged _ _
    · exact h.setContext hc

theorem queueOrDefer (h : s.CarriersInv) (n c) : (s.queueOrDefer n c).CarriersInv := by
  unfold State.queueOrDefer
  split
  · next ho =>
    exact h.setContext ((h.context n).of_eq rfl rfl rfl rfl rfl fun _ => ho)
  · exact h.onLink _ _

theorem supersede (h : s.CarriersInv) (n t) : (s.supersede n t).CarriersInv := by
  unfold State.supersede
  split
  · next hd =>
    exact h.setContext ((h.context n).of_eq rfl rfl rfl rfl rfl fun _ => (h.context n).deferred hd)
  · exact h.onLink _ _

theorem withdraw (h : s.CarriersInv) (n) : (s.withdraw n).CarriersInv := by
  unfold State.withdraw
  split
  · exact h.setContext ((h.context n).of_eq rfl rfl rfl rfl rfl (fun k => by simp at k))
  · exact h.onLink _ _

theorem tuneEffect (h : s.CarriersInv) (k p n) : (tuneEffect s k p n).1.CarriersInv := by
  obtain ⟨a, b, c, d, e, f⟩ := h.context n
  unfold Machine.tuneEffect
  simp only
  split
  · next hs =>
    refine ((h.updateSlot ?_).queueOrDefer _ _).onSteering _
    rw [hs] at b
    refine ⟨?_, ?_, ?_, ?_, ?_, ?_⟩ <;> simp_all [Context.validated]
  · next hs =>
    refine ((h.updateSlot ?_).queueOrDefer _ _).onSteering _
    refine ⟨?_, ?_, ?_, ?_, ?_, ?_⟩ <;> simp_all [Context.validated]
  · next hs =>
    refine (h.updateSlot ?_).supersede _ _
    refine ⟨?_, ?_, ?_, ?_, ?_, ?_⟩ <;> simp_all [Context.validated]
  · next hs =>
    refine h.updateSlot ?_
    refine ⟨?_, ?_, ?_, ?_, ?_, ?_⟩ <;> simp_all [Context.validated]
  · exact h

theorem searchEffect (h : s.CarriersInv) {k p n} (hv : (s.context n).state = .vacant) :
    (searchEffect s k p n).1.CarriersInv := by
  obtain ⟨a, b, c, d, e, f⟩ := h.context n
  unfold Machine.searchEffect
  simp only
  split
  · refine ((h.updateSlot ?_).queueOrDefer _ _).onSteering _
    refine ⟨?_, ?_, ?_, ?_, ?_, ?_⟩ <;> simp_all [Context.validated]
  · refine State.CarriersInv.updateSlot (h.updateSlot ?_) ?_
    · refine ⟨?_, ?_, ?_, ?_, ?_, ?_⟩ <;> simp_all [Context.validated]
    · exact .of_vacant rfl rfl rfl rfl rfl f

theorem releaseEffect (h : s.CarriersInv) (n) : (releaseEffect s n).1.CarriersInv := by
  obtain ⟨a, b, c, d, e, f⟩ := h.context n
  unfold Machine.releaseEffect
  simp only
  split
  · unfold releaseSearch
    split
    · refine (h.updateSlot ?_).onSteering _
      exact .of_vacant rfl rfl rfl rfl rfl (fun k => by simp at k)
    · split
      · refine (h.updateSlot ?_).onSteering _
        exact .of_vacant rfl rfl rfl rfl rfl (fun _ => rfl)
      · refine ((h.updateSlot ?_).onLink _ _).onSteering _
        exact .of_vacant rfl rfl rfl rfl rfl f
  · split
    · refine ((h.updateSlot ?_).withdraw _).onSteering _
      exact .of_vacant rfl rfl rfl rfl rfl f
    · refine (h.updateSlot ?_).onLink _ _
      refine ⟨?_, ?_, ?_, ?_, ?_, ?_⟩ <;> simp_all [Context.validated]
  · refine ((h.updateSlot ?_).queueOrDefer _ _).onSteering _
    refine ⟨?_, ?_, ?_, ?_, ?_, ?_⟩ <;> simp_all [Context.validated]
  · refine (h.updateSlot ?_).onSteering _
    exact .of_vacant rfl rfl rfl rfl rfl f
  · exact h

/-- Check 4 lets a SEARCH through on a VACANT slot alone (Table 4-5). -/
theorem checkPost_search {s : State} {k p n} (h : checkPost s k p = .inl n)
    (hm : p.mode = .search) : (s.context n).state = .vacant := by
  unfold checkPost at h
  split at h
  · cases h
  split at h
  · cases h
  split at h
  · cases h
  · split at h
    · cases h
    · next m _ hc =>
      cases h
      unfold checkSlot at hc
      simp only at hc
      split at hc
      · cases hc
      split at hc
      · cases hc
      · next hb =>
        revert hb
        rw [hm]
        cases (s.context _).state <;> simp [modeAllowed]

theorem judgePost (h : s.CarriersInv) (k p) : (judgePost s k p).1.CarriersInv := by
  unfold Machine.judgePost
  split
  · exact h
  · next n hn =>
    unfold postEffect
    split
    · exact h.tuneEffect k p n
    · next hm => exact h.searchEffect (checkPost_search hn hm)
    · exact h.releaseEffect n

theorem tuneDispatched (h : s.CarriersInv) (n) : (tuneDispatched s n).CarriersInv := by
  obtain ⟨a, b, c, d, e, f⟩ := h.context n
  unfold Machine.tuneDispatched
  split
  · next hw =>
    refine h.updateSlot ?_
    refine ⟨?_, ?_, ?_, ?_, ?_, ?_⟩ <;> simp_all
  · exact h

theorem carrierTuned (h : s.CarriersInv) (n r) : (carrierTuned s n r).CarriersInv := by
  obtain ⟨a, b, c, d, e, f⟩ := h.context n
  unfold Machine.carrierTuned
  simp only
  split
  · next hs hr =>
    split
    · refine (h.updateSlot ?_).onSteering _
      refine ⟨?_, ?_, ?_, ?_, ?_, ?_⟩ <;> simp_all [Context.tunedAccepted]
    · split
      · refine (h.updateSlot ?_).onSteering _
        refine ⟨?_, ?_, ?_, ?_, ?_, ?_⟩ <;> simp_all [Context.retuneRejected]
      · refine (h.updateSlot ?_).onSteering _
        exact .of_vacant rfl rfl rfl rfl rfl f
  · exact h

theorem carrierDropped (h : s.CarriersInv) (n) : (carrierDropped s n).CarriersInv := by
  unfold Machine.carrierDropped
  simp only
  split
  · refine (h.updateSlot ?_).onSteering _
    exact .of_vacant rfl rfl rfl rfl rfl (h.context n).deferred
  · exact h

theorem carrierLevel (h : s.CarriersInv) (n v) : (carrierLevel s n v).CarriersInv := by
  obtain ⟨a, b, c, d, e, f⟩ := h.context n
  unfold Machine.carrierLevel
  simp only
  split
  · unfold orphanLevel
    have h1 := h.setContext (n := n) (c := { s.context n with orphan := false, deferred := none })
      ((h.context n).of_eq rfl rfl rfl rfl rfl (fun k => by simp at k))
    simp only
    split
    · exact h1.onLink _ _
    · exact h1
  · split
    · next hs hr =>
      split
      · refine (h.updateSlot ?_).queueOrDefer _ _
        refine ⟨?_, ?_, ?_, ?_, ?_, ?_⟩ <;> simp_all
      · unfold searchOn
        split
        · refine (h.updateSlot ?_).queueOrDefer _ _
          refine ⟨?_, ?_, ?_, ?_, ?_, ?_⟩ <;> simp_all
        · refine (h.updateSlot ?_).onSteering _
          exact .of_vacant rfl rfl rfl rfl rfl f
    · exact h

theorem suspendSlot (h : s.CarriersInv) (n) : (suspendSlot s n).CarriersInv := by
  obtain ⟨a, b, c, d, e, f⟩ := h.context n
  have hd : ∀ {c : Context}, c.deferred = none → (c.deferred.isSome = true → c.orphan = true) := by
    intro c k
    simp [k]
  unfold Machine.suspendSlot
  simp only
  split
  · exact h.setContext ((h.context n).of_eq rfl rfl rfl rfl rfl (hd rfl))
  · exact h.setContext ((h.context n).of_eq rfl rfl rfl rfl rfl (hd rfl))
  · refine (h.updateSlot ?_).onSteering _
    exact .of_vacant rfl rfl rfl rfl rfl (hd rfl)
  · refine h.updateSlot ?_
    refine ⟨?_, ?_, ?_, ?_, ?_, ?_⟩ <;> simp_all
  · refine h.updateSlot ?_
    refine ⟨?_, ?_, ?_, ?_, ?_, ?_⟩ <;> simp_all
  · refine (h.updateSlot ?_).onSteering _
    refine ⟨?_, ?_, ?_, ?_, ?_, ?_⟩ <;> simp_all
  · refine (h.updateSlot ?_).onSteering _
    exact .of_vacant rfl rfl rfl rfl rfl (hd rfl)

theorem unitLeftLive (h : s.CarriersInv) (u) : (unitLeftLive s u).CarriersInv :=
  foldl_keeps (p := State.CarriersInv) _ (fun _ n h => h.suspendSlot n) s h

theorem restoreSlot (h : s.CarriersInv) (n) : (restoreSlot s n).CarriersInv := by
  obtain ⟨a, b, c, d, e, f⟩ := h.context n
  unfold Machine.restoreSlot
  simp only
  split
  · refine (h.updateSlot ?_).queueOrDefer _ _
    refine ⟨?_, ?_, ?_, ?_, ?_, ?_⟩ <;> simp_all
  · exact h

theorem unitReachedLive (h : s.CarriersInv) (u) : (unitReachedLive s u).CarriersInv :=
  foldl_keeps (p := State.CarriersInv) _ (fun _ n h => h.restoreSlot n) s h

theorem decideStandings (h : s.CarriersInv) (b) : (decideStandings b s).CarriersInv := by
  refine foldl_keeps (p := State.CarriersInv) cellOrder ?_ s h
  intro s p h
  unfold decideCell
  simp only
  split
  · exact h
  · split
    · exact h.of_carriers rfl
    · exact h.of_carriers rfl

end State.CarriersInv

/-- The service stop leaves every context VACANT and every list empty, in agreement (R34). -/
theorem Carriers.Inv.stop (c : Carriers) : c.stop.Inv := by
  refine ⟨fun n => ?_, fun u => ?_⟩
  · simp only [Carriers.stop, Bank.get_tabulate]
    exact .of_vacant rfl rfl rfl rfl rfl (fun k => by simp [Context.stopped] at k)
  · simp [Carriers.stop, occupancyOf, unitSlots, Context.claims, Context.stopped, Context.vacate]

theorem Carriers.Inv.afterReset : Carriers.afterReset.Inv := by
  refine ⟨fun n => ?_, fun u => ?_⟩
  · simp only [Carriers.afterReset, Bank.get_fill]
    exact Context.Coherent.afterReset
  · simp [Carriers.afterReset, occupancyOf, unitSlots, Context.claims, Context.afterReset]

end Sys2Proof.Machine
end

