-- ==== Sys2Proof/Laws/Claims.lean ====
section
/-! SUPPORT. Occupancy lists: which intervals a context claims, and the order of the list. -/

namespace Sys2Proof.Machine

open Sys2Proof

/-! ## What a slot claims (Table 4-3) -/

namespace Context

variable (c : Context) (n m : SlotId) (i : Interval)

/-- The held interval's entry. -/
theorem held_mem_claims : ⟨i, m, true⟩ ∈ c.claims n ↔ m = n ∧ c.ClaimsHeld i := by
  unfold claims ClaimsHeld
  cases hr : c.requested <;> cases hh : c.held <;> cases hs : c.state <;>
    simp [requestedClaim, heldClaim, sameInterval, hr, hh]
  all_goals grind

/-- The requested interval's entry, where it is not the held one too. -/
theorem requested_mem_claims :
    ⟨i, m, false⟩ ∈ c.claims n ↔ m = n ∧ c.ClaimsRequested i ∧ ¬ c.ClaimsHeld i := by
  unfold claims ClaimsRequested ClaimsHeld
  cases hr : c.requested <;> cases hh : c.held <;> cases hs : c.state <;>
    simp [requestedClaim, heldClaim, sameInterval, hr, hh]
  all_goals grind

/-- The entries of one slot, and their order: the requested one before the held one. -/
theorem claims_ordered :
    (∀ x ∈ c.claims n, x.slot = n) ∧
      (c.claims n).Pairwise fun a b => a.isHeld = false ∧ b.isHeld = true := by
  unfold claims
  cases hr : c.requested <;> cases hh : c.held <;> cases hs : c.state <;>
    simp [requestedClaim, heldClaim, sameInterval, hr, hh] <;>
  split <;> simp

end Context

/-! ## The order of the list (R56) -/

/-- Entries of one list in the order in which its slots give them. -/
def Claim.Given (a b : Claim) : Prop :=
  a.slot < b.slot ∨ (a.slot = b.slot ∧ a.isHeld = false ∧ b.isHeld = true)

@[simp] theorem mem_insertClaim (e x : Claim) (l : List Claim) :
    x ∈ insertClaim e l ↔ x = e ∨ x ∈ l := by
  induction l with
  | nil => simp [insertClaim]
  | cons y l ih =>
    unfold insertClaim
    split
    · simp
    · simp only [List.mem_cons, ih]
      grind

/-- An entry given behind all of an ordered list joins it in its place. -/
theorem insertClaim_before (e : Claim) {l : List Claim} (h : l.Pairwise Claim.Before)
    (hg : ∀ x ∈ l, x.Given e) : (insertClaim e l).Pairwise Claim.Before := by
  induction l with
  | nil => simp [insertClaim]
  | cons y l ih =>
    obtain ⟨hy, hl⟩ := List.pairwise_cons.mp h
    unfold insertClaim
    split
    · next lt =>
      refine List.pairwise_cons.mpr ⟨fun x hx => ?_, h⟩
      rcases List.mem_cons.mp hx with rfl | hx
      · exact .inl lt
      · exact .inl (lt.trans_le (by rcases hy x hx with k | k <;> omega))
    · next ge =>
      refine List.pairwise_cons.mpr ⟨fun x hx => ?_, ih hl fun x hx => hg x (by simp [hx])⟩
      rcases (mem_insertClaim e x l).mp hx with rfl | hx
      · rcases lt_or_eq_of_le (not_lt.mp ge) with k | k
        · exact .inl k
        · exact .inr ⟨k, hg y (by simp)⟩
      · exact hy x hx

/-- Entries given in order, sorted into a list. -/
theorem foldl_insertClaim (m : List Claim) :
    ∀ l : List Claim, l.Pairwise Claim.Before → m.Pairwise Claim.Given →
      (∀ x ∈ l, ∀ y ∈ m, x.Given y) →
      (m.foldl (fun l e => insertClaim e l) l).Pairwise Claim.Before ∧
        ∀ x, x ∈ m.foldl (fun l e => insertClaim e l) l ↔ x ∈ l ∨ x ∈ m := by
  induction m with
  | nil => intro l h _ _; exact ⟨h, by simp⟩
  | cons e m ih =>
    intro l h hm hg
    obtain ⟨he, hm⟩ := List.pairwise_cons.mp hm
    obtain ⟨p, q⟩ := ih (insertClaim e l)
      (insertClaim_before e h fun x hx => hg x hx e (by simp)) hm fun x hx y hy => by
        rcases (mem_insertClaim e x l).mp hx with rfl | hx
        · exact he y hy
        · exact hg x hx y (by simp [hy])
    refine ⟨p, fun x => (q x).trans ?_⟩
    simp only [mem_insertClaim, List.mem_cons]
    grind

/-- The entries of a unit's four slots, as they are given. -/
theorem unit_claims_given (contexts : Bank 96 Context) (u : UnitId) :
    ((unitSlots u).flatMap fun n => (contexts.get n).claims n).Pairwise Claim.Given := by
  rw [List.pairwise_flatMap]
  refine ⟨fun n _ => ?_, ?_⟩
  · obtain ⟨s, o⟩ := (contexts.get n).claims_ordered n
    refine o.imp_of_mem fun ha hb k => .inr ⟨(s _ ha).trans (s _ hb).symm, k⟩
  · have lt : (unitSlots u).Pairwise (· < ·) := by
      unfold unitSlots slotAt
      simp only [List.pairwise_cons, List.mem_cons, List.not_mem_nil, or_false, forall_eq_or_imp,
        forall_eq, Fin.mk_lt_mk]
      refine ⟨⟨?_, ?_, ?_⟩, ⟨?_, ?_⟩, ?_, ?_, ?_⟩ <;> simp
    refine lt.imp fun {n m} k x hx y hy => .inl ?_
    rw [((contexts.get n).claims_ordered n).1 x hx, ((contexts.get m).claims_ordered m).1 y hy]
    exact k

/-- An occupancy list that agrees with the contexts is in order. -/
theorem occupancyOf_ordered (contexts : Bank 96 Context) (u : UnitId) :
    (occupancyOf contexts u).Pairwise Claim.Before :=
  (foldl_insertClaim _ [] .nil (unit_claims_given contexts u) (by simp)).1

/-- An occupancy list that agrees with the contexts holds what the unit's slots claim. -/
theorem mem_occupancyOf (contexts : Bank 96 Context) (u : UnitId) (x : Claim) :
    x ∈ occupancyOf contexts u ↔
      ∃ n, slotUnit n = u ∧ x ∈ (contexts.get n).claims n := by
  unfold occupancyOf
  rw [(foldl_insertClaim _ [] .nil (unit_claims_given contexts u) (by simp)).2]
  simp only [List.not_mem_nil, false_or, List.mem_flatMap]
  refine exists_congr fun n => and_congr_left fun _ => ⟨mem_unitSlots, ?_⟩
  rintro rfl
  simp only [unitSlots, List.mem_cons, List.not_mem_nil, or_false, slotAt, slotUnit, Fin.ext_iff]
  show n.val = _ + 0 ∨ n.val = _ + 1 ∨ n.val = _ + 2 ∨ n.val = _ + 3
  omega

end Sys2Proof.Machine
end

