-- ==== Sys2Proof/Laws/Modes.lean ====
section
/-! SUPPORT. The mode invariant under the operations: what keeps the path and the mode keeps it, and so
do the pump, the end of a stop, a grant, the start, its abandonment and the service stop. -/

namespace Sys2Proof.Machine

open Sys2Proof

variable {s t : State}

namespace State.ModeInv

/-- The invariant looks at the path, at whether the windows are up, and at whether the mode is
STARTING. -/
theorem of_path (h : s.ModeInv) (hp : t.path = s.path)
    (hw : t.site.mode.windowsUp = s.site.mode.windowsUp)
    (hs : t.site.mode = .starting ↔ s.site.mode = .starting) : t.ModeInv := by
  unfold State.ModeInv State.depositOutstanding at *
  rw [hp, hw, hs]
  exact h

theorem of_eq (h : s.ModeInv) (hp : t.path = s.path) (hm : t.site = s.site) : t.ModeInv :=
  h.of_path hp (by rw [hm]) (by rw [hm])

theorem of_frame (h : s.ModeInv) (f : UnitFrame s t) : t.ModeInv := h.of_eq f.path f.site

/-- Only the entries, the waiting requests, the granted accesses and the passing run of the path
differ. -/
theorem of_owns (h : s.ModeInv) (p : Path) (h1 : p.windows = s.path.windows)
    (h2 : p.roles = s.path.roles) (h3 : p.ownPresented = s.path.ownPresented)
    (h4 : p.ownInFlight = s.path.ownInFlight) : (s.setPath p).ModeInv := by
  unfold State.ModeInv State.depositOutstanding at *
  simp only [State.setPath, h1, h2, h3, h4] at *
  exact h

/-- A deposit is presented where the windows are up and no deposit is outstanding. -/
theorem present_deposit (h : s.ModeInv) {a : OwnAccess} (hd : a.isDeposit = true)
    (hk : a.access.kind = .write) (hw : s.site.mode.windowsUp = true) : (s.present a).ModeInv := by
  obtain ⟨h1, h2, h3, h4, h5, h6, h7⟩ := h
  have notStarting : s.site.mode ≠ .starting := by intro e; rw [e] at hw; cases hw
  refine ⟨h1, h2, ?_, ?_, fun _ => hw, ?_, h7⟩
  · intro e
    simp [State.present, State.setPath, hd] at e
  · intro e
    exact absurd (h4 e).1 notStarting
  · intro b e
    simp only [State.present, State.setPath, Option.some.injEq] at e
    subst e
    exact ⟨fun _ => hd, fun _ => hk⟩

theorem pump (h : s.ModeInv) : (pump s).ModeInv := by
  unfold Machine.pump
  split
  · exact h
  · split
    · exact h
    · have k : (s.setFaults (s.faults.makeRoom s.site.mode)).ModeInv := h.of_eq rfl rfl
      simp only
      split
      · next hm =>
        refine k.present_deposit rfl rfl ?_
        simp only [Faults.mayDeposit, Bool.and_eq_true] at hm
        exact hm.1
      · exact k

theorem finishStop (h : s.ModeInv) : (finishStop s).ModeInv := by
  unfold Machine.finishStop
  split
  · next hd =>
    simp only [State.stopDone, Bool.and_eq_true, decide_eq_true_eq, Bool.not_eq_true'] at hd
    obtain ⟨⟨⟨hm, _⟩, _⟩, ho⟩ := hd
    obtain ⟨h1, h2, h3, h4, h5, h6, h7⟩ := h
    have notStarting : s.site.mode ≠ .starting := by rw [hm]; decide
    refine ⟨rfl, fun _ => rfl, fun e => absurd (h3 e).1 notStarting,
      fun e => absurd (h4 e).1 notStarting, fun e => ?_, h6, h7⟩
    rw [show (enterConfig s).depositOutstanding = s.depositOutstanding from rfl, ho] at e
    cases e
  · exact h

theorem close (h : s.ModeInv) : (close s).ModeInv := h.pump.finishStop

/-- A grant moves an own access from presented to in flight where none is in flight. -/
theorem grant (h : s.ModeInv) : (s.setPath s.path.grant).ModeInv := by
  unfold Path.grant
  split
  · exact h.of_owns _ rfl rfl rfl rfl
  · next a hg hp =>
    have free : s.path.ownInFlight = none := by
      revert hg
      unfold arbitrate
      cases (splitAt .held s.path.entries).isSome <;> cases s.path.ownPresented.isSome <;>
        cases hf : s.path.ownInFlight <;> simp
    obtain ⟨h1, h2, h3, h4, h5, h6, h7⟩ := h
    rw [hp] at h3 h6
    refine ⟨h1, h2, fun e => ?_, fun e => ?_, fun e => h5 ?_, fun b e => ?_, fun b e => ?_⟩
    · simp [State.setPath, Path.grantOwn] at e
    · refine ⟨(h3 ?_).1, rfl⟩
      simp only [State.setPath, Path.grantOwn, Option.any_some, OwnAccess.isLiveLoad,
        Bool.and_eq_true] at e
      simpa using e.1
    · simp only [State.depositOutstanding, State.setPath, Path.grantOwn, Option.any_none,
        Option.any_some, Bool.false_or] at e
      simp [State.depositOutstanding, hp, e]
    · simp [State.setPath, Path.grantOwn] at e
    · simp only [State.setPath, Path.grantOwn, Option.some.injEq] at e
      subst e
      exact h6 _ rfl
  · exact h.of_owns _ rfl rfl rfl rfl

/-- A load read is presented in STARTING, where none is in flight that counts. -/
theorem presentLoad (h : s.ModeInv) {p : OwnPurpose} (hd : p ≠ .deposit)
    (hm : s.site.mode = .starting) (hf : s.path.ownInFlight.any OwnAccess.isLiveLoad = false) :
    (presentLoad p s).ModeInv := by
  obtain ⟨h1, h2, h3, h4, h5, h6, h7⟩ := h
  have kind : (loadAccess s p).kind = .read := by cases p <;> first | rfl | exact absurd rfl hd
  have purpose : ∀ x : DownAccess, (⟨p, x, false⟩ : OwnAccess).isDeposit = false := by
    intro x
    simpa [OwnAccess.isDeposit] using hd
  have none : s.depositOutstanding = false := by
    cases e : s.depositOutstanding
    · rfl
    · have := h5 e; rw [hm] at this; cases this
  simp only [State.depositOutstanding, Bool.or_eq_false_iff] at none
  refine ⟨h1, h2, fun _ => ⟨hm, hf⟩, fun e => ?_, fun e => ?_, fun b e => ?_, h7⟩
  · exact absurd (show s.path.ownInFlight.any OwnAccess.isLiveLoad = true from e) (by simp [hf])
  · simp only [State.depositOutstanding, Machine.presentLoad, State.present, State.setPath,
      Option.any_some, purpose, Bool.false_or, none.2] at e
    cases e
  · simp only [Machine.presentLoad, State.present, State.setPath, Option.some.injEq] at e
    subst e
    simp [OwnAccess.KindFits, kind, purpose]

/-- Nothing own is presented or counts in flight: the mode may be CONFIG. -/
theorem endStart (h : s.ModeInv) (code : ErrorCode) (hm : s.site.mode = .starting)
    (hp : s.path.ownPresented = none) (hf : s.path.ownInFlight.any OwnAccess.isLiveLoad = false) :
    (endStart code s).ModeInv := by
  obtain ⟨h1, h2, h3, h4, h5, h6, h7⟩ := h
  rw [hm] at h1 h2 h5
  refine ⟨h1, h2, fun e => ?_, fun e => ?_, fun e => h5 e, h6, h7⟩
  · exact absurd (show s.path.ownPresented.any (fun a => !a.isDeposit) = true from e) (by simp [hp])
  · exact absurd (show s.path.ownInFlight.any OwnAccess.isLiveLoad = true from e) (by simp [hf])

theorem serviceStop (h : s.ModeInv) (hm : s.site.mode.inService = true) :
    (serviceStop s).ModeInv := by
  refine h.of_path rfl ?_ ?_ <;> revert hm <;> unfold Machine.serviceStop <;>
    cases s.site.mode <;> simp [Mode.inService, Mode.windowsUp]

/-- A start abandoned: a load read presented is withdrawn, and one in flight no longer counts. -/
theorem abandonStart (h : s.ModeInv) (hm : s.site.mode = .starting) : (abandonStart s).ModeInv := by
  obtain ⟨h1, h2, h3, h4, h5, h6, h7⟩ := h
  rw [hm] at h1 h2 h5
  have none : s.depositOutstanding = false := by
    cases e : s.depositOutstanding
    · rfl
    · have := h5 e; cases this
  simp only [State.depositOutstanding, Bool.or_eq_false_iff] at none
  refine ⟨h1, h2, fun e => ?_, fun e => ?_, fun e => ?_, fun b e => ?_, fun b e => ?_⟩
  · simp [Machine.abandonStart, State.setPath, Path.abandonLoad] at e
  · revert e
    simp only [Machine.abandonStart, State.setPath, Path.abandonLoad]
    cases s.path.ownInFlight <;> simp [OwnAccess.isLiveLoad]
  · revert e
    simp only [State.depositOutstanding, Machine.abandonStart, State.setPath, Path.abandonLoad]
    have := none.2
    revert this
    cases s.path.ownInFlight with
    | none => simp
    | some a =>
      simp only [Option.any_some, Option.map_some, Option.any_none, Bool.false_or]
      intro e d
      rw [show a.isDeposit = true from d] at e
      cases e
  · simp [Machine.abandonStart, State.setPath, Path.abandonLoad] at e
  · simp only [Machine.abandonStart, State.setPath, Path.abandonLoad] at e
    cases hf : s.path.ownInFlight with
    | none => rw [hf] at e; cases e
    | some a =>
      rw [hf] at e
      simp only [Option.map_some, Option.some.injEq] at e
      subst e
      exact h7 a hf

theorem startLoading (h : s.ModeInv) (hm : s.site.mode = .config) : (startLoading s).ModeInv := by
  have idle : s.path.ownInFlight.any OwnAccess.isLiveLoad = false := by
    cases e : s.path.ownInFlight.any OwnAccess.isLiveLoad
    · rfl
    · have := (h.2.2.2.1 e).1; rw [hm] at this; cases this
  have k : (s.setSite { s.site with mode := .starting, error := .none }).ModeInv := by
    obtain ⟨h1, h2, h3, h4, h5, h6, h7⟩ := h
    rw [hm] at h1 h2 h5
    exact ⟨h1, h2, fun e => ⟨rfl, idle⟩, fun e => ⟨rfl, (h4 e).2⟩, fun e => h5 e, h6, h7⟩
  exact k.presentLoad (by decide) rfl idle

theorem requestConfig (h : s.ModeInv) : (requestConfig s).ModeInv := by
  unfold Machine.requestConfig
  split
  · next hm => exact h.abandonStart hm
  · next hm => exact h.serviceStop (by rw [hm]; rfl)
  · next hm => exact h.serviceStop (by rw [hm]; rfl)
  · exact h

theorem requestServe (h : s.ModeInv) : (requestServe s).ModeInv := by
  unfold Machine.requestServe
  split
  · next hm => exact h.startLoading hm
  · exact h

theorem consume (h : s.ModeInv) (v : Nat) : (consume v s).ModeInv := by
  unfold Machine.consume
  split
  · exact h.of_eq rfl rfl
  · next hm => exact h.of_path rfl (by rw [hm]; rfl) (by rw [hm]; simp [State.setMode])
  · exact h.of_eq rfl rfl
  · exact h

theorem deliverSiteFaults (h : s.ModeInv) (b) : (deliverSiteFaults b s).ModeInv := by
  unfold Machine.deliverSiteFaults
  refine h.of_eq ?_ ?_ <;> simp only <;> split <;> split <;> split <;> rfl

theorem deliverWord (h : s.ModeInv) (w b) : (deliverWord w b s).ModeInv := by
  unfold Machine.deliverWord
  split
  · split
    · refine close ?_
      unfold deliverMode
      split
      · next r _ =>
        cases r
        · exact h.requestConfig
        · exact h.requestServe
      · exact h
    · split
      · exact (h.consume _).close
      · split
        · exact (h.deliverSiteFaults b).close
        · exact h
  · split
    · exact h.of_eq rfl rfl
    · split
      · exact h.of_eq rfl rfl
      · split
        · exact h.of_eq rfl rfl
        · exact h
  · next n _ =>
    split
    · exact (h.of_frame (UnitFrame.settling (UnitFrame.deliverUnit n b s))).close
    · exact h
  · split
    · exact (h.of_frame (UnitFrame.acknowledgeHoles _ _ _)).close
    · exact h
  · exact h

theorem deliverAll (h : s.ModeInv) (words beats) : (deliverAll words beats s).ModeInv :=
  foldl_keeps (p := State.ModeInv) _ (fun _ _ k => k.deliverWord _ _) _ h

theorem mergeWord (h : s.ModeInv) (w b) : (mergeWord w b s).ModeInv := by
  have copy : ∀ n, (mergeCopy n b s).ModeInv := fun n => h.of_path rfl rfl Iff.rfl
  unfold Machine.mergeWord
  split
  · unfold mergeDescriptor mergeFaultModes
    split
    · split
      · exact copy _
      · exact h
    · split
      · simp only
        split
        · exact State.ModeInv.close ((copy 20).of_eq rfl rfl)
        · exact copy 20
      · split
        · exact copy _
        · exact h
  · split
    · exact h.of_eq rfl rfl
    · exact h
  · split
    · exact h.of_eq rfl rfl
    · exact h
  · exact h

theorem mergeAll (h : s.ModeInv) (words beats) : (mergeAll words beats s).ModeInv :=
  foldl_keeps (p := State.ModeInv) _ (fun _ _ k => k.mergeWord _ _) _ h

/-- The own access in flight is answered. -/
theorem ownAnswered (h : s.ModeInv) : (s.setPath s.path.ownAnswered).ModeInv := by
  obtain ⟨h1, h2, h3, h4, h5, h6, h7⟩ := h
  refine ⟨h1, h2, fun e => ⟨(h3 e).1, rfl⟩, fun e => ?_, fun e => h5 ?_, h6, fun b e => ?_⟩
  · cases e
  · simp only [State.depositOutstanding, State.setPath, Path.ownAnswered, Option.any_none,
      Bool.or_false] at e
    simp [State.depositOutstanding, e]
  · cases e

/-- The part is STARTING, with no own access presented or in flight: the state in which an answer to a
load read is taken. -/
def Loading (s : State) : Prop :=
  s.ModeInv ∧ s.site.mode = .starting ∧ s.path.ownPresented = none ∧ s.path.ownInFlight = none

theorem Loading.setSite (h : Loading s) (x : Site) (hx : x.mode = s.site.mode) :
    Loading (s.setSite x) := by
  obtain ⟨k, hm, hp, hf⟩ := h
  exact ⟨k.of_path rfl (by simp [hx]) (by simp [hx]), hx.trans hm, hp, hf⟩

theorem Loading.onSteering (h : Loading s) (f) : Loading (s.onSteering f) :=
  ⟨h.1.of_eq rfl rfl, h.2⟩

theorem Loading.next (h : Loading s) {p : OwnPurpose} (hp : p ≠ .deposit) :
    (Machine.presentLoad p s).ModeInv :=
  h.1.presentLoad hp h.2.1 (by rw [h.2.2.2]; rfl)

theorem Loading.stop (h : Loading s) (code) : (Machine.endStart code s).ModeInv :=
  h.1.endStart code h.2.1 h.2.2.1 (by rw [h.2.2.2]; rfl)

theorem Loading.serve (h : Loading s) : (enterServing s).ModeInv := by
  obtain ⟨_, _, hp, hf⟩ := h
  have idle : (enterServing s).path.ownPresented = none ∧ (enterServing s).path.ownInFlight = none :=
    ⟨hp, hf⟩
  refine ⟨rfl, fun e => Bool.noConfusion e, fun e => ?_, fun e => ?_, fun _ => rfl,
    fun b e => ?_, fun b e => ?_⟩
  · rw [idle.1] at e; cases e
  · rw [idle.2] at e; cases e
  · rw [idle.1] at e; cases e
  · rw [idle.2] at e; cases e

theorem Loading.afterSectors (h : Loading s) : (afterSectors s).ModeInv := by
  unfold Machine.afterSectors
  split
  · exact h.stop _
  · exact h.serve

theorem Loading.afterSector (h : Loading s) (n) : (afterSector n s).ModeInv := by
  unfold Machine.afterSector
  split
  · split
    · exact h.next (by simp)
    · exact h.afterSectors
  · exact h.afterSectors

theorem Loading.afterL3 (h : Loading s) : (afterL3 s).ModeInv := by
  unfold Machine.afterL3
  split
  · exact h.stop _
  · exact h.next (by decide)

/-- A load read that counts is answered: STARTING goes on, ends in CONFIG, or enters SERVING. -/
theorem Loading.answered (h : Loading s) (p a) : (loadAnswered p a s).ModeInv := by
  have site : ∀ f d, Loading (s.setSite (s.site.loadWords f d)) := fun f d => h.setSite _ rfl
  unfold loadAnswered
  split
  · unfold loadOkay
    split
    · exact (site _ _).next (by decide)
    · exact (site _ _).next (by decide)
    · exact (site _ _).afterL3
    · exact (h.onSteering _).afterSector _
    · exact h.1
  · exact h.stop _

end State.ModeInv

end Sys2Proof.Machine
end

