-- ==== Sys2Proof/Laws/Deposits.lean ====
section
/-! SUPPORT. The deposit invariant under every operation, and what the end of an event does: it leaves
nothing to do, and presents the head notice's deposit. -/

namespace Sys2Proof.Machine

open Sys2Proof

variable {s t : State}

/-! ## The end of an event -/

theorem mayDeposit_serving (f : Faults) : f.mayDeposit .serving = !f.ringFull := by
  simp [Faults.mayDeposit, Mode.windowsUp]

theorem mayDeposit_hold (f : Faults) : f.mayDeposit .hold = true := by
  simp [Faults.mayDeposit, Mode.windowsUp]

theorem mayDeposit_stopping (f : Faults) : f.mayDeposit .stopping = !f.ringFull := by
  simp [Faults.mayDeposit, Mode.windowsUp]

/-- The pump, by what it may do: nothing, the discard of the queue, or a presentation. -/
theorem pump_cases (s : State) :
    (pump s = s ∧ (s.depositOutstanding = true ∨ s.faults.queue = [] ∨
      (s.site.mode = .serving ∧ s.faults.ringFull = true) ∨ s.site.mode.windowsUp = false)) ∨
    (s.site.mode = .stopping ∧ s.depositOutstanding = false ∧
      pump s = s.setFaults s.faults.discardQueue) ∨
    ∃ x l, s.depositOutstanding = false ∧ s.faults.queue = x :: l ∧ s.site.mode.windowsUp = true ∧
      (s.site.mode = .serving ∨ s.site.mode = .stopping → s.faults.ringFull = false) ∧
      pump s = (s.setFaults (if s.site.mode = .hold then s.faults.freeEntry else s.faults)).present
        (s.faults.headDeposit x) := by
  unfold pump
  split
  · next h => exact .inl ⟨rfl, .inl h⟩
  · next h =>
    have free : s.depositOutstanding = false := by simpa using h
    split
    · next hq => exact .inl ⟨rfl, .inr (.inl hq)⟩
    · next x l hq =>
      simp only
      cases hm : s.site.mode with
      | config => exact .inl ⟨rfl, .inr (.inr (.inr rfl))⟩
      | starting => exact .inl ⟨rfl, .inr (.inr (.inr rfl))⟩
      | serving =>
        rw [mayDeposit_serving]
        cases hf : s.faults.ringFull with
        | true => exact .inl ⟨rfl, .inr (.inr (.inl ⟨rfl, rfl⟩))⟩
        | false => exact .inr (.inr ⟨x, l, free, hq, rfl, fun _ => rfl, rfl⟩)
      | hold =>
        rw [mayDeposit_hold]
        refine .inr (.inr ⟨x, l, free, hq, rfl, fun e => (by rcases e with e | e <;> cases e), ?_⟩)
        simp only [if_true, Faults.makeRoom]
        have : s.faults.freeEntry.depositOf x = s.faults.headDeposit x := by
          unfold Faults.freeEntry
          split <;> rfl
        exact congrArg _ this
      | stopping =>
        rw [mayDeposit_stopping]
        cases hf : s.faults.ringFull with
        | true =>
          refine .inr (.inl ⟨rfl, free, ?_⟩)
          simp only [Faults.makeRoom, hf, if_true]
          rfl
        | false =>
          refine .inr (.inr ⟨x, l, free, hq, rfl, fun _ => rfl, ?_⟩)
          simp only [Faults.makeRoom, hf]
          rfl

theorem freeEntry_queue (f : Faults) : f.freeEntry.queue = f.queue := by
  unfold Faults.freeEntry
  split <;> rfl

theorem headDeposit_isDeposit (f : Faults) (x : Notice) : (f.headDeposit x).isDeposit = true := rfl

/-- The end of an event leaves nothing to do. -/
theorem State.Closed.close (s : State) : (close s).Closed := by
  have idle : ∀ u : State, u.site.mode.windowsUp = false → u.Closed := by
    intro u h
    refine ⟨fun e => ?_, fun e => ?_, fun e => ?_⟩
    · rw [e] at h; cases h
    · rcases e with e | e <;> rw [e] at h <;> cases h
    · rw [e] at h; cases h
  have stop : ∀ u : State,
      (u.site.mode = .serving → u.faults.queue ≠ [] → u.depositOutstanding = false →
        u.faults.ringFull = true) →
      (u.site.mode = .hold ∨ u.site.mode = .stopping → u.faults.queue ≠ [] →
        u.depositOutstanding = true) → (finishStop u).Closed := by
    intro u h1 h2
    unfold finishStop
    split
    · exact idle _ rfl
    · next h =>
      refine ⟨h1, h2, fun e => ?_⟩
      by_contra k
      simp only [not_or, not_not] at k
      obtain ⟨k1, k2, k3⟩ := k
      simp [State.stopDone, e, k1, k2, k3] at h
  refine stop _ ?_ ?_ <;> rw [pump_site]
  · intro hm hq ho
    rcases pump_cases s with ⟨e, h⟩ | ⟨h, -⟩ | ⟨x, l, -, -, -, -, e⟩
    · rw [e] at hq ho ⊢
      rcases h with h | h | h | h
      · rw [h] at ho; cases ho
      · exact absurd h hq
      · exact h.2
      · rw [hm] at h; cases h
    · rw [hm] at h; cases h
    · rw [e] at ho
      simp [State.depositOutstanding, State.present, State.setPath, headDeposit_isDeposit] at ho
  · intro hm hq
    rcases pump_cases s with ⟨e, h⟩ | ⟨-, -, e⟩ | ⟨x, l, -, -, -, -, e⟩
    · rw [e] at hq ⊢
      rcases h with h | h | h | h
      · exact h
      · exact absurd h hq
      · rcases hm with k | k <;> rw [k] at h <;> cases h.1
      · rcases hm with k | k <;> rw [k] at h <;> cases h
    · rw [e] at hq
      exact absurd rfl hq
    · rw [e]
      simp [State.depositOutstanding, State.present, State.setPath, headDeposit_isDeposit]

/-- In a mode without windows there is nothing to do. -/
theorem State.Closed.idle (h : s.site.mode.windowsUp = false) : s.Closed := by
  rw [← close_idle s h]
  exact .close s

/-- What keeps Site Control's mode and breaks, the Fault Reporter and the own accesses keeps it. -/
theorem State.Closed.of_eq (h : s.Closed) (hm : t.site.mode = s.site.mode)
    (hb : t.site.owingBreaks = s.site.owingBreaks) (hf : t.faults = s.faults)
    (ho : t.depositOutstanding = s.depositOutstanding) : t.Closed := by
  unfold State.Closed
  rw [hm, hb, hf, ho]
  exact h

/-- A closed state's event ends as it is. -/
theorem State.Closed.close_eq (h : s.Closed) : Machine.close s = s := by
  obtain ⟨h1, h2, h3⟩ := h
  have hp : pump s = s := by
    rcases pump_cases s with ⟨e, -⟩ | ⟨hm, ho, e⟩ | ⟨x, l, ho, hq, hw, hr, -⟩
    · exact e
    · cases hq : s.faults.queue with
      | nil => unfold pump; rw [hq]; simp
      | cons x l =>
        have := h2 (.inr hm) (by rw [hq]; simp)
        rw [ho] at this; cases this
    · exfalso
      cases hm : s.site.mode <;> rw [hm] at hw <;> try cases hw
      · have := h1 hm (by rw [hq]; simp) ho
        rw [hr (.inl hm)] at this; cases this
      · have := h2 (.inl hm) (by rw [hq]; simp)
        rw [ho] at this; cases this
      · have := h2 (.inr hm) (by rw [hq]; simp)
        rw [ho] at this; cases this
  unfold Machine.close
  rw [hp]
  unfold finishStop
  refine if_neg fun e => ?_
  simp only [State.stopDone, Bool.and_eq_true, decide_eq_true_eq, Bool.not_eq_true', beq_iff_eq,
    List.isEmpty_iff] at e
  rcases h3 e.1.1.1 with k | k | k
  · exact k e.1.1.2
  · exact k e.1.2
  · rw [e.2] at k; cases k

/-- The end of an event outside STOPPING presents the next deposit. -/
theorem PresentsNext.close (s : State) (h : s.site.mode ≠ .stopping) :
    PresentsNext (!s.depositOutstanding) s.path (close s) := by
  unfold PresentsNext
  rw [close_site s h, Machine.close_eq s h]
  rcases pump_cases s with ⟨e, k⟩ | ⟨k, -⟩ | ⟨x, l, ho, hq, hw, hr, e⟩
  · rw [e]
    rcases k with k | k | k | k
    · rw [k]; simp
    · rw [k]; simp
    · simp [k.1, k.2]
    · cases hm : s.site.mode <;> rw [hm] at k <;> first | (exfalso; revert k; decide) | simp
  · exact absurd k h
  · rw [e, ho]
    cases hm : s.site.mode <;> rw [hm] at hw h <;> try cases hw
    · have := hr (.inl hm)
      simp [State.present, State.setPath, State.setFaults, this, hq]
    · have e1 : s.faults.freeEntry.headDeposit x = s.faults.headDeposit x := by
        unfold Faults.freeEntry
        split <;> rfl
      simp [State.present, State.setPath, State.setFaults, freeEntry_queue, hq, e1]
    · exact absurd rfl h

/-! ## The deposit invariant -/

/-- The producer index, the ring base and the queue stay. -/
def SameLog (f g : Faults) : Prop :=
  g.producer = f.producer ∧ g.ringBase = f.ringBase ∧ g.queue = f.queue

namespace State.DepositInv

/-- The head notice, the producer index and the ring base stay, and no own access becomes a deposit. -/
theorem of_owns (h : s.DepositInv)
    (hp : t.path.ownPresented = s.path.ownPresented ∨
      t.path.ownPresented.any OwnAccess.isDeposit = false)
    (hf : t.path.ownInFlight = s.path.ownInFlight ∨
      t.path.ownInFlight.any OwnAccess.isDeposit = false)
    (h1 : t.faults.producer = s.faults.producer) (h2 : t.faults.ringBase = s.faults.ringBase)
    (hq : NoticesJoin s.faults t.faults) : t.DepositInv := by
  obtain ⟨more, hq⟩ := hq
  refine ⟨fun a e d => ?_, fun e => ?_⟩
  · have old : s.path.ownPresented = some a ∨ s.path.ownInFlight = some a := by
      rcases e with e | e
      · rcases hp with k | k
        · exact .inl (k ▸ e)
        · rw [e, Option.any_some, d] at k; cases k
      · rcases hf with k | k
        · exact .inr (k ▸ e)
        · rw [e, Option.any_some, d] at k; cases k
    obtain ⟨x, l, hx, ha⟩ := h.1 a old d
    refine ⟨x, l ++ more, by rw [hq, hx]; rfl, ?_⟩
    rw [ha]
    unfold Faults.headDeposit
    rw [h1, h2]
  · rcases hf with k | k
    · rcases hp with k' | k'
      · rw [k]; exact h.2 (k' ▸ e)
      · rw [k'] at e; cases e
    · exact k

theorem of_joins (h : s.DepositInv) (hp : t.path.ownPresented = s.path.ownPresented)
    (hf : t.path.ownInFlight = s.path.ownInFlight) (h1 : t.faults.producer = s.faults.producer)
    (h2 : t.faults.ringBase = s.faults.ringBase) (hq : NoticesJoin s.faults t.faults) :
    t.DepositInv :=
  h.of_owns (.inl hp) (.inl hf) h1 h2 hq

theorem of_eq (h : s.DepositInv) (hp : t.path.ownPresented = s.path.ownPresented)
    (hf : t.path.ownInFlight = s.path.ownInFlight) (he : t.faults = s.faults) : t.DepositInv :=
  h.of_joins hp hf (by rw [he]) (by rw [he]) (.of_eq (by rw [he]))

theorem of_frame (h : s.DepositInv) (f : UnitFrame s t) : t.DepositInv :=
  h.of_joins (by rw [f.path]) (by rw [f.path]) f.ring.1 f.ring.2.2.2.1 f.joins

/-- With no deposit outstanding there is nothing to keep. -/
theorem of_none (h : s.depositOutstanding = false) : s.DepositInv := by
  simp only [State.depositOutstanding, Bool.or_eq_false_iff] at h
  refine ⟨fun a e d => ?_, fun _ => h.2⟩
  rcases e with e | e
  · rw [e, Option.any_some, d] at h; cases h.1
  · rw [e, Option.any_some, d] at h; cases h.2

theorem pump (h : s.DepositInv) : (pump s).DepositInv := by
  rcases pump_cases s with ⟨e, -⟩ | ⟨-, ho, e⟩ | ⟨x, l, ho, hq, -, -, e⟩
  · rw [e]; exact h
  · rw [e]; exact of_none ho
  · rw [e]
    simp only [State.depositOutstanding, Bool.or_eq_false_iff] at ho
    refine ⟨fun a e d => ?_, fun _ => ho.2⟩
    have hd : ∀ y, (if s.site.mode = .hold then s.faults.freeEntry else s.faults).headDeposit y =
        s.faults.headDeposit y := by
      intro y
      split
      · unfold Faults.freeEntry
        split <;> rfl
      · rfl
    have hqq : (if s.site.mode = .hold then s.faults.freeEntry else s.faults).queue = x :: l := by
      split
      · rw [freeEntry_queue, hq]
      · exact hq
    rcases e with e | e
    · refine ⟨x, l, hqq, ?_⟩
      have e' : some (s.faults.headDeposit x) = some a := e
      injection e' with e'
      rw [← e']
      exact (hd x).symm
    · have e' : s.path.ownInFlight = some a := e
      rw [e', Option.any_some, d] at ho
      cases ho.2

theorem finishStop (h : s.DepositInv) : (finishStop s).DepositInv := by
  unfold Machine.finishStop
  split
  · exact h.of_eq rfl rfl rfl
  · exact h

theorem close (h : s.DepositInv) : (close s).DepositInv := h.pump.finishStop

/-- A grant moves a deposit from presented to in flight, where none is in flight. -/
theorem grant (h : s.DepositInv) : (s.setPath s.path.grant).DepositInv := by
  unfold Path.grant
  split
  · exact h.of_eq rfl rfl rfl
  · next a hg hp =>
    refine ⟨fun b e d => ?_, fun e => ?_⟩
    · rcases e with e | e
      · cases e
      · exact h.1 b (.inl (by
          simp only [State.setPath, Path.grantOwn, Option.some.injEq] at e
          rw [hp, e])) d
    · cases e
  · exact h.of_eq rfl rfl rfl

theorem presentLoad (h : s.DepositInv) {p : OwnPurpose} (hd : p ≠ .deposit) :
    (presentLoad p s).DepositInv :=
  h.of_owns (.inr (by simpa [Machine.presentLoad, State.present, State.setPath,
    OwnAccess.isDeposit] using hd)) (.inl rfl) rfl rfl (.refl _)

/-- An answered own access leaves no deposit in flight. -/
theorem ownAnswered (h : s.DepositInv) : (s.setPath s.path.ownAnswered).DepositInv :=
  h.of_owns (.inl rfl) (.inr rfl) rfl rfl (.refl _)

theorem serviceStop (h : s.DepositInv) : (serviceStop s).DepositInv := by
  have stopped : ∀ (v : FaultView) (f : Faults), (f.produceStopped v).producer = f.producer ∧
      (f.produceStopped v).ringBase = f.ringBase ∧ NoticesJoin f (f.produceStopped v) := by
    intro v f
    unfold Faults.produceStopped
    split
    · exact ⟨rfl, rfl, .refl f⟩
    · split
      · exact ⟨rfl, rfl, _, List.append_assoc _ _ _⟩
      · exact ⟨rfl, rfl, _, rfl⟩
  have k := stopped s.stopView s.faults.releaseAll
  have stay : ∀ f : Faults, f.releaseAll.producer = f.producer ∧
      f.releaseAll.ringBase = f.ringBase ∧ f.releaseAll.queue = f.queue := by
    intro f
    simp only [Faults.releaseAll, and_self]
  obtain ⟨e1, e2, e3⟩ := stay s.faults
  have key : ∀ t : State, t.path = s.path →
      t.faults = s.faults.releaseAll.produceStopped s.stopView → t.DepositInv := by
    intro t hp hf
    refine h.of_joins (by rw [hp]) (by rw [hp]) ?_ ?_ ?_ <;> rw [hf]
    · exact k.1.trans e1
    · exact k.2.1.trans e2
    · exact (NoticesJoin.of_eq e3).trans k.2.2
  exact key _ rfl rfl

theorem consume (h : s.DepositInv) (v : Nat) : (consume v s).DepositInv := by
  have lapse : ∀ (p : Nat) (f : Faults), SameLog f (f.startLapse p) := by
    intro p f
    unfold Faults.startLapse
    split <;> exact ⟨rfl, rfl, rfl⟩
  have serving : ∀ (p : Nat) (f : Faults), SameLog f (f.lapseAfterConsume p) := by
    intro p f
    unfold Faults.lapseAfterConsume
    split
    · exact ⟨rfl, rfl, rfl⟩
    · exact lapse p f
  have hold : ∀ (w : FaultView) (p : Nat) (f : Faults), ∃ g, SameLog g (f.leaveHold w p) ∧
      SameRing f g ∧ NoticesJoin f g := by
    intro w p f
    refine ⟨f.report w .lapse false none, ?_, f.report_ring _ _ _ _, f.report_joins _ _ _ _⟩
    unfold Faults.leaveHold
    simp only
    split
    · exact ⟨rfl, rfl, rfl⟩
    · exact lapse p _
  unfold Machine.consume
  split
  · have k := serving s.site.lapsePeriod { s.faults with consumer := v }
    exact h.of_joins rfl rfl k.1 k.2.1 (.of_eq k.2.2)
  · obtain ⟨g, k, r, j⟩ := hold (s.setMode .serving).faultView s.site.lapsePeriod
      { s.faults with consumer := v }
    exact h.of_joins rfl rfl (k.1.trans r.1) (k.2.1.trans r.2.2.2.1) (j.trans (.of_eq k.2.2))
  · exact h.of_joins rfl rfl rfl rfl (.of_eq rfl)
  · exact h

theorem lapseExpired (h : s.DepositInv) : (lapseExpired s).DepositInv := by
  have r := Faults.report_ring { s.faults with lapseTimer := none } (s.setMode .hold).faultView
    .lapse true none
  exact h.of_joins rfl rfl r.1 r.2.2.2.1 (Faults.report_joins { s.faults with lapseTimer := none }
    (s.setMode .hold).faultView .lapse true none)

/-- In a mode without windows no deposit is outstanding. -/
theorem none_outstanding (m : s.ModeInv) (h : s.site.mode.windowsUp = false) :
    s.depositOutstanding = false := by
  cases e : s.depositOutstanding
  · rfl
  · rw [m.2.2.2.2.1 e] at h; cases h

theorem abandonStart (m : s.ModeInv) (hm : s.site.mode = .starting) :
    (abandonStart s).DepositInv := by
  have none := none_outstanding m (by rw [hm]; rfl)
  simp only [State.depositOutstanding, Bool.or_eq_false_iff] at none
  refine of_none ?_
  simp only [State.depositOutstanding, Machine.abandonStart, State.setPath, Path.abandonLoad,
    Option.any_none, Bool.false_or]
  cases hf : s.path.ownInFlight with
  | none => rfl
  | some a =>
    rw [hf] at none
    exact none.2

theorem requestConfig (m : s.ModeInv) (h : s.DepositInv) : (requestConfig s).DepositInv := by
  unfold Machine.requestConfig
  split
  · next hm => exact abandonStart m hm
  · exact h.serviceStop
  · exact h.serviceStop
  · exact h

theorem requestServe (h : s.DepositInv) : (requestServe s).DepositInv := by
  unfold Machine.requestServe
  split
  · exact State.DepositInv.presentLoad (s := s.setSite _) (h.of_eq rfl rfl rfl) (by decide)
  · exact h

theorem clearDepositMark (h : s.DepositInv) : (clearDepositMark s).DepositInv :=
  h.of_joins rfl rfl rfl rfl (.of_eq rfl)

theorem deliverSiteFaults (h : s.DepositInv) (b) : (deliverSiteFaults b s).DepositInv := by
  have ack : ∀ (c : Bool) (id : LatchId) (u : State), u.DepositInv →
      (if c then acknowledgeSite id u else u).DepositInv := by
    intro c id u k
    split
    · exact k.of_frame (UnitFrame.acknowledgeSite id u)
    · exact k
  unfold Machine.deliverSiteFaults
  simp only
  split
  · exact (ack _ _ _ (ack _ _ _ h)).clearDepositMark
  · exact ack _ _ _ (ack _ _ _ h)

theorem deliverWord (m : s.ModeInv) (h : s.DepositInv) (w b) : (deliverWord w b s).DepositInv := by
  unfold Machine.deliverWord
  split
  · split
    · refine State.DepositInv.close ?_
      unfold deliverMode
      split
      · next r _ =>
        cases r
        · exact requestConfig m h
        · exact h.requestServe
      · exact h
    · split
      · exact (h.consume _).close
      · split
        · exact (h.deliverSiteFaults b).close
        · exact h
  · split
    · exact h.of_eq rfl rfl rfl
    · split
      · exact h.of_eq rfl rfl rfl
      · split
        · exact h.of_eq rfl rfl rfl
        · exact h
  · next n _ =>
    split
    · exact (h.of_frame (UnitFrame.settling (UnitFrame.deliverUnit n b s))).close
    · exact h
  · split
    · exact (h.of_frame (UnitFrame.acknowledgeHoles _ _ _)).close
    · exact h
  · exact h

theorem deliverAll (m : s.ModeInv) (h : s.DepositInv) (words beats) :
    (deliverAll words beats s).DepositInv :=
  (foldl_keeps (p := fun s => State.ModeInv s ∧ State.DepositInv s) _
    (fun _ _ k => ⟨k.1.deliverWord _ _, deliverWord k.1 k.2 _ _⟩) _ ⟨m, h⟩).2

theorem mergeWord (h : s.DepositInv) (w b) : (mergeWord w b s).DepositInv := by
  have copy : ∀ n, (mergeCopy n b s).DepositInv := fun n => h.of_eq rfl rfl rfl
  unfold Machine.mergeWord
  split
  · unfold mergeDescriptor mergeFaultModes
    split
    · split
      · exact copy _
      · exact h
    · split
      · simp only
        split
        · refine State.DepositInv.close ((copy 20).of_joins rfl rfl ?_ ?_ ?_)
          · exact (s.faults.modesChanged_ring _ _).1
          · exact (s.faults.modesChanged_ring _ _).2.2.2.1
          · exact s.faults.modesChanged_joins _ _
        · exact copy 20
      · split
        · exact copy _
        · exact h
  · split
    · exact h.of_eq rfl rfl rfl
    · exact h
  · split
    · exact h.of_eq rfl rfl rfl
    · exact h
  · exact h

theorem mergeAll (h : s.DepositInv) (words beats) : (mergeAll words beats s).DepositInv :=
  foldl_keeps (p := State.DepositInv) _ (fun _ _ k => k.mergeWord _ _) _ h

/-- With no own access presented or in flight no deposit is outstanding, whatever the answer to a load
read leads to. -/
theorem loadAnswered (hp : s.path.ownPresented = none) (hf : s.path.ownInFlight = none)
    (p : OwnPurpose) (a : ReadAnswer) : (loadAnswered p a s).DepositInv := by
  have idle : ∀ t : State, t.path.ownPresented = none → t.path.ownInFlight = none →
      t.DepositInv := by
    intro t h1 h2
    exact of_none (by simp [State.depositOutstanding, h1, h2])
  have next : ∀ (t : State) (p : OwnPurpose), t.path.ownPresented = none →
      t.path.ownInFlight = none → p ≠ .deposit → (Machine.presentLoad p t).DepositInv :=
    fun t p h1 h2 hd => (idle t h1 h2).presentLoad hd
  have sectors : ∀ t : State, t.path.ownPresented = none → t.path.ownInFlight = none →
      (afterSectors t).DepositInv := by
    intro t h1 h2
    unfold afterSectors
    split
    · exact idle _ h1 h2
    · exact idle _ h1 h2
  unfold Machine.loadAnswered
  split
  · unfold loadOkay
    split
    · exact next _ _ hp hf (by decide)
    · exact next _ _ hp hf (by decide)
    · unfold afterL3
      split
      · exact idle _ hp hf
      · exact next _ _ hp hf (by decide)
    · unfold afterSector
      split
      · split
        · exact next _ _ hp hf (by simp)
        · exact sectors _ hp hf
      · exact sectors _ hp hf
    · exact idle _ hp hf
  · exact idle _ hp hf

end State.DepositInv

/-! ## Nothing is left to do -/

namespace State.Closed

theorem deliverWord (h : s.Closed) (w b) : (deliverWord w b s).Closed := by
  unfold Machine.deliverWord
  split
  · split
    · exact .close _
    · split
      · exact .close _
      · split
        · exact .close _
        · exact h
  · split
    · exact h.of_eq rfl rfl rfl rfl
    · split
      · exact h.of_eq rfl rfl rfl rfl
      · split
        · exact h.of_eq rfl rfl rfl rfl
        · exact h
  · split
    · exact .close _
    · exact h
  · split
    · exact .close _
    · exact h
  · exact h

theorem deliverAll (h : s.Closed) (words beats) : (deliverAll words beats s).Closed :=
  foldl_keeps (p := State.Closed) _ (fun _ _ k => k.deliverWord _ _) _ h

theorem mergeWord (h : s.Closed) (w b) : (mergeWord w b s).Closed := by
  unfold Machine.mergeWord
  split
  · unfold mergeDescriptor mergeFaultModes
    split
    · split
      · exact h.of_eq rfl rfl rfl rfl
      · exact h
    · split
      · simp only
        split
        · exact .close _
        · exact h.of_eq rfl rfl rfl rfl
      · split
        · exact h.of_eq rfl rfl rfl rfl
        · exact h
  · split
    · exact h.of_eq rfl rfl rfl rfl
    · exact h
  · split
    · exact h.of_eq rfl rfl rfl rfl
    · exact h
  · exact h

theorem mergeAll (h : s.Closed) (words beats) : (mergeAll words beats s).Closed :=
  foldl_keeps (p := State.Closed) _ (fun _ _ k => k.mergeWord _ _) _ h

/-- A grant only moves a deposit from presented to in flight. -/
theorem grant (h : s.Closed) : (s.setPath s.path.grant).Closed := by
  unfold Path.grant
  split
  · exact h.of_eq rfl rfl rfl rfl
  · next a hg hp =>
    refine h.of_eq rfl rfl rfl ?_
    have free : s.path.ownInFlight = none := by
      revert hg
      unfold arbitrate
      cases (splitAt .held s.path.entries).isSome <;> cases s.path.ownPresented.isSome <;>
        cases hf : s.path.ownInFlight <;> simp
    simp [State.depositOutstanding, State.setPath, Path.grantOwn, hp, free]
  · exact h.of_eq rfl rfl rfl rfl

end State.Closed

end Sys2Proof.Machine
end

