-- ==== Sys2Proof/Laws/Latches.lean ====
section
/-! SUPPORT. What the Fault Reporter's operations do to each latch, and to the protection detail. -/

namespace Sys2Proof.Machine

open Sys2Proof

/-! ## Reading a replaced latch -/

theorem unitLatchPlace_inj {n m : UnitId} {j k : UnitKind} (h : unitLatchPlace n j = unitLatchPlace m k) :
    n = m ∧ j = k := by
  have h := congrArg Fin.val h
  simp only [unitLatchPlace] at h
  exact ⟨Fin.ext (by omega), Fin.ext (by omega)⟩

theorem cellPlace_inj {n m : SectorId} {j k : Operator} (h : cellPlace n j = cellPlace m k) :
    n = m ∧ j = k := by
  have h := congrArg Fin.val h
  simp only [cellPlace] at h
  exact ⟨Fin.ext (by omega), Fin.ext (by omega)⟩

@[simp] theorem Faults.latch_setLatch_self (f : Faults) (id l) : (f.setLatch id l).latch id = l := by
  cases id <;> simp [Faults.setLatch, Faults.latch]

theorem Faults.latch_setLatch_ne (f : Faults) {id j : LatchId} (l) (h : j ≠ id) :
    (f.setLatch id l).latch j = f.latch j := by
  cases id <;> cases j <;> simp only [Faults.setLatch, Faults.latch]
  · rename_i n k m i
    refine Bank.get_put_ne _ _ fun e => h ?_
    obtain ⟨rfl, rfl⟩ := unitLatchPlace_inj e
    rfl
  · rename_i n k m i
    refine Bank.get_put_ne _ _ fun e => h ?_
    obtain ⟨rfl, rfl⟩ := cellPlace_inj e
    rfl
  · exact absurd rfl h
  · exact absurd rfl h

@[simp] theorem Faults.detail_setLatch (f : Faults) (id l) : (f.setLatch id l).detail = f.detail := by
  cases id <;> rfl

@[simp] theorem Faults.latch_enqueue (f : Faults) (v b j) : (f.enqueue v b).latch j = f.latch j := by
  cases j <;> rfl

@[simp] theorem Faults.latch_enqueueSuppressed (f : Faults) (v j) :
    (f.enqueueSuppressed v).latch j = f.latch j := by
  cases j <;> rfl

@[simp] theorem Faults.latch_produce (f : Faults) (v b j) : (f.produce v b).latch j = f.latch j := by
  unfold Faults.produce
  split
  · split <;> simp
  · cases j <;> rfl

@[simp] theorem Faults.detail_produce (f : Faults) (v b) : (f.produce v b).detail = f.detail := by
  unfold Faults.produce Faults.enqueueSuppressed Faults.enqueue
  split
  · split <;> rfl
  · rfl

/-! ## Setting and clearing -/

theorem Faults.latch_raise_self (f : Faults) (v id) :
    (f.raise v id).latch id =
      { f.latch id with
        set := true
        acknowledged := false
        raised := if v.masked id.kind then none else some f.nextNumber } := by
  unfold Faults.raise
  simp only
  split <;> simp_all

theorem Faults.latch_raise_ne (f : Faults) (v) {id j : LatchId} (h : j ≠ id) :
    (f.raise v id).latch j = f.latch j := by
  unfold Faults.raise
  simp only
  split <;> simp [Faults.latch_setLatch_ne _ _ h]

@[simp] theorem Faults.detail_raise (f : Faults) (v id) : (f.raise v id).detail = f.detail := by
  unfold Faults.raise
  simp only
  split <;> simp

theorem Faults.latch_clearLatch_self (f : Faults) (v id) :
    (f.clearLatch v id).latch id = (f.latch id).cleared := by
  unfold Faults.clearLatch Latch.cleared
  simp only
  split <;> simp

theorem Faults.latch_clearLatch_ne (f : Faults) (v) {id j : LatchId} (h : j ≠ id) :
    (f.clearLatch v id).latch j = f.latch j := by
  unfold Faults.clearLatch
  simp only
  split <;> simp [Faults.latch_setLatch_ne _ _ h]

@[simp] theorem Faults.detail_clearLatch (f : Faults) (v id) :
    (f.clearLatch v id).detail = f.detail := by
  unfold Faults.clearLatch
  simp only
  split <;> simp

/-! ## Acknowledgements -/

theorem Faults.latch_acknowledge_self (f : Faults) (v id) :
    (f.acknowledge v id).latch id = (f.latch id).afterAcknowledge (v.actsHeld id.kind) := by
  unfold Faults.acknowledge Latch.afterAcknowledge
  cases h : (f.latch id).set <;> cases v.actsHeld id.kind <;>
    cases a : (f.latch id).acknowledged <;> cases c : (f.latch id).condition <;>
    simp [h, a, c, Faults.latch_clearLatch_self]

theorem Faults.latch_acknowledge_ne (f : Faults) (v) {id j : LatchId} (h : j ≠ id) :
    (f.acknowledge v id).latch j = f.latch j := by
  unfold Faults.acknowledge
  simp only
  split
  · rfl
  · split
    · exact f.latch_clearLatch_ne v h
    · split
      · rfl
      · split
        · exact f.latch_setLatch_ne _ h
        · exact f.latch_clearLatch_ne v h

@[simp] theorem Faults.detail_acknowledge (f : Faults) (v id) :
    (f.acknowledge v id).detail = f.detail := by
  unfold Faults.acknowledge
  simp only
  split
  · rfl
  · split
    · simp
    · split
      · rfl
      · split <;> simp

/-! ## Reports -/

@[simp] theorem Faults.latch_record_self (f : Faults) (id p a) :
    (f.record id p a).latch id =
      { f.latch id with condition := p, alarms := a.getD (f.latch id).alarms } := by
  unfold Faults.record
  simp

theorem Faults.latch_record_ne (f : Faults) {id j : LatchId} (p a) (h : j ≠ id) :
    (f.record id p a).latch j = f.latch j :=
  f.latch_setLatch_ne _ h

@[simp] theorem Faults.detail_record (f : Faults) (id p a) : (f.record id p a).detail = f.detail :=
  f.detail_setLatch _ _

theorem Faults.nextNumber_record (f : Faults) (id p a) :
    (f.record id p a).nextNumber = f.nextNumber := by
  unfold Faults.record
  cases id <;> rfl

/-- A trip in service. -/
theorem Faults.latch_trip_self (f : Faults) (v id a) (h : v.mode.inService = true) :
    (f.report v id true a).latch id =
      (f.latch id).afterTrip (if v.masked id.kind then none else some f.nextNumber)
        (a.getD (f.latch id).alarms) := by
  unfold Faults.report Latch.afterTrip
  cases hs : (f.latch id).set <;>
    simp [h, hs, Faults.latch_raise_self, Faults.nextNumber_record]

/-- A release in service. -/
theorem Faults.latch_release_self (f : Faults) (v id a) (h : v.mode.inService = true) :
    (f.report v id false a).latch id =
      (f.latch id).afterRelease (v.actsHeld id.kind) (a.getD (f.latch id).alarms) := by
  unfold Faults.report Latch.afterRelease
  cases hs : (f.latch id).set <;> cases ha : (f.latch id).acknowledged <;>
    cases v.actsHeld id.kind <;>
    simp [h, hs, ha, Faults.latch_clearLatch_self, Latch.cleared]

theorem Faults.latch_report_ne (f : Faults) (v) {id j : LatchId} (p a) (h : j ≠ id) :
    (f.report v id p a).latch j = f.latch j := by
  unfold Faults.report
  simp only
  split
  · split
    · split
      · exact f.latch_record_ne p a h
      · rw [Faults.latch_raise_ne _ v h, f.latch_record_ne p a h]
    · split
      · rw [Faults.latch_clearLatch_ne _ v h, f.latch_record_ne p a h]
      · exact f.latch_record_ne p a h
  · rfl

@[simp] theorem Faults.detail_report (f : Faults) (v id p a) :
    (f.report v id p a).detail = f.detail := by
  unfold Faults.report
  simp only
  split
  · split
    · split <;> simp
    · split <;> simp
  · rfl

/-! ## The end of an event -/

@[simp] theorem Faults.latch_makeRoom (f : Faults) (m j) : (f.makeRoom m).latch j = f.latch j := by
  unfold Faults.makeRoom Faults.freeEntry Faults.discardQueue
  split
  · split <;> cases j <;> rfl
  · split <;> cases j <;> rfl
  · rfl

@[simp] theorem Faults.detail_makeRoom (f : Faults) (m) : (f.makeRoom m).detail = f.detail := by
  unfold Faults.makeRoom Faults.freeEntry Faults.discardQueue
  split
  · split <;> rfl
  · split <;> rfl
  · rfl

@[simp] theorem close_latch (s : State) (j) : (close s).faults.latch j = s.faults.latch j := by
  rcases close_faults s with h | h <;> rw [h]
  exact s.faults.latch_makeRoom _ j

@[simp] theorem close_detail (s : State) : (close s).faults.detail = s.faults.detail := by
  rcases close_faults s with h | h <;> rw [h]
  exact s.faults.detail_makeRoom _

end Sys2Proof.Machine
end

