-- ==== Sys2Proof/Laws/Links.lean ====
section
/-! SUPPORT. Every operation of a unit link keeps the link's invariant, and so does every operation
of Carrier Control and the Unit Supervisor on all links. -/

namespace Sys2Proof.Machine

open Sys2Proof

/-! ## One link -/

theorem Link.Inv.afterReset : Link.afterReset.Inv := by
  simp [Link.Inv, Link.afterReset, Counters.zero]

/-- A link that agrees with one of the invariant in the parts the invariant speaks of has it. -/
theorem Link.Inv.of_eq {l m : Link} (h : l.Inv) (h1 : m.counters = l.counters)
    (h2 : m.errorWindow = l.errorWindow) (h3 : m.tx = l.tx) (h4 : m.inFlight = l.inFlight)
    (h5 : m.replyTimer = l.replyTimer) (h6 : m.breakRequest = l.breakRequest) : m.Inv := by
  unfold Link.Inv
  rw [h1, h2, h3, h4, h5, h6]
  exact h

theorem Link.Inv.abandon {l : Link} (h : l.Inv) : l.abandon.Inv := by
  obtain ⟨a, b, c, d, e, f, g, -, r, -⟩ := h
  exact ⟨a, b, c, d, e, f, g, fun _ => rfl, r, fun k => by simp [Link.abandon] at k⟩

theorem Link.Inv.fullEmpty {l : Link} (h : l.Inv) : l.fullEmpty.Inv :=
  h.abandon.of_eq rfl rfl rfl rfl rfl rfl

theorem Link.Inv.purgeKeepingPoll {l : Link} (h : l.Inv) : l.purgeKeepingPoll.Inv :=
  h.abandon.of_eq rfl rfl rfl rfl rfl rfl

theorem Link.Inv.enqueue {l : Link} (h : l.Inv) (c) : (l.enqueue c).Inv :=
  h.of_eq rfl rfl rfl rfl rfl rfl

theorem Link.Inv.supersede {l : Link} (h : l.Inv) (n t) : (l.supersede n t).Inv :=
  h.of_eq rfl rfl rfl rfl rfl rfl

theorem Link.Inv.replaceWithDrop {l : Link} (h : l.Inv) (n) : (l.replaceWithDrop n).Inv :=
  h.of_eq rfl rfl rfl rfl rfl rfl

theorem Link.Inv.remove {l : Link} (h : l.Inv) (n) : (l.remove n).Inv :=
  h.of_eq rfl rfl rfl rfl rfl rfl

theorem Link.Inv.queuePoll {l : Link} (h : l.Inv) : l.queuePoll.Inv := by
  unfold Link.queuePoll
  split
  · exact h
  · exact h.enqueue _

theorem Link.beginBreak_eq (l : Link) : l.beginBreak = l.inBreak := rfl

/-- What a break request does to a link. -/
theorem Link.askBreak_eq (l : Link) : l.askBreak = l.afterBreakRequest := by
  unfold Link.askBreak Link.afterBreakRequest
  split <;> simp_all [Link.beginBreak_eq]

/-- What the emptying and the break request of a unit that is lost do to its link. -/
theorem Link.fullEmpty_askBreak (l : Link) : l.fullEmpty.askBreak = l.afterUnitLoss :=
  Link.askBreak_eq _

theorem Link.Inv.beginBreak {l : Link} (h : l.Inv) : l.beginBreak.Inv := by
  obtain ⟨a, b, c, d, e, f, -, -, -, -⟩ := h
  exact ⟨a, b, c, d, e, f, Nat.zero_le _, fun _ => rfl, fun k => by
    simp [Link.beginBreak, Link.abandon] at k, fun k => by
    simp [Link.beginBreak, Link.abandon] at k⟩

theorem Link.Inv.askBreak {l : Link} (h : l.Inv) : l.askBreak.Inv := by
  unfold Link.askBreak
  have hb := h.beginBreak
  obtain ⟨a, b, c, d, e, f, g, i, r, j⟩ := h
  split
  · exact hb
  · next ht => exact ⟨a, b, c, d, e, f, g, i, fun _ => Or.inl ht, j⟩
  · next ht => exact ⟨a, b, c, d, e, f, g, i, fun _ => Or.inr ht, j⟩
  · exact ⟨a, b, c, d, e, f, g, i, r, j⟩

/-- A break that ends: none is waited for, and no timer runs. -/
theorem Link.Inv.endBreak {l : Link} (h : l.Inv) (ht : l.tx = .sendingBreak) :
    l.endBreak.Inv := by
  obtain ⟨a, b, c, d, e, f, g, -, r, i⟩ := h
  refine ⟨a, b, c, d, e, f, g, fun k => by simp [Link.endBreak] at k, fun k => ?_,
    fun k => ⟨(i k).1, rfl⟩⟩
  have := r k
  simp [ht] at this

/-- A dispatched link: nothing was in flight, so no timer ran. -/
theorem Link.Inv.dispatch {l : Link} (h : l.Inv) {u c rest}
    (hd : l.dispatchable u = some (c, rest)) : (l.dispatch c rest).Inv := by
  obtain ⟨a, b, c', d, e, f, g, -, -, i⟩ := h
  unfold Link.dispatchable at hd
  split at hd
  · next hc =>
    have hn : l.inFlight = none := by simpa using hc.1
    refine ⟨a, b, c', d, e, f, g, fun k => by simp [Link.dispatch, Link.beginFrame] at k,
      fun _ => Or.inl rfl, ?_⟩
    intro k
    have := i k
    simp [hn] at this
  · cases hd

theorem Link.Inv.frameEnded {l : Link} (h : l.Inv) (hb : l.breakRequest = false) (t) :
    (l.frameEnded t).Inv := by
  obtain ⟨a, b, c, d, e, f, g, -, -, i⟩ := h
  refine ⟨a, b, c, d, e, f, g, fun k => by simp [Link.frameEnded] at k,
    fun k => by simp [Link.frameEnded, hb] at k, fun k => ⟨?_, rfl⟩⟩
  by_cases hf : l.inFlight.isSome = true
  · exact hf
  · simp only [Link.frameEnded, hf] at k
    exact (i k).1

theorem Link.Inv.sendEnded {l : Link} (h : l.Inv) (t) : (l.sendEnded t).Inv := by
  unfold Link.sendEnded
  split
  · exact h.beginBreak
  · next hb => exact h.frameEnded (by simpa using hb) t

theorem Link.Inv.resend {l : Link} (h : l.Inv) (x) : (l.resend x).Inv := by
  obtain ⟨a, b, c, d, e, f, g, -, -, -⟩ := h
  exact ⟨a, b, c, d, countUp_le e, f, g, fun k => by simp [Link.resend, Link.beginFrame] at k,
    fun _ => Or.inl rfl, fun k => by simp [Link.resend, Link.beginFrame] at k⟩

theorem Link.Inv.timeOut {l : Link} (h : l.Inv) : l.timeOut.Inv := by
  obtain ⟨a, b, c, d, e, f, g, -, r, -⟩ := h
  exact ⟨a, b, c, d, e, countUp_le f, g, fun _ => rfl, r, fun k => by
    simp [Link.timeOut, Link.abandon] at k⟩

theorem Link.Inv.discard {l : Link} (h : l.Inv) (u d) : (l.discard u d).Inv := by
  unfold Link.discard
  split
  · obtain ⟨a, b, c, e, f, g, i, j, k⟩ := h
    cases d
    · exact ⟨a, countUp_le b, c, e, f, g, countUp_le i, j, k⟩
    · exact ⟨countUp_le a, b, c, e, f, g, countUp_le i, j, k⟩
    · exact ⟨a, b, countUp_le c, e, f, g, countUp_le i, j, k⟩
    · exact ⟨a, b, c, countUp_le e, f, g, countUp_le i, j, k⟩
  · exact h

theorem Link.Inv.frameDone {l : Link} (h : l.Inv) : l.frameDone.Inv := h.of_eq rfl rfl rfl rfl rfl rfl

theorem Link.Inv.replyTaken {l : Link} (h : l.Inv) : l.replyTaken.Inv := h.frameDone.abandon

theorem Link.Inv.takeHead {l : Link} (h : l.Inv) (u b) : (l.takeHead u b).Inv := by
  unfold Link.takeHead
  split
  · split
    · exact (h.discard u .stray).of_eq rfl rfl rfl rfl rfl rfl
    · exact h.of_eq rfl rfl rfl rfl rfl rfl
  · exact (h.discard u .stray).of_eq rfl rfl rfl rfl rfl rfl

theorem Link.Inv.takeBody {l : Link} (h : l.Inv) (u b) : (l.takeBody u b).Inv := by
  unfold Link.takeBody
  split
  · exact h.of_eq rfl rfl rfl rfl rfl rfl
  · exact (h.discard u .stray).of_eq rfl rfl rfl rfl rfl rfl
  · exact h

theorem Link.Inv.damaged {l : Link} (h : l.Inv) (u d) : (l.damaged u d).Inv :=
  (h.discard u d).of_eq rfl rfl rfl rfl rfl rfl

theorem Link.Inv.receiveBreak {l : Link} (h : l.Inv) : l.receiveBreak.Inv :=
  h.of_eq rfl rfl rfl rfl rfl rfl

theorem Link.Inv.characterEnded {l : Link} (h : l.Inv) : l.characterEnded.Inv := by
  unfold Link.characterEnded
  split
  · split
    · exact h.beginBreak
    · next ht _ =>
      obtain ⟨a, b, c, d, e, f, g, -, -, i⟩ := h
      refine ⟨a, b, c, d, e, f, g, fun k => (by cases k), fun _ => Or.inr rfl, fun k => ?_⟩
      have := (i k).2
      rw [ht] at this
      cases this
  · split
    · exact h.beginBreak
    · exact h
  · exact h
  · exact h

theorem Link.Inv.polled {l : Link} (h : l.Inv) : l.polled.Inv := by
  obtain ⟨a, b, c, d, e, f, -, j, r, i⟩ := h
  exact Link.Inv.queuePoll ⟨a, b, c, d, e, f, Nat.zero_le _, j, r, i⟩

/-! ## All links -/

/-- Every link has the invariant. -/
def State.LinksInv (s : State) : Prop := ∀ n, (s.link n).Inv

namespace State.LinksInv

variable {s : State}

theorem of_links {t : State} (h : s.LinksInv) (e : t.links = s.links) : t.LinksInv := by
  intro n
  unfold State.link
  rw [e]
  exact h n

theorem onLink (h : s.LinksInv) {n f} (hf : (f (s.link n)).Inv) : (s.onLink n f).LinksInv := by
  intro m
  rw [State.link_onLink]
  split
  · exact hf
  · exact h m

theorem setContext (h : s.LinksInv) (n c) : (s.setContext n c).LinksInv := h.of_links rfl

theorem onSteering (h : s.LinksInv) (f) : (s.onSteering f).LinksInv := h.of_links rfl

theorem onUnit (h : s.LinksInv) (u f) : (s.onUnit u f).LinksInv := h.of_links rfl

theorem setFaults (h : s.LinksInv) (f) : (s.setFaults f).LinksInv := h.of_links rfl

theorem updateSlot (h : s.LinksInv) (n c) : (s.updateSlot n c).LinksInv := by
  unfold State.updateSlot
  simp only
  split
  · exact h.setContext n c
  · split
    · exact (h.setContext n c).of_links rfl
    · exact h.setContext n c

theorem queueOrDefer (h : s.LinksInv) (n c) : (s.queueOrDefer n c).LinksInv := by
  unfold State.queueOrDefer
  split
  · exact h.setContext n _
  · exact h.onLink ((h _).enqueue _)

theorem supersede (h : s.LinksInv) (n t) : (s.supersede n t).LinksInv := by
  unfold State.supersede
  split
  · exact h.setContext n _
  · exact h.onLink ((h _).supersede _ _)

theorem withdraw (h : s.LinksInv) (n) : (s.withdraw n).LinksInv := by
  unfold State.withdraw
  split
  · exact h.setContext n _
  · exact h.onLink ((h _).remove _)

theorem judgePost (h : s.LinksInv) (k p) : (judgePost s k p).1.LinksInv := by
  unfold Machine.judgePost
  split
  · exact h
  · unfold postEffect
    split
    · unfold tuneEffect
      simp only
      split
      · exact ((h.updateSlot _ _).queueOrDefer _ _).onSteering _
      · exact ((h.updateSlot _ _).queueOrDefer _ _).onSteering _
      · exact (h.updateSlot _ _).supersede _ _
      · exact h.updateSlot _ _
      · exact h
    · unfold searchEffect
      simp only
      split
      · exact ((h.updateSlot _ _).queueOrDefer _ _).onSteering _
      · exact (h.updateSlot _ _).updateSlot _ _
    · unfold releaseEffect
      simp only
      split
      · unfold releaseSearch
        split
        · exact (h.updateSlot _ _).onSteering _
        · split
          · exact (h.updateSlot _ _).onSteering _
          · exact (State.LinksInv.onLink (h.updateSlot _ _)
              ((h.updateSlot _ _ _).remove _)).onSteering _
      · split
        · exact ((h.updateSlot _ _).withdraw _).onSteering _
        · exact (h.updateSlot _ _).onLink ((h.updateSlot _ _ _).replaceWithDrop _)
      · exact ((h.updateSlot _ _).queueOrDefer _ _).onSteering _
      · exact (h.updateSlot _ _).onSteering _
      · exact h

theorem carrierTuned (h : s.LinksInv) (n r) : (carrierTuned s n r).LinksInv := by
  unfold Machine.carrierTuned
  simp only
  split
  · split
    · exact (h.updateSlot _ _).onSteering _
    · split <;> exact (h.updateSlot _ _).onSteering _
  · exact h

theorem carrierDropped (h : s.LinksInv) (n) : (carrierDropped s n).LinksInv := by
  unfold Machine.carrierDropped
  simp only
  split
  · exact (h.updateSlot _ _).onSteering _
  · exact h

theorem carrierLevel (h : s.LinksInv) (n v) : (carrierLevel s n v).LinksInv := by
  unfold Machine.carrierLevel
  simp only
  split
  · unfold orphanLevel
    simp only
    split
    · exact (h.setContext _ _).onLink ((h.setContext _ _ _).enqueue _)
    · exact h.setContext _ _
  · split
    · split
      · exact (h.updateSlot _ _).queueOrDefer _ _
      · unfold searchOn
        split
        · exact (h.updateSlot _ _).queueOrDefer _ _
        · exact (h.updateSlot _ _).onSteering _
    · exact h

theorem tuneDispatched (h : s.LinksInv) (n) : (tuneDispatched s n).LinksInv := by
  unfold Machine.tuneDispatched
  split
  · exact h.updateSlot _ _
  · exact h

theorem suspendSlot (h : s.LinksInv) (n) : (suspendSlot s n).LinksInv := by
  unfold Machine.suspendSlot
  simp only
  split
  · exact h.setContext _ _
  · exact h.setContext _ _
  · exact (h.updateSlot _ _).onSteering _
  · exact h.updateSlot _ _
  · exact h.updateSlot _ _
  · exact (h.updateSlot _ _).onSteering _
  · exact (h.updateSlot _ _).onSteering _

theorem unitLeftLive (h : s.LinksInv) (u) : (unitLeftLive s u).LinksInv :=
  foldl_keeps (p := State.LinksInv) _ (fun _ n h => h.suspendSlot n) s h

theorem unitReachedLive (h : s.LinksInv) (u) : (unitReachedLive s u).LinksInv := by
  refine foldl_keeps (p := State.LinksInv) _ ?_ s h
  intro s n h
  unfold restoreSlot
  simp only
  split
  · exact (h.updateSlot _ _).queueOrDefer _ _
  · exact h

theorem decideStandings (h : s.LinksInv) (b) : (decideStandings b s).LinksInv := by
  refine foldl_keeps (p := State.LinksInv) cellOrder ?_ s h
  intro s p h
  unfold decideCell
  simp only
  split
  · exact h
  · split
    · exact h.of_links rfl
    · exact h.of_links rfl

theorem reportChanges (h : s.LinksInv) (u c) : (reportChanges u c s).LinksInv :=
  foldl_keeps (p := State.LinksInv) c (fun _ _ h => h.setFaults _) s h

theorem setImpaired (h : s.LinksInv) (u v) : (setImpaired u v s).LinksInv := by
  unfold Machine.setImpaired
  split
  · exact h
  · exact (h.onUnit _ _).onSteering _

theorem leaveIfLive (h : s.LinksInv) (w u) : (leaveIfLive w u s).LinksInv := by
  unfold Machine.leaveIfLive
  split
  · exact ((h.unitLeftLive u).onSteering _).setImpaired u _
  · exact h

theorem enterResetting (h : s.LinksInv) (u) : (enterResetting u s).LinksInv :=
  (h.onUnit u _).onLink ((h.onUnit u _ _).askBreak)

theorem enterDown (h : s.LinksInv) (u) : (enterDown u s).LinksInv := by
  have h1 : (s.onLink u Link.fullEmpty).LinksInv := h.onLink (h u).fullEmpty
  have h2 := h1.leaveIfLive (s.unit u).state u
  exact (h2.onLink (h2 u).askBreak).onUnit u _

theorem goLive (h : s.LinksInv) (u) : (goLive u s).LinksInv :=
  ((h.onUnit u _).unitReachedLive u).setImpaired u _

theorem takeStatus (h : s.LinksInv) (u a f) : (takeStatus u a f s).LinksInv := by
  unfold Machine.takeStatus
  simp only
  refine State.LinksInv.onSteering ?_ _
  split
  · refine State.LinksInv.reportChanges ?_ u _
    unfold probingDecision
    split
    · exact (h.onUnit u _).enterDown u
    · split
      · exact (h.onUnit u _).goLive u
      · exact h.onUnit u _
  · unfold liveStatus
    simp only
    refine State.LinksInv.reportChanges ?_ u _
    split
    · exact (h.onUnit u _).enterDown u
    · exact (h.onUnit u _).setImpaired u _
  · exact h

theorem secondTimeout (h : s.LinksInv) (u) : (secondTimeout u s).LinksInv := by
  unfold Machine.secondTimeout
  simp only
  split
  · exact ((h.onUnit u _).enterDown u).reportChanges u _
  · exact (h.onUnit u _).reportChanges u _
  · exact h

theorem unitBreak (h : s.LinksInv) (u) : (unitBreak u s).LinksInv := by
  unfold Machine.unitBreak
  split
  · have h1 : ((s.onUnit u fun r => { r with state := .probing }).onLink u
        Link.purgeKeepingPoll).LinksInv := (h.onUnit u _).onLink (h.onUnit u _ u).purgeKeepingPoll
    have h2 := ((h1.unitLeftLive u).onSteering (Steering.zeroFigures u)).setImpaired u false
    exact (h2.onLink (h2 u).queuePoll).setFaults _
  · have h1 : (s.onLink u fun l => l.fullEmpty.queuePoll).LinksInv :=
      h.onLink (f := fun l => l.fullEmpty.queuePoll) (h u).fullEmpty.queuePoll
    exact h1.setFaults _
  · split
    · exact h
    · exact (h.onUnit u _).enterResetting u
  · exact h

theorem pollUnits (h : s.LinksInv) : ((List.finRange 24).foldl pollUnit s).LinksInv := by
  refine foldl_keeps (p := State.LinksInv) _ ?_ s h
  intro s u h
  unfold pollUnit
  simp only
  split
  · refine State.LinksInv.reportChanges ?_ u _
    exact (h.onUnit u _).onLink (h.onUnit u _ u).polled
  · refine State.LinksInv.reportChanges ?_ u _
    exact (h.onUnit u _).onLink (h.onUnit u _ u).polled
  · exact h

theorem requestOut (h : s.LinksInv) (u) : (requestOut u s).LinksInv := by
  unfold Machine.requestOut
  split
  · exact h
  · exact h
  · have h1 : (s.onLink u Link.fullEmpty).LinksInv := h.onLink (h u).fullEmpty
    have h2 := h1.leaveIfLive (s.unit u).state u
    exact ((h2.onLink (h2 u).askBreak).onUnit u _).reportChanges u _

theorem requestIn (h : s.LinksInv) (u) : (requestIn u s).LinksInv := by
  unfold Machine.requestIn
  split
  · exact (h.onUnit u _).enterResetting u
  · exact h

theorem requestRevive (h : s.LinksInv) (u) : (requestRevive u s).LinksInv := by
  unfold Machine.requestRevive
  split
  · exact (h.onUnit u _).enterResetting u
  · exact h

end State.LinksInv

end Sys2Proof.Machine
end

