-- ==== Sys2Proof/Laws/Slots.lean ====
section
/-! SUPPORT. What a slot's event does: its context, changed set and occupancy list, its steering
record and cell, and the standings decided at the end of an event. -/

namespace Sys2Proof.Machine

open Sys2Proof

/-! ## Carrier Control -/

theorem Carriers.changed_add (b : BitVec 96) (n m : SlotId) :
    (b ||| (1#96 <<< n.val)).getLsbD m.val = (b.getLsbD m.val || decide (m = n)) := by
  have hm := m.isLt
  have hn := n.isLt
  simp only [BitVec.getLsbD_or, BitVec.getLsbD_shiftLeft, BitVec.getLsbD_one]
  congr 1
  by_cases h : m = n
  · subst h; simp
  · have : m.val ≠ n.val := fun e => h (Fin.ext e)
    simp [h]
    omega

theorem SlotChanged.of_carriers {n c told} {s t t' : State} (h : SlotChanged n c told s t)
    (e : t'.carriers = t.carriers) : SlotChanged n c told s t' := by
  unfold SlotChanged State.context at *
  rw [e]
  exact h

theorem SlotChanged.from_carriers {n c told} {s s' t : State} (h : SlotChanged n c told s t)
    (e : s'.carriers = s.carriers) : SlotChanged n c told s' t := by
  unfold SlotChanged State.context at *
  rw [e]
  exact h

theorem SlotChanged.setContext (s : State) (n c) : SlotChanged n c none s (s.setContext n c) := by
  refine ⟨by simp, fun m h => by simp [State.context_setContext, h], fun u => ?_, fun k m => by simp⟩
  simp [State.setContext, Bank.get_put]
  split
  · next h => rw [h]
  · rfl

theorem SlotChanged.setContext_again {n c told} {s t : State} (h : SlotChanged n c told s t) (c') :
    SlotChanged n c' told s (t.setContext n c') := by
  obtain ⟨_, h2, h3, h4⟩ := h
  have k := SlotChanged.setContext t n c'
  refine ⟨k.1, fun m hm => by rw [k.2.1 m hm, h2 m hm], fun u => ?_, h4⟩
  rw [k.2.2.1 u]
  split
  · rfl
  · next hu => rw [h3 u, if_neg hu]

theorem SlotChanged.updateSlot (s : State) (n c) :
    SlotChanged n c ((s.context n).told c) s (s.updateSlot n c) := by
  unfold State.updateSlot Context.told ownerTold
  simp only
  have k := SlotChanged.setContext s n c
  split
  · exact k
  · have add : ∀ o : Option Operator, SlotChanged n c o s
        (match o with
          | some k => (s.setContext n c).addChanged k n
          | none => s.setContext n c) := by
      intro o
      cases o with
      | none => exact k
      | some j =>
        refine ⟨k.1, k.2.1, k.2.2.1, fun i m => ?_⟩
        have := k.2.2.2 i m
        simp only [State.addChanged, State.setCarriers_carriers, Bank.get_put]
        by_cases hi : i = j
        · subst hi
          rw [if_pos rfl, Carriers.changed_add]
          simp [State.changed_setContext]
        · have hj : ¬ j = i := fun e => hi e.symm
          simp [hi, hj, State.changed_setContext]
    exact add _

/-! ## The Steering Engine -/

@[simp] theorem Steering.defs_onRecord (g : Steering) (n f) : (g.onRecord n f).defs = g.defs := rfl

@[simp] theorem Steering.sectorOf_onRecord (g : Steering) (n f u) :
    (g.onRecord n f).sectorOf u = g.sectorOf u := rfl

@[simp] theorem Steering.cell_onRecord (g : Steering) (n f d k) :
    (g.onRecord n f).cell d k = g.cell d k := rfl

theorem Steering.record_onRecord (g : Steering) (n m f) :
    (g.onRecord n f).record m = if m = n then f (g.record n) else g.record m := by
  simp [Steering.onRecord, Steering.record, Bank.get_put]

@[simp] theorem Steering.record_onCell (g : Steering) (d k f m) :
    (g.onCell d k f).record m = g.record m := rfl

theorem Steering.cell_onCell (g : Steering) (d e : SectorId) (k j : Operator) (f) :
    (g.onCell d k f).cell e j = if e = d ∧ j = k then f (g.cell d k) else g.cell e j := by
  unfold Steering.onCell Steering.cell
  rw [Bank.get_put]
  by_cases h : e = d ∧ j = k
  · obtain ⟨rfl, rfl⟩ := h
    simp
  · rw [if_neg h, if_neg]
    intro e'
    exact h (cellPlace_inj e')

@[simp] theorem Steering.record_onSlotCell (g : Steering) (n k f m) :
    (g.onSlotCell n k f).record m = g.record m := by
  unfold Steering.onSlotCell
  split <;> rfl

@[simp] theorem Steering.defs_onSlotCell (g : Steering) (n k f) :
    (g.onSlotCell n k f).defs = g.defs := by
  unfold Steering.onSlotCell
  split <;> rfl

@[simp] theorem Steering.loaded_onSlotCell (g : Steering) (n k f) :
    (g.onSlotCell n k f).loaded = g.loaded := by
  unfold Steering.onSlotCell
  split <;> rfl

@[simp] theorem Steering.epochTimer_onSlotCell (g : Steering) (n k f) :
    (g.onSlotCell n k f).epochTimer = g.epochTimer := by
  unfold Steering.onSlotCell
  split <;> rfl

theorem Steering.cell_onSlotCell (g : Steering) (n : SlotId) (k : Option Operator) (f)
    (d : SectorId) (j : Operator) :
    (g.onSlotCell n k f).cell d j =
      if k = some j ∧ g.sectorOf (slotUnit n) = some d then f (g.cell d j) else g.cell d j := by
  unfold Steering.onSlotCell
  cases hk : k with
  | none => simp
  | some i =>
    cases hd : g.sectorOf (slotUnit n) with
    | none => simp
    | some e =>
      simp only [Option.some.injEq]
      rw [Steering.cell_onCell]
      by_cases h : d = e ∧ j = i
      · obtain ⟨rfl, rfl⟩ := h
        simp
      · rw [if_neg h, if_neg]
        rintro ⟨rfl, rfl⟩
        exact h ⟨rfl, rfl⟩

/-! ## The standings decided at the end of an event (R132, R133) -/

section
variable (b : Steering)

theorem decideCell_cell (s : State) (d : SectorId) (k : Operator) (e : SectorId) (j : Operator) :
    (decideCell b s d k).steering.cell e j =
      if e = d ∧ j = k then Cell.decided (b.cell d k) (s.steering.cell d k)
      else s.steering.cell e j := by
  have hc := Steering.cell_onCell s.steering d e k j Cell.settle
  unfold decideCell Cell.decided
  simp only
  split
  · split
    · next h' => obtain ⟨rfl, rfl⟩ := h'; rfl
    · rfl
  · split
    · simpa using hc
    · simpa using hc

theorem decideCell_rest (s : State) (d k) :
    (decideCell b s d k).steering.records = s.steering.records ∧
    (decideCell b s d k).steering.defs = s.steering.defs ∧
    (decideCell b s d k).steering.loaded = s.steering.loaded ∧
    (decideCell b s d k).steering.epochTimer = s.steering.epochTimer ∧
    (decideCell b s d k).carriers = s.carriers ∧ (decideCell b s d k).links = s.links ∧
    (decideCell b s d k).units = s.units := by
  unfold decideCell
  simp only
  split
  · exact ⟨rfl, rfl, rfl, rfl, rfl, rfl, rfl⟩
  · split <;> exact ⟨rfl, rfl, rfl, rfl, rfl, rfl, rfl⟩

theorem decideCell_latch (s : State) (d k) (id : LatchId) (h : id ≠ .hole d k) :
    (decideCell b s d k).faults.latch id = s.faults.latch id := by
  unfold decideCell
  simp only
  split
  · rfl
  · split
    · rfl
    · exact Faults.latch_report_ne _ _ _ _ h

theorem cellOrder_mem (d : SectorId) (k : Operator) : (d, k) ∈ cellOrder := by
  simp [cellOrder]

theorem cellOrder_nodup : cellOrder.Nodup := by decide

theorem decideStandings_rest (s : State) :
    (decideStandings b s).steering.records = s.steering.records ∧
    (decideStandings b s).steering.defs = s.steering.defs ∧
    (decideStandings b s).steering.loaded = s.steering.loaded ∧
    (decideStandings b s).steering.epochTimer = s.steering.epochTimer ∧
    (decideStandings b s).carriers = s.carriers ∧ (decideStandings b s).links = s.links ∧
    (decideStandings b s).units = s.units := by
  refine foldl_related
    (r := fun s t : State => t.steering.records = s.steering.records ∧
      t.steering.defs = s.steering.defs ∧ t.steering.loaded = s.steering.loaded ∧
      t.steering.epochTimer = s.steering.epochTimer ∧ t.carriers = s.carriers ∧
      t.links = s.links ∧ t.units = s.units)
    cellOrder (fun _ => ⟨rfl, rfl, rfl, rfl, rfl, rfl, rfl⟩)
    (fun s p => decideCell_rest b s p.1 p.2) ?_ s
  rintro x y z ⟨a1, a2, a3, a4, a5, a6, a7⟩ ⟨b1, b2, b3, b4, b5, b6, b7⟩
  exact ⟨b1.trans a1, b2.trans a2, b3.trans a3, b4.trans a4, b5.trans a5, b6.trans a6,
    b7.trans a7⟩

/-- Every cell's standing is decided from its own figures. -/
theorem decideStandings_cell (s : State) (d : SectorId) (k : Operator) :
    (decideStandings b s).steering.cell d k =
      Cell.decided (b.cell d k) (s.steering.cell d k) := by
  have key : ∀ (l : List (SectorId × Operator)) (s : State), l.Nodup →
      (l.foldl (fun s p => decideCell b s p.1 p.2) s).steering.cell d k =
        if (d, k) ∈ l then Cell.decided (b.cell d k) (s.steering.cell d k)
        else s.steering.cell d k := by
    intro l
    induction l with
    | nil => intro s _; simp
    | cons p l ih =>
      intro s hn
      obtain ⟨hp, hl⟩ := List.nodup_cons.mp hn
      rw [List.foldl_cons, ih _ hl, decideCell_cell]
      by_cases e : d = p.1 ∧ k = p.2
      · obtain ⟨rfl, rfl⟩ := e
        rw [if_neg hp]
        simp
      · have e' : (d, k) ≠ p := fun h => e ⟨congrArg Prod.fst h, congrArg Prod.snd h⟩
        rw [if_neg e]
        simp [e']
  have := key cellOrder s cellOrder_nodup
  rw [if_pos (cellOrder_mem d k)] at this
  exact this

theorem decideStandings_latch (s : State) (id : LatchId) (h : ∀ d k, id ≠ .hole d k) :
    (decideStandings b s).faults.latch id = s.faults.latch id :=
  foldl_field (fun s : State => s.faults.latch id) cellOrder
    (fun s p => decideCell_latch b s p.1 p.2 id (h _ _)) s

/-- No standing is decided where no figure has changed. -/
theorem decideStandings_same (s : State) (h : s.steering = b) : decideStandings b s = s := by
  subst h
  unfold decideStandings
  have each : ∀ l : List (SectorId × Operator),
      l.foldl (fun t p => decideCell s.steering t p.1 p.2) s = s := by
    intro l
    induction l with
    | nil => rfl
    | cons p l ih =>
      have : decideCell s.steering s p.1 p.2 = s := by
        unfold decideCell
        simp
      rw [List.foldl_cons, this, ih]
  exact each _

end

/-- An event that changes a slot's record and its cell, and is then settled. -/
theorem SlotFigures.settled {n : SlotId} {k : Option Operator} {fr : SteeringRecord → SteeringRecord}
    {f : Cell → Cell} {s e t : State}
    (he : e.steering = (s.steering.onRecord n fr).onSlotCell n k f)
    (ht : t.steering = (decideStandings s.steering e).steering) :
    SlotFigures n k (fr (s.steering.record n)) f s t := by
  obtain ⟨r1, r2, r3, r4, _⟩ := decideStandings_rest s.steering e
  have hrec : ∀ m, t.steering.record m = if m = n then fr (s.steering.record n)
      else s.steering.record m := by
    intro m
    unfold Steering.record at *
    rw [ht, r1, he]
    have := Steering.record_onSlotCell (s.steering.onRecord n fr) n k f m
    unfold Steering.record at this
    rw [this]
    exact Steering.record_onRecord _ _ _ _
  refine ⟨by rw [hrec]; simp, fun m h => by rw [hrec]; simp [h], fun d j => ?_, ?_, ?_, ?_⟩
  · have hc := Steering.cell_onSlotCell (s.steering.onRecord n fr) n k f d j
    rw [ht, decideStandings_cell, he]
    by_cases h : k = some j ∧ s.steering.sectorOf (slotUnit n) = some d
    · rw [if_pos (by exact h)] at hc
      rw [if_pos h, hc, Steering.cell_onRecord]
    · rw [if_neg (by exact h)] at hc
      rw [if_neg h, hc, Steering.cell_onRecord]
      simp [Cell.decided]
  · rw [ht, r2, he]; simp
  · rw [ht, r3, he]; simp [Steering.onRecord]
  · rw [ht, r4, he]; simp [Steering.onRecord]

/-! ## A settled event, closed -/

/-- What a settled and closed event leaves of what the event made: stages, contexts, links and units
as they were made. -/
theorem close_settled (b : Steering) (e : State) :
    (close (decideStandings b e)).stages = e.stages ∧
    (close (decideStandings b e)).carriers = e.carriers ∧
    (close (decideStandings b e)).links = e.links ∧
    (close (decideStandings b e)).units = e.units ∧
    (close (decideStandings b e)).steering = (decideStandings b e).steering ∧
    (close (decideStandings b e)).pollTimer = e.pollTimer := by
  obtain ⟨_, _, _, _, h5, h6, h7⟩ := decideStandings_rest b e
  have f := UnitFrame.decideStandings b e
  exact ⟨by rw [close_stages, f.stages], by rw [close_carriers, h5], by rw [close_links, h6],
    by rw [close_units, h7], close_steering _, by rw [close_pollTimer, f.pollTimer]⟩

/-- A settled and closed event changes no latch the event has not changed, but those of HOLE. -/
theorem close_settled_latch (b : Steering) (e : State) (id : LatchId) (h : ∀ d k, id ≠ .hole d k) :
    (close (decideStandings b e)).faults.latch id = e.faults.latch id := by
  rw [← decideStandings_latch b e id h]
  exact close_latch _ id

/-- A settled and closed event whose only changes are Carrier Control's, with links at unit `u`
alone, stays on the carrier side. The stages are put back. -/
theorem OnlyCarrierSide.close_settled {u : UnitId} {s e : State} (b : Steering)
    (hm : s.site.mode ≠ .stopping) (h1 : e.pending = s.pending) (h2 : e.path = s.path)
    (h3 : e.site = s.site) (h4 : e.linkRate = s.linkRate) (h5 : e.units = s.units)
    (h6 : e.pollTimer = s.pollTimer) (h7 : e.links.put u (s.link u) = s.links) :
    OnlyCarrierSide u s ((close (decideStandings b e)).setStages s.stages) := by
  have f := UnitFrame.decideStandings b e
  obtain ⟨_, c2, c3, c4, _, c6⟩ := Machine.close_settled b e
  have hs : (decideStandings b e).site = s.site := by rw [f.site, h3]
  have hm' : (decideStandings b e).site.mode ≠ .stopping := by rw [hs]; exact hm
  have hc := close_eq _ hm'
  have p1 : (close (decideStandings b e)).pending = s.pending := by
    rw [close_pending, f.pending, h1]
  have p2 : { (close (decideStandings b e)).path with ownPresented := s.path.ownPresented } =
      s.path := by
    rw [hc, pump_path, f.path, h2]
  have p3 : (close (decideStandings b e)).site = s.site := by rw [close_site _ hm', hs]
  have p4 : (close (decideStandings b e)).links.put u (s.link u) = s.links := by rw [c3, h7]
  have p5 : (close (decideStandings b e)).linkRate = s.linkRate := by
    rw [close_linkRate, f.linkRate, h4]
  generalize close (decideStandings b e) = c at *
  exact OnlyLog.of_parts p1 p2 p3 rfl rfl p4 p5 (c4.trans h5) (c6.trans h6) rfl

end Sys2Proof.Machine
end

