-- ==== Sys2Proof/Laws/Reports.lean ====
section
/-! SUPPORT. What the reports of one event do to the latches: the raised numbers follow one another
behind the notices made, the HOLE reports of an event are the cells that became DARK or ceased to be,
and a change of modes treats every latch in turn. -/

namespace Sys2Proof.Machine

open Sys2Proof

/-- What a notice of a latch's change says. -/
theorem Faults.latchBody_eq (f : Faults) (kind id) :
    f.latchBody kind id = id.noticeBody kind (f.latch id).alarms f.detail := by
  cases id with
  | unit n k =>
    fin_cases k <;> simp [Faults.latchBody, LatchId.noticeBody, LatchId.kind, unitFaultKind,
      LatchId.subject, LatchId.operator]
  | hole n k =>
    simp [Faults.latchBody, LatchId.noticeBody, LatchId.kind, LatchId.subject, LatchId.operator]
  | protection =>
    simp [Faults.latchBody, LatchId.noticeBody, LatchId.kind, LatchId.operator]
  | lapse =>
    simp [Faults.latchBody, LatchId.noticeBody, LatchId.kind, LatchId.subject, LatchId.operator]

/-! ## The numbers that follow one another (R149, R150) -/

/-- A notice moves the next number by one, whether it is queued or suppressed. -/
theorem Faults.nextNumber_produce (f : Faults) (v : FaultView) (b : NoticeBody) :
    (f.produce v b).nextNumber = f.nextNumber + 1 := by
  have top : countUp Config.halfTop f.suppressed ≠ 0 := by
    unfold countUp Config.halfTop
    split <;> omega
  unfold Faults.produce
  split
  · rename_i h
    split
    · rename_i h0
      simp [Faults.nextNumber, Faults.enqueue, h0]
    · rename_i h0
      simp [Faults.nextNumber, Faults.enqueueSuppressed, Faults.enqueue, h, h0]
  · rename_i h
    have : Faults.hasRoom { f with
        suppressed := countUp Config.halfTop f.suppressed, sequence := f.sequence + 1 } = false := by
      simp only [Faults.hasRoom, top, if_false]
      unfold Faults.hasRoom at h
      split at h <;> simp_all; omega
    simp only [Faults.nextNumber, this, h]
    simp

@[simp] theorem Faults.nextNumber_setLatch (f : Faults) (id l) :
    (f.setLatch id l).nextNumber = f.nextNumber := by
  cases id <;> rfl

/-- One more number is taken where a notice is made. -/
theorem Faults.nextNumber_report (f : Faults) (v) (r : Report) (h : v.mode.inService = true) :
    (f.report v r.id r.present r.alarms).nextNumber =
      f.nextNumber + BitVec.ofNat 16 (f.tells v r).toNat := by
  have held : v.latches r.id.kind = v.actsHeld r.id.kind := rfl
  unfold Faults.report Faults.tells
  simp only [h, if_true, held]
  cases r.present <;> cases hs : (f.latch r.id).set <;> cases hm : v.masked r.id.kind <;>
    cases ha : (f.latch r.id).acknowledged <;> cases hh : v.actsHeld r.id.kind <;>
    simp [Faults.raise, Faults.clearLatch, Faults.nextNumber_record, Faults.nextNumber_produce, hm,
      hh]

/-- A report on one latch leaves what a report on another tells. -/
theorem Faults.tells_report_ne (f : Faults) (v) {r q : Report} (h : q.id ≠ r.id) :
    (f.report v r.id r.present r.alarms).tells v q = f.tells v q := by
  unfold Faults.tells
  rw [f.latch_report_ne v _ _ h]

/-- The latch of a report, where `earlier` numbers have been taken already. -/
theorem Faults.latch_report_self (f : Faults) (v) (r : Report) (h : v.mode.inService = true) :
    (f.report v r.id r.present r.alarms).latch r.id =
      if r.present then
        (f.latch r.id).afterTrip (f.raisedNumber v r.id.kind 0)
          (r.alarms.getD (f.latch r.id).alarms)
      else
        (f.latch r.id).afterRelease (v.latches r.id.kind) (r.alarms.getD (f.latch r.id).alarms) := by
  have held : v.latches r.id.kind = v.actsHeld r.id.kind := rfl
  have num : f.raisedNumber v r.id.kind 0 =
      if v.masked r.id.kind then none else some f.nextNumber := by
    simp [Faults.raisedNumber]
  cases hp : r.present
  · simp [f.latch_release_self v _ _ h, held]
  · simp [f.latch_trip_self v _ _ h, num]

/-- The reports of one event, on different latches, behind `k` notices made on other latches since the
event began with `g`. -/
theorem Faults.afterReports_behind (v : FaultView) (h : v.mode.inService = true) (l : List Report) :
    ∀ (f g : Faults) (k : Nat), (l.map Report.id).Nodup →
      f.nextNumber = g.nextNumber + BitVec.ofNat 16 k → (∀ r ∈ l, f.latch r.id = g.latch r.id) →
      g.AfterReports v k l (l.foldl (fun g r => g.report v r.id r.present r.alarms) f) ∧
      ∀ id, (∀ r ∈ l, r.id ≠ id) →
        (l.foldl (fun g r => g.report v r.id r.present r.alarms) f).latch id = f.latch id := by
  induction l with
  | nil =>
    intro f g k _ _ _
    exact ⟨fun i r hi => by simp at hi, fun _ _ => rfl⟩
  | cons q rest ih =>
    intro f g k hd hnum hl
    have hd' := List.nodup_cons.mp hd
    have ne : ∀ r ∈ rest, r.id ≠ q.id := fun r hr e =>
      hd'.1 (e ▸ List.mem_map_of_mem (f := Report.id) hr)
    have tellsEq : f.tells v q = g.tells v q := by
      unfold Faults.tells
      rw [hl q (by simp)]
    have next := ih (f.report v q.id q.present q.alarms) g (k + (g.tells v q).toNat) hd'.2
      (by
        rw [f.nextNumber_report v q h, hnum, tellsEq]
        apply BitVec.eq_of_toNat_eq
        simp [Nat.add_assoc])
      (fun r hr => by rw [f.latch_report_ne v _ _ (ne r hr), hl r (by simp [hr])])
    simp only [List.foldl_cons]
    refine ⟨?_, fun id hid => ?_⟩
    · intro i r hi
      cases i with
      | zero =>
        simp only [List.getElem?_cons_zero, Option.some.injEq] at hi
        subst hi
        simp only [List.take_zero, List.countP_nil, Nat.add_zero]
        rw [next.2 q.id ne, f.latch_report_self v q h, hl q (by simp)]
        have : f.raisedNumber v q.id.kind 0 = g.raisedNumber v q.id.kind k := by
          unfold Faults.raisedNumber
          rw [hnum]
          simp
        rw [this]
      | succ i =>
        simp only [List.getElem?_cons_succ] at hi
        have := next.1 i r hi
        simp only [List.take_succ_cons, List.countP_cons] at this ⊢
        have e : k + (List.countP (g.tells v) (List.take i rest) + if g.tells v q = true then 1 else 0)
            = k + (g.tells v q).toNat + List.countP (g.tells v) (List.take i rest) := by
          cases g.tells v q <;> (simp; try omega)
        rw [e]
        exact this
    · rw [next.2 id fun r hr => hid r (by simp [hr]), f.latch_report_ne v _ _ (hid q (by simp)).symm]

/-- The reports of one event, on different latches. -/
theorem Faults.afterReports_foldl (v : FaultView) (h : v.mode.inService = true) (l : List Report)
    (f : Faults) (hn : (l.map Report.id).Nodup) :
    f.AfterReports v 0 l (l.foldl (fun g r => g.report v r.id r.present r.alarms) f) ∧
      ∀ id, (∀ r ∈ l, r.id ≠ id) →
        (l.foldl (fun g r => g.report v r.id r.present r.alarms) f).latch id = f.latch id :=
  Faults.afterReports_behind v h l f f 0 hn (by simp) fun _ _ => rfl

/-- Outside service a report changes nothing. -/
theorem Faults.reports_idle (v : FaultView) (h : v.mode.inService = false) (l : List Report)
    (f : Faults) : l.foldl (fun g r => g.report v r.id r.present r.alarms) f = f := by
  induction l with
  | nil => rfl
  | cons r l ih =>
    rw [List.foldl_cons]
    unfold Faults.report at ih ⊢
    simp only [h] at ih ⊢
    exact ih

/-! ## The HOLE reports of an event (R132, R133) -/

/-- The report a cell makes where its standing changes from `old` to `new`. -/
def holeReport (p : SectorId × Operator) (old new : Cell) : Option Report :=
  if old.hole = new.hole then none else some ⟨.hole p.1 p.2, new.hole, none⟩

theorem decideCell_faults (b : Steering) (s : State) (p : SectorId × Operator) :
    (decideCell b s p.1 p.2).faults =
      (holeReport p (s.steering.cell p.1 p.2)
        (Cell.decided (b.cell p.1 p.2) (s.steering.cell p.1 p.2))).toList.foldl
          (fun g r => g.report s.faultView r.id r.present r.alarms) s.faults := by
  unfold decideCell Cell.decided holeReport
  simp only
  split
  · simp
  · by_cases h : (s.steering.cell p.1 p.2).settle.hole = (s.steering.cell p.1 p.2).hole
    · rw [if_pos h, if_pos h.symm]
      rfl
    · rw [if_neg h, if_neg fun e => h e.symm]
      rfl

/-- The decision of every standing reports the cells that became DARK or ceased to be, in order. -/
theorem decideStandings_faults (b : Steering) (s : State) :
    (decideStandings b s).faults =
      (holeChanges s (decideStandings b s)).foldl
        (fun g r => g.report s.faultView r.id r.present r.alarms) s.faults := by
  have key : ∀ (l : List (SectorId × Operator)) (s : State), l.Nodup →
      (l.foldl (fun s p => decideCell b s p.1 p.2) s).faults =
        (l.filterMap fun p => holeReport p (s.steering.cell p.1 p.2)
          (Cell.decided (b.cell p.1 p.2) (s.steering.cell p.1 p.2))).foldl
            (fun g r => g.report s.faultView r.id r.present r.alarms) s.faults := by
    intro l
    induction l with
    | nil => intro s _; rfl
    | cons p l ih =>
      intro s hn
      obtain ⟨hp, hl⟩ := List.nodup_cons.mp hn
      have view : (decideCell b s p.1 p.2).faultView = s.faultView := by
        have := (UnitFrame.decideCell b s p.1 p.2).site
        unfold State.faultView
        rw [this]
      have same : (l.filterMap fun q => holeReport q
            ((decideCell b s p.1 p.2).steering.cell q.1 q.2)
            (Cell.decided (b.cell q.1 q.2) ((decideCell b s p.1 p.2).steering.cell q.1 q.2))) =
          l.filterMap fun q => holeReport q (s.steering.cell q.1 q.2)
            (Cell.decided (b.cell q.1 q.2) (s.steering.cell q.1 q.2)) := by
        refine List.filterMap_congr fun q hq => ?_
        rw [decideCell_cell, if_neg]
        rintro ⟨e1, e2⟩
        exact hp (Prod.ext e1.symm e2.symm ▸ hq)
      rw [List.foldl_cons, ih _ hl, view, same, decideCell_faults, List.filterMap_cons]
      cases holeReport p (s.steering.cell p.1 p.2)
        (Cell.decided (b.cell p.1 p.2) (s.steering.cell p.1 p.2)) <;> rfl
  have changes : holeChanges s (decideStandings b s) =
      cellOrder.filterMap fun p => holeReport p (s.steering.cell p.1 p.2)
        (Cell.decided (b.cell p.1 p.2) (s.steering.cell p.1 p.2)) := by
    unfold holeChanges
    refine List.filterMap_congr fun p _ => ?_
    rw [decideStandings_cell]
    rfl
  rw [changes]
  exact key cellOrder s cellOrder_nodup

/-- The HOLE reports of an event are on different latches. -/
theorem holeChanges_nodup (s t : State) : ((holeChanges s t).map Report.id).Nodup := by
  unfold holeChanges
  rw [List.map_filterMap]
  refine List.Nodup.filterMap ?_ cellOrder_nodup
  intro p q id hp hq
  simp only [Option.mem_def, Option.map_eq_some_iff] at hp hq
  obtain ⟨r, hr, rfl⟩ := hp
  obtain ⟨r', hr', e⟩ := hq
  split at hr
  · cases hr
  · split at hr'
    · cases hr'
    · cases hr
      cases hr'
      simp only [LatchId.hole.injEq] at e
      exact Prod.ext e.1.symm e.2.symm

/-- Every HOLE report is on a HOLE latch. -/
theorem holeChanges_id {s t : State} {r : Report} (h : r ∈ holeChanges s t) :
    ∃ d k, r.id = .hole d k := by
  unfold holeChanges at h
  obtain ⟨p, _, hp⟩ := List.mem_filterMap.mp h
  simp only at hp
  split at hp
  · cases hp
  · cases hp
    exact ⟨p.1, p.2, rfl⟩

/-- An event that changes no cell's trend changes HOLE at its settling alone. -/
theorem holeChanges_close {s e : State}
    (ht : ∀ d k, (e.steering.cell d k).trend = (s.steering.cell d k).trend) (b : Steering) :
    holeChanges s (close (decideStandings b e)) = holeChanges e (decideStandings b e) := by
  unfold holeChanges
  refine List.filterMap_congr fun p _ => ?_
  rw [close_steering]
  have : (e.steering.cell p.1 p.2).hole = (s.steering.cell p.1 p.2).hole := by
    unfold Cell.hole
    rw [ht]
  rw [this]

/-- An event that makes the reports `l` on unit latches and changes no cell's trend, and is then
settled and closed: its reports are `l` and the changes of HOLE. -/
theorem OnlyReports.close_settled {s e : State} (l : List Report)
    (hl : (l.map Report.id).Nodup) (hu : ∀ r ∈ l, ∀ d k, r.id ≠ .hole d k)
    (hs : e.site = s.site)
    (hf : e.faults = l.foldl (fun g r => g.report s.faultView r.id r.present r.alarms) s.faults)
    (ht : ∀ d k, (e.steering.cell d k).trend = (s.steering.cell d k).trend) (b : Steering) :
    let t := close (decideStandings b e)
    OnlyReports (fun _ => False) 0 (l ++ holeChanges s t) s t := by
  intro t
  have view : e.faultView = s.faultView := by
    unfold State.faultView
    rw [hs]
  have changes : holeChanges s t = holeChanges e (decideStandings b e) := holeChanges_close ht b
  have faults : ∀ id, t.faults.latch id =
      ((l ++ holeChanges s t).foldl
        (fun g r => g.report s.faultView r.id r.present r.alarms) s.faults).latch id := by
    intro id
    rw [close_latch, decideStandings_faults, view, hf, changes, List.foldl_append]
  have nodup : ((l ++ holeChanges s t).map Report.id).Nodup := by
    rw [List.map_append, List.nodup_append]
    refine ⟨hl, holeChanges_nodup s t, ?_⟩
    rintro _ hx _ hy rfl
    obtain ⟨r, hr, hr'⟩ := List.mem_map.mp hx
    obtain ⟨q, hq, hq'⟩ := List.mem_map.mp hy
    obtain ⟨d, k, e⟩ := holeChanges_id hq
    exact hu r hr d k (hr'.trans (hq'.symm.trans e))
  refine ⟨fun hsv i r hi => ?_, fun id _ h => ?_⟩
  · rw [faults]
    exact (Faults.afterReports_foldl s.faultView hsv _ s.faults nodup).1 i r hi
  · rw [faults]
    rcases h with h | h
    · rw [Faults.reports_idle s.faultView h]
    · cases hm : s.site.mode.inService
      · rw [Faults.reports_idle s.faultView hm]
      · exact (Faults.afterReports_foldl s.faultView hm _ s.faults nodup).2 id h

/-! ## A change of modes (R148) -/

/-- The latches in kind order and ascending subject. -/
def latchOrder : List LatchId := kindOrder.flatMap latchesOf

theorem latchOrder_mem (id : LatchId) : id ∈ latchOrder := by
  unfold latchOrder
  rw [List.mem_flatMap]
  refine ⟨id.kind, by cases id.kind <;> decide, ?_⟩
  cases id with
  | unit n k => fin_cases k <;> simp [LatchId.kind, unitFaultKind, latchesOf]
  | hole n k => simp [LatchId.kind, latchesOf]
  | protection => simp [LatchId.kind, latchesOf]
  | lapse => simp [LatchId.kind, latchesOf]

theorem latchesOf_kind {k : FaultKind} {id : LatchId} (h : id ∈ latchesOf k) : id.kind = k := by
  cases k <;> simp [latchesOf] at h
  all_goals
    first
      | (obtain ⟨n, rfl⟩ := h; rfl)
      | (obtain ⟨n, k, rfl⟩ := h; rfl)

theorem latchesOf_nodup (k : FaultKind) : (latchesOf k).Nodup := by
  cases k <;> decide +kernel

theorem latchOrder_nodup : latchOrder.Nodup := by
  unfold latchOrder
  rw [List.nodup_flatMap]
  refine ⟨fun k _ => latchesOf_nodup k, ?_⟩
  have : kindOrder.Nodup := by decide
  refine this.imp fun {a b} hab => ?_
  intro x hx hy
  exact hab ((latchesOf_kind hx).symm.trans (latchesOf_kind hy))

/-- A latch whose kind goes from EDGE to HELD. -/
def Latch.turnedHeld (raised : Option (BitVec 16)) (l : Latch) : Latch :=
  if l.set then { l with acknowledged := false }
  else if l.condition then { l with set := true, acknowledged := false, raised := raised }
  else l

theorem Faults.latch_toHeld_self (f : Faults) (v id) :
    (f.toHeld v id).latch id = (f.latch id).turnedHeld (f.raisedNumber v id.kind 0) := by
  unfold Faults.toHeld Latch.turnedHeld Faults.raisedNumber
  simp only
  split
  · simp
  · split
    · simp [Faults.latch_raise_self]
    · rfl

theorem Faults.latch_toHeld_ne (f : Faults) (v) {id j : LatchId} (h : j ≠ id) :
    (f.toHeld v id).latch j = f.latch j := by
  unfold Faults.toHeld
  simp only
  split
  · exact f.latch_setLatch_ne _ h
  · split
    · exact f.latch_raise_ne v h
    · rfl

/-- A latch that is set where its kind goes from EDGE to HELD, with a notice. -/
def Faults.raisesAtTurn (v : FaultView) (f : Faults) (id : LatchId) : Bool :=
  !v.masked id.kind && !(f.latch id).set && (f.latch id).condition

theorem Faults.nextNumber_toHeld (f : Faults) (v id) :
    (f.toHeld v id).nextNumber = f.nextNumber + BitVec.ofNat 16 (f.raisesAtTurn v id).toNat := by
  unfold Faults.toHeld Faults.raisesAtTurn
  cases hs : (f.latch id).set <;> cases hc : (f.latch id).condition <;>
    cases hm : v.masked id.kind <;> simp [hs, hc, Faults.raise, hm, Faults.nextNumber_produce]

/-- A change of modes treats every latch in turn. -/
theorem Faults.modesChanged_eq (f : Faults) (v : FaultView) (old : Word) :
    f.modesChanged v old = latchOrder.foldl
      (fun f id => if v.actsHeld id.kind && !flag old id.kind.code then f.toHeld v id else f) f := by
  unfold Faults.modesChanged latchOrder
  rw [List.foldl_flatMap]
  congr 1
  funext f k
  have : ∀ (l : List LatchId) (f : Faults), (∀ id ∈ l, id.kind = k) →
      (if v.actsHeld k && !flag old k.code then l.foldl (Faults.toHeld v) f else f) =
      l.foldl (fun f id =>
        if v.actsHeld id.kind && !flag old id.kind.code then f.toHeld v id else f) f := by
    intro l
    induction l with
    | nil => intro f _; simp
    | cons j l ih =>
      intro f hk
      rw [List.foldl_cons, List.foldl_cons, ← ih _ fun id hid => hk id (by simp [hid])]
      rw [hk j (by simp)]
      split <;> rfl
  exact this _ _ fun id hid => latchesOf_kind hid

/-- What a change of modes does to each latch, with the number its notice takes. -/
theorem Faults.latch_modesChanged (f : Faults) (v : FaultView) (old : Word) (id : LatchId) :
    (f.modesChanged v old).latch id =
      if v.actsHeld id.kind && !flag old id.kind.code then
        (f.latch id).turnedHeld (f.raisedNumber v id.kind
          ((latchOrder.takeWhile (· ≠ id)).countP fun j =>
            v.actsHeld j.kind && !flag old j.kind.code && f.raisesAtTurn v j))
      else f.latch id := by
  rw [f.modesChanged_eq]
  have H : ∀ (l : List LatchId) (g f : Faults) (k : Nat), l.Nodup →
      g.nextNumber = f.nextNumber + BitVec.ofNat 16 k → (∀ j ∈ l, g.latch j = f.latch j) →
      (l.foldl (fun f id =>
        if v.actsHeld id.kind && !flag old id.kind.code then f.toHeld v id else f) g).latch id =
      if id ∈ l ∧ (v.actsHeld id.kind && !flag old id.kind.code) = true then
        (f.latch id).turnedHeld (f.raisedNumber v id.kind
          (k + (l.takeWhile (· ≠ id)).countP fun j =>
            v.actsHeld j.kind && !flag old j.kind.code && f.raisesAtTurn v j))
      else g.latch id := by
    intro l
    induction l with
    | nil => intro g f k _ _ _; simp
    | cons j l ih =>
      intro g f k hn hk hl
      obtain ⟨hj, hn⟩ := List.nodup_cons.mp hn
      rw [List.foldl_cons]
      have rt : g.raisesAtTurn v j = f.raisesAtTurn v j := by
        unfold Faults.raisesAtTurn; rw [hl j (by simp)]
      have nx := ih (if v.actsHeld j.kind && !flag old j.kind.code then g.toHeld v j else g) f
        (k + (v.actsHeld j.kind && !flag old j.kind.code && f.raisesAtTurn v j).toNat) hn
        (by
          split
          · next h => rw [g.nextNumber_toHeld, hk, rt, h]; simp [BitVec.ofNat_add, BitVec.add_assoc]
          · next h => simp at h; rw [hk]; congr 2; cases hh : v.actsHeld j.kind <;> simp_all)
        (by
          intro q hq
          have : q ≠ j := fun e => hj (e ▸ hq)
          split
          · rw [g.latch_toHeld_ne v this, hl q (by simp [hq])]
          · rw [hl q (by simp [hq])])
      rw [nx]
      by_cases e : id = j
      · subst e
        rw [if_neg (by simp [hj])]
        simp only [List.mem_cons, true_or, true_and]
        split
        · rw [g.latch_toHeld_self, hl id (by simp)]
          simp [Faults.raisedNumber, hk]
        · rfl
      · have e' : j ≠ id := fun h => e h.symm
        simp only [List.mem_cons, e, false_or]
        split
        · rw [List.takeWhile_cons, if_pos (by simpa using e'), List.countP_cons]
          congr 2
          cases (v.actsHeld j.kind && !flag old j.kind.code && f.raisesAtTurn v j) <;> (simp; try omega)
        · split
          · rw [g.latch_toHeld_ne v e]
          · rfl
  have := H latchOrder f f 0 latchOrder_nodup (by simp) fun _ _ => rfl
  rw [this]
  simp [latchOrder_mem]

end Sys2Proof.Machine
end

