-- ==== Sys2Proof/Laws/Quiet.lean ====
section
/-! SUPPORT. What an event leaves alone before its conditions are reported and its standings decided:
Site Control, the Fault Reporter and every cell's trend; and so what its reports do. -/

namespace Sys2Proof.Machine

open Sys2Proof

/-- Site Control, the Fault Reporter and the trends of the cells do not differ. -/
structure Quiet (s t : State) : Prop where
  site : t.site = s.site
  faults : t.faults = s.faults
  trends : ∀ d k, (t.steering.cell d k).trend = (s.steering.cell d k).trend

namespace Quiet

theorem refl (s : State) : Quiet s s := ⟨rfl, rfl, fun _ _ => rfl⟩

theorem trans {a b c : State} (h : Quiet a b) (k : Quiet b c) : Quiet a c :=
  ⟨k.site.trans h.site, k.faults.trans h.faults, fun d j => (k.trends d j).trans (h.trends d j)⟩

theorem setContext (s : State) (n c) : Quiet s (s.setContext n c) := ⟨rfl, rfl, fun _ _ => rfl⟩

theorem addChanged (s : State) (k n) : Quiet s (s.addChanged k n) := ⟨rfl, rfl, fun _ _ => rfl⟩

theorem onLink (s : State) (n f) : Quiet s (s.onLink n f) := ⟨rfl, rfl, fun _ _ => rfl⟩

theorem onUnit (s : State) (n f) : Quiet s (s.onUnit n f) := ⟨rfl, rfl, fun _ _ => rfl⟩

theorem setStages (s : State) (x) : Quiet s (s.setStages x) := ⟨rfl, rfl, fun _ _ => rfl⟩

/-- The Steering Engine takes a report that keeps every trend. -/
theorem onSteering (s : State) {f : Steering → Steering}
    (h : ∀ d k, ((f s.steering).cell d k).trend = (s.steering.cell d k).trend) :
    Quiet s (s.onSteering f) :=
  ⟨rfl, rfl, h⟩

end Quiet

/-! ## The Steering Engine -/

namespace Steering

variable (g : Steering) (d : SectorId) (j : Operator)

theorem trend_onSlotCell {n k f} (h : ∀ c : Cell, (f c).trend = c.trend) :
    ((g.onSlotCell n k f).cell d j).trend = (g.cell d j).trend := by
  rw [cell_onSlotCell]
  split
  · exact h _
  · rfl

theorem trend_gained (n k) : ((g.gained n k).cell d j).trend = (g.cell d j).trend :=
  trend_onSlotCell (g.onRecord n _) d j fun _ => rfl

theorem trend_lost (n) : ((g.lost n).cell d j).trend = (g.cell d j).trend :=
  trend_onSlotCell (g.onRecord n _) d j fun _ => rfl

theorem trend_enteredOnAir (n c i) : ((g.enteredOnAir n c i).cell d j).trend = (g.cell d j).trend :=
  trend_onSlotCell (g.onRecord n _) d j fun _ => rfl

theorem trend_leftOnAir (n i) : ((g.leftOnAir n i).cell d j).trend = (g.cell d j).trend := by
  unfold leftOnAir
  split
  · rfl
  · exact trend_onSlotCell (g.onRecord n _) d j fun _ => rfl

theorem trend_impairedChanged (u i) :
    ((g.impairedChanged u i).cell d j).trend = (g.cell d j).trend := by
  refine foldl_field (fun g : Steering => (g.cell d j).trend) (unitSlots u) (fun g n => ?_) g
  unfold reweigh
  split
  · rfl
  · exact trend_onSlotCell g d j fun _ => rfl

theorem trend_zeroFigures (u) : ((g.zeroFigures u).cell d j).trend = (g.cell d j).trend :=
  foldl_field (fun g : Steering => (g.cell d j).trend) (unitSlots u) (fun _ _ => rfl) g

theorem trend_status (u f) : ((g.status u f).cell d j).trend = (g.cell d j).trend := by
  refine foldl_field (fun g : Steering => (g.cell d j).trend) (List.finRange 4) (fun g i => ?_) g
  have add : ∀ (a : Nat) (c : Cell), (c.addAttaches a).trend = c.trend := by
    intro a c
    unfold Cell.addAttaches
    split
    · rfl
    · split <;> rfl
  unfold slotStatus
  simp only
  split
  · exact trend_onSlotCell (g.onRecord _ _) d j fun c => add _ _
  · rfl

end Steering

/-! ## Carrier Control and the Unit Supervisor -/

namespace Quiet

theorem updateSlot (s : State) (n c) : Quiet s (s.updateSlot n c) := by
  unfold State.updateSlot
  simp only
  split
  · exact setContext s n c
  · split
    · exact (setContext s n c).trans (addChanged _ _ _)
    · exact setContext s n c

theorem queueOrDefer (s : State) (n c) : Quiet s (s.queueOrDefer n c) := by
  unfold State.queueOrDefer
  split
  · exact setContext s n _
  · exact onLink s _ _

theorem supersede (s : State) (n t) : Quiet s (s.supersede n t) := by
  unfold State.supersede
  split
  · exact setContext s n _
  · exact onLink s _ _

theorem withdraw (s : State) (n) : Quiet s (s.withdraw n) := by
  unfold State.withdraw
  split
  · exact setContext s n _
  · exact onLink s _ _

theorem gained (s : State) (n k) : Quiet s (s.onSteering (Steering.gained n k)) :=
  onSteering s fun d j => s.steering.trend_gained d j n k

theorem lost (s : State) (n) : Quiet s (s.onSteering (Steering.lost n)) :=
  onSteering s fun d j => s.steering.trend_lost d j n

theorem enteredOnAir (s : State) (n c i) : Quiet s (s.onSteering (Steering.enteredOnAir n c i)) :=
  onSteering s fun d j => s.steering.trend_enteredOnAir d j n c i

theorem leftOnAir (s : State) (n i) : Quiet s (s.onSteering (Steering.leftOnAir n i)) :=
  onSteering s fun d j => s.steering.trend_leftOnAir d j n i

theorem judgePost (s : State) (k p) : Quiet s (judgePost s k p).1 := by
  unfold Machine.judgePost
  split
  · exact refl s
  · unfold postEffect
    split
    · unfold tuneEffect
      simp only
      split
      · exact ((updateSlot s _ _).trans (queueOrDefer _ _ _)).trans (gained _ _ _)
      · exact ((updateSlot s _ _).trans (queueOrDefer _ _ _)).trans (leftOnAir _ _ _)
      · exact (updateSlot s _ _).trans (supersede _ _ _)
      · exact updateSlot s _ _
      · exact refl s
    · unfold searchEffect
      simp only
      split
      · exact ((updateSlot s _ _).trans (queueOrDefer _ _ _)).trans (gained _ _ _)
      · exact (updateSlot s _ _).trans (updateSlot _ _ _)
    · unfold releaseEffect
      simp only
      split
      · refine Quiet.trans ?_ (lost _ _)
        unfold releaseSearch
        split
        · exact updateSlot s _ _
        · split
          · exact updateSlot s _ _
          · exact (updateSlot s _ _).trans (onLink _ _ _)
      · split
        · exact ((updateSlot s _ _).trans (withdraw _ _)).trans (lost _ _)
        · exact (updateSlot s _ _).trans (onLink _ _ _)
      · exact ((updateSlot s _ _).trans (queueOrDefer _ _ _)).trans (leftOnAir _ _ _)
      · exact (updateSlot s _ _).trans (lost _ _)
      · exact refl s

theorem validate (s : State) (k p) : Quiet s (validate k p s) :=
  (judgePost s k p).trans (setStages _ _)

theorem carrierTuned (s : State) (n r) : Quiet s (carrierTuned s n r) := by
  unfold Machine.carrierTuned
  simp only
  split
  · split
    · exact (updateSlot s _ _).trans (enteredOnAir _ _ _ _)
    · split
      · exact (updateSlot s _ _).trans (enteredOnAir _ _ _ _)
      · exact (updateSlot s _ _).trans (lost _ _)
  · exact refl s

theorem carrierDropped (s : State) (n) : Quiet s (carrierDropped s n) := by
  unfold Machine.carrierDropped
  simp only
  split
  · exact (updateSlot s _ _).trans (lost _ _)
  · exact refl s

theorem carrierLevel (s : State) (n v) : Quiet s (carrierLevel s n v) := by
  unfold Machine.carrierLevel
  simp only
  split
  · unfold orphanLevel
    simp only
    split
    · exact (setContext s _ _).trans (onLink _ _ _)
    · exact setContext s _ _
  · split
    · split
      · exact (updateSlot s _ _).trans (queueOrDefer _ _ _)
      · unfold searchOn
        split
        · exact (updateSlot s _ _).trans (queueOrDefer _ _ _)
        · exact (updateSlot s _ _).trans (lost _ _)
    · exact refl s

theorem suspendSlot (s : State) (n) : Quiet s (suspendSlot s n) := by
  unfold Machine.suspendSlot
  simp only
  split
  · exact setContext s _ _
  · exact setContext s _ _
  · exact (updateSlot s _ _).trans (lost _ _)
  · exact updateSlot s _ _
  · exact updateSlot s _ _
  · exact (updateSlot s _ _).trans (leftOnAir _ _ _)
  · exact (updateSlot s _ _).trans (lost _ _)

theorem unitLeftLive (s : State) (u) : Quiet s (unitLeftLive s u) :=
  foldl_related (r := Quiet) _ refl suspendSlot (fun _ _ _ => trans) s

theorem unitReachedLive (s : State) (u) : Quiet s (unitReachedLive s u) := by
  refine foldl_related (r := Quiet) _ refl (fun s n => ?_) (fun _ _ _ => trans) s
  unfold restoreSlot
  simp only
  split
  · exact (updateSlot s _ _).trans (queueOrDefer _ _ _)
  · exact refl s

theorem setImpaired (u v) (s : State) : Quiet s (setImpaired u v s) := by
  unfold Machine.setImpaired
  split
  · exact refl s
  · exact (onUnit s u _).trans (onSteering _ fun d j => Steering.trend_impairedChanged _ d j u v)

theorem leaveLive (u) (s : State) : Quiet s (leaveLive u s) :=
  ((unitLeftLive s u).trans (onSteering _ fun d j => Steering.trend_zeroFigures _ d j u)).trans
    (setImpaired u _ _)

theorem leaveIfLive (w u) (s : State) : Quiet s (leaveIfLive w u s) := by
  unfold Machine.leaveIfLive
  split
  · exact leaveLive u s
  · exact refl s

theorem enterDown (u) (s : State) : Quiet s (enterDown u s) :=
  (((onLink s u _).trans (leaveIfLive _ u _)).trans (onLink _ u _)).trans (onUnit _ u _)

theorem goLive (u) (s : State) : Quiet s (goLive u s) :=
  ((onUnit s u _).trans (unitReachedLive _ u)).trans (setImpaired u _ _)

theorem probingDecision (u a) (s : State) : Quiet s (probingDecision u a s) := by
  unfold Machine.probingDecision
  split
  · exact enterDown u s
  · split
    · exact goLive u s
    · exact refl s

end Quiet

/-! ## Reports behind a quiet event -/

/-- A unit's changes of condition as reports. -/
def ConditionChange.report (u : UnitId) (c : ConditionChange) : Report :=
  ⟨.unit u c.kind, c.present, c.alarms⟩

theorem reportChanges_steering (u c) (s : State) :
    (reportChanges u c s).steering = s.steering := by
  unfold reportChanges
  refine foldl_field State.steering c ?_ s
  intro s _
  rfl

/-- The reports of a unit's changes. -/
theorem reportChanges_faults (u) (l : List ConditionChange) (s : State) :
    (reportChanges u l s).faults =
      (l.map (ConditionChange.report u)).foldl
        (fun g r => g.report s.faultView r.id r.present r.alarms) s.faults := by
  unfold reportChanges
  induction l generalizing s with
  | nil => rfl
  | cons c l ih =>
    rw [List.foldl_cons, ih]
    rfl

/-- A quiet event and the reports behind it, settled and closed. -/
theorem OnlyReports.behind_quiet {s e q : State} (u : UnitId) (l : List ConditionChange)
    (hl : (l.map ConditionChange.kind).Nodup) (h : Quiet s q)
    (he : e.site = (reportChanges u l q).site) (hf : e.faults = (reportChanges u l q).faults)
    (ht : ∀ d k, (e.steering.cell d k).trend = (q.steering.cell d k).trend) (b : Steering) :
    let t := close (decideStandings b e)
    OnlyReports (fun _ => False) 0 (l.map (ConditionChange.report u) ++ holeChanges s t) s t := by
  have view : q.faultView = s.faultView := by
    unfold State.faultView
    rw [h.site]
  refine OnlyReports.close_settled _ ?_ ?_ ?_ ?_ ?_ b
  · rw [List.map_map]
    have : (Report.id ∘ ConditionChange.report u) = LatchId.unit u ∘ ConditionChange.kind := rfl
    rw [this, ← List.map_map]
    exact hl.map fun a b e => by
      injection e
  · intro r hr d k
    obtain ⟨c, _, rfl⟩ := List.mem_map.mp hr
    exact fun e => by cases e
  · rw [he, (UnitFrame.reportChanges u l q).site, h.site]
  · rw [hf, reportChanges_faults, view, h.faults]
  · exact fun d k => (ht d k).trans (h.trends d k)

/-- A quiet event, settled and closed: the cells that became DARK or ceased to be are reported. -/
theorem OnlyReports.of_quiet {s e : State} (h : Quiet s e) (b : Steering) :
    let t := close (decideStandings b e)
    OnlyReports (fun _ => False) 0 (holeChanges s t) s t :=
  OnlyReports.behind_quiet 0 [] List.nodup_nil h rfl rfl (fun _ _ => rfl) b

/-- Nothing is reported where neither latches nor trends differ. -/
theorem OnlyReports.refl (except earlier) (s : State) :
    OnlyReports except earlier (holeChanges s s) s s := by
  have : holeChanges s s = [] := by
    unfold holeChanges
    simp
  rw [this]
  exact ⟨fun _ i r hi => by simp at hi, fun _ _ _ => rfl⟩

end Sys2Proof.Machine
end

