-- ==== Sys2Proof/Laws/Notices.lean ====
section
/-! SUPPORT. The notices of one event: what the Fault Reporter is beside its latches after reports,
acknowledgements, a change of modes, and the end of the event. -/

namespace Sys2Proof.Machine

open Sys2Proof

namespace Faults

variable (f g : Faults) (v : FaultView)

@[simp] theorem withLatches_self : f.withLatches f = f := rfl

@[simp] theorem withLatches_setLatch (id l) : (f.setLatch id l).withLatches g = f.withLatches g := by
  cases id <;> rfl

@[simp] theorem withLatches_record (id p a) : (f.record id p a).withLatches g = f.withLatches g :=
  withLatches_setLatch _ _ _ _

/-- Notices do not look at the latches. -/
theorem withLatches_produce (b) : (f.produce v b).withLatches g = (f.withLatches g).produce v b := by
  unfold produce
  have h : (f.withLatches g).hasRoom = f.hasRoom := rfl
  have hs : (f.withLatches g).suppressed = f.suppressed := rfl
  rw [h, hs]
  split
  · split <;> rfl
  · rfl

theorem withLatches_produceAll (l : List NoticeBody) :
    ∀ f : Faults, (f.produceAll v l).withLatches g = (f.withLatches g).produceAll v l := by
  induction l with
  | nil => intro f; rfl
  | cons b l ih =>
    intro f
    exact (ih (f.produce v b)).trans (by rw [withLatches_produce]; rfl)

theorem produceAll_append (a b : List NoticeBody) :
    f.produceAll v (a ++ b) = (f.produceAll v a).produceAll v b :=
  List.foldl_append

theorem detail_produceAll (l : List NoticeBody) :
    ∀ f : Faults, (f.produceAll v l).detail = f.detail := by
  induction l with
  | nil => intro f; rfl
  | cons b l ih => intro f; exact (ih (f.produce v b)).trans (detail_produce f v b)

theorem withLatches_afterRoomMade (b : Bool) :
    (f.afterRoomMade b).withLatches g = (f.withLatches g).afterRoomMade b := by
  unfold afterRoomMade
  have h : (f.withLatches g).ringFull = f.ringFull := rfl
  have hq : (f.withLatches g).queue = f.queue := rfl
  rw [h, hq]
  split <;> rfl

/-! ## One latch -/

theorem withLatches_raise (id) :
    (f.raise v id).withLatches g =
      (f.withLatches g).produceAll v
        (if v.masked id.kind then []
         else [id.noticeBody .raised (f.latch id).alarms f.detail]) := by
  unfold raise
  simp only
  split
  · exact withLatches_setLatch _ _ _ _
  · rw [withLatches_produce, withLatches_setLatch, latchBody_eq]
    rfl

theorem withLatches_clearLatch (id) :
    (f.clearLatch v id).withLatches g =
      (f.withLatches g).produceAll v
        (if v.latches id.kind && !v.masked id.kind then
          [id.noticeBody .cleared (f.latch id).alarms f.detail] else []) := by
  have held : v.latches id.kind = v.actsHeld id.kind := rfl
  unfold clearLatch
  simp only [held]
  split
  · rw [withLatches_produce, withLatches_setLatch, latchBody_eq]
    rfl
  · exact withLatches_setLatch _ _ _ _

/-- A report in service makes the notice it tells, and moves nothing else beside the latches. -/
theorem withLatches_report (h : v.mode.inService = true) (r : Report) :
    (f.report v r.id r.present r.alarms).withLatches g =
      (f.withLatches g).produceAll v (r.notice v f).toList := by
  have held : v.latches r.id.kind = v.actsHeld r.id.kind := rfl
  unfold report Report.notice tells
  simp only [h, if_true, held]
  cases hp : r.present <;> cases hs : (f.latch r.id).set <;> cases hm : v.masked r.id.kind <;>
    cases ha : (f.latch r.id).acknowledged <;> cases hh : v.actsHeld r.id.kind <;>
    simp [withLatches_raise, withLatches_clearLatch, hm, held, hh] <;> rfl

theorem withLatches_momentaryTrip (h : v.mode.inService = true) (id) :
    (f.momentaryTrip v id).withLatches g =
      (f.withLatches g).produceAll v (Report.notice v f ⟨id, true, none⟩).toList := by
  unfold momentaryTrip Report.notice tells
  simp only [h, Bool.true_and]
  cases hs : (f.latch id).set <;> cases hm : v.masked id.kind <;>
    simp [withLatches_raise, hm] <;> rfl

/-- An acknowledgement makes a CLEARED notice where it clears a latch that acts as HELD. -/
theorem withLatches_acknowledge (id) :
    (f.acknowledge v id).withLatches g =
      (f.withLatches g).produceAll v
        (if f.clearsAt v id then [id.noticeBody .cleared (f.latch id).alarms f.detail]
         else []) := by
  have held : v.latches id.kind = v.actsHeld id.kind := rfl
  unfold acknowledge clearsAt
  simp only [held]
  cases hs : (f.latch id).set <;> cases hm : v.masked id.kind <;>
    cases ha : (f.latch id).acknowledged <;> cases hh : v.actsHeld id.kind <;>
    cases hc : (f.latch id).condition <;>
    simp [withLatches_clearLatch, hm, held, hh] <;> rfl

theorem withLatches_toHeld (id) :
    (f.toHeld v id).withLatches g =
      (f.withLatches g).produceAll v
        (if f.raisesAtTurn v id then [id.noticeBody .raised (f.latch id).alarms f.detail]
         else []) := by
  unfold toHeld raisesAtTurn
  simp only
  cases hs : (f.latch id).set <;> cases hm : v.masked id.kind <;>
    cases hc : (f.latch id).condition <;>
    simp [withLatches_raise, hm] <;> rfl

/-! ## Several latches -/

/-- Operations on different latches, each of which makes the notices `told` that depend on its own latch
and the protection detail alone. -/
theorem withLatches_foldl {α : Type} {id : α → LatchId} {op : Faults → α → Faults}
    {told : Faults → α → List NoticeBody}
    (step : ∀ f a, (op f a).withLatches g = (f.withLatches g).produceAll v (told f a))
    (other : ∀ f a j, j ≠ id a → (op f a).latch j = f.latch j)
    (same : ∀ f h a, f.latch (id a) = h.latch (id a) → f.detail = h.detail → told f a = told h a)
    (l : List α) : ∀ f h : Faults, (l.map id).Nodup → (∀ a ∈ l, f.latch (id a) = h.latch (id a)) →
      f.detail = h.detail →
      (l.foldl op f).withLatches g = (f.withLatches g).produceAll v (l.flatMap (told h)) := by
  have detail : ∀ f a, (op f a).detail = f.detail := by
    intro f a
    have := congrArg Faults.detail (step f a)
    rwa [detail_produceAll] at this
  induction l with
  | nil => intro f h _ _ _; rfl
  | cons a l ih =>
    intro f h hn hl hd
    obtain ⟨ha, hn⟩ := List.nodup_cons.mp hn
    rw [List.foldl_cons, ih (op f a) h hn ?_ ((detail f a).trans hd), step, ← produceAll_append,
      same f h a (hl a (by simp)) hd]
    · rfl
    · intro b hb
      rw [other f a _ fun e => ha (e ▸ List.mem_map_of_mem (f := id) hb)]
      exact hl b (by simp [hb])

/-- The reports of one event, on different latches that are as in `h`. -/
theorem withLatches_reports (hv : v.mode.inService = true) (l : List Report)
    (hn : (l.map Report.id).Nodup) (f h : Faults) (hl : ∀ r ∈ l, f.latch r.id = h.latch r.id)
    (hd : f.detail = h.detail) :
    (l.foldl (fun g r => g.report v r.id r.present r.alarms) f).withLatches g =
      (f.withLatches g).produceAll v (l.filterMap (Report.notice v h)) := by
  rw [withLatches_foldl (told := fun f r => (Report.notice v f r).toList) (id := Report.id) g v
    (fun f r => f.withLatches_report g v hv r) (fun f r j hj => f.latch_report_ne v _ _ hj)
    ?_ l f h hn hl hd]
  · congr 1
    clear hn hl
    induction l with
    | nil => rfl
    | cons r l ih =>
      rw [List.flatMap_cons, List.filterMap_cons, ih]
      cases Report.notice v h r <;> rfl
  · intro f h a e d
    simp only [Report.notice, tells, e, d]
    rfl

/-- The acknowledgements of one word, on different latches. -/
theorem withLatches_acknowledges (l : List LatchId) (hn : l.Nodup) :
    (l.foldl (fun f id => f.acknowledge v id) f).withLatches g =
      (f.withLatches g).produceAll v ((l.filter (f.clearsAt v)).map fun id =>
        id.noticeBody .cleared (f.latch id).alarms f.detail) := by
  rw [withLatches_foldl (id := fun i : LatchId => i)
    (told := fun f id => if f.clearsAt v id then
      [id.noticeBody .cleared (f.latch id).alarms f.detail] else []) g v
    (fun f id => f.withLatches_acknowledge g v id) (fun f id j hj => f.latch_acknowledge_ne v hj)
    ?_ l f f (by simpa using hn) (fun _ _ => rfl) rfl]
  · congr 1
    induction l with
    | nil => rfl
    | cons id l ih =>
      rw [List.flatMap_cons, List.filter_cons, ih (List.nodup_cons.mp hn).2]
      split <;> rfl
  · intro f h a e d
    simp only [clearsAt, e, d]
    rfl

/-- A change of modes: the latches set at the turn, in kind order. -/
theorem withLatches_modesChanged (old : Word) :
    (f.modesChanged v old).withLatches g =
      (f.withLatches g).produceAll v
        ((latchOrder.filter fun id =>
          v.actsHeld id.kind && !flag old id.kind.code && f.raisesAtTurn v id).map fun id =>
            id.noticeBody .raised (f.latch id).alarms f.detail) := by
  rw [modesChanged_eq]
  rw [withLatches_foldl (id := fun i : LatchId => i)
    (told := fun f id => if v.actsHeld id.kind && !flag old id.kind.code && f.raisesAtTurn v id then
      [id.noticeBody .raised (f.latch id).alarms f.detail] else []) g v ?_ ?_
    ?_ latchOrder f f (by simpa using latchOrder_nodup) (fun _ _ => rfl) rfl]
  · congr 1
    induction latchOrder with
    | nil => rfl
    | cons id l ih =>
      rw [List.flatMap_cons, List.filter_cons, ih]
      split <;> rfl
  · intro f id
    cases h : v.actsHeld id.kind && !flag old id.kind.code
    · simp; rfl
    · simp only [if_true, Bool.true_and]
      exact f.withLatches_toHeld g v id
  · intro f id j hj
    split
    · exact f.latch_toHeld_ne v hj
    · rfl
  · intro f h a e d
    simp only [raisesAtTurn, e, d]
    rfl

end Faults

/-! ## The end of the event -/

/-- The pump gives up the oldest entry where the mode is HOLD, and changes nothing else of the Fault
Reporter outside STOPPING. -/
theorem pump_log (s : State) (h : s.site.mode ≠ .stopping) :
    (pump s).faults =
      if s.site.mode = .hold then s.faults.afterRoomMade (!s.depositOutstanding) else s.faults := by
  rcases pump_cases s with ⟨e, k⟩ | ⟨k, -⟩ | ⟨x, l, ho, hq, hw, hr, e⟩
  · rw [e]
    split
    · next hm =>
      unfold Faults.afterRoomMade
      rw [if_neg]
      rintro ⟨k1, k2, -⟩
      rcases k with k | k | k | k
      · rw [k] at k1; cases k1
      · exact k2 k
      · rw [hm] at k; cases k.1
      · rw [hm] at k; cases k
    · rfl
  · exact absurd k h
  · rw [e]
    split
    · next hm =>
      show s.faults.freeEntry = _
      unfold Faults.freeEntry Faults.afterRoomMade
      rw [ho, hq]
      cases s.faults.ringFull <;> simp
    · rfl

theorem close_log (s : State) (h : s.site.mode ≠ .stopping) :
    (close s).faults =
      if s.site.mode = .hold then s.faults.afterRoomMade (!s.depositOutstanding) else s.faults := by
  rw [Machine.close_eq s h, pump_log s h]

/-- An event that has made some notices, and its end. -/
theorem LogTells.close {s e : State} {bodies : List NoticeBody} (hm : s.site.mode ≠ .stopping)
    (hs : e.site.mode = s.site.mode) (ho : e.depositOutstanding = s.depositOutstanding)
    (hf : e.faults.withLatches s.faults = s.faults.produceAll s.faultView bodies) :
    LogTells bodies s (close e) := by
  unfold LogTells
  rw [close_log e (hs ▸ hm), hs, ho]
  split
  · rw [Faults.withLatches_afterRoomMade, hf]
  · exact hf

/-- The acknowledgements a write names, as a list of latches. -/
theorem Faults.acknowledges_eq {α : Type} (l : List α) (p : α → Bool) (id : α → LatchId)
    (v : FaultView) (f : Faults) :
    l.foldl (fun f k => if p k then f.acknowledge v (id k) else f) f =
      ((l.filter p).map id).foldl (fun f id => f.acknowledge v id) f := by
  rw [List.foldl_map, List.foldl_filter]

/-- The acknowledgements of one write, and the end of the event: their CLEARED notices. -/
theorem LogTells.acknowledged {s : State} (ids : List LatchId) (hn : ids.Nodup)
    (hm : s.site.mode ≠ .stopping) :
    LogTells (s.clearings ids) s
      (Machine.close
        (s.setFaults (ids.foldl (fun f id => f.acknowledge s.faultView id) s.faults))) :=
  LogTells.close (e := s.setFaults _) hm rfl rfl
    (s.faults.withLatches_acknowledges s.faults s.faultView ids hn)

theorem State.noticesOf_append (s : State) (l m : List Report) :
    s.noticesOf (l ++ m) = s.noticesOf l ++ s.noticesOf m := by
  unfold State.noticesOf
  split
  · exact List.filterMap_append
  · rfl

/-- An event that has made some notices and changed no HOLE latch and no cell's trend, settled and closed:
the changes of HOLE make the last notices. -/
theorem LogTells.settled {s e : State} {bodies : List NoticeBody} (hm : s.site.mode ≠ .stopping)
    (hs : e.site = s.site) (hp : e.path = s.path)
    (hf : e.faults.withLatches s.faults = s.faults.produceAll s.faultView bodies)
    (hl : ∀ d k, e.faults.latch (.hole d k) = s.faults.latch (.hole d k))
    (ht : ∀ d k, (e.steering.cell d k).trend = (s.steering.cell d k).trend) (b : Steering) :
    let t := Machine.close (decideStandings b e)
    LogTells (bodies ++ s.noticesOf (holeChanges s t)) s t := by
  intro t
  have frame := UnitFrame.decideStandings b e
  have view : e.faultView = s.faultView := by
    unfold State.faultView
    rw [hs]
  have changes : holeChanges s t = holeChanges e (decideStandings b e) := holeChanges_close ht b
  have detail : e.faults.detail = s.faults.detail := by
    have := congrArg Faults.detail hf
    rwa [Faults.detail_produceAll] at this
  refine LogTells.close hm (by rw [frame.site, hs]) (by
    unfold State.depositOutstanding
    rw [frame.path, hp]) ?_
  rw [decideStandings_faults, view, ← changes, Faults.produceAll_append, ← hf]
  unfold State.noticesOf
  cases hi : s.site.mode.inService
  · rw [Faults.reports_idle s.faultView hi]
    rfl
  · refine Faults.withLatches_reports _ _ hi _ (holeChanges_nodup s t) _ _ ?_ detail
    intro r hr
    obtain ⟨d, k, e⟩ := holeChanges_id hr
    rw [e]
    exact hl d k

/-- An event that makes the reports `l` on unit latches and changes no cell's trend, settled and closed:
its notices are those of `l` and then of the changes of HOLE. -/
theorem LogTells.close_settled {s e : State} (l : List Report)
    (hn : (l.map Report.id).Nodup) (hu : ∀ r ∈ l, ∀ d k, r.id ≠ .hole d k)
    (hm : s.site.mode ≠ .stopping) (hs : e.site = s.site) (hp : e.path = s.path)
    (hf : e.faults = l.foldl (fun g r => g.report s.faultView r.id r.present r.alarms) s.faults)
    (ht : ∀ d k, (e.steering.cell d k).trend = (s.steering.cell d k).trend) (b : Steering) :
    let t := Machine.close (decideStandings b e)
    LogTells (s.noticesOf (l ++ holeChanges s t)) s t := by
  intro t
  rw [State.noticesOf_append]
  refine LogTells.settled hm hs hp ?_ (fun d k => ?_) ht b
  · rw [hf]
    unfold State.noticesOf
    cases hi : s.site.mode.inService
    · rw [Faults.reports_idle s.faultView hi]
      rfl
    · exact Faults.withLatches_reports _ _ hi l hn _ _ (fun _ _ => rfl) rfl
  · rw [hf]
    cases hi : s.site.mode.inService
    · rw [Faults.reports_idle s.faultView hi]
    · exact (Faults.afterReports_foldl s.faultView hi l s.faults hn).2 _ fun r hr => hu r hr d k

/-- A quiet event and the reports behind it, settled and closed: their notices. -/
theorem LogTells.behind_quiet {s e q : State} (u : UnitId) (l : List ConditionChange)
    (hl : (l.map ConditionChange.kind).Nodup) (h : Quiet s q) (hm : s.site.mode ≠ .stopping)
    (hp : e.path = s.path)
    (he : e.site = (reportChanges u l q).site) (hf : e.faults = (reportChanges u l q).faults)
    (ht : ∀ d k, (e.steering.cell d k).trend = (q.steering.cell d k).trend) (b : Steering) :
    let t := Machine.close (decideStandings b e)
    LogTells (s.noticesOf (l.map (ConditionChange.report u) ++ holeChanges s t)) s t := by
  have view : q.faultView = s.faultView := by
    unfold State.faultView
    rw [h.site]
  refine LogTells.close_settled _ ?_ ?_ hm ?_ hp ?_ ?_ b
  · rw [List.map_map]
    have : (Report.id ∘ ConditionChange.report u) = LatchId.unit u ∘ ConditionChange.kind := rfl
    rw [this, ← List.map_map]
    exact hl.map fun a b e => by
      injection e
  · intro r hr d k
    obtain ⟨c, _, rfl⟩ := List.mem_map.mp hr
    exact fun e => by cases e
  · rw [he, (UnitFrame.reportChanges u l q).site, h.site]
  · rw [hf, reportChanges_faults, view, h.faults]
  · exact fun d k => (ht d k).trans (h.trends d k)

/-- A quiet event, settled and closed: the notices of the changes of HOLE. -/
theorem LogTells.of_quiet {s e : State} (h : Quiet s e) (hm : s.site.mode ≠ .stopping)
    (hp : e.path = s.path) (b : Steering) :
    let t := Machine.close (decideStandings b e)
    LogTells (s.noticesOf (holeChanges s t)) s t :=
  LogTells.behind_quiet 0 [] List.nodup_nil h hm hp rfl rfl (fun _ _ => rfl) b

/-- A quiet event and its end, with no standing to decide: no notice. -/
theorem LogTells.of_closed {s e : State} (h : Quiet s e) (hm : s.site.mode ≠ .stopping)
    (hp : e.path = s.path) : LogTells [] s (Machine.close e) :=
  LogTells.close hm (by rw [h.site]) (by
    unfold State.depositOutstanding
    rw [hp]) (by rw [h.faults]; rfl)

end Sys2Proof.Machine
end

