-- ==== Sys2Proof/Laws/Units.lean ====
section
/-! SUPPORT. Every operation of the Unit Supervisor keeps the unit records' invariant. -/

namespace Sys2Proof.Machine

open Sys2Proof

/-! ## Records -/

/-- Filters whose runs are at most 8. -/
def FiltersOk (b : Bank 4 AlarmFilter) : Prop := ∀ a, (b.get a).onset ≤ 8 ∧ (b.get a).clear ≤ 8

theorem FiltersOk.afterReset : FiltersOk (Bank.fill AlarmFilter.afterReset) := by
  intro a
  rw [Bank.get_fill]
  exact ⟨Nat.zero_le _, Nat.zero_le _⟩

theorem AlarmFilter.update_runs (f : AlarmFilter) (o c r) (h : f.onset ≤ 8 ∧ f.clear ≤ 8) :
    (f.update o c r).onset ≤ 8 ∧ (f.update o c r).clear ≤ 8 := by
  unfold AlarmFilter.update
  split
  · exact ⟨countUp_le h.1, Nat.zero_le _⟩
  · exact ⟨Nat.zero_le _, countUp_le h.2⟩

theorem FiltersOk.filtered {r : UnitRecord} (h : FiltersOk r.filters) (t a) :
    FiltersOk (r.filtered t a) := by
  intro i
  unfold UnitRecord.filtered
  rw [Bank.get_tabulate]
  exact AlarmFilter.update_runs _ _ _ _ (h i)

theorem UnitRecord.Inv.afterReset : UnitRecord.afterReset.Inv := by
  refine ⟨Nat.zero_le _, FiltersOk.afterReset, ?_, ?_, ?_, ?_, ?_, ?_⟩ <;>
    simp [UnitRecord.afterReset]

theorem UnitRecord.Inv.atStart (c u) : (UnitRecord.atStart c u).Inv := by
  refine ⟨Nat.zero_le _, FiltersOk.afterReset, ?_, ?_, ?_, ?_, ?_, ?_⟩ <;>
    simp [UnitRecord.atStart, UnitRecord.afterReset]; split <;> simp

theorem UnitRecord.Inv.stopped {r : UnitRecord} (h : r.Inv) : r.stopped.Inv := by
  refine ⟨h.1, FiltersOk.afterReset, ?_, ?_, ?_, ?_, ?_, ?_⟩ <;> simp [UnitRecord.stopped]

theorem UnitRecord.Inv.goOut {r : UnitRecord} (h : r.Inv) (hi : r.impaired = false) :
    r.goOut.Inv := by
  refine ⟨h.1, FiltersOk.afterReset, ?_, ?_, ?_, ?_, ?_, ?_⟩ <;> simp [UnitRecord.goOut, hi]

theorem UnitRecord.Inv.takeStatus {r : UnitRecord} (h : r.Inv) (t a f) :
    (r.takeStatus t a f).Inv := by
  obtain ⟨h1, h2, h3⟩ := h
  exact ⟨h1, FiltersOk.filtered h2 t a, h3⟩

theorem UnitRecord.Inv.breakEnded {r : UnitRecord} (h : r.Inv) : r.breakEnded.Inv := by
  unfold UnitRecord.breakEnded
  split
  · next hs =>
    obtain ⟨h1, h2, h3, h4⟩ := h
    exact ⟨h1, h2, fun _ => hs, h4⟩
  · exact h

/-- A record in LIVE or PROBING goes DOWN. -/
theorem UnitRecord.Inv.goDown {r : UnitRecord} (h : r.Inv) (hi : r.impaired = false)
    (hs : r.state = .live ∨ r.state = .probing) (t) : (r.goDown t).Inv := by
  obtain ⟨h1, h2, h3, h4, h5, h6, h7, h8⟩ := h
  have hg : r.guard = false := by
    by_contra k
    have := h3 (by simpa using k)
    rcases hs with e | e <;> rw [e] at this <;> cases this
  have hr : r.recovery = none := by
    by_contra k
    have := (h4 (Option.isSome_iff_ne_none.mpr k)).1
    rcases hs with e | e <;> rw [e] at this <;> cases this
  have he : r.exhausted = false := by
    by_contra k
    have := h5 (by simpa using k)
    rcases hs with e | e <;> rw [e] at this <;> cases this
  have ha : r.admin = .goIn := h8 (by rcases hs with e | e <;> simp [e])
  unfold UnitRecord.goDown
  split
  · exact ⟨h1, h2, by simp [hg], by simp [he], by simp, by simp [hi], by simp, fun _ => ha⟩
  · exact ⟨h1, h2, by simp [hg], by simp [hr], by simp, by simp [hi], by simp, fun _ => ha⟩

/-- A record goes to RESETTING with its guard and recovery timers stopped. -/
theorem UnitRecord.Inv.resetting {r : UnitRecord} (h1 : r.attempts ≤ 255)
    (h2 : FiltersOk r.filters) (he : r.exhausted = false) (hi : r.impaired = false)
    (ha : r.admin = .goIn) :
    ({ r with state := .resetting, guard := false, recovery := none } : UnitRecord).Inv :=
  ⟨h1, h2, by simp, by simp, by simp [he], by simp [hi], by simp, fun _ => ha⟩

/-! ## All units -/

/-- Every unit record has the invariant. -/
def State.UnitsInv (s : State) : Prop := ∀ u, (s.unit u).Inv

namespace State.UnitsInv

variable {s : State}

theorem of_units {t : State} (h : s.UnitsInv) (e : t.units = s.units) : t.UnitsInv := by
  intro u
  unfold State.unit
  rw [e]
  exact h u

theorem of_frame {t : State} (h : s.UnitsInv) (e : CarrierFrame s t) : t.UnitsInv :=
  h.of_units e.units

theorem onUnit (h : s.UnitsInv) {u f} (hf : (f (s.unit u)).Inv) : (s.onUnit u f).UnitsInv := by
  intro v
  rw [State.unit_onUnit]
  split
  · exact hf
  · exact h v

end State.UnitsInv

theorem reportChanges_units (u c) (s : State) : (reportChanges u c s).units = s.units := by
  unfold reportChanges
  refine foldl_field State.units c ?_ s
  intro s _
  rfl

theorem decideStandings_units (b) (s : State) : (decideStandings b s).units = s.units := by
  refine foldl_field State.units _ ?_ s
  intro s p
  unfold decideCell
  simp only
  split
  · rfl
  · split <;> rfl

theorem unitLeftLive_unit (s : State) (u v) : (unitLeftLive s u).unit v = s.unit v := by
  unfold State.unit
  rw [(CarrierFrame.unitLeftLive s u).units]

theorem unitReachedLive_unit (s : State) (u v) : (unitReachedLive s u).unit v = s.unit v := by
  unfold State.unit
  rw [(CarrierFrame.unitReachedLive s u).units]

/-- The mark takes the value asked for, and nothing else of the records changes. -/
theorem setImpaired_unit (u v w) (s : State) :
    (setImpaired u v s).unit w =
      if w = u then { s.unit u with impaired := v } else s.unit w := by
  unfold setImpaired
  split
  · next h =>
    split
    · next e => rw [e, ← h]
    · rfl
  · rw [State.unit_onSteering', State.unit_onUnit]

theorem leaveLive_unit (u w) (s : State) :
    (leaveLive u s).unit w = if w = u then { s.unit u with impaired := false } else s.unit w := by
  unfold leaveLive
  rw [setImpaired_unit, State.unit_onSteering', State.unit_onSteering', unitLeftLive_unit,
    unitLeftLive_unit]

/-- After the handling of R117 a unit of the invariant that was in a state is not impaired. -/
theorem leaveIfLive_unit (u w) (s : State) (st : UnitState) :
    (leaveIfLive st u s).unit w =
      if w = u ∧ st = .live then { s.unit u with impaired := false } else s.unit w := by
  unfold leaveIfLive
  by_cases h : st = .live
  · rw [if_pos h, leaveLive_unit]
    simp [h]
  · rw [if_neg h]
    simp [h]

namespace State.UnitsInv

variable {s : State}

theorem reportChanges (h : s.UnitsInv) (u c) : (reportChanges u c s).UnitsInv :=
  h.of_units (reportChanges_units u c s)

theorem decideStandings (h : s.UnitsInv) (b) : (decideStandings b s).UnitsInv :=
  h.of_units (decideStandings_units b s)

theorem setImpaired (h : s.UnitsInv) (u v) (hv : v = true → (s.unit u).state = .live) :
    (setImpaired u v s).UnitsInv := by
  intro w
  rw [setImpaired_unit]
  split
  · obtain ⟨h1, h2, h3, h4, h5, -, h7⟩ := h u
    exact ⟨h1, h2, h3, h4, h5, hv, h7⟩
  · exact h w

theorem decideImpaired (h : s.UnitsInv) (u) : (decideImpaired u s).UnitsInv := by
  refine h.setImpaired u _ fun k => ?_
  unfold UnitRecord.shouldImpair at k
  simp at k
  exact k.1

theorem leaveIfLive (h : s.UnitsInv) (st u) : (leaveIfLive st u s).UnitsInv := by
  intro w
  rw [leaveIfLive_unit]
  split
  · obtain ⟨h1, h2, h3, h4, h5, -, h7⟩ := h u
    exact ⟨h1, h2, h3, h4, h5, by simp, h7⟩
  · exact h w

/-- A record of the invariant in a state other than LIVE is not impaired. -/
theorem unimpaired (h : s.UnitsInv) {u} (hs : (s.unit u).state ≠ .live) :
    (s.unit u).impaired = false := by
  by_contra k
  exact hs ((h u).2.2.2.2.2.1 (by simpa using k))

/-- The record after the emptying, R117 and the break request of a unit leaving its state. -/
theorem left_unit (s : State) (u w) :
    (((Machine.leaveIfLive (s.unit u).state u (s.onLink u Link.fullEmpty)).onLink u
      Link.askBreak).unit w) =
      if w = u ∧ (s.unit u).state = .live then { s.unit u with impaired := false } else s.unit w :=
  leaveIfLive_unit u w (s.onLink u Link.fullEmpty) (s.unit u).state

theorem left (h : s.UnitsInv) (u) :
    ((Machine.leaveIfLive (s.unit u).state u (s.onLink u Link.fullEmpty)).onLink u
      Link.askBreak).UnitsInv :=
  (State.UnitsInv.leaveIfLive (s := s.onLink u Link.fullEmpty) (h.of_units rfl) _ u).of_units rfl

theorem left_unimpaired (h : s.UnitsInv) (u) :
    (((Machine.leaveIfLive (s.unit u).state u (s.onLink u Link.fullEmpty)).onLink u
      Link.askBreak).unit u).impaired = false := by
  rw [left_unit]
  split
  · rfl
  · next k =>
    refine h.unimpaired fun e => k ⟨rfl, e⟩

theorem left_state (s : State) (u) :
    (((Machine.leaveIfLive (s.unit u).state u (s.onLink u Link.fullEmpty)).onLink u
      Link.askBreak).unit u).state = (s.unit u).state := by
  rw [left_unit]
  split <;> rfl

theorem enterDown (h : s.UnitsInv) {u}
    (hs : (s.unit u).state = .live ∨ (s.unit u).state = .probing) : (enterDown u s).UnitsInv := by
  refine (h.left u).onUnit ?_
  refine UnitRecord.Inv.goDown (h.left u u) (h.left_unimpaired u) ?_ _
  rw [left_state]
  exact hs

theorem goOut (h : s.UnitsInv) (u) : (goOut u s).UnitsInv := by
  refine State.UnitsInv.reportChanges ?_ u _
  exact (h.left u).onUnit ((h.left u u).goOut (h.left_unimpaired u))

theorem requestOut (h : s.UnitsInv) (u) : (requestOut u s).UnitsInv := by
  unfold Machine.requestOut
  split
  · exact h
  · exact h
  · exact h.goOut u

/-- Entry to RESETTING after a change `f` of the record that leaves the state. -/
theorem toResetting (h : s.UnitsInv) {u f} (hf : (f (s.unit u)).attempts ≤ 255)
    (h2 : FiltersOk (f (s.unit u)).filters) (he : (f (s.unit u)).exhausted = false)
    (hi : (f (s.unit u)).impaired = false) (ha : (f (s.unit u)).admin = .goIn) :
    (enterResetting u (s.onUnit u f)).UnitsInv := by
  intro w
  unfold enterResetting
  rw [State.unit_onLink', State.unit_onUnit]
  split
  · rw [State.unit_onUnit_self]
    exact UnitRecord.Inv.resetting hf h2 he hi ha
  · next k =>
    rw [State.unit_onUnit_ne _ _ k]
    exact h w

theorem requestIn (h : s.UnitsInv) (u) : (requestIn u s).UnitsInv := by
  unfold Machine.requestIn
  split
  · next hs =>
    refine h.toResetting (Nat.zero_le _) (h u).2.1 ?_ ?_ rfl
    · by_contra k
      have := (h u).2.2.2.2.1 (by simpa using k)
      rw [hs] at this
      cases this
    · exact h.unimpaired (by rw [hs]; simp)
  · exact h

theorem requestRevive (h : s.UnitsInv) (u) : (requestRevive u s).UnitsInv := by
  unfold Machine.requestRevive
  split
  · next hs =>
    refine h.toResetting (Nat.zero_le _) (h u).2.1 rfl ?_ ?_
    · exact h.unimpaired (by rw [hs.1]; simp)
    · exact (h u).2.2.2.2.2.2.2 (by simp [hs.1])
  · exact h

theorem recoveryAttempt (h : s.UnitsInv) {u} (hs : (s.unit u).state = .down)
    (he : (s.unit u).exhausted = false) : (recoveryAttempt u s).UnitsInv := by
  refine h.toResetting (countUp_le (h u).1) (h u).2.1 he ?_ ?_
  · exact h.unimpaired (by rw [hs]; simp)
  · exact (h u).2.2.2.2.2.2.2 (by simp [hs])

theorem guardExpired (h : s.UnitsInv) {u} (hs : (s.unit u).state = .resetting) :
    (guardExpired u s).UnitsInv := by
  refine State.UnitsInv.of_units (s := s.onUnit u fun r => { r with state := .probing, guard := false })
    ?_ rfl
  refine h.onUnit ?_
  obtain ⟨h1, h2, h3, h4, h5, h6, h7, h8⟩ := h u
  have hr : (s.unit u).recovery = none := by
    by_contra k
    have := (h4 (Option.isSome_iff_ne_none.mpr k)).1
    rw [hs] at this; cases this
  have he : (s.unit u).exhausted = false := by
    by_contra k
    have := h5 (by simpa using k)
    rw [hs] at this; cases this
  have hi : (s.unit u).impaired = false := h.unimpaired (by rw [hs]; simp)
  exact ⟨h1, h2, by simp, by simp [hr], by simp [he], by simp [hi], by simp,
    fun _ => h8 (by simp [hs])⟩

theorem unitBreak (h : s.UnitsInv) (u) : (unitBreak u s).UnitsInv := by
  unfold Machine.unitBreak
  split
  · next hs =>
    obtain ⟨h1, h2, h3, h4, h5, h6, h7, h8⟩ := h u
    have hg : (s.unit u).guard = false := by
      by_contra k
      have := h3 (by simpa using k)
      rw [hs] at this; cases this
    have hr : (s.unit u).recovery = none := by
      by_contra k
      have := (h4 (Option.isSome_iff_ne_none.mpr k)).1
      rw [hs] at this; cases this
    have he : (s.unit u).exhausted = false := by
      by_contra k
      have := h5 (by simpa using k)
      rw [hs] at this; cases this
    intro w
    unfold restartLive reportRestart
    rw [State.unit_setFaults', State.unit_onLink', leaveLive_unit, State.unit_onLink',
      State.unit_onLink']
    split
    · rw [State.unit_onUnit_self]
      exact ⟨h1, h2, by simp [hg], by simp [hr], by simp [he], by simp, by simp,
        fun _ => h8 (by simp [hs])⟩
    · next k =>
      rw [State.unit_onUnit_ne _ _ k]
      exact h w
  · exact h.of_units (t := restartProbing u s) rfl
  · next hs =>
    split
    · exact h
    · next he => exact h.recoveryAttempt hs (by simpa using he)
  · exact h

theorem secondTimeout (h : s.UnitsInv) (u) : (secondTimeout u s).UnitsInv := by
  have h1 : (s.onUnit u fun r => { r with silent := true }).UnitsInv := h.onUnit (h u)
  unfold Machine.secondTimeout
  simp only
  split
  · next hs =>
    refine State.UnitsInv.reportChanges (h1.enterDown ?_) u _
    rw [State.unit_onUnit_self]
    exact .inl hs
  · exact h1.reportChanges u _
  · exact h

theorem goLive (h : s.UnitsInv) {u} (hs : (s.unit u).state = .probing) : (goLive u s).UnitsInv := by
  refine State.UnitsInv.decideImpaired ?_ u
  refine State.UnitsInv.of_frame ?_ (CarrierFrame.unitReachedLive _ u)
  refine h.onUnit ?_
  obtain ⟨h1, h2, h3, h4, h5, h6, h7, h8⟩ := h u
  have hg : (s.unit u).guard = false := by
    by_contra k
    have := h3 (by simpa using k)
    rw [hs] at this; cases this
  have hr : (s.unit u).recovery = none := by
    by_contra k
    have := (h4 (Option.isSome_iff_ne_none.mpr k)).1
    rw [hs] at this; cases this
  have he : (s.unit u).exhausted = false := by
    by_contra k
    have := h5 (by simpa using k)
    rw [hs] at this; cases this
  exact ⟨Nat.zero_le _, h2, by simp [hg], by simp [hr], by simp [he], by simp, by simp,
    fun _ => h8 (by simp [hs])⟩

theorem takeStatus (h : s.UnitsInv) (u a f) : (takeStatus u a f s).UnitsInv := by
  unfold Machine.takeStatus
  simp only
  refine State.UnitsInv.of_frame ?_ (CarrierFrame.onSteering _ _)
  split
  · next hs =>
    unfold probingStatus
    simp only
    refine State.UnitsInv.reportChanges ?_ u _
    have h1 : (s.onUnit u fun _ =>
        { s.unit u with silent := false }.takeStatus s.site a f).UnitsInv :=
      h.onUnit (UnitRecord.Inv.takeStatus (r := { s.unit u with silent := false }) (h u) s.site a f)
    have h2 : ((s.onUnit u fun _ =>
        { s.unit u with silent := false }.takeStatus s.site a f).unit u).state = .probing := by
      rw [State.unit_onUnit_self]
      exact hs
    unfold probingDecision
    split
    · exact h1.enterDown (.inr h2)
    · split
      · exact h1.goLive h2
      · exact h1
  · next hs =>
    unfold liveStatus
    simp only
    refine State.UnitsInv.reportChanges ?_ u _
    have h1 : (s.onUnit u fun _ => (s.unit u).takeStatus s.site a f).UnitsInv :=
      h.onUnit ((h u).takeStatus s.site a f)
    split
    · refine h1.enterDown (.inl ?_)
      rw [State.unit_onUnit_self]
      exact hs
    · exact h1.decideImpaired u
  · exact h

theorem pollUnits (h : s.UnitsInv) : ((List.finRange 24).foldl pollUnit s).UnitsInv := by
  refine foldl_keeps (p := State.UnitsInv) _ ?_ s h
  intro s u h
  have h1 : (s.onUnit u fun r =>
      { r with garbled := garbledNow s.site (s.link u).errorWindow }).UnitsInv := h.onUnit (h u)
  unfold pollUnit
  simp only
  split
  · refine State.UnitsInv.reportChanges ?_ u _
    exact h1.of_units rfl
  · refine State.UnitsInv.reportChanges ?_ u _
    exact h1.of_units rfl
  · exact h

end State.UnitsInv

end Sys2Proof.Machine
end

