-- ==== Sys2Proof/Laws/Parts.lean ====
section
/-! SUPPORT. The parts of one written word: what neither reads nor writes the consumer index and the
presented own access may be taken before or after a presentation, so that the parts of a word delivered
one by one leave what the word leaves. -/

namespace Sys2Proof.Machine

open Sys2Proof

/-! ## The Fault Reporter at another consumer index -/

/-- The Fault Reporter with another consumer index. -/
def Faults.atConsumer (c : Nat) (f : Faults) : Faults := { f with consumer := c }

section

variable (f : Faults) (c : Nat) (v : FaultView) (id : LatchId)

@[simp] theorem Faults.latch_atConsumer : (f.atConsumer c).latch id = f.latch id := by
  cases id <;> rfl

theorem Faults.setLatch_atConsumer (l : Latch) :
    (f.atConsumer c).setLatch id l = (f.setLatch id l).atConsumer c := by
  cases id <;> rfl

theorem Faults.latchBody_atConsumer (k : NoticeKind) :
    (f.atConsumer c).latchBody k id = f.latchBody k id := by
  cases id <;> rfl

theorem Faults.produce_atConsumer (b : NoticeBody) :
    (f.atConsumer c).produce v b = (f.produce v b).atConsumer c := by
  unfold Faults.produce
  have hr : (f.atConsumer c).hasRoom = f.hasRoom := rfl
  have hs : (f.atConsumer c).suppressed = f.suppressed := rfl
  rw [hr, hs]
  split
  · split <;> rfl
  · rfl

theorem Faults.raise_atConsumer : (f.atConsumer c).raise v id = (f.raise v id).atConsumer c := by
  unfold Faults.raise
  have hn : (f.atConsumer c).nextNumber = f.nextNumber := rfl
  simp only [Faults.latch_atConsumer, Faults.latchBody_atConsumer, Faults.setLatch_atConsumer, hn,
    Faults.produce_atConsumer]
  split <;> rfl

theorem Faults.clearLatch_atConsumer :
    (f.atConsumer c).clearLatch v id = (f.clearLatch v id).atConsumer c := by
  unfold Faults.clearLatch
  simp only [Faults.latch_atConsumer, Faults.latchBody_atConsumer, Faults.setLatch_atConsumer,
    Faults.produce_atConsumer]
  split <;> rfl

theorem Faults.acknowledge_atConsumer :
    (f.atConsumer c).acknowledge v id = (f.acknowledge v id).atConsumer c := by
  unfold Faults.acknowledge
  simp only [Faults.latch_atConsumer, Faults.setLatch_atConsumer, Faults.clearLatch_atConsumer]
  split; · rfl
  split; · rfl
  split; · rfl
  split <;> rfl

theorem Faults.report_atConsumer (present : Bool) (alarms : Option (BitVec 4)) :
    (f.atConsumer c).report v id present alarms = (f.report v id present alarms).atConsumer c := by
  unfold Faults.report Faults.record
  simp only [Faults.latch_atConsumer, Faults.setLatch_atConsumer, Faults.clearLatch_atConsumer,
    Faults.raise_atConsumer]
  split
  · split
    · split <;> rfl
    · split <;> rfl
  · rfl

end

/-! ## Operations apart from the ring's consumer and the presented own access -/

/-- The state with another consumer index and another presented own access. -/
def State.withRing (c : Nat) (p : Option OwnAccess) (s : State) : State :=
  (s.setFaults (s.faults.atConsumer c)).setPath { s.path with ownPresented := p }

/-- The operation neither reads nor writes the consumer index and the presented own access. -/
def Apart (op : State → State) : Prop := ∀ c p s, op (s.withRing c p) = (op s).withRing c p

namespace Apart

theorem comp {f g : State → State} (hf : Apart f) (hg : Apart g) : Apart fun s => f (g s) := by
  intro c p s
  show f (g (s.withRing c p)) = (f (g s)).withRing c p
  rw [hg, hf]

theorem foldl {α : Type} {step : State → α → State} (h : ∀ a, Apart fun s => step s a) :
    ∀ l : List α, Apart fun s => l.foldl step s
  | [] => fun _ _ _ => rfl
  | a :: l => fun c p s => by
    show l.foldl step (step (s.withRing c p) a) = _
    rw [show step (s.withRing c p) a = (step s a).withRing c p from h a c p s]
    exact foldl h l c p _

theorem onUnit (u f) : Apart fun s => s.onUnit u f := fun _ _ _ => rfl

theorem onLink (u f) : Apart fun s => s.onLink u f := fun _ _ _ => rfl

theorem onSteering (f) : Apart fun s => s.onSteering f := fun _ _ _ => rfl

/-- Latches and notices alone. -/
theorem onFaults {f : FaultView → Faults → Faults}
    (h : ∀ v c g, f v (g.atConsumer c) = (f v g).atConsumer c) :
    Apart fun s => s.setFaults (f s.faultView s.faults) := by
  intro c p s
  show (s.withRing c p).setFaults (f s.faultView (s.faults.atConsumer c)) = _
  rw [h]
  rfl

theorem updateSlot (n x) : Apart fun s => s.updateSlot n x := by
  intro c p s
  simp only [State.updateSlot]
  have h : (s.withRing c p).context n = s.context n := rfl
  rw [h]
  split
  · rfl
  · split <;> rfl

theorem suspendSlot (n) : Apart fun s => suspendSlot s n := by
  intro c p s
  simp only [Machine.suspendSlot]
  have h : (s.withRing c p).context n = s.context n := rfl
  have hi : (s.withRing c p).impairedAt n = s.impairedAt n := rfl
  rw [h, hi]
  split
  · rfl
  · rfl
  · exact (onSteering (Steering.lost n)).comp (updateSlot n _) c p s
  · exact updateSlot n _ c p s
  · exact updateSlot n _ c p s
  · exact (onSteering (Steering.leftOnAir n _)).comp (updateSlot n _) c p s
  · exact (onSteering (Steering.lost n)).comp (updateSlot n _) c p s

theorem unitLeftLive (u) : Apart fun s => unitLeftLive s u := foldl suspendSlot _

theorem setImpaired (u v) : Apart (setImpaired u v) := by
  intro c p s
  unfold Machine.setImpaired
  have h : (s.withRing c p).unit u = s.unit u := rfl
  rw [h]
  split <;> rfl

theorem leaveLive (u) : Apart (leaveLive u) :=
  (setImpaired u false).comp ((onSteering (Steering.zeroFigures u)).comp (unitLeftLive u))

theorem leaveIfLive (was u) : Apart (leaveIfLive was u) := by
  unfold Machine.leaveIfLive
  split
  · exact leaveLive u
  · exact fun _ _ _ => rfl

theorem reportChanges (u l) : Apart (reportChanges u l) :=
  foldl (fun _ => onFaults fun v c g => Faults.report_atConsumer g c v _ _ _) l

theorem goOut (u) : Apart (goOut u) := by
  intro c p s
  exact (reportChanges u (releasedChanges (s.unit u))).comp
    ((onUnit u UnitRecord.goOut).comp ((onLink u Link.askBreak).comp
      ((leaveIfLive (s.unit u).state u).comp (onLink u Link.fullEmpty)))) c p s

theorem requestOut (u) : Apart (requestOut u) := by
  intro c p s
  unfold Machine.requestOut
  have h : (s.withRing c p).unit u = s.unit u := rfl
  rw [h]
  split
  · rfl
  · rfl
  · exact goOut u c p s

theorem requestIn (u) : Apart (requestIn u) := by
  intro c p s
  unfold Machine.requestIn
  have h : (s.withRing c p).unit u = s.unit u := rfl
  rw [h]
  split <;> rfl

theorem requestRevive (u) : Apart (requestRevive u) := by
  intro c p s
  unfold Machine.requestRevive
  have h : (s.withRing c p).unit u = s.unit u := rfl
  rw [h]
  split <;> rfl

theorem acknowledgeUnit (u kinds) : Apart (acknowledgeUnit u kinds) := by
  refine onFaults (f := fun v f => (List.finRange 7).foldl
    (fun f k => if kinds.getLsbD k.val then f.acknowledge v (.unit u k) else f) f) fun v c g => ?_
  generalize List.finRange 7 = l
  induction l generalizing g with
  | nil => rfl
  | cons k l ih =>
    simp only [List.foldl_cons]
    split
    · rw [Faults.acknowledge_atConsumer, ih]
    · exact ih g

theorem acknowledgeSite (id) : Apart (acknowledgeSite id) :=
  onFaults fun v c g => Faults.acknowledge_atConsumer g c v id

theorem clearDepositMark : Apart clearDepositMark := fun _ _ _ => rfl

theorem decideCell (b : Steering) (n k) : Apart fun s => decideCell b s n k := by
  intro c p s
  simp only [Machine.decideCell]
  have h : (s.withRing c p).steering = s.steering := rfl
  rw [h]
  split
  · rfl
  split
  · rfl
  · exact onFaults
      (f := fun v g => g.report v (.hole n k) (s.steering.cell n k).settle.hole none)
      (fun v c g => Faults.report_atConsumer g c v _ _ _) c p
      (s.setSteering (s.steering.onCell n k Cell.settle))

theorem decideStandings (b : Steering) : Apart (decideStandings b) := by
  intro c p s
  unfold Machine.decideStandings
  generalize cellOrder = l
  exact foldl (step := fun s q => Machine.decideCell b s q.1 q.2)
    (fun q => decideCell b q.1 q.2) l c p s

theorem settling {op : State → State} (h : Apart op) : Apart (settling op) := by
  intro c p s
  unfold Machine.settling
  rw [h]
  exact decideStandings s.steering c p _

end Apart

/-! ## A presentation in between changes nothing -/

/-- What a later part of the same word leaves of what a presentation reads: the mode, the own accesses
and the ring stay, and notices join the queue at its tail. -/
structure TailOnly (s t : State) : Prop where
  mode : t.site.mode = s.site.mode
  path : t.path = s.path
  producer : t.faults.producer = s.faults.producer
  consumer : t.faults.consumer = s.faults.consumer
  ringSize : t.faults.ringSize = s.faults.ringSize
  ringBase : t.faults.ringBase = s.faults.ringBase
  queue : NoticesJoin s.faults t.faults

theorem UnitFrame.tailOnly {s t : State} (f : UnitFrame s t) : TailOnly s t :=
  ⟨by rw [f.site], f.path, f.ring.1, f.ring.2.1, f.ring.2.2.1, f.ring.2.2.2.1, f.joins⟩

theorem TailOnly.clearDepositMark (s : State) : TailOnly s (clearDepositMark s) :=
  ⟨rfl, rfl, rfl, rfl, rfl, rfl, .refl _⟩

/-- A presentation: the consumer index of the room made, and the head notice's deposit. -/
theorem pump_presents {s : State} (hm : s.site.mode.inService = true)
    (hd : s.depositOutstanding = false) {x : Notice} {l : List Notice}
    (hq : s.faults.queue = x :: l) (hmay : s.faults.mayDeposit s.site.mode = true) :
    pump s = s.withRing (s.faults.makeRoom s.site.mode).consumer
      (some (s.faults.depositOf x)) := by
  unfold pump
  rw [if_neg (by simp [hd]), hq]
  simp only [hmay, if_true]
  cases hs : s.site.mode <;> rw [hs] at hm <;> try cases hm
  · rfl
  · unfold Faults.makeRoom Faults.freeEntry
    simp only
    split <;> rfl

/-- With a full ring in SERVING nothing is presented. -/
theorem pump_waits {s : State} (hm : s.site.mode.inService = true) {x : Notice} {l : List Notice}
    (hq : s.faults.queue = x :: l) (hmay : s.faults.mayDeposit s.site.mode = false) :
    pump s = s := by
  unfold pump
  split
  · rfl
  · rw [hq]
    simp only [hmay]
    cases hs : s.site.mode <;> rw [hs] at hm hmay <;> try cases hm
    · rfl
    · simp [Faults.mayDeposit, Mode.windowsUp] at hmay

/-- In service the end of an event presents a deposit, and may move the consumer index, or does
nothing; a second end of event behind it does nothing more. -/
theorem close_close {op : State → State} (h : Apart op) {s : State} (ht : TailOnly s (op s))
    (hm : s.site.mode.inService = true) : close (op (close s)) = close (op s) := by
  have hns : s.site.mode ≠ .stopping := by intro e; rw [e] at hm; cases hm
  have hnt : (op s).site.mode ≠ .stopping := by rw [ht.mode]; exact hns
  have hmt : (op s).site.mode.inService = true := by rw [ht.mode]; exact hm
  rw [close_eq s hns]
  by_cases hd : s.depositOutstanding = true
  · rw [show pump s = s by unfold pump; rw [if_pos hd]]
  cases hq : s.faults.queue with
  | nil => rw [show pump s = s by unfold pump; rw [if_neg hd, hq]]
  | cons x l =>
    cases hmay : s.faults.mayDeposit s.site.mode with
    | false => rw [pump_waits hm hq hmay]
    | true =>
      simp only [Bool.not_eq_true] at hd
      obtain ⟨more, hmore⟩ := ht.queue
      have hqt : (op s).faults.queue = x :: (l ++ more) := by rw [hmore, hq]; rfl
      have hdt : (op s).depositOutstanding = false := by
        unfold State.depositOutstanding at hd ⊢; rw [ht.path]; exact hd
      have hfull : (op s).faults.ringFull = s.faults.ringFull := by
        unfold Faults.ringFull Faults.unconsumed
        rw [ht.producer, ht.consumer, ht.ringSize]
      have hmayt : (op s).faults.mayDeposit (op s).site.mode = true := by
        unfold Faults.mayDeposit at hmay ⊢; rw [hfull, ht.mode]; exact hmay
      have hroom : ((op s).faults.makeRoom (op s).site.mode).consumer =
          (s.faults.makeRoom s.site.mode).consumer := by
        rw [ht.mode]
        cases hs : s.site.mode <;> rw [hs] at hm <;> try cases hm
        · exact ht.consumer
        · unfold Faults.makeRoom Faults.freeEntry
          simp only [hfull]
          split
          · simp only [ht.consumer, ht.ringSize]
          · exact ht.consumer
      have hdep : (op s).faults.depositOf x = s.faults.depositOf x := by
        unfold Faults.depositOf Faults.entryAddress
        rw [ht.producer, ht.ringBase]
      rw [pump_presents hm hd hq hmay, h, close_eq (op s) hnt,
        pump_presents hmt hdt hqt hmayt, hroom, hdep, close_eq _ (by exact hnt)]
      unfold pump
      exact if_pos rfl

/-! ## The parts of a u4 write -/

/-- An event that leaves the Steering Engine decides no standing. -/
theorem settling_same {op : State → State} {s : State} (h : (op s).steering = s.steering) :
    settling op s = op s :=
  decideStandings_same s.steering (op s) h

theorem requestIn_steering (u : UnitId) (s : State) : (requestIn u s).steering = s.steering := by
  unfold requestIn
  split <;> rfl

theorem requestRevive_steering (u : UnitId) (s : State) :
    (requestRevive u s).steering = s.steering := by
  unfold requestRevive
  split <;> rfl

/-- REVIVE does nothing to a unit that is not DOWN. -/
theorem requestRevive_none {u : UnitId} {s : State} (h : (s.unit u).state ≠ .down) :
    requestRevive u s = s := by
  unfold requestRevive
  exact if_neg fun e => h e.1

/-- After an OUT request its unit is not DOWN. -/
theorem requestOut_state (u : UnitId) (s : State) : ((requestOut u s).unit u).state ≠ .down := by
  unfold requestOut
  split
  · simp [*]
  · simp [*]
  · unfold goOut State.unit
    rw [reportChanges_units]
    generalize State.onLink (leaveIfLive _ _ _) _ _ = x
    unfold State.onUnit
    show ((x.units.put u _).get u).state ≠ _
    rw [Bank.get_put_self]
    simp [UnitRecord.goOut]

end Sys2Proof.Machine
end

