-- ==== Sys2Proof/Laws/Path.lean ====
section
/-! SUPPORT. What the Path Interpreter's list operations can do. -/

namespace Sys2Proof.Machine

open Sys2Proof

/-- A split is the list, cut at its first entry of the stage. -/
theorem splitAt_spec {st : EntryStage} {l : List Entry} {x : Split} (h : splitAt st l = some x) :
    x.earlier ++ x.entry :: x.later = l ∧ x.entry.stage = st ∧
      ∀ e ∈ x.earlier, e.stage ≠ st := by
  induction l generalizing x with
  | nil => simp [splitAt] at h
  | cons e rest ih =>
    unfold splitAt at h
    split at h
    · next hs =>
      cases h
      exact ⟨rfl, hs, by simp⟩
    · next hs =>
      cases hr : splitAt st rest with
      | none => simp [hr] at h
      | some y =>
        obtain ⟨h1, h2, h3⟩ := ih hr
        simp [hr] at h
        subst h
        refine ⟨by simp [h1], h2, ?_⟩
        intro e' he
        rcases List.mem_cons.mp he with k | k
        · rw [k]; exact hs
        · exact h3 e' k

/-- The list cut at its first entry of a stage is that split. -/
theorem splitAt_first {st : EntryStage} {pre post : List Entry} {e : Entry} (h : e.stage = st)
    (hp : ∀ d ∈ pre, d.stage ≠ st) : splitAt st (pre ++ e :: post) = some ⟨pre, e, post⟩ := by
  induction pre with
  | nil => simp [splitAt, h]
  | cons d pre ih =>
    have h1 : d.stage ≠ st := hp d (by simp)
    have h2 := ih fun x hx => hp x (by simp [hx])
    simp [splitAt, h1, h2]

theorem Path.FirstIn.split {p : Path} {st pre e post} (h : p.FirstIn st pre e post) :
    splitAt st p.entries = some ⟨pre, e, post⟩ := by
  rw [h.1]
  exact splitAt_first h.2.1 h.2.2

/-- A list with no entry of a stage has no split. -/
theorem splitAt_none {st : EntryStage} {l : List Entry} (h : ∀ d ∈ l, d.stage ≠ st) :
    splitAt st l = none := by
  induction l with
  | nil => rfl
  | cons d l ih =>
    have h1 : d.stage ≠ st := h d (by simp)
    have h2 := ih fun x hx => h x (by simp [hx])
    simp [splitAt, h1, h2]

/-- Putting an entry back keeps the length of the list. -/
theorem splitAt_put_length {st : EntryStage} {l : List Entry} {x : Split}
    (h : splitAt st l = some x) (e : Entry) : (x.put e).length = l.length := by
  rw [← (splitAt_spec h).1]
  simp [Split.put]

/-- Admission keeps the list's bounds: a request waits only while the list is full. -/
theorem Path.ListInv.acceptWaiting {p : Path} (h : p.entries.length ≤ 16) (hr : p.passingRun ≤ 4) :
    p.acceptWaiting.ListInv := by
  unfold Path.acceptWaiting Path.ListInv Config.acceptedRoom
  simp only [List.length_append, List.length_map, List.length_take]
  refine ⟨by omega, fun k => ?_, hr⟩
  have : 16 - p.entries.length < p.upWaiting.length := by
    by_contra hc
    exact k (List.drop_eq_nil_of_le (by omega))
  omega

/-- The list invariant looks at the list, the waiting requests and the passing run alone. -/
theorem Path.ListInv.of_eq {p q : Path} (h : p.ListInv) (h1 : q.entries.length = p.entries.length)
    (h2 : q.upWaiting = p.upWaiting) (h3 : q.passingRun = p.passingRun) : q.ListInv := by
  unfold Path.ListInv
  rw [h1, h2, h3]
  exact h

theorem Path.ListInv.grant {p : Path} (h : p.ListInv) : p.grant.ListInv := by
  unfold Path.grant
  split
  · rename_i x _ hx
    refine ⟨?_, ?_, countUp_le h.2.2⟩
    · show (x.put _).length ≤ 16
      rw [splitAt_put_length hx]
      exact h.1
    · intro k
      show (x.put _).length = 16
      rw [splitAt_put_length hx]
      exact h.2.1 k
  · exact ⟨h.1, h.2.1, Nat.zero_le _⟩
  · exact h

/-- Every delivery and merge leaves the accepted list alone. -/
theorem deliverWord_entries (w b) (s : State) :
    (deliverWord w b s).path.entries = s.path.entries ∧
      (deliverWord w b s).path.upWaiting = s.path.upWaiting ∧
      (deliverWord w b s).path.passingRun = s.path.passingRun := by
  unfold deliverWord
  split
  · split
    · unfold deliverMode
      split
      · next r _ =>
        cases r <;> unfold ModeRequest.deliver
        · simp only [requestConfig, close_entries, close_upWaiting, close_passingRun]
          split <;> exact ⟨rfl, rfl, rfl⟩
        · simp only [requestServe, close_entries, close_upWaiting, close_passingRun]
          split <;> exact ⟨rfl, rfl, rfl⟩
      · simp
    · split
      · simp only [consume, close_entries, close_upWaiting, close_passingRun]
        split <;> exact ⟨rfl, rfl, rfl⟩
      · split
        · simp only [deliverSiteFaults, close_entries, close_upWaiting, close_passingRun]
          split <;> split <;> split <;> exact ⟨rfl, rfl, rfl⟩
        · exact ⟨rfl, rfl, rfl⟩
  · split
    · exact ⟨rfl, rfl, rfl⟩
    · split
      · exact ⟨rfl, rfl, rfl⟩
      · split <;> exact ⟨rfl, rfl, rfl⟩
  · rename_i n _
    split
    · have h := (UnitFrame.settling (UnitFrame.deliverUnit n b s)).path
      simp only [close_entries, close_upWaiting, close_passingRun, h]
      exact ⟨trivial, trivial, trivial⟩
    · exact ⟨rfl, rfl, rfl⟩
  · split
    · simp only [close_entries, close_upWaiting, close_passingRun]
      exact ⟨rfl, rfl, rfl⟩
    · exact ⟨rfl, rfl, rfl⟩
  · exact ⟨rfl, rfl, rfl⟩

/-! ## Answers that leave the part alone (R7, R16) -/

/-- PLAIN words are neither merged nor delivered. -/
theorem wordsOf_plain {c : WordClass} {words : List WordRef} (hc : c ≠ .plain)
    (h : ∀ w ∈ words, w.wordClass = .plain) (beats : List Beat) : wordsOf c words beats = [] := by
  unfold wordsOf
  rw [List.filter_eq_nil_iff]
  intro p hp
  simp [h p.1 (List.of_mem_zip hp).1, hc.symm]

/-- An OKAY answer to a WRITE of PLAIN words has no effect in the part. -/
theorem writeOkay_plain {e : Entry} {t : Taken} (ht : e.taken = some t)
    (h : ∀ w ∈ t.words, w.wordClass = .plain) (s : State) : writeOkay e s = s := by
  unfold writeOkay deliverAll mergeAll
  rw [ht]
  simp [wordsOf_plain (c := .captured) (by decide) h, wordsOf_plain (c := .action) (by decide) h]

end Sys2Proof.Machine
end

