-- ==== Sys2Proof/Laws/Site.lean ====
section
/-! SUPPORT. What Site Control's operations do: the load reads, the entry to SERVING and the service
stop, each field said once. -/

namespace Sys2Proof.Machine

open Sys2Proof

/-! ## The load reads -/

theorem anchorBase_eq (p : Path) (k : Nat) : p.anchorBase + BitVec.ofNat 32 k = BitVec.ofNat 32 (65536 * p.anchor.toNat + k) := by
  apply BitVec.eq_of_toNat_eq
  have := p.anchor.isLt
  simp [Path.anchorBase, Nat.shiftLeft_eq]
  omega

theorem loadAnswer {s : State} {g rest x} {ans : ReadAnswer} (hg : s.path.granted = g :: rest) (ho : g.own = true)
    (hx : s.path.ownInFlight = some x) (hk : x.access.kind = .read) (hf : answerFits x.access.length ans = true) :
    exec (.loadReadAnswer ans) s = .next (if x.abandoned then s.setPath { s.path with granted := rest, ownInFlight := none }
      else close (loadAnswered x.purpose ans (s.setPath { s.path with granted := rest, ownInFlight := none }))) := by
  simp only [exec, execLoadReadAnswer, Path.answeringOwn, hg, hx, ho, hk, and_self, if_true, hf, Path.ownAnswered, List.tail_cons]
  rw [if_neg (by simp)]

theorem loadWords_last (t : Site) (w : Word) : t.loadWords 16 [w] = { t with copy := t.copy.put 16 w } := by
  unfold Site.loadWords
  congr 1
  refine Bank.ext_get fun i => ?_
  rw [Bank.get_tabulate, Bank.get_put]
  by_cases h : i = 16
  · subst h; simp
  · have : i.val < 16 := by have := i.isLt; have : i.val ≠ 16 := fun e => h (Fin.ext e); omega
    rw [if_neg (by omega), if_neg h]

/-! ## The entry to SERVING -/

@[simp] theorem enterServing_pending (s : State) : (enterServing s).pending = s.pending := rfl
@[simp] theorem enterServing_path (s : State) : (enterServing s).path = { s.path with windows := some s.site.windows, roles := s.site.roles } := rfl
@[simp] theorem enterServing_site (s : State) : (enterServing s).site = { s.site with mode := .serving, time := 0 } := rfl
@[simp] theorem enterServing_stages (s : State) : (enterServing s).stages = Stages.afterReset := rfl
@[simp] theorem enterServing_carriers (s : State) : (enterServing s).carriers = Carriers.afterReset := rfl
@[simp] theorem enterServing_links (s : State) : (enterServing s).links = Bank.tabulate (linkAtStart s.site.unitCount) := rfl
@[simp] theorem enterServing_linkRate (s : State) : (enterServing s).linkRate = BitVec.ofNat 8 s.site.linkRateCode := rfl
@[simp] theorem enterServing_units (s : State) : (enterServing s).units = Bank.tabulate (UnitRecord.atStart s.site.unitCount) := rfl
@[simp] theorem enterServing_pollTimer (s : State) : (enterServing s).pollTimer = some s.site.pollInterval := rfl
@[simp] theorem enterServing_steering (s : State) : (enterServing s).steering = s.steering.start s.site.sectorCount s.site.epochLength := rfl
@[simp] theorem enterServing_faults (s : State) : (enterServing s).faults = Faults.start s.site.startView (BitVec.ofNat 32 s.site.ringBase)
      (ringEntries s.site.ringSizeCode) := rfl

/-! ## The service stop -/

@[simp] theorem serviceStop_pending (s : State) : (serviceStop s).pending = s.pending := rfl
@[simp] theorem serviceStop_path (s : State) : (serviceStop s).path = s.path := rfl
@[simp] theorem serviceStop_site (s : State) : (serviceStop s).site = { s.site with mode := .stopping, owingBreaks := owingLinks s.units } := rfl
@[simp] theorem serviceStop_stages (s : State) : (serviceStop s).stages = s.stages.stop := rfl
@[simp] theorem serviceStop_carriers (s : State) : (serviceStop s).carriers = s.carriers.stop := rfl
@[simp] theorem serviceStop_links (s : State) : (serviceStop s).links = Bank.tabulate fun n =>
      (s.links.get n).stopped ((owingLinks s.units).getLsbD n.val) := rfl
@[simp] theorem serviceStop_linkRate (s : State) : (serviceStop s).linkRate = s.linkRate := rfl
@[simp] theorem serviceStop_units (s : State) : (serviceStop s).units = Bank.tabulate fun u => (s.units.get u).stopped := rfl
@[simp] theorem serviceStop_pollTimer (s : State) : (serviceStop s).pollTimer = none := rfl
@[simp] theorem serviceStop_steering (s : State) : (serviceStop s).steering = s.steering.stop := rfl
theorem serviceStop_faults (s : State) : (serviceStop s).faults = s.faults.releaseAll.produceStopped s.stopView := rfl

theorem owing_bit (units : Bank 24 UnitRecord) (u : UnitId) :
    (owingLinks units).getLsbD u.val = true ↔ (units.get u).state ≠ .off ∧ (units.get u).state ≠ .out := by
  have key : ∀ (l : List UnitId) (m : BitVec 24), (l.foldl (fun m u =>
      if (units.get u).state = .off ∨ (units.get u).state = .out then m else m ||| (1#24 <<< u.val)) m).getLsbD u.val = true ↔
      m.getLsbD u.val = true ∨ (u ∈ l ∧ (units.get u).state ≠ .off ∧ (units.get u).state ≠ .out) := by
    intro l
    induction l with
    | nil => simp
    | cons v l ih =>
      intro m
      rw [List.foldl_cons, ih]
      by_cases hv : v = u
      · subst hv
        split
        · next h => simp; tauto
        · next h =>
          have := v.isLt
          simp at h ⊢
          tauto
      · have hne : v.val ≠ u.val := fun e => hv (Fin.ext e)
        have hu := u.isLt
        split
        · simp [Ne.symm hv]
        · have : (1#24 <<< v.val).getLsbD u.val = false := by
            simp; intro h; omega
          rw [BitVec.getLsbD_or, this]
          simp [Ne.symm hv]
  unfold owingLinks
  rw [key]
  simp

theorem stopReq {s : State} (h : s.site.mode.inService = true) : exec .configRequest s = .next (close (serviceStop s)) := by
  cases hm : s.site.mode <;> rw [hm] at h <;> simp [Mode.inService] at h <;> simp [exec, execConfigRequest, requestConfig, hm]


@[simp] theorem Faults.releaseAll_detail (f : Faults) : f.releaseAll.detail = f.detail := by
  simp only [Faults.releaseAll]
@[simp] theorem Faults.releaseAll_queue (f : Faults) : f.releaseAll.queue = f.queue := by
  simp only [Faults.releaseAll]
@[simp] theorem Faults.releaseAll_sequence (f : Faults) : f.releaseAll.sequence = f.sequence := by
  simp only [Faults.releaseAll]
@[simp] theorem Faults.releaseAll_suppressed (f : Faults) : f.releaseAll.suppressed = f.suppressed := by
  simp only [Faults.releaseAll]
@[simp] theorem Faults.releaseAll_producer (f : Faults) : f.releaseAll.producer = f.producer := by
  simp only [Faults.releaseAll]
@[simp] theorem Faults.releaseAll_consumer (f : Faults) : f.releaseAll.consumer = f.consumer := by
  simp only [Faults.releaseAll]
@[simp] theorem Faults.releaseAll_ringSize (f : Faults) : f.releaseAll.ringSize = f.ringSize := by
  simp only [Faults.releaseAll]
@[simp] theorem Faults.releaseAll_ringBase (f : Faults) : f.releaseAll.ringBase = f.ringBase := by
  simp only [Faults.releaseAll]
@[simp] theorem Faults.releaseAll_depositFault (f : Faults) : f.releaseAll.depositFault = f.depositFault := by
  simp only [Faults.releaseAll]
@[simp] theorem Faults.releaseAll_lapseTimer (f : Faults) : f.releaseAll.lapseTimer = none := rfl

/-! ## The STOPPED notice -/

theorem Faults.produceStopped_ring (f : Faults) (v) : SameRing f (f.produceStopped v) := by
  unfold Faults.produceStopped
  split
  · exact .refl f
  · split
    · exact (f.enqueueSuppressed_ring v).trans (Faults.enqueue_ring _ v _)
    · exact f.enqueue_ring v _

@[simp] theorem Faults.latch_produceStopped (f : Faults) (v j) :
    (f.produceStopped v).latch j = f.latch j := by
  unfold Faults.produceStopped
  split
  · rfl
  · split <;> simp

theorem Faults.produceStopped_ne (f : Faults) (v) : (f.produceStopped v).queue ≠ [] := by
  unfold Faults.produceStopped Config.noticeRoom
  split
  · intro h
    simp_all
  · split <;> simp [Faults.enqueue, Faults.enqueueSuppressed]

@[simp] theorem Faults.latch_releaseAll (f : Faults) (j) :
    f.releaseAll.latch j = (f.latch j).released := by
  cases j <;> simp [Faults.latch, Faults.releaseAll]

theorem Faults.ringFull_congr {f g : Faults} (h1 : g.producer = f.producer)
    (h2 : g.consumer = f.consumer) (h3 : g.ringSize = f.ringSize) : g.ringFull = f.ringFull := by
  unfold Faults.ringFull Faults.unconsumed
  rw [h1, h2, h3]

theorem SameRing.full {f g : Faults} (h : SameRing f g) : g.ringFull = f.ringFull :=
  Faults.ringFull_congr h.1 h.2.1 h.2.2.1

theorem SameRing.empty {f g : Faults} (h : SameRing f g) : g.ringEmpty = f.ringEmpty := by
  obtain ⟨h1, h2, -, -, -, -⟩ := h
  unfold Faults.ringEmpty
  rw [h1, h2]

theorem stop_mode (s : State) : (close (serviceStop s)).site =
    if owingLinks s.units = 0 ∧ s.depositOutstanding = false ∧ s.faults.ringFull = true then
      { (serviceStop s).site with mode := .config } else (serviceStop s).site := by
  have hfull : (serviceStop s).faults.ringFull = s.faults.ringFull := by
    rw [serviceStop_faults]
    rw [(s.faults.releaseAll.produceStopped_ring s.stopView).full]
    exact Faults.ringFull_congr (by simp) (by simp) (by simp)
  have hq : (serviceStop s).faults.queue ≠ [] := by
    rw [serviceStop_faults]
    exact Faults.produceStopped_ne _ _
  have hdep : (serviceStop s).depositOutstanding = s.depositOutstanding := by
    unfold State.depositOutstanding
    rw [serviceStop_path]
  have hm : (serviceStop s).site.mode = .stopping := by rw [serviceStop_site]
  have ho : (serviceStop s).site.owingBreaks = owingLinks s.units := by rw [serviceStop_site]
  unfold close
  by_cases hd : s.depositOutstanding = true
  · have : pump (serviceStop s) = serviceStop s := by unfold pump; rw [hdep, if_pos hd]
    rw [this]
    have : finishStop (serviceStop s) = serviceStop s := by
      unfold finishStop State.stopDone
      rw [hdep, hd]; simp
    rw [this, if_neg (by simp [hd])]
  · have hd : s.depositOutstanding = false := by simpa using hd
    cases hqq : (serviceStop s).faults.queue with
    | nil => exact absurd hqq hq
    | cons x rest =>
      by_cases hf : s.faults.ringFull = true
      · have : pump (serviceStop s) = (serviceStop s).setFaults (serviceStop s).faults.discardQueue := by
          unfold pump
          rw [hdep, hd]
          simp only [hqq]
          simp [Faults.makeRoom, hfull, hf, Faults.mayDeposit]
        rw [this]
        unfold finishStop State.stopDone
        simp [Faults.discardQueue, hd, hf, enterConfig]
        have : ∀ f, ((serviceStop s).setFaults f).depositOutstanding = false := fun f => hdep.trans hd
        simp [this]
        split <;> simp [State.setMode]
      · have hf : s.faults.ringFull = false := by simpa using hf
        rw [if_neg (by simp [hf])]
        have : pump (serviceStop s) = (serviceStop s).present ((serviceStop s).faults.depositOf x) := by
          unfold pump
          rw [hdep, hd]
          simp only [hqq]
          simp [Faults.makeRoom, hfull, hf, Faults.mayDeposit, Mode.windowsUp]
        rw [this]
        have : finishStop ((serviceStop s).present ((serviceStop s).faults.depositOf x)) = ((serviceStop s).present ((serviceStop s).faults.depositOf x)) := by
          unfold finishStop State.stopDone
          simp [hqq]
        rw [this]
        rfl

end Sys2Proof.Machine
end

