-- ==== Sys2Proof/Laws/Standings.lean ====
section
/-! SUPPORT. Every cell's standing goes with its figures: the lemma of each operation, up to the
settling of an event. -/

namespace Sys2Proof.Machine

open Sys2Proof

/-! ## One cell -/

namespace Cell.Standing

variable {c d : Cell}

theorem afterReset : Cell.afterReset.Standing := by
  simp [Cell.Standing, Cell.afterReset]

theorem of_eq (h : c.Standing) (h1 : d.trend = c.trend) (h2 : d.capacity = c.capacity)
    (h3 : d.holding = c.holding) : d.Standing := by
  unfold Cell.Standing
  rw [h1, h2, h3]
  exact h

/-- Deciding a cell's standing makes it go with the figures, whatever they are. -/
theorem settle (c : Cell) : c.settle.Standing := by
  unfold Cell.settle
  split
  · next hc =>
    split
    · next hh =>
      split
      · next ht => simp [Cell.Standing, hc, hh, ht]
      · simp [Cell.Standing, hc, hh]
    · next hh =>
      split
      · next ht => simp [Cell.Standing, hc, hh, ht]
      · simp [Cell.Standing, hc, hh]
  · next hc =>
    split
    · simp [Cell.Standing, hc]
    · simp [Cell.Standing, hc]
    · next h1 h2 => exact ⟨by simp [hc]; exact h2, by simp [hc]; exact h1⟩

theorem judge (h : c.Standing) (t) : (c.judge t).Standing := by
  unfold Cell.judge
  split
  · next e =>
    obtain ⟨n1, n2⟩ := c.evaluated_iff.mp e
    obtain ⟨k1, k2⟩ := c.newTrend_load t
    exact ⟨⟨fun e => absurd e k2, fun e => absurd (h.1.mpr e) n2⟩,
      ⟨fun e => absurd e k1, fun e => absurd (h.2.mpr e) n1⟩⟩
  · exact h

theorem stepOffset (h : c.Standing) (t p) : (c.stepOffset t p).Standing := by
  unfold Cell.stepOffset
  split
  · split
    · exact h
    · split <;> exact h
  · exact h

end Cell.Standing

/-! ## All cells -/

/-- Every cell's standing goes with its figures. -/
def State.Standings (s : State) : Prop := ∀ d k, (s.steering.cell d k).Standing

namespace State.Standings

variable {s t : State}

theorem of_steering (h : s.Standings) (e : t.steering = s.steering) : t.Standings := by
  intro d k
  rw [e]
  exact h d k

/-- Of what the Steering Engine holds, the cells alone matter. -/
theorem of_cells (h : s.Standings) (e : t.steering.cells = s.steering.cells) : t.Standings := by
  intro d k
  unfold Steering.cell
  rw [e]
  exact h d k

/-- The standings decided behind an event that keeps every trend. -/
theorem decide (h : s.Standings) {e : State}
    (ht : ∀ d k, (e.steering.cell d k).trend = (s.steering.cell d k).trend) :
    (decideStandings s.steering e).Standings := by
  intro d k
  rw [decideStandings_cell]
  unfold Cell.decided
  split
  · next q => exact (h d k).of_eq (ht d k) q.2.symm q.1.symm
  · exact .settle _

theorem settling (h : s.Standings) {op : State → State}
    (ht : ∀ d k, ((op s).steering.cell d k).trend = (s.steering.cell d k).trend) :
    (settling op s).Standings :=
  h.decide ht

theorem evaluate (h : s.Standings) (t : Site) (x : Option Nat) :
    (s.setSteering { s.steering.evaluate t with epochTimer := x }).Standings := by
  intro d k
  unfold Steering.cell Steering.evaluate
  simp only [State.setSteering, Bank.get_tabulate]
  exact Cell.Standing.of_eq (((h d k).judge t).stepOffset t _) rfl rfl rfl

/-- The cells of Table 8-3. -/
theorem reset (h : t.steering.cells = Bank.fill Cell.afterReset) : t.Standings := by
  intro d k
  unfold Steering.cell
  rw [h, Bank.get_fill]
  exact .afterReset

end State.Standings

/-! ## Trends behind the reports of an event -/

theorem trend_reportChanges (u l) (s : State) (d : SectorId) (k : Operator) :
    ((reportChanges u l s).steering.cell d k).trend = (s.steering.cell d k).trend := by
  rw [reportChanges_steering]

theorem trend_takeStatus (u a f) (s : State) (d : SectorId) (k : Operator) :
    ((takeStatus u a f s).steering.cell d k).trend = (s.steering.cell d k).trend := by
  refine (Steering.trend_status _ d k u f).trans ?_
  split
  · unfold probingStatus
    simp only
    rw [trend_reportChanges, (Quiet.probingDecision u a _).trends]
    rfl
  · unfold liveStatus
    simp only
    rw [trend_reportChanges]
    split
    · rw [(Quiet.enterDown u _).trends]
      rfl
    · unfold decideImpaired
      rw [(Quiet.setImpaired u _ _).trends]
      rfl
  · rfl

theorem trend_secondTimeout (u) (s : State) (d : SectorId) (k : Operator) :
    ((secondTimeout u s).steering.cell d k).trend = (s.steering.cell d k).trend := by
  unfold secondTimeout
  split
  · rw [trend_reportChanges, (Quiet.enterDown u _).trends]
    rfl
  · rw [trend_reportChanges]
    rfl
  · rfl

theorem reportRestart_steering (u) (s : State) : (reportRestart u s).steering = s.steering := rfl

theorem trend_unitBreak (u) (s : State) (d : SectorId) (k : Operator) :
    ((unitBreak u s).steering.cell d k).trend = (s.steering.cell d k).trend := by
  unfold unitBreak
  split
  · unfold restartLive
    rw [reportRestart_steering]
    exact ((((Quiet.onUnit s u _).trans (Quiet.onLink _ u _)).trans (Quiet.leaveLive u _)).trans
      (Quiet.onLink _ u _)).trends d k
  · rfl
  · split <;> rfl
  · rfl

theorem trend_requestOut (u) (s : State) (d : SectorId) (k : Operator) :
    ((requestOut u s).steering.cell d k).trend = (s.steering.cell d k).trend := by
  unfold requestOut
  split
  · rfl
  · rfl
  · unfold goOut
    rw [trend_reportChanges]
    exact (((Quiet.onLink s u _).trans (Quiet.leaveIfLive _ u _)).trans
      ((Quiet.onLink _ u _).trans (Quiet.onUnit _ u _))).trends d k

theorem trend_deliverUnit (u b) (s : State) (d : SectorId) (k : Operator) :
    ((deliverUnit u b s).steering.cell d k).trend = (s.steering.cell d k).trend := by
  have admin : ∀ c (v : State),
      ((deliverAdmin u c v).steering.cell d k).trend = (v.steering.cell d k).trend := by
    intro c v
    unfold deliverAdmin
    split
    · exact trend_requestOut u v d k
    · split
      · rw [requestIn_steering]
      · rfl
  unfold deliverUnit
  simp only
  split
  · rw [requestRevive_steering, admin]
    rfl
  · rw [admin]
    rfl

/-! ## Mode requests, load reads, and the words of a write -/

namespace State.Standings

variable {s : State}

theorem close (h : s.Standings) : (close s).Standings := h.of_steering (close_steering s)

theorem requestConfig (h : s.Standings) : (requestConfig s).Standings := by
  unfold Machine.requestConfig
  split
  · exact h.of_steering rfl
  · exact .reset rfl
  · exact .reset rfl
  · exact h

theorem requestServe (h : s.Standings) : (requestServe s).Standings := by
  unfold Machine.requestServe
  split
  · exact h.of_steering rfl
  · exact h

theorem consume (h : s.Standings) (v : Nat) : (consume v s).Standings := by
  unfold Machine.consume
  split <;> exact h.of_steering rfl

theorem deliverSiteFaults (h : s.Standings) (b) : (deliverSiteFaults b s).Standings := by
  refine h.of_steering ?_
  unfold Machine.deliverSiteFaults
  simp only
  split <;> split <;> split <;> rfl

theorem deliverWord (h : s.Standings) (w b) : (deliverWord w b s).Standings := by
  unfold Machine.deliverWord
  split
  · split
    · refine State.Standings.close ?_
      unfold deliverMode
      split
      · next r _ =>
        cases r
        · exact h.requestConfig
        · exact h.requestServe
      · exact h
    · split
      · exact (h.consume _).close
      · split
        · exact (h.deliverSiteFaults b).close
        · exact h
  · split
    · exact h.of_steering rfl
    · split
      · exact h.of_steering rfl
      · split
        · exact h.of_steering rfl
        · exact h
  · next n _ =>
    split
    · exact (h.settling fun d k => trend_deliverUnit n b s d k).close
    · exact h
  · split
    · exact State.Standings.close (h.of_steering rfl)
    · exact h
  · exact h

theorem deliverAll (h : s.Standings) (words beats) : (deliverAll words beats s).Standings :=
  foldl_keeps (p := State.Standings) _ (fun _ _ k => k.deliverWord _ _) _ h

theorem mergeWord (h : s.Standings) (w b) : (mergeWord w b s).Standings := by
  unfold Machine.mergeWord
  split
  · unfold mergeDescriptor mergeFaultModes
    split
    · split
      · exact h.of_steering rfl
      · exact h
    · split
      · simp only
        split
        · exact State.Standings.close (h.of_steering rfl)
        · exact h.of_steering rfl
      · split
        · exact h.of_steering rfl
        · exact h
  · split
    · exact h.of_steering rfl
    · exact h
  · split
    · exact h.of_cells rfl
    · exact h
  · exact h

theorem mergeAll (h : s.Standings) (words beats) : (mergeAll words beats s).Standings :=
  foldl_keeps (p := State.Standings) _ (fun _ _ k => k.mergeWord _ _) _ h

theorem presentLoad (h : s.Standings) (p : OwnPurpose) : (presentLoad p s).Standings :=
  h.of_steering rfl

theorem endStart (h : s.Standings) (code : ErrorCode) : (endStart code s).Standings :=
  h.of_steering rfl

theorem enterServing (s : State) : (enterServing s).Standings := by
  refine .reset ?_
  rw [show (Machine.enterServing s).steering =
    s.steering.start s.site.sectorCount s.site.epochLength from rfl]
  rfl

theorem afterSectors (h : s.Standings) : (afterSectors s).Standings := by
  unfold Machine.afterSectors
  split
  · exact h.endStart _
  · exact .enterServing s

theorem afterL3 (h : s.Standings) : (afterL3 s).Standings := by
  unfold Machine.afterL3
  split
  · exact h.endStart _
  · exact h.presentLoad _

theorem loadAnswered (h : s.Standings) (p : OwnPurpose) (a : ReadAnswer) :
    (loadAnswered p a s).Standings := by
  have site : ∀ x, (s.setSite x).Standings := fun x => h.of_steering rfl
  unfold Machine.loadAnswered
  split
  · unfold loadOkay
    split
    · exact (site _).presentLoad _
    · exact (site _).presentLoad _
    · exact (site _).afterL3
    · have k : ∀ n d, (s.onSteering (Steering.loadSector n d)).Standings := fun _ _ => h.of_cells rfl
      unfold afterSector
      split
      · split
        · exact (k _ _).presentLoad _
        · exact (k _ _).afterSectors
      · exact (k _ _).afterSectors
    · exact h
  · exact h.endStart _

end State.Standings

end Sys2Proof.Machine
end

