-- ==== Sys2Proof/Laws/Words.lean ====
section
/-! SUPPORT. What packed words, merged words, and sent and received characters hold. -/

namespace Sys2Proof.Machine

open Sys2Proof

/-! ## Packed words -/

theorem bit_eq_toNat (b : Bool) : bit b = b.toNat := by cases b <;> rfl

/-- What a list of placed fields adds up to. -/
def placedSum : List Placed → Nat
  | [] => 0
  | p :: rest => p.value % 2 ^ p.width * 2 ^ p.lo + placedSum rest

theorem placedSum_nil : placedSum [] = 0 := rfl

theorem placedSum_cons (lo width value : Nat) (rest : List Placed) :
    placedSum (⟨lo, width, value⟩ :: rest) = value % 2 ^ width * 2 ^ lo + placedSum rest := rfl

/-- The fields stand in rising order from bit `from_`, without overlap, inside 64 bits. -/
def placedApart : Nat → List Placed → Bool
  | _, [] => true
  | from_, p :: rest =>
    decide (from_ ≤ p.lo) && decide (p.lo + p.width ≤ 64) && placedApart (p.lo + p.width) rest

theorem placedSum_bound (l : List Placed) (a : Nat) (ha : a ≤ 64) (h : placedApart a l = true) :
    placedSum l + 2 ^ a ≤ 2 ^ 64 := by
  induction l generalizing a with
  | nil =>
    rw [placedSum_nil, Nat.zero_add]
    exact Nat.pow_le_pow_right (by decide) ha
  | cons p rest ih =>
    simp only [placedApart, Bool.and_eq_true, decide_eq_true_eq] at h
    obtain ⟨⟨h1, h2⟩, h3⟩ := h
    have tail := ih (p.lo + p.width) h2 h3
    have start : 2 ^ a ≤ 2 ^ p.lo := Nat.pow_le_pow_right (by decide) h1
    have field : p.value % 2 ^ p.width * 2 ^ p.lo + 2 ^ p.lo ≤ 2 ^ (p.lo + p.width) := by
      rw [Nat.pow_add, Nat.mul_comm (2 ^ p.lo), ← Nat.succ_mul]
      exact Nat.mul_le_mul_right _ (Nat.mod_lt _ (by positivity))
    rw [placedSum]
    omega

/-- A word of fields that stand apart has their sum as its value. The premise is closed by `rfl` for a
list of fields written out; `placedSum_cons` and `placedSum_nil` then open the sum. -/
theorem toNat_pack (l : List Placed) (h : placedApart 0 l = true) :
    (pack l).toNat = placedSum l := by
  have sum : ∀ l : List Placed,
      l.foldr (fun p rest => p.value % 2 ^ p.width * 2 ^ p.lo + rest) 0 = placedSum l := by
    intro l
    induction l with
    | nil => rfl
    | cons p rest ih => rw [List.foldr, ih, placedSum]
  have bound := placedSum_bound l 0 (by decide) h
  rw [pack, BitVec.toNat_ofNat, sum, Nat.mod_eq_of_lt (by omega)]

theorem placedSum_dvd (l : List Placed) (a : Nat) (h : placedApart a l = true) :
    2 ^ a ∣ placedSum l := by
  induction l generalizing a with
  | nil => exact Nat.dvd_zero _
  | cons p rest ih =>
    simp only [placedApart, Bool.and_eq_true, decide_eq_true_eq] at h
    obtain ⟨⟨h1, h2⟩, h3⟩ := h
    have low : 2 ^ a ∣ 2 ^ p.lo := Nat.pow_dvd_pow 2 h1
    have high : 2 ^ a ∣ 2 ^ (p.lo + p.width) := Nat.pow_dvd_pow 2 (by omega)
    exact Nat.dvd_add (low.mul_left _) (high.trans (ih _ h3))

/-- A field holds bit `i`, and its value has it set. -/
def Placed.holds (i : Nat) (p : Placed) : Bool :=
  decide (p.lo ≤ i) && decide (i < p.lo + p.width) && p.value.testBit (i - p.lo)

theorem testBit_placedSum (l : List Placed) (a i : Nat) (h : placedApart a l = true) :
    (placedSum l).testBit i = l.any (Placed.holds i) := by
  induction l generalizing a with
  | nil => exact Nat.zero_testBit i
  | cons p rest ih =>
    simp only [placedApart, Bool.and_eq_true, decide_eq_true_eq] at h
    obtain ⟨⟨h1, h2⟩, h3⟩ := h
    obtain ⟨q, hq⟩ := placedSum_dvd rest _ h3
    have field : p.value % 2 ^ p.width * 2 ^ p.lo < 2 ^ (p.lo + p.width) := by
      rw [Nat.pow_add, Nat.mul_comm (2 ^ p.lo)]
      exact Nat.mul_lt_mul_of_pos_right (Nat.mod_lt _ (by positivity)) (by positivity)
    have tail := ih _ h3
    rw [placedSum, List.any_cons, hq, Nat.add_comm, Nat.testBit_two_pow_mul_add _ field]
    by_cases hi : i < p.lo + p.width
    · have none : rest.any (Placed.holds i) = false := by
        rw [← tail, hq, Nat.testBit_two_pow_mul]
        simp [hi]
      rw [if_pos hi, none, Bool.or_false, Nat.testBit_mul_two_pow, Placed.holds]
      by_cases hl : p.lo ≤ i
      · simp [hl, hi, Nat.testBit_mod_two_pow, show i - p.lo < p.width by omega]
      · simp [hl]
    · rw [if_neg hi, ← tail, hq, Nat.testBit_two_pow_mul]
      simp [Placed.holds, hi, Nat.le_of_not_lt hi]

/-- Bit `i` of a word of fields that stand apart is the bit of the field that holds it. -/
theorem getLsbD_pack (l : List Placed) (h : placedApart 0 l = true) (i : Nat) :
    (pack l).getLsbD i = l.any (Placed.holds i) := by
  rw [BitVec.getLsbD, toNat_pack l h, testBit_placedSum l 0 i h]

/-! ## Merged words (R7, R18) -/

theorem byteMask_getLsbD (enables : BitVec 8) (i : Nat) (hi : i < 64) :
    (byteMask enables).getLsbD i = enables.getLsbD (i / 8) := by
  have step : ∀ (m : Word) (j : Nat), j < 8 →
      (if enables.getLsbD j then m ||| (0xFF#64 <<< (8 * j)) else m).getLsbD i =
        (m.getLsbD i || (enables.getLsbD j && decide (i / 8 = j))) := by
    intro m j hj
    have ones : ∀ j : Fin 8, ∀ i : Fin 64,
        (0xFF#64 <<< (8 * j.val)).getLsbD i = decide (i.val / 8 = j.val) := by decide +kernel
    have := ones ⟨j, hj⟩ ⟨i, hi⟩
    cases enables.getLsbD j <;> simp_all
  have fold : ∀ (l : List Nat) (m : Word), (∀ j ∈ l, j < 8) →
      (l.foldl (fun m j => if enables.getLsbD j then m ||| (0xFF#64 <<< (8 * j)) else m)
          m).getLsbD i =
        (m.getLsbD i || l.any fun j => enables.getLsbD j && decide (i / 8 = j)) := by
    intro l
    induction l with
    | nil => intro m _; simp
    | cons j l ih =>
      intro m h
      rw [List.foldl, ih _ (fun k hk => h k (List.mem_cons_of_mem _ hk)),
        step m j (h j (List.mem_cons_self ..)), List.any_cons, Bool.or_assoc]
  rw [byteMask, fold _ _ (fun j hj => List.mem_range.mp hj), Bool.eq_iff_iff]
  simp only [Bool.or_eq_true, List.any_eq_true, Bool.and_eq_true, decide_eq_true_eq,
    List.mem_range]
  constructor
  · rintro (h | ⟨j, _, h, rfl⟩)
    · simp at h
    · exact h
  · exact fun h => Or.inr ⟨i / 8, by omega, h, rfl⟩

theorem mergeBytes_getLsbD (old new : Word) (enables : BitVec 8) (i : Nat) :
    (mergeBytes old new enables).getLsbD i =
      if (byteMask enables).getLsbD i then new.getLsbD i else old.getLsbD i := by
  by_cases hi : i < 64
  · simp only [mergeBytes, BitVec.getLsbD_or, BitVec.getLsbD_and, BitVec.getLsbD_not, hi]
    cases (byteMask enables).getLsbD i <;> simp
  · rw [BitVec.getLsbD_of_ge _ _ (by omega), BitVec.getLsbD_of_ge new _ (by omega),
      BitVec.getLsbD_of_ge old _ (by omega), ite_self]

/-! ## Sent characters (R90) -/

theorem sentCharacter_start (mark : Bool) (b : Byte) : (sentCharacter mark b).getLsbD 0 = false := by
  rw [sentCharacter, BitVec.getLsbD_append]; simp

theorem sentCharacter_data (mark : Bool) (b : Byte) (i : Nat) (hi : i < 8) :
    (sentCharacter mark b).getLsbD (i + 1) = b.getLsbD i := by
  rw [sentCharacter, BitVec.getLsbD_append, if_neg (by omega), BitVec.getLsbD_append,
    if_pos (by omega)]
  rfl

theorem sentCharacter_mark (mark : Bool) (b : Byte) : (sentCharacter mark b).getLsbD 9 = mark := by
  rw [sentCharacter, BitVec.getLsbD_append, if_neg (by omega), BitVec.getLsbD_append,
    if_neg (by omega), BitVec.getLsbD_append, if_pos (by omega)]
  simp

theorem sentCharacter_stop (mark : Bool) (b : Byte) : (sentCharacter mark b).getLsbD 10 = true := by
  rw [sentCharacter, BitVec.getLsbD_append, if_neg (by omega), BitVec.getLsbD_append,
    if_neg (by omega), BitVec.getLsbD_append, if_neg (by omega)]
  simp

/-! ## Received characters (R90, R101) -/

theorem majority_eq (b : BitVec 3) :
    majority b = decide (2 ≤ (List.range 3).countP fun j => b.getLsbD j) := by
  revert b; decide

theorem unsteady_eq (b : BitVec 3) : unsteady b = decide (¬ (b = 0 ∨ b = 7)) := by
  revert b; decide

/-- Bit `i` of the data byte is the majority of the character's bit `i + 1`. -/
theorem dataByte_getLsbD (c : Samples) (i : Nat) (hi : i < 8) :
    (dataByte c).getLsbD i = majority (c.get (Fin.ofNat 11 (i + 1))) := by
  have step : ∀ (p : Bool) (b : Byte) (j : Nat),
      (if p then b ||| (1#8 <<< j) else b).getLsbD i =
        (b.getLsbD i || (p && decide (i = j))) := by
    intro p b j
    have one : (1#8 <<< j).getLsbD i = decide (i = j) := by
      rw [BitVec.getLsbD_shiftLeft, BitVec.getLsbD_one]
      simp only [hi, decide_true, Bool.true_and]
      by_cases h : i < j
      · simp [h, Nat.ne_of_lt h]
      · simp [h, show (i - j = 0 ↔ i = j) by omega]
    cases p <;> simp [one]
  have fold : ∀ (l : List Nat) (b : Byte),
      (l.foldl (fun b j => if majority (c.get (Fin.ofNat 11 (j + 1))) then b ||| (1#8 <<< j) else b)
        b).getLsbD i =
        (b.getLsbD i ||
          l.any fun j => majority (c.get (Fin.ofNat 11 (j + 1))) && decide (i = j)) := by
    intro l
    induction l with
    | nil => intro b; simp
    | cons j l ih =>
      intro b
      rw [List.foldl, ih, step, List.any_cons, Bool.or_assoc]
  rw [dataByte, fold, Bool.eq_iff_iff]
  simp only [Bool.or_eq_true, List.any_eq_true, Bool.and_eq_true, decide_eq_true_eq,
    List.mem_range]
  constructor
  · rintro (h | ⟨j, _, h, rfl⟩)
    · simp at h
    · exact h
  · exact fun h => Or.inr ⟨i, hi, h, rfl⟩

end Sys2Proof.Machine
end

