-- ==== Sys2Proof/Tests/Slice0.lean ====
section
/-! SUPPORT. Tests: ill-formed commands, a state that meets the hypotheses of each statement, and
small runs of one command. -/

open Sys2Proof Sys2Proof.Machine

namespace Sys2Proof.Tests

set_option Elab.async false

/-! ## Ill-formed commands -/

theorem test_read_of_no_beats_is_refused :
    (Instr.requestArrival ⟨0, 0, .read 0⟩).wellFormed = false := by decide

theorem test_read_of_nine_beats_is_refused :
    (Instr.requestArrival ⟨0, 0, .read 9⟩).wellFormed = false := by decide

theorem test_write_of_no_beats_is_refused :
    (Instr.requestArrival ⟨0, 0, .write []⟩).wellFormed = false := by decide

theorem test_memory_answer_of_no_words_is_refused :
    (Instr.memoryReadResponse (.okay [])).wellFormed = false := by decide

theorem test_load_answer_of_nine_words_is_refused :
    (Instr.loadReadAnswer (.okay (List.replicate 9 0))).wellFormed = false := by decide

theorem test_short_post_with_every_enable_is_refused :
    (Instr.shortPost 0 0 0xFF#8).wellFormed = false := by decide

theorem test_well_formed_commands_pass :
    (Instr.requestArrival ⟨0, 0, .read 8⟩).wellFormed = true ∧
    (Instr.memoryReadResponse (.okay [0])).wellFormed = true ∧
    (Instr.shortPost 0 0 0xFE#8).wellFormed = true ∧ Instr.takeRequest.wellFormed = true := by
  decide

/-! ## States the tests start from -/

/-- The descriptor words w5 to w21 of a small site: 4 units, 2 sectors, 2 operators. -/
def copy : Bank 17 Word :=
  ⟨#v[0x0020000000100000, 0x0040000000300000, 0x500000, 0x20204, 0x2803E80000, 0x7218,
    0x3E80000, 0x3E80000, 0, 0, 0, 0, 0x05050A02, 0x30402, 0x1020514, 0, 0x11111111]⟩

/-- The loaded sector words: units 0 and 1 in sector 0, units 2 and 3 in sector 1. -/
def loaded : Bank 12 SectorWords :=
  Bank.tabulate fun n => if n = 0 then ⟨3, 0x81⟩ else if n = 1 then ⟨12, 0x80⟩ else ⟨0, 0⟩

/-- The small site in CONFIG with its descriptor loaded. -/
def ready : State :=
  { State.reset with
    site := { Site.afterReset with copy := copy }
    steering := { Steering.afterReset with loaded := loaded } }

/-- The small site in service, unit 0 LIVE. -/
def serving : State :=
  { ready with
    path :=
      { Path.afterReset 0 with windows := some ready.site.windows, roles := ready.site.roles }
    site := { ready.site with mode := .serving }
    units :=
      Bank.tabulate fun u =>
        { UnitRecord.afterReset with state := if u = 0 then .live else .off }
    steering :=
      { ready.steering with
        defs := Bank.tabulate fun n => (loaded.get n).definition
        epochTimer := some 2 }
    pollTimer := some 10
    faults := { Faults.afterReset with ringBase := 0x500000 } }

/-- The state in another service mode. -/
def inMode (m : Mode) (s : State) : State := s.setMode m

/-- The state with unit 0's record changed. -/
def withUnit (f : UnitRecord → UnitRecord) (s : State) : State := s.onUnit 0 f

/-- The state with link 0 replaced. -/
def withLink (l : Link) (s : State) : State := s.onLink 0 fun _ => l

/-- An up-side request at a byte address. -/
def request (i : Initiator) (address : Nat) (body : RequestBody) : Request :=
  ⟨i, BitVec.ofNat 29 (address / 8), body⟩

/-- A beat with every enable set. -/
def beat (w : Word) : Beat := ⟨w, 0xFF⟩

/-- A request just accepted. -/
def fresh (r : Request) : Entry := ⟨r, .accepted, none, none, []⟩

/-- The state with the accepted list given. -/
def queued (l : List Entry) (s : State) : State := s.setPath (s.path.withEntries l)

/-- A taken entry of a stage of the list. -/
def taken (st : EntryStage) (r : Request) (s : State) : Entry :=
  ⟨r, st, some (s.takenFor r), none, []⟩

/-- The state with one access granted and not answered. -/
def granting (g : Granted) (s : State) : State := s.setPath { s.path with granted := [g] }

/-- A post of operator 1 with channel 100, bandwidth 2 and power 10, searching up by 5. -/
def post (m : PostMode) (slot : Byte) : Post := ⟨m, slot, 0x0A020064, 0x0405000064⟩

/-- The state with a post WAITING in stage 1. -/
def posted (p : Post) (s : State) : State :=
  s.setStage 0 { Stage.afterReset with front := p, back := some p }

/-- A tuning of channel 100, bandwidth 2 and power 10. -/
def tuning : Tuning := ⟨100, 2, 10⟩

/-- A slot of operator 1 in a state, with or without a held tuning. -/
def slotIn (st : CarrierState) (requested held : Bool) : Context :=
  { Context.afterReset with
    state := st, owner := some 0
    requested := if requested then some ⟨tuning, .post⟩ else none
    held := if held then some tuning else none }

/-- The search record of a slot that searches up from channel 100. -/
def search : SearchRecord := ⟨100, .up, 5, 4, 2, 10, 0, 0, 0, 1000⟩

/-- The state with slot 1's context replaced, and its steering record with it. -/
def withSlot (c : Context) (s : State) : State :=
  (s.setContext 1 c).onSteering
    (Steering.onRecord 1 fun _ =>
      ⟨c.owner, if c.state = .onAir then some 2 else none, if c.state = .onAir then 7 else 0⟩)

/-- A link that has a command in flight, its reply timer running, and collects an answer. -/
def collecting (c : Command) (head : Byte) (body : List Byte) : Link :=
  { Link.afterReset with
    rx := .body, buffer := head :: body, inFlight := some ⟨c, 0, false⟩, replyTimer := some 5 }

/-- The check character of an answer. -/
def check (head : Byte) (body : List Byte) : Samples :=
  cleanSamples false (-(byteSum (head :: body)))

/-- A STATUS body with a raw alarm set and zero figures. -/
def statusBody (alarms : Byte) : List Byte := alarms :: List.replicate 12 0

/-! ## Small runs -/

theorem test_serve_request_starts_the_load :
    ∃ t, exec .serveRequest ready = .next t ∧ t.site.mode = .starting ∧
      (t.path.ownPresented.map fun a => (a.purpose, a.access.address, a.access.length)) =
        some (.loadL1, 40, 8) :=
  ⟨_, rfl, by decide +kernel⟩

theorem test_tune_of_a_vacant_slot_queues_its_frame :
    ∃ t, exec .validateTune (posted (post .tune 1) serving) = .next t ∧
      (t.context 1).state = .waiting ∧ (t.link 0).queue = [.tune 1 tuning] ∧
      (t.stage 0).lastOutcome = .accepted ∧ (t.steering.cell 0 0).trend = .dark :=
  ⟨_, rfl, by decide +kernel⟩

theorem test_dispatch_sends_a_tune_frame :
    ∃ t, exec (.dispatch 0)
        (withLink { Link.afterReset with queue := [.tune 1 tuning] }
          (withSlot (slotIn .waiting true false) serving)) = .next t ∧
      (t.link 0).txFrame = frameCharacters [0x10, 1, 100, 0, 2, 10, 0x7F] ∧ (t.context 1).state = .tuning :=
  ⟨_, rfl, by decide +kernel⟩

theorem test_tuned_reply_puts_the_slot_on_air :
    ∃ t, exec (.tunedReply 0 (check 0x90 [1, 0]))
        (withLink (collecting (.tune 1 tuning) 0x90 [1, 0])
          (withSlot (slotIn .tuning true false) serving)) = .next t ∧
      (t.context 1).state = .onAir ∧ (t.context 1).held = some tuning ∧
      (t.steering.cell 0 0).capacity = 4 :=
  ⟨_, rfl, by decide +kernel⟩

theorem test_level_above_the_stop_level_goes_on :
    ∃ t, exec (.levelReply 0 (check 0xB0 [100, 0, 9]))
        (withLink (collecting (.scan 1 100 2) 0xB0 [100, 0, 9])
          (withSlot { slotIn .searching false false with search := some search } serving)) =
        .next t ∧
      (t.link 0).queue = [.scan 1 105 2] ∧ (t.context 1).state = .searching :=
  ⟨_, rfl, by decide +kernel⟩

theorem test_clean_status_brings_a_unit_live :
    ∃ t, exec (.statusReply 0 (check 0xC0 (statusBody 0)))
        (withLink (collecting .poll 0xC0 (statusBody 0))
          (withUnit (fun r => { r with state := .probing }) serving)) = .next t ∧
      (t.unit 0).state = .live :=
  ⟨_, rfl, by decide +kernel⟩

theorem test_second_timeout_takes_a_live_unit_down :
    ∃ t, exec (.replyTimerExpiry 0)
        (withLink
          { Link.afterReset with inFlight := some ⟨.poll, 3, true⟩, replyTimer := some 5 }
          (withSlot (slotIn .onAir true true) serving)) = .next t ∧
      (t.unit 0).state = .down ∧ (t.link 0).tx = .sendingBreak ∧
      (t.context 1).state = .suspended ∧ (t.faults.latch (.unit 0 4)).set = true ∧
      t.faults.queue.length = 1 :=
  ⟨_, rfl, by decide +kernel⟩

theorem test_lapse_expiry_enters_hold :
    ∃ t, exec .lapseExpiry
        (serving.setFaults { serving.faults with producer := 1, lapseTimer := some 4 }) = .next t ∧
      t.site.mode = .hold ∧ t.faults.lapse.set = true ∧ t.attention = true :=
  ⟨_, rfl, by decide +kernel⟩

theorem test_epoch_steps_an_overloaded_cell :
    ∃ t, exec .epochExpiry
        (serving.setSteering
          (serving.steering.onCell 0 0 fun c =>
            { c with trend := .over, streak := 1, load := 100, capacity := 4 })) = .next t ∧
      (t.steering.cell 0 0).offset = 1 ∧ (t.steering.cell 0 0).streak = 2 :=
  ⟨_, rfl, by decide +kernel⟩

theorem test_a_head_character_carries_its_mark :
    (List.range 11).map (sentCharacter true 0x10).getLsbD =
      [false, false, false, false, false, true, false, false, false, true, true] ∧
    (List.range 11).map (sentCharacter false 0x81).getLsbD =
      [false, true, false, false, false, false, false, false, true, false, true] := by
  decide

theorem test_a_break_asked_for_in_idle_begins :
    Link.afterReset.askBreak.tx = .sendingBreak ∧
    ({ Link.afterReset with tx := .frame } : Link).askBreak.breakRequest = true := by
  decide

theorem test_a_break_leaves_the_frame_unsent :
    ∃ t, step
        (withLink
          { Link.afterReset with
            tx := .preamble, breakRequest := true, txFrame := [0], inFlight := some ⟨.poll, 0, false⟩ }
          serving) = .next t ∧
      (t.link 0).tx = .sendingBreak ∧ (t.link 0).txFrame = [] ∧ (t.link 0).inFlight = none :=
  ⟨_, rfl, by decide +kernel⟩

theorem test_a_break_begins_at_a_frames_end :
    ∃ t, exec (.frameSendEnd 0)
        (withLink { Link.afterReset with tx := .frame, breakRequest := true, txFrame := [0] } serving) =
          .next t ∧
      (t.link 0).tx = .sendingBreak ∧ (t.link 0).breakRequest = false :=
  ⟨_, rfl, by decide +kernel⟩

theorem test_the_line_idles_at_one :
    (∀ i < 30, Link.afterReset.lineLevel i = true) ∧
    (∀ i < 22, ({ Link.afterReset with tx := .sendingBreak } : Link).lineLevel i = false) ∧
    ({ Link.afterReset with tx := .frame, txFrame := [sentCharacter true 1] } : Link).lineLevel 0 =
      false := by
  decide

/-! ## States that meet the hypotheses of the statements -/

theorem test_meets_step_on_an_empty_queue : State.reset.pending = [] := rfl

theorem test_meets_arrival :
    (request 0 0 (.read 8)).body.wellFormed = true ∧ serving.path.ListInv ∧
    serving.path.entries.length < 16 ∧
    (queued (List.replicate 16 (fresh (request 0 0 (.read 1)))) serving).path.ListInv := by
  simp only [Path.ListInv]; decide +kernel

/-- A READ of plain memory, one of a carrier word, and a WRITE of a POST word with mode 3. -/
def plainRead : Request := request 0 0x800000 (.read 8)
def carrierRead : Request := request 0 0x200000 (.read 4)
def badPost : Request := request 1 0x100010 (.write [beat 3])

/-- A WRITE of s0 and s1 of stage 1, and a READ of that stage's s5. -/
def frontWrite : Request := request 1 0x100000 (.write [beat 0, beat 0])
def stageRead : Request := request 1 0x100028 (.read 1)

theorem test_meets_taking_admits_or_refuses :
    (queued [fresh plainRead] serving).path.FirstIn .accepted [] (fresh plainRead) [] ∧
    protectionCheck 2 .controller plainRead (serving.path.decode plainRead) = none ∧
    stateRefused serving plainRead (serving.path.decode plainRead) = false ∧
    needsMemory plainRead.kind (serving.path.decode plainRead) = true ∧
    protectionCheck 2 .controller carrierRead (serving.path.decode carrierRead) = none ∧
    needsMemory carrierRead.kind (serving.path.decode carrierRead) = false ∧
    carrierRead.kind = .read ∧
    protectionCheck 2 (.operator 0) badPost (serving.path.decode badPost) = none ∧
    stateRefused serving badPost (serving.path.decode badPost) = true ∧
    serving.site.operatorCount = 2 ∧ serving.path.roles.get 0 = .controller ∧
    serving.path.roles.get 1 = .operator 0 := by
  simp only [Path.FirstIn]; decide +kernel

/-- A WRITE of w3 that acknowledges PROTECTION: ACTION words alone. -/
def acknowledgeWrite : Request := request 0 24 (.write [beat 1])

theorem test_meets_taking_of_action_words :
    (queued [fresh acknowledgeWrite] serving).path.FirstIn .accepted [] (fresh acknowledgeWrite) [] ∧
    protectionCheck 2 .controller acknowledgeWrite (serving.path.decode acknowledgeWrite) = none ∧
    stateRefused serving acknowledgeWrite (serving.path.decode acknowledgeWrite) = false ∧
    acknowledgeWrite.kind = .write ∧ serving.path.decode acknowledgeWrite = [.descriptor 3] ∧
    (∀ w ∈ serving.path.decode acknowledgeWrite, w.wordClass = .action) := by
  simp only [Path.FirstIn]; decide +kernel

theorem test_meets_action_words :
    field 1 0 2 = 1 ∧ field 2 0 2 = 2 ∧ (1#16).toNat = field 1 0 16 ∧ field 1 0 3 = 1 ∧
    field 2 0 3 = 2 ∧ field 4 0 3 = 4 ∧ serving.site.mode ≠ .stopping ∧
    serving.site.mode ≠ .starting ∧ ready.site.mode = .config ∧ (beat 0).enables = 0xFF#8 ∧
    field 0x7F 8 2 = 0 ∧ (0x7F : Word).getLsbD 12 = false ∧ field 0x100 0 7 = 0 ∧
    field 0x100 8 2 = 1 ∧ field 0x200 8 2 = 2 ∧ (0x1000 : Word).getLsbD 12 = true ∧
    field 0x1000 8 2 = 0 ∧ (WordRef.descriptor 2).wordClass ≠ .action := by
  decide +kernel

theorem test_meets_action_words_of_several_parts :
    field 7 0 3 ≠ 0 ∧ field 0x117F 8 2 = 1 ∧ field 0x127F 8 2 = 2 ∧ field 0x107F 8 2 = 0 ∧
    (0x117F : Word).getLsbD 12 = true ∧
    (∃ x, exec (.unitAcknowledge 0 0x7F) serving = .next x ∧ x.site.mode.inService = true ∧
      ∃ y, exec (.adminOut 0) x = .next y ∧ (y.unit 0).state = .out) ∧
    ∃ x, exec .acknowledgeProtection serving = .next x ∧ ∃ y, exec .acknowledgeLapse x = .next y :=
  ⟨by decide, by decide, by decide, by decide, by decide,
    ⟨_, rfl, by decide +kernel, _, rfl, by decide +kernel⟩, _, rfl, _, rfl⟩

theorem test_meets_captured_write_stalls :
    (queued [taken .held frontWrite serving, fresh stageRead] serving).path.FirstIn .accepted
      [taken .held frontWrite serving] (fresh stageRead) [] ∧
    (serving.takenFor frontWrite).words = [.stage 0 0, .stage 0 1] ∧
    (WordRef.stage 0 0).wordClass = .captured ∧
    serving.path.decode stageRead = [.stage 0 5] := by
  simp only [Path.FirstIn]; decide +kernel

theorem test_meets_stalls_of_one_window :
    (taken .held frontWrite serving).stalls [.stage 3 0] = true ∧
    (taken .atMemory frontWrite serving).stalls [.plainMemory, .stage 0 7] = true ∧
    (taken .ready frontWrite serving).stalls [.stage 0 5] = false ∧
    (taken .held frontWrite serving).stalls [.descriptor 5, .plainMemory] = false ∧
    (taken .held plainRead serving).stalls [.plainMemory] = false := by
  decide +kernel

/-- A READ of the descriptor by an initiator of no role. -/
def strangersRead : Request := request 5 8 (.read 1)

theorem test_meets_protection_refusal :
    (queued [fresh strangersRead] serving).path.FirstIn .accepted [] (fresh strangersRead) [] ∧
    protectionCheck 2 (serving.path.roles.get 5) strangersRead
      (serving.path.decode strangersRead) = some ⟨.role, 8⟩ ∧
    serving.site.mode.inService = true ∧ serving.faults.protection.set = false ∧
    (inMode .config serving).site.mode.inService = false := by
  simp only [Path.FirstIn]; decide +kernel

/-- The small site in a mode, the PROTECTION latch set or not, and a refused request to be taken. -/
def refusing (m : Mode) (set : Bool) : State :=
  let s := queued [fresh strangersRead] (inMode m serving)
  (s.setSite { s.site with owingBreaks := 1 }).setFaults
    { s.faults with protection := ⟨set, false, false, none, 0⟩ }

theorem test_meets_protection_refusal_by_the_mode :
    (∀ m ∈ [Mode.config, .starting, .serving, .hold, .stopping], ∀ set ∈ [true, false],
      (refusing m set).path.FirstIn .accepted [] (fresh strangersRead) [] ∧
      protectionCheck (refusing m set).site.operatorCount ((refusing m set).path.roles.get 5)
        strangersRead ((refusing m set).path.decode strangersRead) = some ⟨.role, 8⟩ ∧
      (refusing m set).site.mode = m ∧ (refusing m set).faults.protection.set = set ∧
      (refusing m set).Closed) ∧
    ∃ t, exec .takeRequest (refusing .serving false) = .next t ∧
      t.faults.protection.raised = some 0 ∧ t.faults.queue.length = 1 ∧
      t.path.ownPresented.isSome = true := by
  refine ⟨?_, _, rfl, by decide +kernel⟩
  simp only [Path.FirstIn, State.Closed]; decide +kernel

theorem test_meets_checks :
    spanRefused (request 0 0xF8 (.read 2)) (serving.path.decode (request 0 0xF8 (.read 2))) =
      true ∧
    (let words : List WordRef := [.stage 0 7, .stage 1 0]
     spanRefused (request 1 0x100038 (.read 2)) words = false ∧
     hasRight 2 .read (.operator 0) (.stage 1 0) = false ∧
     ∀ j < 1, ∀ v ∈ words[j]?, hasRight 2 .read (.operator 0) v = true) ∧
    (let words : List WordRef := [.descriptor 1, .descriptor 2]
     spanRefused (request 0 8 (.write [beat 0, beat 0])) words = false ∧
     (∀ w ∈ words, hasRight 2 .write .controller w = true) ∧
     (WordRef.descriptor 2).wordClass = .overlaid ∧
     ∀ j < 1, ∀ v ∈ words[j]?, v.wordClass ≠ .overlaid) := by
  decide +kernel

theorem test_meets_decoding :
    (∀ x ∈ serving.path.windowMap, ∀ a ∈ [x.base, x.base + 8 * (x.words - 1)],
      x.holds a = true ∧ ∀ y ∈ serving.path.windowMap, y.holds a = true → y = x) ∧
    serving.path.windowMap.length = 6 ∧
    (∀ x ∈ serving.path.windowMap, x.holds 0x800000 = false) := by
  decide +kernel

/-- A presented deposit. -/
def deposit : OwnAccess := ⟨.deposit, ⟨.write, 0x500000, 2, [beat 0, beat 0]⟩, false⟩

/-- The small site with an own access presented and a passing run. -/
def presenting (run : Nat) (l : List Entry) : State :=
  serving.setPath
    { serving.path with entries := l, ownPresented := some deposit, passingRun := run }

theorem test_meets_arbiter :
    (presenting 3 [taken .held plainRead serving]).path.FirstIn .held []
      (taken .held plainRead serving) [] ∧
    (presenting 3 []).path.passingRun ≠ 4 ∧
    (presenting 4 []).path.ownPresented = some deposit ∧
    (presenting 4 []).path.ownInFlight = none ∧ (presenting 4 []).path.passingRun = 4 ∧
    (∀ d ∈ serving.path.entries, d.stage ≠ .held) ∧ serving.path.ownPresented = none ∧
    (taken .held frontWrite serving).taken = some (serving.takenFor frontWrite) ∧
    (serving.takenFor frontWrite).words.length = frontWrite.beats.length ∧
    (taken .held plainRead serving).request.kind = .read := by
  simp only [Path.FirstIn]; decide +kernel

/-- The small site waiting for memory's answer to a request. -/
def atMemory (r : Request) : State :=
  granting ⟨false, (taken .atMemory r serving).access⟩ (queued [taken .atMemory r serving] serving)

theorem test_meets_memory_answers :
    (atMemory frontWrite).path.granted = [⟨false, (taken .atMemory frontWrite serving).access⟩] ∧
    (taken .atMemory frontWrite serving).access.kind = .write ∧
    (atMemory frontWrite).path.FirstIn .atMemory [] (taken .atMemory frontWrite serving) [] ∧
    (inMode .starting (atMemory frontWrite)).site.mode.inService = false ∧
    (inMode .starting (atMemory frontWrite)).site.mode ≠ (serving.takenFor frontWrite).mode ∧
    (taken .atMemory plainRead serving).access.kind = .read ∧
    (atMemory plainRead).path.FirstIn .atMemory [] (taken .atMemory plainRead serving) [] ∧
    (List.replicate 8 (0 : Word)).length = plainRead.length := by
  simp only [Path.FirstIn]; decide +kernel

/-- WRITES of PLAIN words: of memory outside the windows, of d10 to d15 of a sector, and of w22 on. -/
def plainWrites : List Request :=
  [request 5 0x800000 (.write [beat 1, beat 2]), request 0 0x4000D0 (.write (List.replicate 6 (beat 1))),
    request 0 176 (.write [beat 1])]

theorem test_meets_write_of_plain_words :
    ∀ r ∈ plainWrites,
      (atMemory r).path.FirstIn .atMemory [] (taken .atMemory r serving) [] ∧
      (∀ w ∈ (serving.takenFor r).words, w.wordClass = .plain) ∧
      (taken .atMemory r serving).access.kind = .write ∧
      protectionCheck 2 (serving.path.roles.get r.initiator) r (serving.path.decode r) = none ∧
      stateRefused serving r (serving.path.decode r) = false ∧
      (inMode .hold (atMemory r)).site.mode.inService = true := by
  simp only [Path.FirstIn]; decide +kernel

/-- A WRITE of s0, s1 and s2 of stage 1. -/
def wholePost : Request := request 1 0x100000 (.write [beat 1, beat 2, beat 0x100])

theorem test_meets_write_response_merges_then_posts :
    (atMemory wholePost).path.FirstIn .atMemory [] (taken .atMemory wholePost serving) [] ∧
    (taken .atMemory wholePost serving).access.kind = .write ∧
    (serving.takenFor wholePost).words = [.stage 0 0, .stage 0 1, .stage 0 2] ∧
    wholePost.beats = [beat 1, beat 2, beat 0x100] ∧ serving.site.mode.inService = true ∧
    (serving.stage 0).pending = false ∧ (serving.stage 0).back = none ∧
    PostMode.ofCode (field 0x100 0 2) = some .tune := by
  simp only [Path.FirstIn]; decide +kernel

/-- WRITEs of s0 alone, of s1 alone, and of s1 and s2 with a short post. -/
def tuningWrite : Request := request 1 0x100000 (.write [beat 1])
def searchWrite : Request := request 1 0x100008 (.write [⟨2, 0x0F⟩])
def shortWrite : Request := request 1 0x100008 (.write [beat 2, ⟨0x703, 0x02⟩])

theorem test_meets_write_response_merges_without_a_full_post :
    (serving.takenFor tuningWrite).words = [.stage 0 0] ∧
    (serving.takenFor searchWrite).words = [.stage 0 1] ∧
    (serving.takenFor shortWrite).words = [.stage 0 1, .stage 0 2] ∧
    shortWrite.beats = [beat 2] ++ [⟨0x703, 0x02⟩] ∧ (0x02#8).getLsbD 0 = false ∧
    ((serving.setStage 0 { Stage.afterReset with pending := true }).stage 0).pending = true := by
  decide +kernel

/-- WRITEs of s1 to s4 and of s2 to s5 of stage 1: CAPTURED, ACTION and PLAIN words. -/
def mixedWrite : Request := request 1 0x100008 (.write [beat 2, beat 0x101, beat 1, beat 1])
def plainTail : Request := request 1 0x100010 (.write [beat 0x101, beat 1, beat 1, beat 5])

theorem test_meets_write_response_of_mixed_words :
    (serving.takenFor mixedWrite).words = [.stage 0 1, .stage 0 2, .stage 0 3, .stage 0 4] ∧
    (serving.takenFor mixedWrite).words.Nodup ∧ mixedWrite.beats.length = 4 ∧
    (serving.takenFor plainTail).words = [.stage 0 2, .stage 0 3, .stage 0 4, .stage 0 5] ∧
    protectionCheck 2 (.operator 0) mixedWrite (serving.path.decode mixedWrite) = none ∧
    stateRefused serving mixedWrite (serving.path.decode mixedWrite) = false ∧
    ∃ t, exec (.memoryWriteResponse .okay) (atMemory mixedWrite) = .next t ∧
      (t.stage 0).back.map Post.search = some 2 :=
  ⟨by decide +kernel, by decide +kernel, by decide +kernel, by decide +kernel, by decide +kernel,
    by decide +kernel, _, rfl, by decide +kernel⟩

/-- WRITEs of descriptor words: w5 and w6, w16, w20, and w21. -/
def siteWrite : Request := request 0 40 (.write [beat 1, ⟨2, 0x0F⟩])
def bandWrite : Request := request 0 128 (.write [beat 0])
def modesWrite : Request := request 0 160 (.write [beat 0x200])
def filtersWrite : Request := request 0 168 (.write [beat 0x22222222])

/-- WRITEs of several live words, w17 to w19 and w16 to w21. -/
def liveWrite : Request := request 0 136 (.write [beat 1, beat 2, beat 3])
def tailWrite : Request := request 0 128 (.write (List.replicate 6 (beat 1)))

theorem test_meets_several_live_words :
    (serving.takenFor liveWrite).words = [.descriptor 17, .descriptor 18, .descriptor 19] ∧
    (serving.takenFor tailWrite).words = [.descriptor 16, .descriptor 17, .descriptor 18,
      .descriptor 19, .descriptor 20, .descriptor 21] ∧
    (serving.takenFor tailWrite).words.Nodup ∧ tailWrite.beats.length = 6 ∧
    .descriptor 20 ∉ (serving.takenFor liveWrite).words ∧ liveWrite.beats.length = 3 ∧
    (serving.takenFor (request 0 168 (.write [beat 0x22222222, beat 0]))).words =
      [.descriptor 21, .descriptor 22] := by
  decide +kernel

/-- A state waiting for memory's answer to a request it took. -/
def awaiting (r : Request) (s : State) : State :=
  granting ⟨false, (taken .atMemory r s).access⟩ (queued [taken .atMemory r s] s)

theorem test_meets_write_response_merges :
    ((posted (post .tune 1) serving).stage 0).back ≠ none ∧
    ((posted (post .tune 1) serving).stage 0).pending = false ∧
    (awaiting siteWrite ready).path.FirstIn .atMemory [] (taken .atMemory siteWrite ready) [] ∧
    (ready.takenFor siteWrite).words = [.descriptor 5, .descriptor 6] ∧
    (ready.takenFor siteWrite).words.Nodup ∧ siteWrite.beats.length = 2 ∧
    ready.site.mode = .config ∧ (ready.takenFor siteWrite).mode = .config ∧
    (ready.takenFor filtersWrite).words = [.descriptor 21] ∧
    (serving.takenFor bandWrite).words = [.descriptor 16] ∧
    (serving.takenFor modesWrite).words = [.descriptor 20] ∧
    (serving.takenFor filtersWrite).words = [.descriptor 21] ∧
    filtersWrite.beats = [beat 0x22222222] ∧ serving.site.mode.inService = true := by
  simp only [Path.FirstIn]; decide +kernel

/-- The small site with a READ of carrier words whose response is settled. -/
def settled (c : ResponseCode) : State :=
  queued [{ taken .ready carrierRead serving with response := some c }] serving

theorem test_meets_head_returns :
    (settled .okay).path.ListInv ∧
    (settled .okay).path.entries =
      [{ taken .ready carrierRead serving with response := some .okay }] ∧
    (settled .refused).path.ListInv ∧ carrierRead.kind = .read ∧ frontWrite.kind = .write ∧
    (taken .ready carrierRead serving).taken = some (serving.takenFor carrierRead) := by
  simp only [Path.ListInv]; decide +kernel

theorem test_meets_concealment :
    ((withSlot (slotIn .waiting true false) serving).context 1).owner = some 0 ∧
    Role.operator 1 = .operator 1 ∧ (1 : Operator) ≠ 0 ∧ (4 : Fin 16).val = 4 + (0 : Operator).val ∧
    (9 : Fin 16).val = 4 + (5 : Operator).val := by
  decide +kernel

theorem test_meets_serve_and_config :
    ready.site.mode = .config ∧ serving.site.mode ≠ .config ∧
    (inMode .starting ready).site.mode = .starting ∧
    (inMode .stopping serving).site.mode = .stopping := by
  decide +kernel

theorem test_meets_service_stop :
    serving.site.mode.inService = true ∧ (inMode .hold serving).site.mode.inService = true ∧
    serving.faults.ringFull = false ∧
    (presenting 0 []).depositOutstanding = true ∧ serving.faults.queue.length < 15 ∧
    (serving.stage 1).back = none ∧
    ((posted (post .tune 1) serving).stage 0).back = some (post .tune 1) := by
  decide +kernel

/-- A notice to fill queues with. -/
def notice : Notice := ⟨0, 0, ⟨.stopped, none, 0, 0, 0⟩⟩

/-- The small site with some notices queued and some suppressed. -/
def logged (count suppressed : Nat) : State :=
  serving.setFaults
    { serving.faults with queue := List.replicate count notice, suppressed := suppressed }

theorem test_meets_service_stop_queues_stopped :
    16 ≤ (logged 16 0).faults.queue.length ∧ (logged 15 1).faults.queue.length = 15 ∧
    (logged 15 1).faults.queue.length < 16 ∧ (logged 14 1).faults.queue.length < 15 ∧
    0 < (logged 14 1).faults.suppressed ∧ (logged 14 1).site.mode.inService = true ∧
    (logged 14 1).faults.ringFull = false := by
  decide +kernel

/-- The small site with a full ring. -/
def fullRing (count : Nat) : State :=
  (logged count 0).setFaults { (logged count 0).faults with producer := 15 }

theorem test_meets_service_stop_at_a_full_ring :
    (fullRing 3).site.mode.inService = true ∧ (fullRing 3).depositOutstanding = false ∧
    (fullRing 3).faults.ringFull = true ∧
    (∃ t, exec .configRequest (fullRing 3) = .next t ∧ t.faults.queue = [] ∧
      t.faults.suppressed = 4 ∧ t.site.mode = .stopping) ∧
    ∃ t, exec .configRequest (logged 3 0) = .next t ∧ t.faults.queue.length = 4 ∧
      t.path.ownPresented = some (t.faults.headDeposit notice) :=
  ⟨by decide +kernel, by decide +kernel, by decide +kernel, ⟨_, rfl, by decide +kernel⟩,
    _, rfl, by decide +kernel⟩

/-- A start whose load read for `p` has been granted. -/
def loading (p : OwnPurpose) (abandoned : Bool) : State :=
  let a := loadAccess ready p
  (inMode .starting ready).setPath
    { ready.path with granted := [⟨true, a⟩], ownInFlight := some ⟨p, a, abandoned⟩ }

theorem test_meets_load_reads :
    (loadAccess ready .loadL1).kind = .read ∧ (loadAccess ready .loadL1).length = 8 ∧
    (loadAccess ready .loadL2).length = 8 ∧ (List.replicate 8 (0 : Word)).length = 8 ∧
    (loading .loadL1 false).site.mode = .starting ∧
    (loading .loadL2 false).path.ownInFlight =
      some ⟨.loadL2, loadAccess ready .loadL2, false⟩ ∧
    (loading .loadL1 true).path.ownInFlight = some ⟨.loadL1, loadAccess ready .loadL1, true⟩ := by
  decide +kernel

theorem test_meets_loaded_words_are_checked :
    (loadAccess ready .loadL3).length = 1 ∧ (loadAccess ready (.loadSector 0)).length = 2 ∧
    firstPart ready.path { ready.site with copy := copy.put 16 0x11111111 } = none ∧
    firstPart ready.path { ready.site with copy := (copy.put 16 0).put 0 1 } = some .badWindow ∧
    (1 : SectorId).val < ready.site.sectorCount ∧ ready.site.sectorCount ≤ (1 : SectorId).val + 1 ∧
    secondPart ready.site { ready.steering with loaded := loaded.put 1 ⟨1, 0⟩ } =
      some .badSector := by
  decide +kernel

theorem test_meets_last_sector_read :
    (loading (.loadSector 1) false).path.ownInFlight =
      some ⟨.loadSector 1, loadAccess ready (.loadSector 1), false⟩ ∧
    (loading (.loadSector 1) false).path.ownPresented = none ∧
    ready.site.sectorCount ≤ (1 : SectorId).val + 1 ∧
    secondPart ready.site { ready.steering with loaded := loaded.put 1 ⟨12, 0x80⟩ } = none := by
  decide +kernel

theorem test_meets_validation :
    firstPart ready.path ready.site = none ∧ secondPart ready.site ready.steering = none ∧
    firstPart ready.path { ready.site with copy := copy.put 2 0x700500000 } = some .badWindow ∧
    firstPart ready.path { ready.site with copy := copy.put 3 0x20219 } = some .badCount ∧
    secondPart { ready.site with copy := copy.put 4 0x2903E80000 } ready.steering =
      some .badBand ∧
    secondPart { ready.site with copy := copy.put 5 0x218 } ready.steering = none ∧
    secondPart { ready.site with copy := copy.put 5 0x219 } ready.steering = some .badRole ∧
    secondPart ready.site { ready.steering with loaded := loaded.put 1 ⟨12, 0x81⟩ } =
      some .badSector ∧
    secondPart { ready.site with copy := copy.put 16 0 } ready.steering = some .badTuning := by
  decide +kernel

theorem test_meets_notice_production :
    (logged 15 0).faults.suppressed = 0 ∧ (logged 15 0).faults.queue.length < 16 ∧
    16 ≤ (logged 16 0).faults.queue.length ∧ 0 < (logged 15 2).faults.suppressed ∧
    (logged 15 2).faults.queue.length = 15 ∧ (logged 14 2).faults.queue.length < 15 := by
  decide +kernel

/-- A latch that is set and acknowledged, its condition present. -/
def acknowledged : Latch := ⟨true, true, true, some 0, 0⟩

theorem test_meets_reports :
    serving.faultView.mode.inService = true ∧ serving.faults.suppressed = 0 ∧
    serving.faults.queue.length < 16 ∧ (serving.faults.latch .lapse).set = false ∧
    serving.faultView.masked .lapse = false ∧
    ((serving.faults.setLatch .lapse acknowledged).latch .lapse).acknowledged = true ∧
    (FaultView.mk .serving 0x200 0).actsHeld .lapse = true ∧
    (FaultView.mk .serving 0x200 0).masked .lapse = false := by
  decide +kernel

theorem test_meets_mode_changes :
    let v : FaultView := ⟨.serving, 0x80, 0⟩
    let present : Latch := ⟨false, false, true, none, 0⟩
    v.isHeld .hole = true ∧ (0 : Word).getLsbD FaultKind.hole.code = false ∧
    FaultKind.hole.momentary = false ∧
    ((serving.faults.setLatch (.hole 0 0) present).latch (.hole 0 0)).set = false ∧
    ((serving.faults.setLatch (.hole 0 0) present).latch (.hole 0 0)).condition = true ∧
    ((serving.faults.setLatch (.hole 0 0) acknowledged).latch (.hole 0 0)).set = true ∧
    ((serving.faults.setLatch (.hole 0 0) present).modesChanged v 0).queue.length =
      serving.faults.queue.length + 1 := by
  decide +kernel

theorem test_meets_acknowledges :
    serving.site.mode = .serving ∧ (inMode .hold serving).site.mode = .hold ∧
    ready.site.mode = .config ∧ (inMode .stopping serving).site.mode = .stopping ∧
    serving.site.mode.inService = true := by
  decide +kernel

theorem test_meets_clearings :
    let held := serving.setSite { serving.site with copy := copy.put 15 0x280 }
    let s := held.setFaults
      ((held.faults.setLatch .lapse ⟨true, false, false, some 0, 0⟩).setLatch (.hole 0 0)
        ⟨true, false, false, some 1, 0⟩)
    s.clearings [.lapse] = [⟨.cleared, some .lapse, 0, 0, 0⟩] ∧
    s.clearings [.hole 0 0, .hole 0 1] = [⟨.cleared, some (.hole 0 0), 0, 1, 0⟩] ∧
    (s.setFaults (s.faults.setLatch .lapse acknowledged)).clearings [.lapse] = [] := by
  decide +kernel

theorem test_meets_state_refusals :
    stateRefused (inMode .starting ready) acknowledgeWrite [.descriptor 3] = true ∧
    stateRefused (inMode .starting ready) (request 0 0 (.write [beat 1])) [.descriptor 0] = false ∧
    stateRefused (inMode .stopping serving) acknowledgeWrite [.descriptor 3] = true ∧
    ownerRefuses serving (.stage 0 2) (beat 3) = true ∧
    ownerRefuses serving (.descriptor 5) (beat 0) = true ∧
    ownerRefuses ready (.descriptor 5) (beat 0) = false ∧
    ownerRefuses ready (.descriptor 21) (beat 0) = true := by
  decide +kernel

/-- The small site with 3 unconsumed entries. -/
def filled : State := serving.setFaults { serving.faults with producer := 1, consumer := 14 }

theorem test_meets_consumer_write :
    (1#16).toNat < filled.faults.ringSize ∧
    ((1#16).toNat + filled.faults.ringSize - filled.faults.consumer) % filled.faults.ringSize ≤
      (filled.faults.producer + filled.faults.ringSize - filled.faults.consumer) %
        filled.faults.ringSize ∧
    filled.site.mode = .serving ∧ (inMode .hold filled).site.mode = .hold ∧
    (inMode .config filled).site.mode = .config ∧ filled.faults.ringSize ≤ (16#16).toNat ∧
    (filled.faults.producer + filled.faults.ringSize - filled.faults.consumer) %
        filled.faults.ringSize <
      ((2#16).toNat + filled.faults.ringSize - filled.faults.consumer) %
        filled.faults.ringSize := by
  decide +kernel

/-- The RAISED notice of the LAPSE latch, number 0. -/
def raisedLapse : Notice := ⟨0, 0, ⟨.raised, some .lapse, 0, 0, 0⟩⟩

/-- The small site with the LAPSE notice's deposit in flight. -/
def depositing (m : Mode) : State :=
  (inMode m
    (serving.setFaults
      { serving.faults with
        queue := [raisedLapse], lapse := ⟨true, false, true, some 0, 0⟩ })).setPath
    { serving.path with granted := [⟨true, deposit.access⟩], ownInFlight := some deposit }

theorem test_meets_deposit_answers :
    (depositing .serving).path.granted = [⟨true, deposit.access⟩] ∧
    (depositing .serving).path.ownInFlight = some deposit ∧ deposit.access.kind = .write ∧
    (depositing .serving).site.mode = .serving ∧
    (depositing .serving).faults.queue = [raisedLapse] ∧
    1 < (depositing .serving).faults.ringSize ∧
    (depositing .serving).faults.producer < (depositing .serving).faults.ringSize ∧
    (depositing .hold).site.mode = .hold ∧
    ((depositing .hold).faults.latch .lapse).set = true ∧
    ((depositing .hold).faults.latch .lapse).raised = some raisedLapse.sequence := by
  decide +kernel

theorem test_meets_deposit_answers_by_the_mode :
    (depositing .hold).faults.RaisedBy raisedLapse .lapse ∧
    (∀ id, ¬ (logged 1 0).faults.RaisedBy notice id) ∧
    (depositing .stopping).site.mode = .stopping ∧
    (depositing .stopping).path.granted = [⟨true, deposit.access⟩] ∧
    (depositing .stopping).faults.queue = [raisedLapse] ∧
    (depositing .stopping).path.ownPresented = none :=
  ⟨⟨rfl, rfl, rfl, rfl⟩, fun _ h => by simp [Faults.RaisedBy, notice] at h,
    by decide +kernel, by decide +kernel, by decide +kernel, by decide +kernel⟩

theorem test_meets_lapse_expiry :
    let s := (logged 1 0).setFaults { (logged 1 0).faults with lapseTimer := some 4 }
    s.site.mode = .serving ∧ s.faults.lapseTimer = some 4 ∧ s.faults.queue ≠ [] := by
  decide +kernel

theorem test_meets_lapse_expiry_at_a_full_ring :
    let s := (fullRing 0).setFaults { (fullRing 0).faults with lapseTimer := some 4 }
    s.site.mode = .serving ∧ s.faults.lapseTimer = some 4 ∧ s.faults.queue = [] ∧
    s.depositOutstanding = false ∧ s.faults.ringFull = true ∧ s.faults.lapse.set = false ∧
    s.faultView.masked .lapse = false ∧
    ∃ t, exec .lapseExpiry s = .next t ∧ t.faults.consumer = 1 ∧
      t.path.ownPresented = some (t.faults.headDeposit raisedLapse) :=
  ⟨by decide +kernel, by decide +kernel, by decide +kernel, by decide +kernel, by decide +kernel,
    by decide +kernel, by decide +kernel, _, rfl, by decide +kernel⟩

theorem test_meets_deposits_are_presented :
    (logged 1 0).faults.queue = [notice] ∧ (logged 1 0).depositOutstanding = false ∧
    (logged 1 0).site.mode = .serving ∧ (logged 1 0).faults.ringFull = false ∧
    ({ (logged 1 0).faults with producer := 15 } : Faults).ringFull = true ∧
    (inMode .hold (logged 1 0)).site.mode = .hold ∧
    (inMode .stopping (logged 1 0)).site.mode = .stopping ∧
    (inMode .config (logged 1 0)).site.mode = .config := by
  decide +kernel

theorem test_meets_posts :
    serving.site.mode.inService = true ∧ (1 : Operator).val < serving.site.operatorCount ∧
    (serving.stage 1).pending = false ∧ PostMode.ofCode (field 0x102 0 2) = some .release ∧
    (0x01#8).getLsbD 0 = true ∧ (0x02#8).getLsbD 0 = false ∧ (0x02#8) ≠ 0xFF#8 ∧
    field 0x103 0 2 = 3 := by
  decide +kernel

theorem test_meets_validator_turns :
    (posted (post .tune 96) serving).stages.next = some (0, post .tune 96) ∧
    checkPost (posted (post .tune 96) serving) 0 (post .tune 96) = .inr .badSlot ∧
    (posted (post .tune 96) serving).site.mode ≠ .stopping ∧ (post .tune 96).mode = .tune ∧
    serving.stages.next = none := by
  decide +kernel

theorem test_meets_the_checks_of_a_post :
    let wide := fun bits => ({ post .tune 1 with tuning := bits } : Post)
    let narrow := serving.setSite { serving.site with copy := copy.put 6 0x3E80064 }
    let taken := serving.setContext 0 { slotIn .onAir true true with owner := some 1 }
    checkPost ready 0 (post .tune 1) = .inr .notServing ∧
    checkPost serving 0 (post .tune 16) = .inr .badSlot ∧
    checkPost (withSlot (slotIn .waiting true false) serving) 1 (post .tune 1) = .inr .notOwner ∧
    checkPost (withSlot (slotIn .tuning true false) serving) 0 (post .tune 1) = .inr .slotBusy ∧
    checkPost serving 0 (post .tune 15) = .inr .unitDown ∧
    checkPost (withUnit (fun r => { r with garbled := true }) serving) 0 (post .search 1) =
      .inr .linkPoor ∧
    checkPost serving 0 (wide 0x0A000064) = .inr .badField ∧
    checkPost serving 0 (wide 0x0A020031) = .inr .outOfRange ∧
    checkPost narrow 0 (post .tune 1) = .inr .outOfBand ∧
    checkPost taken 0 (post .tune 1) = .inr .overlap ∧
    checkPost serving 0 (post .tune 1) = .inl 1 := by
  decide +kernel

/-- The small site with slot 1 in a state and a post for it WAITING. -/
def postedTo (c : Context) (m : PostMode) : State := posted (post m 1) (withSlot c serving)

theorem test_meets_tune :
    (∀ c ∈ [Context.afterReset, { Context.afterReset with orphan := true },
        slotIn .onAir true true, slotIn .waiting true false, slotIn .suspended true false],
      (postedTo c .tune).stages.next = some (0, post .tune 1) ∧
      checkPost (postedTo c .tune) 0 (post .tune 1) = .inl 1 ∧
      (postedTo c .tune).context 1 = c) ∧
    ((postedTo (slotIn .onAir true true) .tune).steering.record 1).onAir = some 2 := by
  decide +kernel

theorem test_meets_search :
    (postedTo Context.afterReset .search).stages.next = some (0, post .search 1) ∧
    checkPost (postedTo Context.afterReset .search) 0 (post .search 1) = .inl 1 ∧
    (∃ r, examine ((postedTo Context.afterReset .search).carriers.overlapsOthers 1) 65536
      (searchRecordOf serving.site 0 (post .search 1)) = .clear r) ∧
    (∃ r, examine (fun _ => true) 65536 { search with upper := 152 } = .limit r) ∧
    1 ≤ search.step ∧ search.upper ≤ 65535 :=
  ⟨by decide +kernel, by decide +kernel, ⟨_, rfl⟩, ⟨_, rfl⟩, by decide, by decide⟩

/-- The small site with slots 0 and 2 of unit 0 on air around channel 100, so that a search from
there by slot 1 within 50 to 152 ends at its limit. -/
def crowded : State :=
  let narrow := serving.setSite { serving.site with copy := (copy.put 6 0x980032) }
  posted (post .search 1)
    (narrow.setContext 0 { slotIn .onAir true true with owner := some 1 })

theorem test_meets_search_at_its_limit :
    crowded.stages.next = some (0, post .search 1) ∧
    checkPost crowded 0 (post .search 1) = .inl 1 ∧
    ∃ r, examine (crowded.carriers.overlapsOthers 1) 65536
      (searchRecordOf crowded.site 0 (post .search 1)) = .limit r :=
  ⟨by decide +kernel, by decide +kernel, ⟨_, rfl⟩⟩

theorem test_meets_release :
    (∀ c ∈ [Context.afterReset, { slotIn .searching false false with search := some search },
        slotIn .waiting true false, slotIn .waiting true true, slotIn .onAir true true,
        slotIn .suspended true false],
      (postedTo c .release).stages.next = some (0, post .release 1) ∧
      checkPost (postedTo c .release) 0 (post .release 1) = .inl 1 ∧
      (postedTo c .release).context 1 = c) ∧
    ((postedTo (slotIn .onAir true true) .release).steering.record 1).onAir = some 2 := by
  decide +kernel

theorem test_meets_dispatch :
    let tune := withLink { Link.afterReset with queue := [.tune 1 tuning] }
      (withSlot (slotIn .waiting true false) serving)
    let poll := withLink { Link.afterReset with queue := [.drop 1, .poll] }
      (withUnit (fun r => { r with state := .probing }) serving)
    (tune.link 0).inFlight = none ∧ (tune.link 0).tx = .idle ∧
    (tune.link 0).breakRequest = false ∧ (tune.unit 0).state = .live ∧
    (tune.link 0).queue = [.tune 1 tuning] ∧ (tune.context 1).state = .waiting ∧
    Command.code (.drop 1) ≠ 1 ∧ (poll.unit 0).state = .probing ∧
    (poll.link 0).inFlight = none ∧ .poll ∈ (poll.link 0).queue ∧
    ((serving.unit 0).state = .live ∧ (serving.link 0).queue = []) := by
  decide +kernel

theorem test_meets_transmitter :
    (withLink { Link.afterReset with tx := .preamble } serving).link 0 =
      { Link.afterReset with tx := .preamble } ∧
    (serving.link 0).tx = .idle ∧
    (∀ tx ∈ [TxState.preamble, .frame],
      ((withLink { Link.afterReset with tx := tx, breakRequest := true } serving).link 0).tx = tx ∧
      ((withLink { Link.afterReset with tx := tx, breakRequest := true } serving).link 0).breakRequest =
        true) ∧
    (serving.link 0).breakRequest = false ∧
    ((withLink { Link.afterReset with tx := .sendingBreak } serving).link 0).tx = .sendingBreak ∧
    (inMode .stopping serving).site.mode = .stopping ∧ serving.faults.queue = [] := by
  decide +kernel

/-- A stop whose last break ends on link 0, with the producer index given and some notices queued. -/
def stopping (producer count : Nat) : State :=
  let s := withLink { Link.afterReset with tx := .sendingBreak } (inMode .stopping (logged count 0))
  (s.setSite { s.site with owingBreaks := 1 }).setFaults { s.faults with producer := producer }

theorem test_meets_break_end_in_stopping :
    (∀ p ∈ [(0, 0), (0, 1), (15, 0), (15, 2)],
      ((stopping p.1 p.2).link 0).tx = .sendingBreak ∧
      (stopping p.1 p.2).site.mode = .stopping ∧
      (stopping p.1 p.2).depositOutstanding = false ∧
      (stopping p.1 p.2).faults.ringFull = decide (p.1 = 15) ∧
      (stopping p.1 p.2).faults.queue.length = p.2) ∧
    ∃ t, exec (.breakEnd 0) (stopping 15 2) = .next t ∧ t.site.mode = .config ∧
      t.faults.suppressed = 2 :=
  ⟨by decide +kernel, _, rfl, by decide +kernel⟩

theorem test_meets_reply_timer :
    let s := fun resent => withLink
      { Link.afterReset with inFlight := some ⟨.poll, 3, resent⟩, replyTimer := some 5 } serving
    ((s true).link 0).replyTimer = some 5 ∧ ((s true).link 0).inFlight = some ⟨.poll, 3, true⟩ ∧
    ((s false).link 0).inFlight = some ⟨.poll, 3, false⟩ ∧ (s true).site.mode ≠ .stopping ∧
    ((s true).unit 0).state = .live ∧
    ((withUnit (fun r => { r with state := .probing }) (s true)).unit 0).state = .probing ∧
    ((withUnit (fun r => { r with state := .probing }) (s true)).unit 0).silent = false ∧
    ((withUnit (fun r => { r with state := .out }) (s true)).unit 0).state = .out := by
  decide +kernel

theorem test_meets_replies_are_matched :
    let l := collecting (.scan 1 100 2) 0xB0 [100, 0, 9]
    ((l.buffer ++ [-(byteSum l.buffer)]).map BitVec.toNat).sum % 256 = 0 ∧
    ((l.buffer ++ [0]).map BitVec.toNat).sum % 256 ≠ 0 ∧ l.inFlight = some ⟨.scan 1 100 2, 0, false⟩ ∧
    l.line = .ready ∧ l.bodyComplete = true ∧
    classify (check 0xB0 [100, 0, 9]) = .good false (-(byteSum l.buffer)) := by
  decide +kernel

theorem test_meets_body_lengths :
    (∀ x ∈ [(0x90, 2), (0xA5, 1), (0xBF, 3), (0xC0, 13)],
      (collecting .poll x.1 (List.replicate x.2 0)).bodyComplete = true ∧
      (collecting .poll x.1 (List.replicate (x.2 - 1) 0)).bodyComplete = false ∧
      (collecting .poll x.1 (List.replicate (x.2 + 1) 0)).bodyComplete = false) ∧
    (collecting .poll 0x90 [1]).completion (cleanSamples false 0) = none ∧
    (collecting .poll 0x90 [1, 0]).completion (cleanSamples true 0) = none := by
  decide +kernel

/-- The small site with slot 1 in a state, and an answer to a command collected on link 0. -/
def answered (x : Context) (c : Command) (head : Byte) (body : List Byte) : State :=
  withLink (collecting c head body) (withSlot x serving)

theorem test_meets_tuned_and_dropped :
    (∀ result ∈ [(0 : Byte), 1],
      ((answered (slotIn .tuning true true) (.tune 1 tuning) 0x90 [1, result]).link 0).completion
        (check 0x90 [1, result]) = some (.taken (.tuned 1 result))) ∧
    (slotIn .tuning true true).state = .tuning ∧
    (slotIn .tuning true true).requested = some ⟨tuning, .post⟩ ∧
    (slotIn .tuning true true).held = some tuning ∧ (slotIn .tuning true false).held = none ∧
    ((answered (slotIn .releasing false true) (.drop 1) 0xA0 [1]).link 0).completion
      (check 0xA0 [1]) = some (.taken (.dropped 1)) ∧
    (slotIn .releasing false true).state = .releasing := by
  decide +kernel

theorem test_meets_level :
    let x := { slotIn .searching false false with search := some search }
    (∀ v ∈ [(0 : Byte), 4, 5, 15],
      ((answered x (.scan 1 100 2) 0xB0 [100, 0, v]).link 0).completion
        (check 0xB0 [100, 0, v]) = some (.taken (.level 1 v.toNat))) ∧
    slotUnit 1 = 0 ∧ x.orphan = false ∧ x.state = .searching ∧ x.search = some search ∧
    serving.carriers.overlapsOthers 1 (intervalOf 100 2) = false ∧
    { x with orphan := true }.orphan = true ∧ serving.site.mode ≠ .stopping := by
  decide +kernel

theorem test_meets_level_goes_on_or_ends :
    (∃ r, moveOn (serving.carriers.overlapsOthers 1) search = .clear r) ∧
    ∃ r, moveOn (serving.carriers.overlapsOthers 1) { search with upper := 150 } = .limit r :=
  ⟨⟨_, rfl⟩, ⟨_, rfl⟩⟩

theorem test_meets_the_walk :
    1 ≤ search.step ∧ search.upper ≤ 65535 ∧
    (slotIn .onAir true true).orphan = false ∧ (slotIn .onAir true true).state ≠ .searching ∧
    serving.carriers.overlapsOthers 1 (intervalOf 100 2) = false := by
  decide +kernel

theorem test_meets_status :
    (∀ alarms ∈ [(0 : Byte), 1, 2, 4],
      ((answered Context.afterReset .poll 0xC0 (statusBody alarms)).link 0).completion
        (check 0xC0 (statusBody alarms)) =
        some (.taken (.status (alarms.setWidth 4) (Bank.fill ⟨0, 0⟩)))) ∧
    (serving.unit 0).state = .live ∧
    ((withUnit (fun r => { r with state := .probing }) serving).unit 0).state = .probing ∧
    (((serving.unit 0).takeStatus serving.site 0 (Bank.fill ⟨0, 0⟩)).filters.get 0).present =
      false ∧
    (((serving.unit 0).takeStatus serving.site 1 (Bank.fill ⟨0, 0⟩)).filters.get 0).present =
      true := by
  decide +kernel

theorem test_meets_status_sums :
    let s := withSlot (slotIn .suspended true false) serving
    let t := s.onSteering (Steering.onCell 0 0 fun c => { c with holding := 1 })
    t.carriers.Inv ∧ t.SteeringInv ∧ t.steering.sectorOf 0 = some 0 ∧
    (∀ k, (t.steering.cell 0 k).accumulator ≤ 65535) ∧
    ((serving.unit 0).takeStatus serving.site 15 (Bank.fill ⟨1023, 255⟩)).lastAlarms = 15 := by
  simp only [Carriers.Inv, Context.Coherent, State.SteeringInv]; decide +kernel

theorem test_meets_status_with_a_suspended_slot :
    (withSlot (slotIn .suspended true false) serving).carriers.Inv ∧
    ∀ m, slotUnit m = 0 →
      ((withSlot (slotIn .suspended true false) serving).context m).state = .suspended →
      ((withSlot (slotIn .suspended true false) serving).context m).orphan = false := by
  simp only [Carriers.Inv, Context.Coherent]; decide +kernel

/-- A character with every bit 0, one whose data samples disagree, and one whose stop bit is 0. -/
def breakSamples : Samples := Bank.fill 0
def noisySamples : Samples := (cleanSamples false 1).put 3 1
def framingSamples : Samples := (cleanSamples false 1).put 10 0

theorem test_meets_receiver :
    (serving.link 0).line = .ready ∧ classify noisySamples = .noisy ∧
    classify framingSamples = .framing ∧ classify breakSamples = .breakCharacter ∧
    (collecting .poll 0xC0 (statusBody 0)).bodyComplete = true ∧
    (collecting .poll 0xC0 (statusBody 0)).judge 0 = .check ∧
    (collecting (.drop 1) 0xC0 (statusBody 0)).judge 0x40 = .stray ∧
    classify (cleanSamples true 0x90) = .good true 0x90 ∧
    classify (cleanSamples true 0xD0) = .good true 0xD0 ∧
    classify (cleanSamples false 7) = .good false 7 ∧
    (serving.link 0).bodyComplete = false ∧ (serving.link 0).rx = .hunt ∧
    ({ Link.afterReset with line := .settling } : Link).line = .settling := by
  decide +kernel

/-- Characters that two classes could claim take the first: a start bit 1 by majority, a break with a
disturbed sample, a noisy character with stop bit 0, and a start bit with one sample 1. -/
theorem test_meets_classes :
    classify (breakSamples.put 0 3) = .falseStart ∧
    classify (breakSamples.put 10 4) = .breakCharacter ∧
    classify (framingSamples.put 4 1) = .noisy ∧
    classify ((cleanSamples true 0x90).put 0 2) = .noisy ∧
    classify (cleanSamples true 0) = .good true 0 ∧
    classify ((cleanSamples true 0).put 10 0) = .framing := by
  decide +kernel

theorem test_meets_break_received :
    (serving.link 0).line = .ready ∧ classify breakSamples = .breakCharacter ∧
    serving.site.mode ≠ .stopping ∧ (serving.unit 0).state = .live ∧ (serving.unit 1).state = .off ∧
    ((withUnit (fun r => { r with state := .down }) serving).unit 0).exhausted = false := by
  decide +kernel

theorem test_meets_unit_requests :
    serving.site.mode.inService = true ∧ (serving.unit 0).state ≠ .out ∧
    (serving.unit 0).state ≠ .off ∧
    ((withUnit UnitRecord.goOut serving).unit 0).state = .out ∧
    (let down := withUnit (fun r => { r with state := .down, recovery := some 3 }) serving
     (down.unit 0).state = .down ∧ (down.unit 0).recovery ≠ none) ∧
    (let waiting := withUnit (fun r => { r with state := .resetting, guard := true }) serving
     (waiting.unit 0).state = .resetting ∧ (waiting.unit 0).guard = true) ∧
    (let tired := withUnit (fun r => { r with state := .down, exhausted := true }) serving
     (tired.unit 0).state = .down ∧ (tired.unit 0).exhausted = true ∧
     (tired.unit 0).recovery = none) ∧
    (let marked := withUnit (fun r => { r with silent := true, garbled := true }) serving
     (marked.unit 0).state = .live ∧ (marked.unit 0).silent = true ∧
     (marked.unit 0).garbled = true) := by
  decide +kernel

theorem test_meets_poll_expiry :
    let s := withLink { Link.afterReset with errorWindow := 3 } serving
    s.pollTimer ≠ none ∧ s.site.mode ≠ .stopping ∧ (s.unit 0).state = .live ∧
    s.site.garbleThreshold ≠ 0 ∧ s.site.garbleThreshold ≤ (s.link 0).errorWindow ∧
    (s.unit 0).garbled = false ∧ (s.unit 1).state = .off ∧ State.reset.pollTimer = none := by
  decide +kernel

/-- The small site with the cell of sector 0 and operator 1 changed. -/
def withCell (f : Cell → Cell) : State := serving.setSteering (serving.steering.onCell 0 0 f)

theorem test_meets_standing :
    (∀ f ∈ [(1, 0), (0, 0), (0, 4), (1, 4)],
      let s := withCell fun c => { c with holding := f.1, capacity := f.2, trend := .over }
      let t := decideStandings (Steering.onCell 0 0 (fun c => { c with holding := 9 }) s.steering) s
      (s.steering.cell 0 0).trend ≠ .dark ∧
      ((t.steering.cell 0 0).trend = .dark ↔ f.1 ≠ 0 ∧ f.2 = 0)) ∧
    (let s := withCell fun c => { c with holding := 1, capacity := 4, trend := .dark }
     ((decideStandings serving.steering s).steering.cell 0 0).trend ≠ .dark) ∧
    serving.site.mode.inService = true := by
  decide +kernel

theorem test_meets_hole_changes :
    (let s := withCell fun c => { c with holding := 0, capacity := 4, trend := .dark }
     holeChanges s (withCell fun c => { c with trend := .neutral }) = [⟨.hole 0 0, false, none⟩]) ∧
    holeChanges serving (withCell fun c => { c with trend := .dark }) =
      [⟨.hole 0 0, true, none⟩] := by
  decide +kernel

theorem test_meets_epoch_expiry :
    let s := withCell fun c => { c with trend := .under, streak := 1, capacity := 4, offset := -8 }
    s.steering.epochTimer ≠ none ∧ State.reset.steering.epochTimer = none ∧
    (s.steering.cell 0 0).trend = .under ∧ (s.steering.cell 0 1).trend = .inactive ∧
    (s.steering.defs.get 0).neighbours = [1] := by
  decide +kernel

theorem test_meets_the_invariants_of_a_step :
    step serving = .next serving.characterTime ∧ serving.path.ListInv ∧ serving.faults.QueueInv := by
  refine ⟨rfl, ?_⟩
  simp only [Path.ListInv, Faults.QueueInv]; decide +kernel

theorem test_meets_contexts_and_occupancy :
    (withSlot (slotIn .onAir true true) serving).carriers.Inv := by
  simp only [Carriers.Inv, Context.Coherent]; decide +kernel

/-- Slot 0 ON-AIR, slot 1 retuned to a lower channel, slot 2 WAITING for the tuning it holds. -/
theorem test_meets_occupancy :
    let contexts := (((Bank.fill Context.afterReset : Bank 96 Context).put 0
      (slotIn .onAir true true)).put 1
      { slotIn .tuning true true with requested := some ⟨⟨90, 2, 10⟩, .post⟩ }).put 2
      (slotIn .waiting true true)
    (occupancyOf contexts 0).map (fun e => (e.slot.val, e.interval.low, e.isHeld)) =
      [(1, 40, false), (0, 50, true), (1, 50, true), (2, 50, true)] ∧
    occupancyOf contexts 1 = [] := by
  decide +kernel

theorem test_meets_links : ∀ n, (serving.link n).Inv := by
  simp only [Link.Inv]; decide +kernel

theorem test_meets_units : ∀ u, (serving.unit u).Inv := by
  simp only [UnitRecord.Inv]; decide +kernel

theorem test_meets_cells : ∀ d k, (serving.steering.cell d k).Inv := by
  simp only [Cell.Inv]; decide +kernel

theorem test_meets_standings :
    (∀ d k, (serving.steering.cell d k).Standing) ∧
    ∀ f ∈ [(1, 0, Trend.dark), (0, 0, .inactive), (1, 4, .over), (0, 4, .neutral)],
      ({ Cell.afterReset with holding := f.1, capacity := f.2.1, trend := f.2.2 } : Cell).Standing := by
  simp only [Cell.Standing]; decide +kernel

theorem test_meets_unit_cells :
    let s := (withSlot (slotIn .onAir true true) serving).onSteering
      (Steering.onCell 0 0 fun c =>
        { c with holding := 1, capacity := 4, load := 7, trend := .neutral })
    s.carriers.Inv ∧ s.SteeringInv ∧ (s.unit 0).state = .live ∧ s.steering.sectorOf 0 = some 0 ∧
    ∃ t, exec (.adminOut 0) s = .next t ∧ UnitCellsDecided 0 s t ∧
      (t.steering.cell 0 0).trend = .dark := by
  refine ⟨?_, ?_, by decide +kernel, by decide +kernel, _, rfl, ?_⟩
  · simp only [Carriers.Inv, Context.Coherent]; decide +kernel
  · simp only [State.SteeringInv]; decide +kernel
  · simp only [UnitCellsDecided]; decide +kernel

theorem test_meets_steering_sums :
    ((withSlot (slotIn .onAir true true) serving).onSteering
      (Steering.onCell 0 0 fun c => { c with holding := 1, capacity := 4, load := 7 })).SteeringInv := by
  simp only [State.SteeringInv]; decide +kernel

theorem test_meets_mode_invariant : serving.ModeInv ∧ deposit.KindFits :=
  ⟨⟨by decide +kernel, by decide +kernel, by decide +kernel, by decide +kernel, by decide +kernel,
    fun _ h => (nomatch h), fun _ h => (nomatch h)⟩, ⟨fun _ => rfl, fun _ => rfl⟩⟩

/-- The small site with a notice queued and its deposit presented. -/
def offering (m : Mode) : State :=
  (inMode m (logged 1 0)).setPath
    { serving.path with ownPresented := some ((logged 1 0).faults.headDeposit notice) }

theorem test_meets_waiting_at_a_full_ring :
    (fullRing 1).Closed ∧ (fullRing 1).faults.queue ≠ [] ∧ (fullRing 1).depositOutstanding = false := by
  simp only [State.Closed]; decide +kernel

theorem test_meets_deposit_invariant :
    serving.DepositInv ∧ serving.Closed ∧
    ∀ m ∈ [Mode.serving, .hold, .stopping], (offering m).DepositInv ∧ (offering m).Closed := by
  refine ⟨.of_none rfl, by simp only [State.Closed]; decide +kernel, fun m _ => ⟨⟨?_, ?_⟩, ?_⟩⟩
  · rintro a (e | e) _
    · injection e with e
      exact ⟨notice, [], rfl, e.symm⟩
    · cases e
  · exact fun _ => rfl
  · exact ⟨fun _ _ e => (nomatch e), fun _ _ => rfl, fun _ => .inr (.inr rfl)⟩

end Sys2Proof.Tests
end

section
/-! What the commands of the other blocks leave of the memory path, the mode and the log: nothing, or an
event that reports and ends. -/
namespace Sys2Proof.Machine

open Sys2Proof

variable {s t u : State}

/-! ## Commands beside the memory path and Site Control -/

/-- Nothing that the path, the mode or the log holds differs: an event of links, stages, carriers,
units, cells or site time that reports nothing. -/
structure Silent (s t : State) : Prop where
  path : t.path = s.path
  mode : t.site.mode = s.site.mode
  owing : t.site.owingBreaks = s.site.owingBreaks
  faults : t.faults = s.faults

/-- The path and the mode stay; of the Fault Reporter the producer index and the ring base stay, and
notices may join the queue at its tail: an event that reports, before its end. -/
structure Beside (s t : State) : Prop where
  path : t.path = s.path
  mode : t.site.mode = s.site.mode
  producer : t.faults.producer = s.faults.producer
  ringBase : t.faults.ringBase = s.faults.ringBase
  queue : s.faults.QueueInv → t.faults.QueueInv
  joins : NoticesJoin s.faults t.faults

theorem Silent.refl (s : State) : Silent s s := ⟨rfl, rfl, rfl, rfl⟩

theorem UnitFrame.beside (h : UnitFrame s t) : Beside s t :=
  ⟨h.path, by rw [h.site], h.ring.1, h.ring.2.2.2.1, h.queue, h.joins⟩

theorem Silent.beside (h : Silent s t) : Beside s t :=
  ⟨h.path, h.mode, by rw [h.faults], by rw [h.faults], by rw [h.faults]; exact id,
    .of_eq (by rw [h.faults])⟩

theorem Beside.trans (h : Beside s t) (k : Beside t u) : Beside s u :=
  ⟨k.path.trans h.path, k.mode.trans h.mode, k.producer.trans h.producer,
    k.ringBase.trans h.ringBase, fun q => k.queue (h.queue q), h.joins.trans k.joins⟩

/-- What a command of another block than the path and Site Control leaves: a silent event, or an event
that reports and ends. -/
def Routine (s t : State) : Prop := Silent s t ∨ ∃ u, Beside s u ∧ t = close u

theorem Routine.refl (s : State) : Routine s s := .inl (.refl s)

theorem Routine.silent (h : Silent s t) : Routine s t := .inl h

theorem Routine.closed (h : Beside s u) : Routine s (close u) := .inr ⟨u, h, rfl⟩

/-- A command that acts under a condition. -/
theorem Routine.ite {p : Prop} [Decidable p] (h : p → Routine s t) :
    Routine s (if p then t else s) := by
  split
  · next hp => exact h hp
  · exact .refl s

theorem Silent.onLink (s : State) (n f) : Silent s (s.onLink n f) := ⟨rfl, rfl, rfl, rfl⟩

theorem Silent.onUnit (s : State) (n f) : Silent s (s.onUnit n f) := ⟨rfl, rfl, rfl, rfl⟩

theorem Silent.setSteering (s : State) (x) : Silent s (s.setSteering x) := ⟨rfl, rfl, rfl, rfl⟩

theorem Silent.setLinks (s : State) (x) : Silent s (s.setLinks x) := ⟨rfl, rfl, rfl, rfl⟩

theorem Silent.setPollTimer (s : State) (x) : Silent s (s.setPollTimer x) := ⟨rfl, rfl, rfl, rfl⟩

/-- Site time counts in the modes with windows (R36). -/
theorem Silent.countTime (s : State) : Silent s (countTime s) := by
  unfold Machine.countTime
  split
  · exact ⟨rfl, rfl, rfl, rfl⟩
  · exact .refl s

theorem Silent.of_carriers (h : CarrierFrame s t) : Silent s t :=
  ⟨h.path, by rw [h.site], by rw [h.site], h.faults⟩

/-- A reply that is taken (R103). -/
theorem Routine.delivering (n : UnitId) {effect : State → State}
    (h : ∀ s, UnitFrame s (effect s)) (s : State) : Routine s (delivering n effect s) :=
  .closed ((Silent.onLink s n _).beside.trans (UnitFrame.settling (h _)).beside)

/-- A part of a u4 write (R123). -/
theorem Routine.unitWritten {effect : State → State} (h : ∀ s, UnitFrame s (effect s))
    (s : State) : Routine s (unitWritten effect s) :=
  .ite fun _ => .closed (UnitFrame.settling (h s)).beside

theorem Routine.postWritten (k : Operator) (b : Beat) (s : State) :
    Routine s (postWritten k b s) :=
  .ite fun _ => .silent ⟨rfl, rfl, rfl, rfl⟩

theorem Beside.validate (k : Operator) (p : Post) (s : State) : Beside s (validate k p s) :=
  (UnitFrame.validateJudged s k p).beside.trans (Silent.beside ⟨rfl, rfl, rfl, rfl⟩)

theorem Routine.validation (m : PostMode) (s : State) : Routine s (validation m s) := by
  unfold Machine.validation
  split
  · next k p _ =>
    exact .ite fun _ =>
      .closed ((Beside.validate k p s).trans (UnitFrame.decideStandings _ _).beside)
  · exact .refl s

/-- The end of a break, outside STOPPING and in it (R94, R111, R35). -/
theorem Routine.breakEnded (n : UnitId) (s : State) : Routine s (breakEnded n s) := by
  unfold Machine.breakEnded
  simp only
  split
  · exact .closed ⟨rfl, rfl, rfl, rfl, id, .refl _⟩
  · exact .silent ⟨rfl, rfl, rfl, rfl⟩

theorem Routine.replyTimerExpired (n : UnitId) (x : InFlight) (s : State) :
    Routine s (replyTimerExpired n x s) := by
  unfold Machine.replyTimerExpired
  split
  · exact .closed ((Silent.onLink s n _).beside.trans
      (UnitFrame.settling (UnitFrame.secondTimeout n _)).beside)
  · exact .silent (.onLink s n _)

theorem Beside.pollExpired (s : State) : Beside s (pollExpired s) :=
  (Silent.setPollTimer s _).beside.trans (UnitFrame.pollUnits _).beside

theorem Beside.clearDepositMark (s : State) : Beside s (clearDepositMark s) :=
  ⟨rfl, rfl, rfl, rfl, fun h => h.of_eq rfl rfl, .refl _⟩

/-- The commands of the memory path and of Site Control, and those that move the ring's indices. -/
def Instr.onPath : Instr → Bool
  | .pinReset _ | .requestArrival _ | .takeRequest | .arbiterGrant | .memoryWriteResponse _
  | .memoryReadResponse _ | .responseReturn | .serveRequest | .configRequest | .loadReadAnswer _
  | .consumerWrite _ | .depositAnswer _ | .lapseExpiry => true
  | _ => false

theorem exec_routine (c : Instr) (h : Instr.onPath c = false) (s : State) :
    ∃ t, exec c s = .next t ∧ Routine s t := by
  cases c with
  | pinReset | requestArrival | takeRequest | arbiterGrant | memoryWriteResponse
  | memoryReadResponse | responseReturn | serveRequest | configRequest | loadReadAnswer
  | consumerWrite | depositAnswer | lapseExpiry => cases h
  | acknowledgeProtection =>
    exact ⟨_, rfl, .ite fun _ => .closed (UnitFrame.acknowledgeSite _ s).beside⟩
  | acknowledgeLapse =>
    exact ⟨_, rfl, .ite fun _ => .closed (UnitFrame.acknowledgeSite _ s).beside⟩
  | clearDepositFault => exact ⟨_, rfl, .ite fun _ => .closed (.clearDepositMark s)⟩
  | fullPost k data => exact ⟨_, rfl, .postWritten k _ s⟩
  | shortPost k data en =>
    refine ⟨_, rfl, ?_⟩
    split
    · exact .refl s
    · exact .postWritten k _ s
  | changedSetRemove k hi names =>
    exact ⟨_, rfl, .ite fun _ => .silent (.of_carriers (.removeChanged s k hi names))⟩
  | validateTune => exact ⟨_, rfl, .validation _ s⟩
  | validateSearch => exact ⟨_, rfl, .validation _ s⟩
  | validateRelease => exact ⟨_, rfl, .validation _ s⟩
  | unitAcknowledge u kinds => exact ⟨_, rfl, .unitWritten (UnitFrame.acknowledgeUnit u kinds) s⟩
  | adminOut u => exact ⟨_, rfl, .unitWritten (UnitFrame.requestOut u) s⟩
  | adminIn u => exact ⟨_, rfl, .unitWritten (UnitFrame.requestIn u) s⟩
  | revive u => exact ⟨_, rfl, .unitWritten (UnitFrame.requestRevive u) s⟩
  | holeAcknowledge n ops =>
    exact ⟨_, rfl, .ite fun _ => .closed (UnitFrame.acknowledgeHoles n ops s).beside⟩
  | dispatch n =>
    refine ⟨_, rfl, ?_⟩
    split
    · split
      · exact .silent (.of_carriers ((CarrierFrame.onLink s n _).trans (.tuneDispatched _ _)))
      · exact .silent (.onLink s n _)
    · exact .refl s
  | frameSendEnd n => exact ⟨_, rfl, .ite fun _ => .silent (.onLink s n _)⟩
  | breakBegin n => exact ⟨_, rfl, .ite fun _ => .silent (.onLink s n _)⟩
  | breakEnd n => exact ⟨_, rfl, .ite fun _ => .breakEnded n s⟩
  | replyTimerExpiry n =>
    refine ⟨_, rfl, ?_⟩
    split
    · exact .replyTimerExpired n _ s
    · exact .refl s
  | tunedReply n c =>
    refine ⟨_, rfl, ?_⟩
    split
    · exact .delivering n (fun s => (CarrierFrame.carrierTuned s _ _).unitFrame) s
    · exact .refl s
  | droppedReply n c =>
    refine ⟨_, rfl, ?_⟩
    split
    · exact .delivering n (fun s => (CarrierFrame.carrierDropped s _).unitFrame) s
    · exact .refl s
  | levelReply n c =>
    refine ⟨_, rfl, ?_⟩
    split
    · exact .delivering n (fun s => (CarrierFrame.carrierLevel s _ _).unitFrame) s
    · exact .refl s
  | statusReply n c =>
    refine ⟨_, rfl, ?_⟩
    split
    · exact .delivering n (fun s => UnitFrame.takeStatus n _ _ s) s
    · exact .refl s
  | strayFrame n c =>
    refine ⟨_, rfl, ?_⟩
    split
    · exact .silent (.onLink s n _)
    · exact .refl s
  | checkDiscard n c =>
    refine ⟨_, rfl, ?_⟩
    split
    · exact .silent (.onLink s n _)
    · exact .refl s
  | noiseDiscard n c => exact ⟨_, rfl, .ite fun _ => .silent (.onLink s n _)⟩
  | framingDiscard n c => exact ⟨_, rfl, .ite fun _ => .silent (.onLink s n _)⟩
  | breakReceived n c =>
    exact ⟨_, rfl, .ite fun _ => .closed ((Silent.onLink s n _).beside.trans
      (UnitFrame.settling (UnitFrame.unitBreak n _)).beside)⟩
  | guardExpiry n =>
    exact ⟨_, rfl, .ite fun _ => .silent ⟨rfl, rfl, rfl, rfl⟩⟩
  | recoveryExpiry n =>
    exact ⟨_, rfl, .ite fun _ => .silent ⟨rfl, rfl, rfl, rfl⟩⟩
  | pollExpiry => exact ⟨_, rfl, .ite fun _ => .closed (.pollExpired s)⟩
  | epochExpiry => exact ⟨_, rfl, .ite fun _ => .silent (.setSteering s _)⟩
  | goodCharacterReceived n c =>
    refine ⟨_, rfl, ?_⟩
    split
    · exact .ite fun _ => .silent (.onLink s n _)
    · exact .refl s
  | lineConditionReady n => exact ⟨_, rfl, .ite fun _ => .silent (.onLink s n _)⟩
  | siteTimeCount => exact ⟨_, rfl, .silent (.countTime s)⟩

end Sys2Proof.Machine
end

section
/-! The bounds of the accepted list, the passing run and the notice queue under every step (O54). -/
namespace Sys2Proof.Machine

open Sys2Proof

variable {s t : State} {P : State → Prop}

/-! ## One step, by its command -/

/-- What every command keeps, and the queue does not matter to, every step keeps. -/
theorem step_keeps (routine : ∀ s t, Routine s t → P s → P t)
    (queue : ∀ s x, P s → P (s.setPending x))
    (path : ∀ c s, Instr.onPath c = true → P s → ∃ t, exec c s = .next t ∧ P t)
    (h : step s = .next t) (hs : P s) : P t := by
  unfold step at h
  split at h
  · cases h
    exact routine _ _ (.silent (.setLinks s _)) hs
  · next c rest _ =>
    have hq := queue s rest hs
    have : ∃ u, exec c (s.setPending rest) = .next u ∧ P u := by
      cases hc : Instr.onPath c
      · obtain ⟨u, he, hr⟩ := exec_routine c hc (s.setPending rest)
        exact ⟨u, he, routine _ _ hr hq⟩
      · exact path c _ hc hq
    obtain ⟨u, he, hu⟩ := this
    rw [he] at h
    cases h
    exact hu

/-! ## What the path's commands act on -/

theorem Path.takeable_split {p : Path} {x : Split} (h : p.takeable = some x) :
    splitAt .accepted p.entries = some x := by
  unfold Path.takeable at h
  split at h
  · cases h
  · next y hy =>
    split at h
    · cases h
    · cases h; exact hy

theorem Path.answering_split {p : Path} {k : AccessKind} {x : Split}
    (h : p.answering k = some x) : splitAt .atMemory p.entries = some x := by
  unfold Path.answering at h
  split at h
  · split at h
    · exact h
    · cases h
  · cases h

theorem Path.answeringOwn_inFlight {p : Path} {k : AccessKind} {a : OwnAccess}
    (h : p.answeringOwn k = some a) : p.ownInFlight = some a ∧ a.access.kind = k := by
  unfold Path.answeringOwn at h
  split at h
  · next g rest b _ hb =>
    split at h
    · next hk => cases h; exact ⟨hb, hk.2⟩
    · cases h
  · cases h

theorem Path.returnable_entries {p : Path} {e : Entry} {c : ResponseCode} {rest : List Entry}
    (h : p.returnable = some (e, c, rest)) : p.entries = e :: rest := by
  unfold Path.returnable at h
  split at h
  · next d l hd =>
    split at h
    · cases h; exact hd
    · cases h
  · cases h

/-- The report of a refusal touches the log alone. -/
theorem Routine.tripRefusal (r : Request) (x : Refused) (s : State) :
    Routine s (tripRefusal r x s) :=
  .closed (UnitFrame.setFaults (Faults.tripProtection_ring _ _ _) (fun q => q.tripProtection _ _)
    (Faults.tripProtection_joins _ _ _)).beside

/-- What the list with the entry taken has, and reports and deliveries keep, taking leaves. -/
theorem takeEntry_keeps {x : Split} (routine : ∀ s t, Routine s t → P s → P t)
    (deliver : ∀ s w b, P s → P (deliverWord w b s))
    (hs : ∀ e, P (s.setPath { s.path with entries := x.put e })) : P (takeEntry x s) := by
  unfold takeEntry applyVerdict
  simp only
  split
  · exact routine _ _ (.tripRefusal _ _ _) (hs _)
  · exact hs _
  · exact hs _
  · exact foldl_keeps (p := P) _ (fun _ _ => deliver _ _ _) _ (hs _)

/-- What the list with the entry answered has, and merges and deliveries keep, an answer leaves. -/
theorem writeAnswered_keeps {x : Split} (merge : ∀ s w b, P s → P (mergeWord w b s))
    (deliver : ∀ s w b, P s → P (deliverWord w b s))
    (hs : ∀ code, P (s.setPath (s.path.settleAnswer x code []))) (a : Answer) :
    P (writeAnswered x a s) := by
  unfold writeAnswered writeOkay
  split
  · split
    · split
      · exact foldl_keeps (p := P) _ (fun _ _ => deliver _ _ _) _
          (foldl_keeps (p := P) _ (fun _ _ => merge _ _ _) _ (hs _))
      · exact hs _
    · exact hs _
  · exact hs _

theorem readAnswered_keeps {x : Split}
    (hs : ∀ code data, P (s.setPath (s.path.settleAnswer x code data))) (a : ReadAnswer) :
    P (readAnswered x a s) := by
  unfold readAnswered
  split
  · exact hs _ _
  · exact hs _ _

/-! ## The bounds of the list (R1, R20) -/

/-- The accepted list, the waiting requests and the passing run stay. -/
structure SameList (s t : State) : Prop where
  entries : t.path.entries = s.path.entries
  upWaiting : t.path.upWaiting = s.path.upWaiting
  passingRun : t.path.passingRun = s.path.passingRun

theorem SameList.of_path (h : t.path = s.path) : SameList s t :=
  ⟨by rw [h], by rw [h], by rw [h]⟩

theorem SameList.close {u : State} (h : SameList s u) : SameList s (close u) :=
  ⟨by rw [close_entries, h.entries], by rw [close_upWaiting, h.upWaiting],
    by rw [close_passingRun, h.passingRun]⟩

theorem SameList.trans {u : State} (h : SameList s t) (k : SameList t u) : SameList s u :=
  ⟨k.entries.trans h.entries, k.upWaiting.trans h.upWaiting, k.passingRun.trans h.passingRun⟩

theorem SameList.listInv (h : SameList s t) (hs : s.path.ListInv) : t.path.ListInv :=
  hs.of_eq (by rw [h.entries]) h.upWaiting h.passingRun

theorem SameList.routine (h : Routine s t) : SameList s t := by
  rcases h with h | ⟨u, h, rfl⟩
  · exact .of_path h.path
  · exact (SameList.of_path h.path).close

theorem SameList.deliverWord (s : State) (w b) : SameList s (deliverWord w b s) := by
  obtain ⟨he, hu, hr⟩ := deliverWord_entries w b s
  exact ⟨he, hu, hr⟩

theorem SameList.mergeWord (s : State) (w b) : SameList s (mergeWord w b s) := by
  unfold Machine.mergeWord
  split
  · unfold mergeDescriptor mergeFaultModes
    split
    · split <;> exact .of_path rfl
    · split
      · simp only
        split
        · refine SameList.close ?_
          exact .of_path rfl
        · exact .of_path rfl
      · split <;> exact .of_path rfl
  · split <;> exact .of_path rfl
  · split <;> exact .of_path rfl
  · exact .of_path rfl

theorem SameList.loadAnswered (p : OwnPurpose) (a : ReadAnswer) (s : State) :
    SameList s (loadAnswered p a s) := by
  have sectors : ∀ u : State, SameList u (afterSectors u) := by
    intro u
    unfold afterSectors
    split <;> exact ⟨rfl, rfl, rfl⟩
  unfold Machine.loadAnswered loadOkay
  split
  · split
    · exact ⟨rfl, rfl, rfl⟩
    · exact ⟨rfl, rfl, rfl⟩
    · unfold afterL3
      split <;> exact ⟨rfl, rfl, rfl⟩
    · next n =>
      have read : ∀ f, SameList s (s.onSteering f) := fun f => .of_path rfl
      unfold afterSector
      split
      · split
        · exact ⟨rfl, rfl, rfl⟩
        · exact (read _).trans (sectors _)
      · exact (read _).trans (sectors _)
    · exact .of_path rfl
  · exact .of_path rfl

theorem SameList.requestServe (s : State) : SameList s (requestServe s) := by
  unfold Machine.requestServe
  split <;> exact ⟨rfl, rfl, rfl⟩

theorem SameList.requestConfig (s : State) : SameList s (requestConfig s) := by
  unfold Machine.requestConfig
  split <;> exact ⟨rfl, rfl, rfl⟩

theorem SameList.consume (v : Nat) (s : State) : SameList s (consume v s) := by
  unfold Machine.consume
  split <;> exact .of_path rfl

/-- Every command of the path and of Site Control keeps the list's bounds. -/
theorem Path.ListInv.onPath (c : Instr) (s : State) (hc : Instr.onPath c = true)
    (h : s.path.ListInv) : ∃ t, exec c s = .next t ∧ t.path.ListInv := by
  have put : ∀ (st : EntryStage) (x : Split) (e : Entry) (q : Path),
      splitAt st s.path.entries = some x → q.entries = x.put e →
      q.upWaiting = s.path.upWaiting → q.passingRun = s.path.passingRun → q.ListInv :=
    fun st x e q hx he hu hr => h.of_eq (by rw [he, splitAt_put_length hx]) hu hr
  cases c with
  | pinReset => exact ⟨_, rfl, Nat.zero_le _, fun k => absurd rfl k, Nat.zero_le _⟩
  | requestArrival r =>
    refine ⟨_, rfl, ?_⟩
    split
    · exact Path.ListInv.acceptWaiting (p := { s.path with upWaiting := _ }) h.1 h.2.2
    · exact h
  | takeRequest =>
    refine ⟨_, rfl, ?_⟩
    split
    · next x hx =>
      exact takeEntry_keeps (P := fun u => u.path.ListInv) (fun _ _ k => (SameList.routine k).listInv)
        (fun u w b => (SameList.deliverWord u w b).listInv)
        fun e => put _ x e _ (Path.takeable_split hx) rfl rfl rfl
    · exact h
  | arbiterGrant => exact ⟨_, rfl, h.grant⟩
  | memoryWriteResponse a =>
    refine ⟨_, rfl, ?_⟩
    split
    · next x hx =>
      exact writeAnswered_keeps (P := fun u => u.path.ListInv)
        (fun u w b => (SameList.mergeWord u w b).listInv)
        (fun u w b => (SameList.deliverWord u w b).listInv)
        (fun code => put _ x _ _ (Path.answering_split hx) rfl rfl rfl) a
    · exact h
  | memoryReadResponse a =>
    refine ⟨_, rfl, ?_⟩
    split
    · next x hx =>
      split
      · exact readAnswered_keeps (P := fun u => u.path.ListInv)
          (fun code data => put _ x _ _ (Path.answering_split hx) rfl rfl rfl) a
      · exact h
    · exact h
  | responseReturn =>
    refine ⟨_, rfl, ?_⟩
    split
    · next e c rest hx =>
      have he := Path.returnable_entries hx
      have hl := h.1
      rw [he, List.length_cons] at hl
      exact Path.ListInv.acceptWaiting (p := { s.path with entries := rest, lastReturned := _ })
        (by show rest.length ≤ 16; omega) h.2.2
    · exact h
  | serveRequest => exact ⟨_, rfl, (SameList.requestServe s).listInv h⟩
  | configRequest =>
    refine ⟨_, rfl, ?_⟩
    split
    · exact h
    · exact (SameList.requestConfig s).close.listInv h
  | loadReadAnswer a =>
    refine ⟨_, rfl, ?_⟩
    split
    · next x hx =>
      have answered : SameList s (s.setPath s.path.ownAnswered) := ⟨rfl, rfl, rfl⟩
      simp only
      split
      · exact h
      · split
        · exact answered.listInv h
        · exact (answered.trans (.loadAnswered x.purpose a _)).close.listInv h
    · exact h
  | consumerWrite v =>
    refine ⟨_, rfl, ?_⟩
    split
    · exact (SameList.consume v.toNat s).close.listInv h
    · exact h
  | depositAnswer a =>
    refine ⟨_, rfl, ?_⟩
    split
    · exact SameList.listInv (SameList.close ⟨rfl, rfl, rfl⟩) h
    · exact h
  | lapseExpiry =>
    refine ⟨_, rfl, ?_⟩
    split
    · exact (SameList.of_path (t := lapseExpired s) rfl).close.listInv h
    · exact h
  | _ => cases hc

/-! ## The bounds of the notice queue (R150) -/

theorem Faults.QueueInv.routine (h : Routine s t) (hs : s.faults.QueueInv) : t.faults.QueueInv := by
  rcases h with h | ⟨u, h, rfl⟩
  · rw [h.faults]; exact hs
  · exact close_queueInv u (h.queue hs)

theorem Faults.QueueInv.startLapse {f : Faults} (h : f.QueueInv) (p : Nat) :
    (f.startLapse p).QueueInv := by
  unfold Faults.startLapse
  split
  · exact h
  · exact h.of_eq rfl rfl

theorem Faults.QueueInv.produceStopped {f : Faults} (h : f.QueueInv) (v : FaultView) :
    (f.produceStopped v).QueueInv := by
  unfold Faults.produceStopped Config.noticeRoom
  split
  · exact h
  · split
    · next hl =>
      have room : (f.enqueueSuppressed v).queue.length < 16 := by
        simp only [Faults.enqueueSuppressed, Faults.enqueue, List.length_append,
          List.length_singleton]
        omega
      exact .enqueue room (Nat.zero_le _) v _
    · exact .enqueue (by omega) h.2 v _

theorem Faults.QueueInv.serviceStop (h : s.faults.QueueInv) :
    (serviceStop s).faults.QueueInv := by
  rw [serviceStop_faults]
  exact Faults.QueueInv.produceStopped (h.of_eq (by simp) (by simp)) _

theorem Faults.QueueInv.requestConfig (h : s.faults.QueueInv) :
    (requestConfig s).faults.QueueInv := by
  unfold Machine.requestConfig
  split
  · exact h
  · exact h.serviceStop
  · exact h.serviceStop
  · exact h

theorem Faults.QueueInv.requestServe (h : s.faults.QueueInv) :
    (requestServe s).faults.QueueInv := by
  unfold Machine.requestServe
  split <;> exact h

theorem Faults.QueueInv.consume (h : s.faults.QueueInv) (v : Nat) :
    (consume v s).faults.QueueInv := by
  have moved : Faults.QueueInv { s.faults with consumer := v } := h.of_eq rfl rfl
  unfold Machine.consume
  split
  · show (Faults.lapseAfterConsume _ _).QueueInv
    unfold Faults.lapseAfterConsume
    split
    · exact h.of_eq rfl rfl
    · exact moved.startLapse _
  · show (Faults.leaveHold _ _ _).QueueInv
    unfold Faults.leaveHold
    simp only
    split
    · exact Faults.QueueInv.of_eq (moved.report _ .lapse false none) rfl rfl
    · exact (moved.report _ .lapse false none).startLapse _
  · exact moved
  · exact h

theorem Faults.QueueInv.deliverSiteFaults (h : s.faults.QueueInv) (b : Beat) :
    (deliverSiteFaults b s).faults.QueueInv := by
  have ack : ∀ (c : Bool) (id : LatchId) (u : State), u.faults.QueueInv →
      (if c then acknowledgeSite id u else u).faults.QueueInv := by
    intro c id u k
    split
    · exact k.acknowledge _ id
    · exact k
  unfold Machine.deliverSiteFaults
  simp only
  split
  · exact (ack _ _ _ (ack _ _ _ h)).of_eq rfl rfl
  · exact ack _ _ _ (ack _ _ _ h)

theorem Faults.QueueInv.deliverWord (s : State) (w b) (h : s.faults.QueueInv) :
    (deliverWord w b s).faults.QueueInv := by
  unfold Machine.deliverWord
  split
  · split
    · refine close_queueInv _ ?_
      unfold deliverMode
      split
      · next r _ =>
        cases r
        · exact h.requestConfig
        · exact h.requestServe
      · exact h
    · split
      · exact close_queueInv _ (h.consume _)
      · split
        · exact close_queueInv _ (h.deliverSiteFaults b)
        · exact h
  · split
    · exact h
    · split
      · exact h
      · split <;> exact h
  · next n _ =>
    split
    · exact close_queueInv _ ((UnitFrame.settling (UnitFrame.deliverUnit n b s)).queue h)
    · exact h
  · split
    · exact close_queueInv _ ((UnitFrame.acknowledgeHoles _ _ _).queue h)
    · exact h
  · exact h

theorem Faults.QueueInv.mergeWord (s : State) (w b) (h : s.faults.QueueInv) :
    (mergeWord w b s).faults.QueueInv := by
  unfold Machine.mergeWord
  split
  · unfold mergeDescriptor mergeFaultModes
    split
    · split <;> exact h
    · split
      · simp only
        split
        · exact close_queueInv _ (h.modesChanged _ _)
        · exact h
      · split <;> exact h
  · split <;> exact h
  · split <;> exact h
  · exact h

/-- The entry to SERVING queues the STARTED notice alone (R161). -/
theorem Faults.QueueInv.start (v : FaultView) (base : ByteAddr) (size : Nat) :
    (Faults.start v base size).QueueInv := by
  unfold Faults.start
  exact .enqueue (f := { Faults.afterReset with ringBase := base, ringSize := size })
    (Nat.zero_lt_succ 15) (Nat.zero_le _) _ _

theorem Faults.QueueInv.loadAnswered (h : s.faults.QueueInv) (p : OwnPurpose) (a : ReadAnswer) :
    (loadAnswered p a s).faults.QueueInv := by
  have sectors : ∀ u : State, u.faults.QueueInv → (afterSectors u).faults.QueueInv := by
    intro u hu
    unfold afterSectors
    split
    · exact hu.of_eq rfl rfl
    · rw [enterServing_faults]
      exact .start _ _ _
  unfold Machine.loadAnswered loadOkay
  split
  · split
    · exact h.of_eq rfl rfl
    · exact h.of_eq rfl rfl
    · unfold afterL3
      split <;> exact h.of_eq rfl rfl
    · unfold afterSector
      split
      · split
        · exact h.of_eq rfl rfl
        · exact sectors _ h
      · exact sectors _ h
    · exact h
  · exact h.of_eq rfl rfl

/-- Every command of the path and of Site Control keeps the bounds of the queue. -/
theorem Faults.QueueInv.onPath (c : Instr) (s : State) (hc : Instr.onPath c = true)
    (h : s.faults.QueueInv) : ∃ t, exec c s = .next t ∧ t.faults.QueueInv := by
  cases c with
  | pinReset => exact ⟨_, rfl, Nat.zero_le _, Nat.zero_le _⟩
  | requestArrival r => exact ⟨_, rfl, by split <;> exact h⟩
  | takeRequest =>
    refine ⟨_, rfl, ?_⟩
    split
    · exact takeEntry_keeps (P := fun u => u.faults.QueueInv) (fun _ _ => .routine) .deliverWord
        fun _ => h
    · exact h
  | arbiterGrant => exact ⟨_, rfl, h⟩
  | memoryWriteResponse a =>
    refine ⟨_, rfl, ?_⟩
    split
    · exact writeAnswered_keeps (P := fun u => u.faults.QueueInv) .mergeWord .deliverWord
        (fun _ => h) a
    · exact h
  | memoryReadResponse a =>
    refine ⟨_, rfl, ?_⟩
    split
    · split
      · exact readAnswered_keeps (P := fun u => u.faults.QueueInv) (fun _ _ => h) a
      · exact h
    · exact h
  | responseReturn => exact ⟨_, rfl, by split <;> exact h⟩
  | serveRequest => exact ⟨_, rfl, h.requestServe⟩
  | configRequest =>
    refine ⟨_, rfl, ?_⟩
    split
    · exact h
    · exact close_queueInv _ h.requestConfig
  | loadReadAnswer a =>
    refine ⟨_, rfl, ?_⟩
    split
    · next x _ =>
      simp only
      split
      · exact h
      · split
        · exact h
        · exact close_queueInv _ (.loadAnswered (s := s.setPath s.path.ownAnswered) h x.purpose a)
    · exact h
  | consumerWrite v =>
    refine ⟨_, rfl, ?_⟩
    split
    · exact close_queueInv _ (h.consume _)
    · exact h
  | depositAnswer a =>
    refine ⟨_, rfl, ?_⟩
    split
    · exact close_queueInv _ (h.depositAnswered _ _ _ _)
    · exact h
  | lapseExpiry =>
    refine ⟨_, rfl, ?_⟩
    split
    · exact close_queueInv _ (Faults.QueueInv.report (f := { s.faults with lapseTimer := none })
        (h.of_eq rfl rfl) _ _ _ _)
    · exact h
  | _ => cases hc

/-- Settles O54: the routine commands touch neither list nor queue beyond reports, and the commands of
the path keep their bounds one by one. -/
theorem stepKeepsListAndQueueBounds : Obligations.StepKeepsListAndQueueBounds := by
  intro s t h
  exact ⟨step_keeps (P := fun u => u.path.ListInv) (fun _ _ k => (SameList.routine k).listInv)
      (fun _ _ k => k) Path.ListInv.onPath h,
    step_keeps (P := fun u => u.faults.QueueInv) (fun _ _ => .routine) (fun _ _ k => k)
      Faults.QueueInv.onPath h⟩

end Sys2Proof.Machine
end

section
/-! The mode invariant, the deposit invariant and the closing of events under every step
(O59). -/
namespace Sys2Proof.Machine

open Sys2Proof

variable {s t : State}

/-! ## Own accesses that are answered -/

/-- An own access in flight that reads is no deposit (R28). -/
theorem State.ModeInv.read_isLoad (h : s.ModeInv) {a : OwnAccess}
    (ha : s.path.answeringOwn .read = some a) :
    s.path.ownInFlight = some a ∧ a.isDeposit = false := by
  obtain ⟨-, -, -, -, -, -, fits⟩ := h
  obtain ⟨hf, hk⟩ := Path.answeringOwn_inFlight ha
  refine ⟨hf, Bool.eq_false_iff.mpr fun hd => ?_⟩
  have hw := (fits a hf).mpr hd
  rw [hk] at hw
  cases hw

/-- An own access in flight that writes is a deposit (R153). -/
theorem State.ModeInv.write_isDeposit (h : s.ModeInv) {a : OwnAccess}
    (ha : s.path.answeringOwn .write = some a) :
    s.path.ownInFlight = some a ∧ a.isDeposit = true := by
  obtain ⟨-, -, -, -, -, -, fits⟩ := h
  obtain ⟨hf, hk⟩ := Path.answeringOwn_inFlight ha
  exact ⟨hf, (fits a hf).mp hk⟩

/-- A load read that counts is answered in STARTING, with nothing else presented or in flight. -/
theorem State.ModeInv.loading (h : s.ModeInv) {a : OwnAccess}
    (ha : s.path.answeringOwn .read = some a) (hl : a.abandoned = false) :
    State.ModeInv.Loading (s.setPath s.path.ownAnswered) := by
  obtain ⟨hf, hd⟩ := h.read_isLoad ha
  have live : s.path.ownInFlight.any OwnAccess.isLiveLoad = true := by
    simp [hf, OwnAccess.isLiveLoad, hd, hl]
  obtain ⟨-, -, -, alone, -, -, -⟩ := id h
  obtain ⟨hm, hp⟩ := alone live
  exact ⟨h.ownAnswered, hm, hp, rfl⟩

/-! ## The mode invariant (R4, R10, R28, R153) -/

theorem State.ModeInv.routine (h : Routine s t) (hs : s.ModeInv) : t.ModeInv := by
  rcases h with h | ⟨u, h, rfl⟩
  · exact hs.of_path h.path (by rw [h.mode]) (by rw [h.mode])
  · exact (hs.of_path h.path (by rw [h.mode]) (by rw [h.mode])).close

theorem State.ModeInv.afterPinReset (anchor : BitVec 8) (pending : List Instr) :
    (State.afterPinReset anchor pending).ModeInv := by
  have presented : (State.afterPinReset anchor pending).path.ownPresented = none := rfl
  have inFlight : (State.afterPinReset anchor pending).path.ownInFlight = none := rfl
  refine ⟨rfl, fun _ => rfl, ?_, ?_, ?_, ?_, ?_⟩ <;>
    simp [State.depositOutstanding, presented, inFlight]

theorem State.ModeInv.lapseExpired (h : s.ModeInv) (hm : s.site.mode = .serving) :
    (lapseExpired s).ModeInv := by
  refine h.of_path rfl ?_ ?_ <;> rw [hm]
  · rfl
  · exact ⟨fun e => Mode.noConfusion e, fun e => Mode.noConfusion e⟩

/-- Every command of the path and of Site Control keeps the mode invariant. -/
theorem State.ModeInv.onPath (c : Instr) (s : State) (hc : Instr.onPath c = true) (h : s.ModeInv) :
    ∃ t, exec c s = .next t ∧ t.ModeInv := by
  cases c with
  | pinReset anchor => exact ⟨_, rfl, .afterPinReset anchor _⟩
  | requestArrival r =>
    refine ⟨_, rfl, ?_⟩
    split
    · exact h.of_owns _ rfl rfl rfl rfl
    · exact h
  | takeRequest =>
    refine ⟨_, rfl, ?_⟩
    split
    · exact takeEntry_keeps (P := State.ModeInv) (fun _ _ => .routine)
        (fun _ w b k => k.deliverWord w b) fun _ => h.of_owns _ rfl rfl rfl rfl
    · exact h
  | arbiterGrant => exact ⟨_, rfl, h.grant⟩
  | memoryWriteResponse a =>
    refine ⟨_, rfl, ?_⟩
    split
    · exact writeAnswered_keeps (P := State.ModeInv) (fun _ w b k => k.mergeWord w b)
        (fun _ w b k => k.deliverWord w b) (fun _ => h.of_owns _ rfl rfl rfl rfl) a
    · exact h
  | memoryReadResponse a =>
    refine ⟨_, rfl, ?_⟩
    split
    · split
      · exact readAnswered_keeps (P := State.ModeInv) (fun _ _ => h.of_owns _ rfl rfl rfl rfl) a
      · exact h
    · exact h
  | responseReturn =>
    refine ⟨_, rfl, ?_⟩
    split
    · exact h.of_owns _ rfl rfl rfl rfl
    · exact h
  | serveRequest => exact ⟨_, rfl, h.requestServe⟩
  | configRequest =>
    refine ⟨_, rfl, ?_⟩
    split
    · exact h
    · exact h.requestConfig.close
  | loadReadAnswer a =>
    refine ⟨_, rfl, ?_⟩
    split
    · next x hx =>
      simp only
      split
      · exact h
      · split
        · exact h.ownAnswered
        · next hl => exact ((h.loading hx (by simpa using hl)).answered _ _).close
    · exact h
  | consumerWrite v =>
    refine ⟨_, rfl, ?_⟩
    split
    · exact (h.consume _).close
    · exact h
  | depositAnswer a =>
    refine ⟨_, rfl, ?_⟩
    split
    · exact State.ModeInv.close (h.ownAnswered.of_eq rfl rfl)
    · exact h
  | lapseExpiry =>
    refine ⟨_, rfl, ?_⟩
    split
    · next hl => exact (h.lapseExpired hl.1).close
    · exact h
  | _ => cases hc

/-! ## The deposit invariant (R153) -/

/-- A state whose deposits are in order, in a mode that allows them. -/
def State.DepositsOk (s : State) : Prop := s.ModeInv ∧ s.DepositInv

theorem State.DepositsOk.routine (h : Routine s t) (hs : s.DepositsOk) : t.DepositsOk := by
  refine ⟨hs.1.routine h, ?_⟩
  have joins : ∀ {u : State}, Beside s u → u.DepositInv := fun k =>
    hs.2.of_joins (by rw [k.path]) (by rw [k.path]) k.producer k.ringBase k.joins
  rcases h with h | ⟨u, h, rfl⟩
  · exact joins h.beside
  · exact (joins h).close

theorem State.DepositInv.afterPinReset (anchor : BitVec 8) (pending : List Instr) :
    (State.afterPinReset anchor pending).DepositInv := .of_none rfl

theorem State.DepositsOk.deliverWord (s : State) (w b) (h : s.DepositsOk) :
    (deliverWord w b s).DepositsOk :=
  ⟨h.1.deliverWord w b, State.DepositInv.deliverWord h.1 h.2 w b⟩

theorem State.DepositsOk.mergeWord (s : State) (w b) (h : s.DepositsOk) :
    (mergeWord w b s).DepositsOk :=
  ⟨h.1.mergeWord w b, h.2.mergeWord w b⟩

/-- Other entries, waiting requests and granted accesses leave the deposits in order. -/
theorem State.DepositsOk.of_owns (h : s.DepositsOk) (p : Path) (h1 : p.windows = s.path.windows)
    (h2 : p.roles = s.path.roles) (h3 : p.ownPresented = s.path.ownPresented)
    (h4 : p.ownInFlight = s.path.ownInFlight) : (s.setPath p).DepositsOk :=
  ⟨h.1.of_owns p h1 h2 h3 h4, h.2.of_eq h3 h4 rfl⟩

/-- The answer to a deposit leaves no deposit outstanding. -/
theorem State.DepositsOk.answered (h : s.DepositsOk) {a : OwnAccess}
    (ha : s.path.answeringOwn .write = some a) (f : Faults) :
    ((s.setPath s.path.ownAnswered).setFaults f).DepositInv := by
  obtain ⟨hf, hd⟩ := h.1.write_isDeposit ha
  have alone : s.path.ownPresented.any OwnAccess.isDeposit = false := by
    refine Bool.eq_false_iff.mpr fun hp => ?_
    have := h.2.2 hp
    rw [hf, Option.any_some, hd] at this
    cases this
  refine .of_none ?_
  simp [State.depositOutstanding, Path.ownAnswered, alone]

/-- Every command of the path and of Site Control keeps the deposit invariant. -/
theorem State.DepositInv.onPath (c : Instr) (s : State) (hc : Instr.onPath c = true)
    (h : s.DepositsOk) : ∃ t, exec c s = .next t ∧ t.DepositInv := by
  have owns : ∀ p : Path, p.windows = s.path.windows → p.roles = s.path.roles →
      p.ownPresented = s.path.ownPresented → p.ownInFlight = s.path.ownInFlight →
      (s.setPath p).DepositsOk := h.of_owns
  have h' := h.2
  cases c with
  | pinReset anchor => exact ⟨_, rfl, .afterPinReset anchor _⟩
  | requestArrival r =>
    refine ⟨_, rfl, ?_⟩
    split
    · exact h'.of_eq rfl rfl rfl
    · exact h'
  | takeRequest =>
    refine ⟨_, rfl, ?_⟩
    split
    · exact (takeEntry_keeps (P := State.DepositsOk) (fun _ _ => .routine) .deliverWord
        fun _ => owns _ rfl rfl rfl rfl).2
    · exact h'
  | arbiterGrant => exact ⟨_, rfl, h'.grant⟩
  | memoryWriteResponse a =>
    refine ⟨_, rfl, ?_⟩
    split
    · exact (writeAnswered_keeps (P := State.DepositsOk) .mergeWord .deliverWord
        (fun _ => owns _ rfl rfl rfl rfl) a).2
    · exact h'
  | memoryReadResponse a =>
    refine ⟨_, rfl, ?_⟩
    split
    · split
      · exact readAnswered_keeps (P := State.DepositInv) (fun _ _ => h'.of_eq rfl rfl rfl) a
      · exact h'
    · exact h'
  | responseReturn =>
    refine ⟨_, rfl, ?_⟩
    split
    · exact h'.of_eq rfl rfl rfl
    · exact h'
  | serveRequest => exact ⟨_, rfl, h'.requestServe⟩
  | configRequest =>
    refine ⟨_, rfl, ?_⟩
    split
    · exact h'
    · exact (State.DepositInv.requestConfig h.1 h').close
  | loadReadAnswer a =>
    refine ⟨_, rfl, ?_⟩
    split
    · next x hx =>
      simp only
      split
      · exact h'
      · split
        · exact h'.ownAnswered
        · next hl =>
          obtain ⟨-, -, hp, hf⟩ := h.1.loading hx (by simpa using hl)
          exact (State.DepositInv.loadAnswered hp hf _ _).close
    · exact h'
  | consumerWrite v =>
    refine ⟨_, rfl, ?_⟩
    split
    · exact (h'.consume _).close
    · exact h'
  | depositAnswer a =>
    refine ⟨_, rfl, ?_⟩
    split
    · next x y l hx _ => exact (h.answered hx _).close
    · exact h'
  | lapseExpiry =>
    refine ⟨_, rfl, ?_⟩
    split
    · exact h'.lapseExpired.close
    · exact h'
  | _ => cases hc

/-! ## The closing of events (R35, R153, R155) -/

/-- A state in which an event has left nothing to do, with its own accesses in their modes. -/
def State.ClosedOk (s : State) : Prop := s.ModeInv ∧ s.Closed

theorem State.Closed.of_silent (h : s.Closed) (k : Silent s t) : t.Closed :=
  h.of_eq k.mode k.owing k.faults (by unfold State.depositOutstanding; rw [k.path])

theorem State.ClosedOk.routine (h : Routine s t) (hs : s.ClosedOk) : t.ClosedOk := by
  refine ⟨hs.1.routine h, ?_⟩
  rcases h with h | ⟨u, h, rfl⟩
  · exact hs.2.of_silent h
  · exact .close u

theorem State.ClosedOk.deliverWord (s : State) (w b) (h : s.ClosedOk) :
    (deliverWord w b s).ClosedOk :=
  ⟨h.1.deliverWord w b, h.2.deliverWord w b⟩

theorem State.ClosedOk.mergeWord (s : State) (w b) (h : s.ClosedOk) :
    (mergeWord w b s).ClosedOk :=
  ⟨h.1.mergeWord w b, h.2.mergeWord w b⟩

/-- Other entries, waiting requests and granted accesses leave nothing to do. -/
theorem State.Closed.of_owns (h : s.Closed) (p : Path) (h3 : p.ownPresented = s.path.ownPresented)
    (h4 : p.ownInFlight = s.path.ownInFlight) : (s.setPath p).Closed :=
  h.of_eq rfl rfl rfl (by unfold State.depositOutstanding; rw [State.setPath_path, h3, h4])

/-- The answer to an abandoned load read leaves nothing to do. -/
theorem State.ClosedOk.ownAnswered (h : s.ClosedOk) {a : OwnAccess}
    (ha : s.path.answeringOwn .read = some a) : (s.setPath s.path.ownAnswered).Closed := by
  obtain ⟨hf, hd⟩ := h.1.read_isLoad ha
  refine h.2.of_eq rfl rfl rfl ?_
  simp [State.depositOutstanding, Path.ownAnswered, hf, hd]

theorem State.Closed.requestServe (h : s.Closed) : (requestServe s).Closed := by
  unfold Machine.requestServe
  split
  · exact .idle rfl
  · exact h

/-- Every command of the path and of Site Control leaves nothing to do. -/
theorem State.Closed.onPath (c : Instr) (s : State) (hc : Instr.onPath c = true)
    (h : s.ClosedOk) : ∃ t, exec c s = .next t ∧ t.Closed := by
  have h' := h.2
  have owns : ∀ p : Path, p.windows = s.path.windows → p.roles = s.path.roles →
      p.ownPresented = s.path.ownPresented → p.ownInFlight = s.path.ownInFlight →
      (s.setPath p).ClosedOk :=
    fun p h1 h2 h3 h4 => ⟨h.1.of_owns p h1 h2 h3 h4, h'.of_owns p h3 h4⟩
  cases c with
  | pinReset anchor => exact ⟨_, rfl, .idle rfl⟩
  | requestArrival r =>
    refine ⟨_, rfl, ?_⟩
    split
    · exact h'.of_owns _ rfl rfl
    · exact h'
  | takeRequest =>
    refine ⟨_, rfl, ?_⟩
    split
    · exact (takeEntry_keeps (P := State.ClosedOk) (fun _ _ => .routine) .deliverWord
        fun _ => owns _ rfl rfl rfl rfl).2
    · exact h'
  | arbiterGrant => exact ⟨_, rfl, h'.grant⟩
  | memoryWriteResponse a =>
    refine ⟨_, rfl, ?_⟩
    split
    · exact (writeAnswered_keeps (P := State.ClosedOk) .mergeWord .deliverWord
        (fun _ => owns _ rfl rfl rfl rfl) a).2
    · exact h'
  | memoryReadResponse a =>
    refine ⟨_, rfl, ?_⟩
    split
    · split
      · exact readAnswered_keeps (P := State.Closed) (fun _ _ => h'.of_owns _ rfl rfl) a
      · exact h'
    · exact h'
  | responseReturn =>
    refine ⟨_, rfl, ?_⟩
    split
    · exact h'.of_owns _ rfl rfl
    · exact h'
  | serveRequest => exact ⟨_, rfl, h'.requestServe⟩
  | configRequest =>
    refine ⟨_, rfl, ?_⟩
    split
    · exact h'
    · exact .close _
  | loadReadAnswer a =>
    refine ⟨_, rfl, ?_⟩
    split
    · next x hx =>
      simp only
      split
      · exact h'
      · split
        · exact h.ownAnswered hx
        · exact .close _
    · exact h'
  | consumerWrite v =>
    refine ⟨_, rfl, ?_⟩
    split
    · exact .close _
    · exact h'
  | depositAnswer a =>
    refine ⟨_, rfl, ?_⟩
    split
    · exact .close _
    · exact h'
  | lapseExpiry =>
    refine ⟨_, rfl, ?_⟩
    split
    · exact .close _
    · exact h'
  | _ => cases hc

/-! ## Every step -/

/-- With the mode invariant kept, a second invariant that rests on it is kept. -/
theorem step_keeps_with_mode {Q : State → Prop}
    (routine : ∀ s t, Routine s t → s.ModeInv ∧ Q s → t.ModeInv ∧ Q t)
    (queue : ∀ s x, Q s → Q (s.setPending x))
    (path : ∀ c s, Instr.onPath c = true → s.ModeInv ∧ Q s → ∃ t, exec c s = .next t ∧ Q t)
    (h : step s = .next t) (hm : s.ModeInv) (hs : Q s) : Q t := by
  refine (step_keeps (P := fun u => u.ModeInv ∧ Q u) routine
    (fun u x k => ⟨k.1.of_eq rfl rfl, queue u x k.2⟩) (fun c u hc k => ?_) h ⟨hm, hs⟩).2
  obtain ⟨v, hv, kv⟩ := State.ModeInv.onPath c u hc k.1
  obtain ⟨w, hw, kw⟩ := path c u hc k
  obtain rfl : v = w := by
    rw [hv] at hw
    injection hw
  exact ⟨v, hv, kv, kw⟩

theorem Mode.inService_iff (m : Mode) : m.inService = true ↔ m = .serving ∨ m = .hold := by
  cases m <;> decide

theorem Mode.windowsUp_iff (m : Mode) :
    m.windowsUp = true ↔ m = .serving ∨ m = .hold ∨ m = .stopping := by
  cases m <;> decide

theorem defaultRoles_get (i : Initiator) :
    defaultRoles.get i = if i = 0 then .controller else .none := by
  unfold defaultRoles
  rw [Bank.get_tabulate]

/-- Settles O59: the routine commands touch neither the own accesses nor the mode before their event ends,
the end of an event leaves nothing to do, and the commands of the path are taken one by one. -/
theorem stepKeepsTheModeInvariant : Obligations.StepKeepsTheModeInvariant := by
  refine ⟨fun s t h hm => ⟨?_, fun hd => ?_, fun hc => ?_⟩,
    fun m => ⟨m.inService_iff, m.windowsUp_iff⟩, defaultRoles_get⟩
  · exact step_keeps (fun _ _ => .routine) (fun _ _ k => k.of_eq rfl rfl) State.ModeInv.onPath h hm
  · exact step_keeps_with_mode (fun _ _ => State.DepositsOk.routine)
      (fun _ _ k => k.of_eq rfl rfl rfl) State.DepositInv.onPath h hm hd
  · exact step_keeps_with_mode (fun _ _ => State.ClosedOk.routine)
      (fun _ _ k => k.of_eq rfl rfl rfl rfl) State.Closed.onPath h hm hc

end Sys2Proof.Machine
end

section
/-! What PIN_RESET leaves in each block (O3), and that every invariant holds there (O60). -/
namespace Sys2Proof.Machine

open Sys2Proof

variable (anchor : BitVec 8) (q : List Instr)

/-! ## The parts of the state after pin reset (R22) -/

@[simp] theorem afterPinReset_context (n : SlotId) :
    (State.afterPinReset anchor q).context n = Context.afterReset := Bank.get_fill _ n

@[simp] theorem afterPinReset_stage (k : Operator) :
    (State.afterPinReset anchor q).stage k = Stage.afterReset := Bank.get_fill _ k

@[simp] theorem afterPinReset_link (n : UnitId) :
    (State.afterPinReset anchor q).link n = Link.afterReset := Bank.get_fill _ n

@[simp] theorem afterPinReset_unit (u : UnitId) :
    (State.afterPinReset anchor q).unit u = UnitRecord.afterReset := Bank.get_fill _ u

@[simp] theorem afterPinReset_cell (d : SectorId) (k : Operator) :
    (State.afterPinReset anchor q).steering.cell d k = Cell.afterReset := Bank.get_fill _ _

@[simp] theorem afterPinReset_record (n : SlotId) :
    (State.afterPinReset anchor q).steering.record n = SteeringRecord.afterReset :=
  Bank.get_fill _ n

@[simp] theorem afterPinReset_def (d : SectorId) :
    (State.afterPinReset anchor q).steering.defs.get d = SectorDef.empty := Bank.get_fill _ d

@[simp] theorem afterPinReset_latch (id : LatchId) :
    (State.afterPinReset anchor q).faults.latch id = Latch.afterReset := by
  cases id with
  | unit n k => exact Bank.get_fill _ _
  | hole d k => exact Bank.get_fill _ _
  | protection => rfl
  | lapse => rfl

theorem Context.afterReset_isReset : Context.afterReset.IsReset := by
  unfold Context.IsReset
  decide

theorem Stage.afterReset_isReset : Stage.afterReset.IsReset := by
  unfold Stage.IsReset
  decide

theorem Link.afterReset_isReset : Link.afterReset.IsReset := by
  unfold Link.IsReset
  decide

theorem UnitRecord.afterReset_isReset : UnitRecord.afterReset.IsReset := by
  unfold UnitRecord.IsReset
  refine ⟨rfl, rfl, rfl, rfl, rfl, rfl, fun a => ?_, rfl, rfl, rfl, rfl, rfl, fun i => ?_⟩
  · exact Bank.get_fill _ a
  · exact Bank.get_fill _ i

/-- Settles O3, block by block from the values each takes. -/
theorem pinResetSetsEveryBlock : Obligations.PinResetSetsEveryBlock := by
  intro anchor s
  refine ⟨State.afterPinReset anchor s.pending, rfl, rfl, ?path, ?site, ?stages, ?carriers, ?links,
    ?units, ?steering, fun id => afterPinReset_latch anchor _ id, ?log,
    Link.afterReset_isReset, UnitRecord.afterReset_isReset⟩
  case path => exact ⟨rfl, rfl, rfl, rfl, rfl, rfl, rfl, defaultRoles_get⟩
  case site => exact ⟨rfl, rfl, fun i => Bank.get_fill _ i, rfl, rfl, rfl⟩
  case stages => exact ⟨rfl, fun k => by simp [Stage.afterReset_isReset]⟩
  case carriers =>
    exact ⟨fun n => by simp [Context.afterReset_isReset], fun u => Bank.get_fill _ u,
      fun k => Bank.get_fill _ k⟩
  case links => exact fun n => by simp [Link.afterReset_isReset]
  case units => exact ⟨fun u => by simp [UnitRecord.afterReset_isReset], rfl⟩
  case steering =>
    exact ⟨fun d k => afterPinReset_cell anchor _ d k, fun d => afterPinReset_def anchor _ d,
      fun n => afterPinReset_record anchor _ n, rfl⟩
  case log => exact ⟨rfl, rfl, rfl, rfl, rfl, rfl, rfl, rfl, rfl⟩

/-! ## The invariants after pin reset -/

/-- No operator holds a slot: every sum over held slots is empty (R128). -/
theorem afterPinReset_held (d : SectorId) (k : Operator) :
    (State.afterPinReset anchor q).steering.held d k = [] := by
  unfold Steering.held
  simp [SteeringRecord.afterReset]

theorem State.SteeringInv.afterPinReset : (State.afterPinReset anchor q).SteeringInv := by
  refine ⟨fun n => ?_, fun d k => ?_⟩
  · simp [SteeringRecord.afterReset, Context.afterReset]
  · simp [afterPinReset_held, Cell.afterReset]

/-- Settles O60, from the value each block takes at pin reset. -/
theorem invariantsHoldAtReset : Obligations.InvariantsHoldAtReset := by
  refine ⟨⟨Nat.zero_le _, fun k => absurd rfl k, Nat.zero_le _⟩, ⟨Nat.zero_le _, Nat.zero_le _⟩,
    Carriers.Inv.afterReset, fun n => ?_, fun u => ?_, fun d k => ?_,
    State.SteeringInv.afterPinReset 0 [], .afterPinReset 0 [], .afterPinReset 0 [], .idle rfl⟩
  · simp [State.reset, Link.Inv.afterReset]
  · simp [State.reset, UnitRecord.Inv.afterReset]
  · simp [State.reset, Cell.Inv.afterReset, Cell.Standing.afterReset]

end Sys2Proof.Machine
end

section
/-! The delivery of one ACTION word is what its rows do, part by part (O4). -/
namespace Sys2Proof.Machine

open Sys2Proof

variable {s t u : State}

/-! ## Bits of a field -/

/-- A bit of a word inside a field is that bit of the field. -/
theorem getLsbD_of_field {w : Word} {lo width v : Nat} (h : field w lo width = v) (i : Nat)
    (hi : i < width) : w.getLsbD (lo + i) = v.testBit i := by
  rw [← h, field, Nat.testBit_mod_two_pow, Nat.testBit_div_two_pow, Nat.add_comm i lo]
  simp [hi, BitVec.getLsbD]

/-- A field whose bits are all clear is 0. -/
theorem field_eq_zero {w : Word} {lo width : Nat}
    (h : ∀ i < width, w.getLsbD (lo + i) = false) : field w lo width = 0 := by
  refine Nat.eq_of_testBit_eq fun i => ?_
  rw [field, Nat.testBit_mod_two_pow, Nat.testBit_div_two_pow, Nat.add_comm i lo, Nat.zero_testBit]
  by_cases hi : i < width
  · have := h i hi
    simpa [BitVec.getLsbD] using fun _ => this
  · simp [hi]

/-! ## The rows of one ACTION word, where they act -/

theorem Mode.admitsWrites_of_ne {m : Mode} (h1 : m ≠ .starting) (h2 : m ≠ .stopping) :
    m.admitsWrites = true := by
  cases m with
  | config | serving | hold => rfl
  | starting => exact absurd rfl h1
  | stopping => exact absurd rfl h2

theorem Mode.admitsWrites_of_inService {m : Mode} (h : m.inService = true) :
    m.admitsWrites = true := by
  cases m with
  | serving | hold => rfl
  | config | starting | stopping => cases h

theorem Mode.admitsWrites_cases {m : Mode} (h : m.admitsWrites = true) :
    m.inService = true ∨ m = .config := by
  cases m with
  | serving | hold => exact .inl rfl
  | config => exact .inr rfl
  | starting | stopping => cases h

theorem exec_acknowledgeProtection (h : s.site.mode.admitsWrites = true) :
    exec .acknowledgeProtection s = .next (close (acknowledgeSite .protection s)) := by
  simp [exec, execAcknowledgeProtection, h]

theorem exec_acknowledgeLapse (h : s.site.mode.admitsWrites = true) :
    exec .acknowledgeLapse s = .next (close (acknowledgeSite .lapse s)) := by
  simp [exec, execAcknowledgeLapse, h]

theorem exec_clearDepositFault (h : s.site.mode.admitsWrites = true) :
    exec .clearDepositFault s = .next (close (clearDepositMark s)) := by
  simp [exec, execClearDepositFault, h]

theorem exec_unitAcknowledge (h : s.site.mode.inService = true) (n kinds) :
    exec (.unitAcknowledge n kinds) s = .next (close (settling (acknowledgeUnit n kinds) s)) := by
  simp [exec, execUnitAcknowledge, unitWritten, h]

theorem exec_adminOut (h : s.site.mode.inService = true) (n) :
    exec (.adminOut n) s = .next (close (settling (requestOut n) s)) := by
  simp [exec, execAdminOut, unitWritten, h]

theorem exec_adminIn (h : s.site.mode.inService = true) (n) :
    exec (.adminIn n) s = .next (close (settling (requestIn n) s)) := by
  simp [exec, execAdminIn, unitWritten, h]

theorem exec_revive (h : s.site.mode.inService = true) (n) :
    exec (.revive n) s = .next (close (settling (requestRevive n) s)) := by
  simp [exec, execRevive, unitWritten, h]

/-! ## The words as they are delivered -/

theorem deliverWord_w0 (b : Beat) (s : State) :
    deliverWord (.descriptor 0) b s = close (deliverMode b s) := by
  simp [deliverWord]

theorem deliverWord_w1 (b : Beat) (s : State) :
    deliverWord (.descriptor 1) b s = close (consume (field b.data 0 16) s) := by
  simp [deliverWord]

theorem deliverWord_w3 (b : Beat) (s : State) :
    deliverWord (.descriptor 3) b s = close (deliverSiteFaults b s) := by
  simp [deliverWord]

theorem deliverWord_s2 (k : Operator) (b : Beat) (s : State) :
    deliverWord (.stage k 2) b s = s.setStage k ((s.stage k).deliverPost b) := by
  simp [deliverWord]

theorem deliverWord_s3 (k : Operator) (b : Beat) (s : State) :
    deliverWord (.stage k 3) b s = removeChanged k false b.data s := by
  simp [deliverWord]

theorem deliverWord_s4 (k : Operator) (b : Beat) (s : State) :
    deliverWord (.stage k 4) b s = removeChanged k true b.data s := by
  simp [deliverWord]

theorem deliverWord_u4 (n : UnitId) (b : Beat) (s : State) :
    deliverWord (.unit n 4) b s = close (settling (deliverUnit n b) s) := by
  simp [deliverWord]

theorem deliverWord_d2 (n : SectorId) (b : Beat) (s : State) :
    deliverWord (.sector n 2) b s = close (acknowledgeHoles n (b.data.setWidth 6) s) := by
  simp [deliverWord]

/-- A word that is no ACTION word delivers nothing (R8). -/
theorem deliverWord_of_not_action {w : WordRef} (h : w.wordClass ≠ .action) (b : Beat) (s : State) :
    deliverWord w b s = s := by
  cases w with
  | plainMemory | ring => rfl
  | carrier n w => rfl
  | descriptor w =>
    have h' : ¬ (w.val = 0 ∨ w.val = 1 ∨ w.val = 3) := fun e => h (if_pos e)
    simp only [not_or] at h'
    simp only [deliverWord, h', if_false]
  | stage k w =>
    have h' : w.val ≠ 2 ∧ w.val ≠ 3 ∧ w.val ≠ 4 := by
      refine ⟨fun e => h ?_, fun e => h ?_, fun e => h ?_⟩ <;>
        simp [WordRef.wordClass, stageClass, e]
    simp [deliverWord, h']
  | unit n w =>
    have h' : w.val ≠ 4 := fun e => h (by simp [WordRef.wordClass, e])
    simp [deliverWord, h']
  | sector n w =>
    have h' : w.val ≠ 2 := fun e => h (by simp [WordRef.wordClass, sectorClass, e])
    simp [deliverWord, h']

/-! ## w0, w1 and the stage words -/

theorem deliverWord_config (b : Beat) (h : field b.data 0 2 = 1) (s : State) :
    deliverWord (.descriptor 0) b s = close (requestConfig s) := by
  simp [deliverWord_w0, deliverMode, h, ModeRequest.ofCode, ModeRequest.deliver]

theorem deliverWord_serve (b : Beat) (h : field b.data 0 2 = 2) (s : State) :
    deliverWord (.descriptor 0) b s = close (requestServe s) := by
  simp [deliverWord_w0, deliverMode, h, ModeRequest.ofCode, ModeRequest.deliver]

/-- In CONFIG an accepted SERVE request leaves nothing for the end of its event. -/
theorem close_requestServe (h : s.site.mode = .config) :
    close (requestServe s) = requestServe s := by
  have started : requestServe s = startLoading s := by simp [requestServe, h]
  rw [started]
  exact close_idle _ rfl

theorem Faults.accepts_iff (f : Faults) (v : Nat) :
    f.accepts v = true ↔ v < f.ringSize ∧
      (v + f.ringSize - f.consumer) % f.ringSize ≤
        (f.producer + f.ringSize - f.consumer) % f.ringSize := by
  exact decide_eq_true_iff

theorem exec_consumerWrite {v : BitVec 16} (hm : s.site.mode.admitsWrites = true)
    (hv : s.faults.accepts v.toNat = true) :
    exec (.consumerWrite v) s = .next (close (consume v.toNat s)) := by
  simp [exec, execConsumerWrite, hm, hv]

theorem State.setStage_self (s : State) (k : Operator) : s.setStage k (s.stage k) = s :=
  congrArg (fun b => s.setStages { s.stages with bank := b }) (Bank.put_get_self s.stages.bank k)

/-- A post that the stage refuses while one is pending would change nothing (R44). -/
theorem postWritten_eq (k : Operator) (b : Beat) (hw : s.stageWritable k = true)
    (hm : (s.stage k).front.modeAfter b ≠ 3) :
    postWritten k b s = deliverWord (.stage k 2) b s := by
  rw [deliverWord_s2]
  unfold postWritten Stage.refusesPost
  cases hp : (s.stage k).pending with
  | true =>
    have kept : (s.stage k).deliverPost b = s.stage k := by simp [Stage.deliverPost, hp]
    simp [kept, s.setStage_self k]
  | false => simp [hw, hm]

theorem PostMode.code_ne_three (m : PostMode) : m.code ≠ 3 := by
  cases m <;> decide

/-- The mode field after a store is defined where byte 0 is not enabled or brings a defined mode
(R41). -/
theorem Post.modeAfter_ne {p : Post} {b : Beat}
    (h : b.enables.getLsbD 0 = false ∨ field b.data 0 2 ≠ 3) : p.modeAfter b ≠ 3 := by
  unfold Post.modeAfter
  split
  · next he =>
    rcases h with h | h
    · rw [h] at he; cases he
    · exact h
  · exact p.mode.code_ne_three

theorem exec_shortPost {k : Operator} {data : Word} {en : BitVec 8} (h : en ≠ allEnables) :
    exec (.shortPost k data en) s = .next (postWritten k ⟨data, en⟩ s) := by
  simp [exec, execShortPost, h]

theorem exec_changedSetRemove {k : Operator} (hw : s.stageWritable k = true) (high names) :
    exec (.changedSetRemove k high names) s = .next (removeChanged k high names s) := by
  simp [exec, execChangedSetRemove, hw]

/-! ## Parts of one word, each with the end of its own event -/

theorem close_idem (s : State) : close (close s) = close s := (State.Closed.close s).close_eq

theorem TailOnly.trans (h : TailOnly s t) (k : TailOnly t u) : TailOnly s u :=
  ⟨k.mode.trans h.mode, k.path.trans h.path, k.producer.trans h.producer,
    k.consumer.trans h.consumer, k.ringSize.trans h.ringSize, k.ringBase.trans h.ringBase,
    h.queue.trans k.queue⟩

/-- A part of a word: it stays apart from what a presentation changes, and leaves what one reads. -/
structure IsPart (op : State → State) : Prop where
  apart : Apart op
  tail : ∀ s, TailOnly s (op s)

namespace IsPart

variable {op : State → State}

theorem of_frame (h : Apart op) (f : ∀ s, UnitFrame s (op s)) : IsPart op :=
  ⟨h, fun s => (f s).tailOnly⟩

theorem mode (h : IsPart op) (s : State) : (op s).site.mode = s.site.mode := (h.tail s).mode

theorem close_close (h : IsPart op) (hm : s.site.mode.admitsWrites = true) :
    close (op (close s)) = close (op s) := by
  rcases Mode.admitsWrites_cases hm with hs | hs
  · exact Machine.close_close h.apart (h.tail s) hs
  · rw [close_idle s (by rw [hs]; rfl)]

/-- States whose events end alike go on alike. -/
theorem congr (h : IsPart op) (hs : s.site.mode.admitsWrites = true)
    (ht : t.site.mode.admitsWrites = true) (e : close s = close t) :
    close (op s) = close (op t) := by
  rw [← h.close_close hs, e, h.close_close ht]

/-- A part that the word may lack. -/
theorem optional (h : IsPart op) (c : Bool) : IsPart fun s => if c then op s else s := by
  cases c with
  | true => simpa using h
  | false => exact ⟨fun _ _ _ => rfl, fun s => (UnitFrame.refl s).tailOnly⟩

theorem comp {f g : State → State} (hf : IsPart f) (hg : IsPart g) : IsPart fun s => f (g s) :=
  ⟨hf.apart.comp hg.apart, fun s => (hg.tail s).trans (hf.tail (g s))⟩

theorem acknowledgeSite (id : LatchId) : IsPart (acknowledgeSite id) :=
  of_frame (.acknowledgeSite id) (UnitFrame.acknowledgeSite id)

theorem clearDepositMark : IsPart clearDepositMark :=
  ⟨.clearDepositMark, TailOnly.clearDepositMark⟩

theorem acknowledgeUnit (n kinds) : IsPart (acknowledgeUnit n kinds) :=
  of_frame (.acknowledgeUnit n kinds) (UnitFrame.acknowledgeUnit n kinds)

theorem settlingOut (n) : IsPart (settling (requestOut n)) :=
  of_frame (Apart.requestOut n).settling fun s => UnitFrame.settling (UnitFrame.requestOut n s)

theorem requestIn (n) : IsPart (requestIn n) :=
  of_frame (.requestIn n) (UnitFrame.requestIn n)

theorem requestRevive (n) : IsPart (requestRevive n) :=
  of_frame (.requestRevive n) (UnitFrame.requestRevive n)

end IsPart

/-- Up to the end of its event, `t` is what the part `op` makes of `s`. -/
structure Leads (op : State → State) (s t : State) : Prop where
  ends : close t = close (op s)
  mode : t.site.mode = s.site.mode

namespace Leads

variable {f g op : State → State}

theorem same (s : State) : Leads id s s := ⟨rfl, rfl⟩

/-- The row of a part, which ends its own event. -/
theorem row (hp : IsPart op) (hs : s.site.mode.admitsWrites = true) : Leads op s (close (op s)) := by
  have hns : (op s).site.mode ≠ .stopping := by
    rw [hp.mode]
    intro e
    rw [e] at hs
    cases hs
  exact ⟨close_idem _, by rw [close_site _ hns, hp.mode]⟩

/-- The row of a part that the word may lack. -/
theorem optional {c : Bool} (hp : IsPart op) (hs : s.site.mode.admitsWrites = true)
    (h : if c then t = close (op s) else t = s) : Leads (fun s => if c then op s else s) s t := by
  cases c with
  | true =>
    obtain rfl : t = close (op s) := h
    exact row hp hs
  | false =>
    obtain rfl : t = s := h
    exact same t

/-- One part after another. -/
theorem andThen (hg : IsPart g) (hf : IsPart f) (hs : s.site.mode.admitsWrites = true)
    (h : Leads f s t) (k : Leads g t u) : Leads (fun s => g (f s)) s u :=
  ⟨k.ends.trans (hg.congr (by rw [h.mode]; exact hs) (by rw [hf.mode]; exact hs) h.ends),
    k.mode.trans h.mode⟩

end Leads

/-! ## w3 (R147) -/

theorem deliverSiteFaults_eq (b : Beat) (s : State) :
    deliverSiteFaults b s =
      (fun s => if b.data.getLsbD 2 then clearDepositMark s else s)
        ((fun s => if b.data.getLsbD 1 then acknowledgeSite .lapse s else s)
          ((fun s => if b.data.getLsbD 0 then acknowledgeSite .protection s else s) s)) := rfl

/-- What a row that the word may lack answers. -/
theorem row_answers {c : Bool} {r : Host.Outcome State Fault Refusal} {v : State}
    (hr : r = .next v) (h : if c then r = .next t else t = s) : if c then t = v else t = s := by
  cases c with
  | true =>
    have h' : r = .next t := h
    rw [hr] at h'
    injection h' with e
    exact e.symm
  | false => exact h

/-- Behind a row that was taken nothing is left for the end of an event. -/
theorem closed_of_row {c : Bool} {op : State → State}
    (h : if c then t = close (op s) else t = s) (hc : c = false → close s = s) : close t = t := by
  cases c with
  | true =>
    obtain rfl : t = close (op s) := h
    exact close_idem _
  | false =>
    obtain rfl : t = s := h
    exact hc rfl

/-- Each part of a w3 word is delivered, one after the other. -/
theorem deliverWord_w3_parts {b : Beat} {x y : State} (hs : s.site.mode.admitsWrites = true)
    (hb : field b.data 0 3 ≠ 0)
    (hx : if b.data.getLsbD 0 then exec .acknowledgeProtection s = .next x else x = s)
    (hy : if b.data.getLsbD 1 then exec .acknowledgeLapse x = .next y else y = x) :
    if b.data.getLsbD 2 then exec .clearDepositFault y = .next (deliverWord (.descriptor 3) b s)
    else deliverWord (.descriptor 3) b s = y := by
  have partP := IsPart.acknowledgeSite .protection
  have partL := IsPart.acknowledgeSite .lapse
  have rowX := row_answers (exec_acknowledgeProtection hs) hx
  have leadX := Leads.optional partP hs rowX
  have admitsX : x.site.mode.admitsWrites = true := by rw [leadX.mode]; exact hs
  have rowY := row_answers (exec_acknowledgeLapse admitsX) hy
  have leadY := Leads.optional partL admitsX rowY
  have admitsY : y.site.mode.admitsWrites = true := by rw [leadY.mode]; exact admitsX
  have lead := leadX.andThen (partL.optional _) (partP.optional _) hs leadY
  rw [deliverWord_w3, deliverSiteFaults_eq]
  cases h2 : b.data.getLsbD 2 with
  | true =>
    have all := lead.andThen .clearDepositMark ((partL.optional _).comp (partP.optional _)) hs
      (.row .clearDepositMark admitsY)
    simpa [exec_clearDepositFault admitsY, close_idem] using all.ends
  | false =>
    have closedY : close y = y := by
      refine closed_of_row rowY fun h1 => closed_of_row rowX fun h0 => absurd ?_ hb
      refine field_eq_zero fun i hi => ?_
      interval_cases i
      · simpa using h0
      · simpa using h1
      · simpa using h2
    simpa [closedY] using lead.ends.symm

/-- A w3 word with one part is delivered as the row of that part. -/
theorem deliverWord_w3_one {b : Beat} {v : Nat} (h : field b.data 0 3 = v) (s : State) :
    deliverWord (.descriptor 3) b s =
      close ((fun s => if v.testBit 2 then clearDepositMark s else s)
        ((fun s => if v.testBit 1 then acknowledgeSite .lapse s else s)
          (if v.testBit 0 then acknowledgeSite .protection s else s))) := by
  have bit := getLsbD_of_field h
  simp only [Nat.zero_add] at bit
  rw [deliverWord_w3, deliverSiteFaults_eq, bit 0 (by decide), bit 1 (by decide),
    bit 2 (by decide)]

/-! ## u4 (R123) -/

/-- The admin part of a u4 word, with its standings decided. -/
def adminPart (n : UnitId) (code : Nat) : State → State :=
  if code = 1 then settling (requestOut n) else if code = 2 then requestIn n else id

theorem IsPart.adminPart (n : UnitId) (code : Nat) : IsPart (adminPart n code) := by
  unfold Machine.adminPart
  split
  · exact .settlingOut n
  · split
    · exact .requestIn n
    · exact ⟨fun _ _ _ => rfl, fun s => (UnitFrame.refl s).tailOnly⟩

theorem acknowledgeUnit_steering (n kinds) (s : State) :
    (acknowledgeUnit n kinds s).steering = s.steering := rfl

theorem settling_acknowledgeUnit (n kinds) (s : State) :
    settling (acknowledgeUnit n kinds) s = acknowledgeUnit n kinds s :=
  settling_same rfl

theorem settling_requestIn (n) (s : State) : settling (requestIn n) s = requestIn n s :=
  settling_same (requestIn_steering n s)

theorem settling_requestRevive (n) (s : State) :
    settling (requestRevive n) s = requestRevive n s :=
  settling_same (requestRevive_steering n s)

/-- After an OUT request, settled, REVIVE does nothing. -/
theorem requestRevive_settlingOut (n) (s : State) :
    requestRevive n (settling (requestOut n) s) = settling (requestOut n) s := by
  refine requestRevive_none ?_
  have units : (settling (requestOut n) s).unit n = (requestOut n s).unit n := by
    unfold State.unit settling
    rw [decideStandings_units]
  rw [units]
  exact requestOut_state n s

/-- A u4 word, settled, is its parts one after the other (R123). -/
theorem settling_deliverUnit (n : UnitId) (b : Beat) (s : State) :
    settling (deliverUnit n b) s =
      (fun s => if b.data.getLsbD 12 then requestRevive n s else s)
        (adminPart n (field b.data 8 2) (acknowledgeUnit n (b.data.setWidth 7) s)) := by
  have parts : deliverUnit n b s =
      (fun s => if b.data.getLsbD 12 then requestRevive n s else s)
        (deliverAdmin n (field b.data 8 2) (acknowledgeUnit n (b.data.setWidth 7) s)) := rfl
  have revive_steering : ∀ v : State,
      ((fun s => if b.data.getLsbD 12 then requestRevive n s else s) v).steering = v.steering := by
    intro v
    simp only
    split
    · exact requestRevive_steering n v
    · rfl
  by_cases h1 : field b.data 8 2 = 1
  · have out : deliverUnit n b s = requestOut n (acknowledgeUnit n (b.data.setWidth 7) s) := by
      rw [parts]
      simp only [deliverAdmin, h1, if_true]
      rw [requestRevive_none (requestOut_state n _), ite_self]
    have admin : adminPart n (field b.data 8 2) = settling (requestOut n) := if_pos h1
    rw [admin]
    simp only
    rw [requestRevive_settlingOut, ite_self]
    unfold settling
    rw [out, acknowledgeUnit_steering]
  · have admin : deliverAdmin n (field b.data 8 2) = adminPart n (field b.data 8 2) := by
      funext v
      unfold deliverAdmin adminPart
      rw [if_neg h1, if_neg h1]
      split <;> rfl
    have admin_steering : ∀ v : State,
        (adminPart n (field b.data 8 2) v).steering = v.steering := by
      intro v
      unfold adminPart
      rw [if_neg h1]
      split
      · exact requestIn_steering n v
      · rfl
    rw [settling_same, parts, admin]
    rw [parts, admin, revive_steering, admin_steering, acknowledgeUnit_steering]

/-- A u4 word is its parts, and one end of the event. -/
theorem deliverWord_u4_parted (n : UnitId) (b : Beat) (s : State) :
    deliverWord (.unit n 4) b s =
      close ((fun s => if b.data.getLsbD 12 then requestRevive n s else s)
        (adminPart n (field b.data 8 2) (acknowledgeUnit n (b.data.setWidth 7) s))) := by
  rw [deliverWord_u4, settling_deliverUnit]

/-- Each part of a u4 word is delivered, one after the other. -/
theorem deliverWord_u4_parts {n : UnitId} {b : Beat} {x y : State}
    (hs : s.site.mode.inService = true)
    (hx : exec (.unitAcknowledge n (b.data.setWidth 7)) s = .next x)
    (hy : field b.data 8 2 = 0 ∧ y = x ∨ field b.data 8 2 = 1 ∧ exec (.adminOut n) x = .next y ∨
      field b.data 8 2 = 2 ∧ exec (.adminIn n) x = .next y) :
    if b.data.getLsbD 12 then exec (.revive n) y = .next (deliverWord (.unit n 4) b s)
    else deliverWord (.unit n 4) b s = y := by
  have admits := Mode.admitsWrites_of_inService hs
  have partA := IsPart.acknowledgeUnit n (b.data.setWidth 7)
  have partB := IsPart.adminPart n (field b.data 8 2)
  rw [exec_unitAcknowledge hs, settling_acknowledgeUnit] at hx
  injection hx with hx
  have leadX : Leads (acknowledgeUnit n (b.data.setWidth 7)) s x := hx ▸ .row partA admits
  have serviceX : x.site.mode.inService = true := by rw [leadX.mode]; exact hs
  have rowY : y = close (adminPart n (field b.data 8 2) x) := by
    rcases hy with ⟨h, rfl⟩ | ⟨h, hy⟩ | ⟨h, hy⟩
    · rw [h, ← hx]
      exact (close_idem _).symm
    · rw [exec_adminOut serviceX] at hy
      injection hy with hy
      rw [h, ← hy]
      rfl
    · rw [exec_adminIn serviceX, settling_requestIn] at hy
      injection hy with hy
      rw [h, ← hy]
      rfl
  have leadY : Leads (adminPart n (field b.data 8 2)) x y :=
    rowY ▸ .row partB (Mode.admitsWrites_of_inService serviceX)
  have serviceY : y.site.mode.inService = true := by rw [leadY.mode]; exact serviceX
  have lead := leadX.andThen partB partA admits leadY
  rw [deliverWord_u4_parted]
  cases h12 : b.data.getLsbD 12 with
  | true =>
    have all := lead.andThen (.requestRevive n) (partB.comp partA) admits
      (.row (.requestRevive n) (Mode.admitsWrites_of_inService serviceY))
    simpa [exec_revive serviceY, settling_requestRevive, close_idem] using all.ends
  | false =>
    have closedY : close y = y := by rw [rowY]; exact close_idem _
    simpa [closedY] using lead.ends.symm

/-- With no kind named nothing is acknowledged. -/
theorem acknowledgeUnit_none (n : UnitId) (s : State) : acknowledgeUnit n 0#7 s = s := by
  unfold acknowledgeUnit
  simp

/-- The kinds a u4 word names, where it names none. -/
theorem named_kinds_eq_zero {w : Word} (h : field w 0 7 = 0) : w.setWidth 7 = 0#7 := by
  refine BitVec.eq_of_getLsbD_eq fun i hi => ?_
  have := getLsbD_of_field h i hi
  rw [Nat.zero_add] at this
  simp [this, hi]

/-- Settles O4: each word is its row by definition, a refused post would change nothing, and the parts of
one word go on from the end of one another's events. -/
theorem actionWordsAreDeliveredAsTheirRows : Obligations.ActionWordsAreDeliveredAsTheirRows := by
  intro u b
  refine ⟨fun h hm => ?w0Config, fun h hm => ?w0Serve, fun v hv h1 h2 hs hp => ?w1,
    fun hs hp => ?w3, fun k hs hk => ?stage, fun n hs => ?u4, fun n hs => ?d2,
    fun r h => deliverWord_of_not_action h b u⟩
  case w0Config => simp [exec, execConfigRequest, hm, deliverWord_config b h]
  case w0Serve =>
    rw [deliverWord_serve b h, close_requestServe hm]
    rfl
  case w1 =>
    rw [exec_consumerWrite (Mode.admitsWrites_of_ne hs hp)
      ((Faults.accepts_iff _ _).mpr ⟨h1, h2⟩), hv, deliverWord_w1]
  case w3 =>
    have admits := Mode.admitsWrites_of_ne hs hp
    refine ⟨fun h => ?_, fun h => ?_, fun h => ?_, fun h x y => deliverWord_w3_parts admits h⟩
    · rw [deliverWord_w3_one h, exec_acknowledgeProtection admits]
      rfl
    · rw [deliverWord_w3_one h, exec_acknowledgeLapse admits]
      rfl
    · rw [deliverWord_w3_one h, exec_clearDepositFault admits]
      rfl
  case stage =>
    have writable : u.stageWritable k = true := by simp [State.stageWritable, hs, hk]
    refine ⟨fun he h => ?_, fun he h => ?_, ?_, ?_⟩
    · have full : (⟨b.data, allEnables⟩ : Beat) = b := congrArg (Beat.mk b.data) he.symm
      show Host.Outcome.next (postWritten k ⟨b.data, allEnables⟩ u) = _
      rw [full, postWritten_eq k b writable (Post.modeAfter_ne (.inr h))]
    · rw [exec_shortPost he, postWritten_eq k b writable (Post.modeAfter_ne h)]
    · rw [exec_changedSetRemove writable, deliverWord_s3]
    · rw [exec_changedSetRemove writable, deliverWord_s4]
  case u4 =>
    refine ⟨fun ha hr => ?_, fun hk ha hr => ?_, fun hk ha hr => ?_, fun hk ha hr => ?_,
      fun x y => deliverWord_u4_parts hs⟩
    · rw [exec_unitAcknowledge hs, settling_acknowledgeUnit, deliverWord_u4_parted, ha, hr]
      rfl
    · rw [exec_adminOut hs, deliverWord_u4_parted, named_kinds_eq_zero hk, acknowledgeUnit_none, ha, hr]
      rfl
    · rw [exec_adminIn hs, settling_requestIn, deliverWord_u4_parted, named_kinds_eq_zero hk,
        acknowledgeUnit_none, ha, hr]
      rfl
    · rw [exec_revive hs, settling_requestRevive, deliverWord_u4_parted, named_kinds_eq_zero hk,
        acknowledgeUnit_none, ha, hr]
      rfl
  case d2 => simp [exec, execHoleAcknowledge, hs, deliverWord_d2]

end Sys2Proof.Machine
end

section
/-! TAKE_REQUEST: what is admitted, refused or stalled (O5), and what a reported refusal trips (O6). -/
namespace Sys2Proof.Machine

open Sys2Proof

variable {s : State} {pre post : List Entry} {e : Entry}

/-! ## The stall (R3) -/

theorem Entry.underWay_iff (d : Entry) :
    d.underWay = true ↔ d.stage = .held ∨ d.stage = .atMemory := by
  unfold Entry.underWay
  cases d.stage <;> simp

/-- The windows in which an entry writes a CAPTURED word. -/
theorem Entry.mem_capturedWindows (d : Entry) (x : WindowId) :
    x ∈ d.capturedWindows ↔ d.request.kind = .write ∧ ∃ t, d.taken = some t ∧
      ∃ w ∈ t.words, w.wordClass = .captured ∧ w.window = some x := by
  unfold Entry.capturedWindows
  cases hk : d.request.kind <;> cases ht : d.taken <;>
    simp [List.mem_filterMap, List.mem_filter, and_assoc]

/-- What stalls a taking: an earlier WRITE of a CAPTURED word of a window of the request, HELD or
AT-MEMORY, and nothing else. -/
theorem Entry.stalls_iff (d : Entry) (words : List WordRef) :
    d.stalls words = true ↔
      d.request.kind = .write ∧ (d.stage = .held ∨ d.stage = .atMemory) ∧
        ∃ t, d.taken = some t ∧ ∃ w ∈ t.words, w.wordClass = .captured ∧ w.window ≠ none ∧
          ∃ v ∈ words, v.window = w.window := by
  unfold Entry.stalls
  simp only [Bool.and_eq_true, Entry.underWay_iff, List.any_eq_true, Entry.mem_capturedWindows,
    beq_iff_eq]
  constructor
  · rintro ⟨hs, x, ⟨hk, t, ht, w, hw, hc, hx⟩, v, hv, hvx⟩
    exact ⟨hk, hs, t, ht, w, hw, hc, by rw [hx]; exact Option.some_ne_none x, v, hv,
      hvx.trans hx.symm⟩
  · rintro ⟨hk, hs, t, ht, w, hw, hc, hn, v, hv, hvw⟩
    obtain ⟨x, hx⟩ := Option.ne_none_iff_exists'.mp hn
    exact ⟨hs, x, ⟨hk, t, ht, w, hw, hc, hx⟩, v, hv, hvw.trans hx⟩

/-- The oldest ACCEPTED entry is taken where no earlier entry stalls it. -/
theorem exec_takeRequest_free (h : s.path.FirstIn .accepted pre e post)
    (free : ∀ d ∈ pre, d.stalls (s.path.decode e.request) = false) :
    exec .takeRequest s = .next (takeEntry ⟨pre, e, post⟩ s) := by
  have takeable : s.path.takeable = some ⟨pre, e, post⟩ := by
    unfold Path.takeable
    rw [h.split]
    simp only
    rw [if_neg]
    simp only [List.any_eq_true, not_exists, not_and]
    intro d hd
    simp [free d hd]
  simp only [exec, execTakeRequest, takeable]

/-- A stalled entry is not taken. -/
theorem exec_takeRequest_stalled (h : s.path.FirstIn .accepted pre e post) {d : Entry}
    (hd : d ∈ pre) (stall : d.stalls (s.path.decode e.request) = true) :
    exec .takeRequest s = .next s := by
  have takeable : s.path.takeable = none := by
    unfold Path.takeable
    rw [h.split]
    simp only
    rw [if_pos]
    exact List.any_eq_true.mpr ⟨d, hd, stall⟩
  simp only [exec, execTakeRequest, takeable]

/-! ## The verdict (R3, R13, R14) -/

/-- The list with the taken entry put back. -/
def State.withTaken (s : State) (pre post : List Entry) (e : Entry) : State :=
  s.setPath (s.path.withEntries (pre ++ e :: post))

theorem takeEntry_eq (s : State) (pre post : List Entry) (e : Entry) {v : Verdict}
    (hv : verdict s (s.path.roles.get e.request.initiator) e.request
      (s.path.decode e.request) = v) :
    takeEntry ⟨pre, e, post⟩ s =
      applyVerdict v e.request (s.path.decode e.request)
        (s.withTaken pre post (e.settle (s.takenFor e.request) v)) := by
  subst hv
  rfl

section

variable {role : Role} {r : Request} {words : List WordRef}

theorem verdict_reported {x : Refused}
    (h : protectionCheck s.site.operatorCount role r words = some x) :
    verdict s role r words = .reported x := by
  simp [verdict, h]

theorem verdict_refused (h : protectionCheck s.site.operatorCount role r words = none)
    (hs : stateRefused s r words = true) : verdict s role r words = .refused := by
  simp [verdict, h, hs]

theorem verdict_held (h : protectionCheck s.site.operatorCount role r words = none)
    (hs : stateRefused s r words = false) (hm : needsMemory r.kind words = true) :
    verdict s role r words = .held := by
  simp [verdict, h, hs, hm]

theorem verdict_answered (h : protectionCheck s.site.operatorCount role r words = none)
    (hs : stateRefused s r words = false) (hm : needsMemory r.kind words = false) :
    verdict s role r words = .answered := by
  simp [verdict, h, hs, hm]

end

theorem needsMemory_write_iff (words : List WordRef) :
    needsMemory .write words = true ↔ ∃ w ∈ words, w.wordClass ≠ .action := by
  simp [needsMemory]

theorem needsMemory_read_iff (words : List WordRef) :
    needsMemory .read words = true ↔ ∃ w ∈ words, w.wordClass = .plain ∨ w.wordClass = .captured := by
  simp [needsMemory]

/-- Delivering every word in order is delivering its ACTION words (R8). -/
theorem deliverAll_eq_foldl (words : List WordRef) (beats : List Beat) (s : State) :
    deliverAll words beats s =
      (words.zip beats).foldl (fun u p => deliverWord p.1 p.2 u) s := by
  unfold deliverAll wordsOf
  generalize words.zip beats = l
  induction l generalizing s with
  | nil => rfl
  | cons p l ih =>
    rw [List.filter_cons, List.foldl_cons]
    split
    · rw [List.foldl_cons, ih]
    · next h =>
      rw [ih, deliverWord_of_not_action]
      simpa using h

theorem Request.beats_read {r : Request} (h : r.kind = .read) : r.beats = [] := by
  unfold Request.kind at h
  unfold Request.beats
  split at h
  · rfl
  · cases h

/-- A READ delivers nothing. -/
theorem deliverAll_read {r : Request} (h : r.kind = .read) (words : List WordRef) (s : State) :
    deliverAll words r.beats s = s := by
  rw [deliverAll_eq_foldl, Request.beats_read h, List.zip_nil_right]
  rfl

/-- Settles O5, from the verdict each case meets. -/
theorem takingAdmitsRefusesOrStalls : Obligations.TakingAdmitsRefusesOrStalls := by
  refine ⟨?admitted, fun words => ⟨needsMemory_write_iff words, needsMemory_read_iff words⟩,
    ?refused, ?stalled, Entry.stalls_iff, fun _ _ => rfl⟩
  case admitted =>
    intro s pre post e h free hp hs
    refine ⟨fun hm => ?_, fun hm hk => ?_, fun hk ha => ?_⟩
    · rw [exec_takeRequest_free h free, takeEntry_eq s pre post e (verdict_held hp hs hm)]
      rfl
    · rw [exec_takeRequest_free h free, takeEntry_eq s pre post e (verdict_answered hp hs hm)]
      exact congrArg _ (deliverAll_read hk _ _)
    · have hm : needsMemory e.request.kind (s.path.decode e.request) = false := by
        rw [hk, Bool.eq_false_iff, Ne, needsMemory_write_iff]
        rintro ⟨w, hw, hn⟩
        exact hn (ha w hw)
      rw [exec_takeRequest_free h free, takeEntry_eq s pre post e (verdict_answered hp hs hm)]
      exact congrArg _ (deliverAll_eq_foldl _ _ _)
  case refused =>
    intro s pre post e h free hp hs
    rw [exec_takeRequest_free h free, takeEntry_eq s pre post e (verdict_refused hp hs)]
    rfl
  case stalled =>
    intro s pre post e d t w v h hd hk hst ht hw hc hv hn hvw
    exact exec_takeRequest_stalled h hd
      ((d.stalls_iff _).mpr ⟨hk, hst, t, ht, w, hw, hc, hn, v, hv, hvw⟩)

/-! ## The PROTECTION trip (R13, R146) -/

/-- The Fault Reporter with another detail and another PROTECTION latch. -/
def Faults.withProtection (d : ProtectionDetail) (l : Latch) (f : Faults) : Faults :=
  { f with detail := d, protection := l }

/-- Notices look at neither the detail nor a latch. -/
theorem Faults.produce_withProtection (f : Faults) (d l v b) :
    (f.withProtection d l).produce v b = (f.produce v b).withProtection d l := by
  unfold Faults.produce
  have room : (f.withProtection d l).hasRoom = f.hasRoom := rfl
  have count : (f.withProtection d l).suppressed = f.suppressed := rfl
  rw [room, count]
  split
  · split <;> rfl
  · rfl

/-- A trip of a clear PROTECTION latch in service: the detail is kept, the latch set with the number of
its notice, and the notice produced unless the kind is masked (R144, R146, R149). -/
theorem Faults.tripProtection_clear {f : Faults} {v : FaultView} (h : f.protection.set = false)
    (hv : v.mode.inService = true) (d : ProtectionDetail) :
    f.tripProtection v d =
      (if v.masked .protection then f
        else f.produce v (LatchId.protection.noticeBody .raised 0 d)).withProtection d
        { f.protection with
          set := true, acknowledged := false, raised := f.raisedNumber v .protection 0 } := by
  have trip : f.tripProtection v d = Faults.raise v .protection { f with detail := d } := by
    simp [Faults.tripProtection, Faults.momentaryTrip, Faults.latch, h, hv]
  rw [trip]
  unfold Faults.raise Faults.raisedNumber
  cases hm : v.masked .protection with
  | true => simp only [LatchId.kind, hm, if_true]; rfl
  | false =>
    simp only [LatchId.kind, hm, Faults.latchBody_eq, BitVec.ofNat_eq_ofNat, BitVec.add_zero]
    exact Faults.produce_withProtection f d _ v _

/-- A set PROTECTION latch and a report outside service leave the Fault Reporter (R143, R146). -/
theorem Faults.tripProtection_same {f : Faults} {v : FaultView}
    (h : f.protection.set = true ∨ v.mode.inService = false) (d : ProtectionDetail) :
    f.tripProtection v d = f := by
  unfold Faults.tripProtection
  rcases h with h | h <;> simp [h]

theorem Faults.latch_tripProtection_ne (f : Faults) (v d) {j : LatchId} (hj : j ≠ .protection) :
    (f.tripProtection v d).latch j = f.latch j := by
  have kept : ({ f with detail := d } : Faults).latch j = f.latch j := by cases j <;> rfl
  unfold Faults.tripProtection Faults.momentaryTrip
  split
  · rfl
  · split
    · split
      · rw [Faults.latch_raise_ne _ v hj, kept]
      · exact kept
    · rfl

/-- Settles O6: taking such a request is the trip of PROTECTION and the end of its event. -/
theorem protectionRefusalTripsTheLatch : Obligations.ProtectionRefusalTripsTheLatch := by
  intro s pre post e x h free hp path detail told tripped
  have taken : exec .takeRequest s =
      .next (close ((s.setPath path).setFaults (s.faults.tripProtection s.faultView detail))) := by
    rw [exec_takeRequest_free h free, takeEntry_eq s pre post e (verdict_reported hp)]
    rfl
  have tripClear : s.faults.protection.set = false → s.site.mode.inService = true →
      s.faults.tripProtection s.faultView detail = tripped :=
    fun hc hs => Faults.tripProtection_clear hc hs detail
  have tripSame : s.faults.protection.set = true ∨ s.site.mode.inService = false →
      (s.setPath path).setFaults (s.faults.tripProtection s.faultView detail) = s.setPath path :=
    fun hk => by rw [Faults.tripProtection_same hk]; rfl
  have outstanding : ∀ f, ((s.setPath path).setFaults f).depositOutstanding =
      s.depositOutstanding := fun _ => rfl
  have log := close_log ((s.setPath path).setFaults (s.faults.tripProtection s.faultView detail))
  refine ⟨_, taken, by simp, fun j hj => ?latches, fun hm => ?frame, fun hc => ?clear,
    fun hm => ?idle, fun hk => ?same⟩
  case latches =>
    rw [close_latch]
    exact s.faults.latch_tripProtection_ne _ _ hj
  case frame =>
    exact ⟨OnlyLog.close_setFaults _ _ hm,
      PresentsNext.close ((s.setPath path).setFaults _) hm⟩
  case clear =>
    refine ⟨fun hm => ?_, fun hm => ?_⟩
    · have stay : s.site.mode ≠ .stopping ∧ s.site.mode ≠ .hold := by simp [hm]
      rw [log stay.1, State.setFaults_site, State.setPath_site, if_neg stay.2]
      exact tripClear hc (by rw [hm]; rfl)
    · rw [log (by simp [hm]), State.setFaults_site, State.setPath_site, if_pos hm,
        State.setFaults_faults, outstanding, tripClear hc (by rw [hm]; rfl)]
  case idle =>
    have down : s.site.mode.windowsUp = false ∧ s.site.mode.inService = false := by
      rcases hm with hm | hm <;> rw [hm] <;> exact ⟨rfl, rfl⟩
    rw [tripSame (.inr down.2)]
    exact close_idle _ down.1
  case same =>
    have kept : s.faults.protection.set = true ∨ s.site.mode.inService = false := by
      rcases hk with hm | hk
      · exact .inr (by rw [hm]; rfl)
      · exact .inl hk
    rw [tripSame kept]
    exact ⟨close_latch (s.setPath path) .protection, close_detail _,
      fun hc => (hc.of_owns path rfl rfl).close_eq⟩

end Sys2Proof.Machine
end

section
/-! The arbiter (O9), memory answers that merge nothing (O10), and the arrival and the return of requests
(O12). -/
namespace Sys2Proof.Machine

open Sys2Proof

variable {s : State} {p : Path} {x : Split}

/-! ## Grants (R20) -/

/-- The oldest HELD entry is granted unless an own access waits that the passing run lets go first. -/
theorem Path.grant_passing (hx : splitAt .held p.entries = some x)
    (h : p.ownPresented = none ∨ p.passingRun ≠ 4 ∨ p.ownInFlight ≠ none) :
    p.grant = p.grantPassing x := by
  have choice : arbitrate true p.ownPresented.isSome p.ownInFlight.isSome p.passingRun =
      some .passing := by
    unfold arbitrate Config.passingRunTop
    cases ho : p.ownPresented with
    | none => rfl
    | some a =>
      have free : p.passingRun ≠ 4 ∨ p.ownInFlight ≠ none := by simpa [ho] using h
      cases hf : p.ownInFlight with
      | none =>
        have run : p.passingRun ≠ 4 := by simpa [hf] using free
        simp [run]
      | some b => simp
  simp only [Path.grant, hx, Option.isSome_some, choice]

/-- An own access is granted where none is in flight and the passing run is 4 or no entry is HELD. -/
theorem Path.grant_own {a : OwnAccess} (ha : p.ownPresented = some a) (hf : p.ownInFlight = none)
    (h : p.passingRun = 4 ∨ splitAt .held p.entries = none) : p.grant = p.grantOwn a := by
  have choice : arbitrate (splitAt .held p.entries).isSome true false p.passingRun = some .own := by
    unfold arbitrate Config.passingRunTop
    cases hx : splitAt .held p.entries with
    | none => rfl
    | some y =>
      have run : p.passingRun = 4 := by simpa [hx] using h
      simp [run]
  simp only [Path.grant, ha, hf, Option.isSome_some, Option.isSome_none, choice]

/-- Nothing is granted where no entry is HELD and no own access may go. -/
theorem Path.grant_none (hx : splitAt .held p.entries = none)
    (h : p.ownPresented = none ∨ p.ownInFlight ≠ none) : p.grant = p := by
  have choice : arbitrate false p.ownPresented.isSome p.ownInFlight.isSome p.passingRun = none := by
    rcases h with h | h
    · simp [arbitrate, h]
    · simp [arbitrate, Option.isSome_iff_ne_none.mpr h]
  simp only [Path.grant, hx, Option.isSome_none, choice]

/-! ## The access of a forwarded request (R15, R19) -/

/-- Each beat of a forwarded request is forwarded by its word's class. -/
theorem Entry.access_beat {e : Entry} {t : Taken} (ht : e.taken = some t) {i : Nat} {w : WordRef}
    {b : Beat} (hw : t.words[i]? = some w) (hb : e.request.beats[i]? = some b) :
    e.access.beats[i]? = some (if w.wordClass = .action then ⟨0, 0⟩ else b) := by
  have beats : e.access.beats = List.zipWith forwardBeat t.words e.request.beats := by
    simp [Entry.access, ht]
  rw [beats, List.getElem?_zipWith, hw, hb]
  rfl

theorem Entry.access_read {e : Entry} (h : e.request.kind = .read) :
    e.access = ⟨.read, e.request.byteAddress, e.request.length, []⟩ := by
  have none := Request.beats_read h
  unfold Entry.access
  rw [h, none]
  cases e.taken <;> simp

/-- Settles O9, from the arbiter's choice in each case. -/
theorem arbiterGrantsByThePassingRun : Obligations.ArbiterGrantsByThePassingRun := by
  refine ⟨fun s => ⟨fun pre post e h hc => ?_, fun a ha hf hc => ?_, fun hn hc => ?_⟩,
    fun e t ht _ => ⟨rfl, rfl, rfl, fun i w b => Entry.access_beat ht⟩, fun e => Entry.access_read⟩
  · show Host.Outcome.next (s.setPath s.path.grant) = _
    rw [Path.grant_passing h.split hc]
    rfl
  · show Host.Outcome.next (s.setPath s.path.grant) = _
    rw [Path.grant_own ha hf (hc.imp_right splitAt_none)]
    rfl
  · show Host.Outcome.next (s.setPath s.path.grant) = _
    rw [Path.grant_none (splitAt_none hn) hc]
    rfl

/-! ## Memory answers (R16, R17, R19) -/

section

variable {pre post : List Entry} {e : Entry} {g : Granted} {rest : List Granted} {k : AccessKind}

/-- The answer to the oldest granted access goes to the first entry AT-MEMORY. -/
theorem Path.answering_first (hg : p.granted = g :: rest) (ho : g.own = false)
    (hk : g.access.kind = k) (h : p.FirstIn .atMemory pre e post) :
    p.answering k = some ⟨pre, e, post⟩ := by
  simp [Path.answering, hg, ho, hk, h.split]

/-- The path with the answered entry READY, and the access gone. -/
theorem Path.settleAnswer_eq (hg : p.granted = g :: rest) (code : ResponseCode)
    (data : List Word) :
    p.settleAnswer ⟨pre, e, post⟩ code data = { p with
      entries := pre ++ { e with stage := .ready, response := some code, data := data } :: post
      granted := rest } := by
  unfold Path.settleAnswer
  rw [hg]
  rfl

theorem exec_memoryWriteResponse (hg : s.path.granted = g :: rest) (ho : g.own = false)
    (hk : g.access.kind = .write) (h : s.path.FirstIn .atMemory pre e post) (a : Answer) :
    exec (.memoryWriteResponse a) s = .next (writeAnswered ⟨pre, e, post⟩ a s) := by
  simp only [exec, execMemoryWriteResponse, Path.answering_first hg ho hk h]

theorem exec_memoryReadResponse (hg : s.path.granted = g :: rest) (ho : g.own = false)
    (hk : g.access.kind = .read) (h : s.path.FirstIn .atMemory pre e post) {a : ReadAnswer}
    (ha : answerFits e.request.length a = true) :
    exec (.memoryReadResponse a) s = .next (readAnswered ⟨pre, e, post⟩ a s) := by
  simp only [exec, execMemoryReadResponse, Path.answering_first hg ho hk h, ha, if_true]

end

/-- Outside service an answer in another mode than that of the taking merges and delivers nothing
(R17). -/
theorem writeOkay_modeChanged {e : Entry} {t : Taken} (ht : e.taken = some t)
    (hs : s.site.mode.inService = false) (hm : s.site.mode ≠ t.mode) : writeOkay e s = s := by
  simp [writeOkay, ht, delivers, hs, hm]

/-- Settles O10: the entry moves, and nothing is merged or delivered. -/
theorem memoryAnswersMoveTheEntry : Obligations.MemoryAnswersMoveTheEntry := by
  refine ⟨fun s pre post e g rest t hg ho hk h ht => ⟨?_, fun hc => ?_⟩,
    fun s pre post e g rest hg ho hk h => ⟨?_, fun data hl => ?_⟩⟩
  · rw [exec_memoryWriteResponse hg ho hk h, ← Path.settleAnswer_eq hg]
    rfl
  · rw [exec_memoryWriteResponse hg ho hk h, ← Path.settleAnswer_eq hg]
    refine congrArg _ ?_
    rcases hc with ⟨hs, hm⟩ | hp
    · exact writeOkay_modeChanged ht hs hm
    · exact writeOkay_plain ht hp _
  · rw [exec_memoryReadResponse hg ho hk h rfl, ← Path.settleAnswer_eq hg]
    rfl
  · rw [exec_memoryReadResponse hg ho hk h (a := .okay data) (decide_eq_true hl), ← Path.settleAnswer_eq hg]
    rfl

/-! ## Arrival and return (R1, R2) -/

/-- With room the request joins the tail of the list, ACCEPTED. -/
theorem Path.arrive_room (h : p.ListInv) (hl : p.entries.length < 16) (r : Request) :
    p.arrive r = p.withEntries (p.entries ++ [Entry.arrived r]) := by
  obtain ⟨-, full, -⟩ := h
  have none : p.upWaiting = [] := by
    by_contra hw
    have := full hw
    omega
  obtain ⟨n, hn⟩ : ∃ n, 16 - p.entries.length = n + 1 := ⟨15 - p.entries.length, by omega⟩
  cases p
  simp only at none hn
  subst none
  simp [Path.arrive, Path.acceptWaiting, Config.acceptedRoom, hn, Path.withEntries]

/-- With a full list the request waits. -/
theorem Path.arrive_full (hl : ¬ p.entries.length < 16) (r : Request) :
    p.arrive r = { p with upWaiting := p.upWaiting ++ [r] } := by
  have none : 16 - p.entries.length = 0 := by omega
  simp [Path.arrive, Path.acceptWaiting, Config.acceptedRoom, none]

/-- One waiting request is accepted into the room the head leaves. -/
theorem Path.acceptWaiting_one {e : Entry} {rest : List Entry} (h : p.ListInv)
    (he : p.entries = e :: rest) (u : Option UpResponse) :
    ({ p with entries := rest, lastReturned := u } : Path).acceptWaiting =
      { p with
        entries := rest ++ (p.upWaiting.take 1).map Entry.arrived
        upWaiting := p.upWaiting.drop 1
        lastReturned := u } := by
  obtain ⟨-, full, -⟩ := h
  rw [he, List.length_cons] at full
  unfold Path.acceptWaiting Config.acceptedRoom
  cases hw : p.upWaiting with
  | nil => simp
  | cons r l =>
    have room : 16 - rest.length = 1 := by
      have := full (by simp [hw])
      omega
    simp [room]

theorem exec_responseReturn {e : Entry} {rest : List Entry} {c : ResponseCode}
    (he : s.path.entries = e :: rest) (hs : e.stage = .ready) (hc : e.response = some c) :
    exec .responseReturn s = .next (returnHead e c rest s) := by
  have head : s.path.returnable = some (e, c, rest) := by simp [Path.returnable, he, hs, hc]
  simp only [exec, execResponseReturn, head]

theorem composeData_write {e : Entry} (h : e.request.kind = .write) (c : ResponseCode) :
    composeData s e c = [] := by
  simp [composeData, h]

theorem composeData_notOkay {e : Entry} (h : e.request.kind = .read) {c : ResponseCode}
    (hc : c ≠ .okay) : composeData s e c = List.replicate e.request.length 0 := by
  cases c with
  | okay => exact absurd rfl hc
  | refused | fault => simp [composeData, h]

theorem composeData_okay {e : Entry} {x : Taken} (h : e.request.kind = .read)
    (hx : e.taken = some x) :
    composeData s e .okay =
      x.words.zipIdx.map fun p => composeWord s x.role p.1 (e.data.getD p.2 0) := by
  simp [composeData, h, hx]

/-- Settles O12: the list's bounds say how much room there is. -/
theorem requestsJoinTheListAndReturnFromItsHead :
    Obligations.RequestsJoinTheListAndReturnFromItsHead := by
  refine ⟨fun r s hr h => ?_, fun s e rest c h he hs hc => ?_, fun s e rest x he hs hc hk hx => ?_⟩
  · have arrived : exec (.requestArrival r) s = .next (s.setPath (s.path.arrive r)) := by
      simp only [exec, execRequestArrival, hr, if_true]
    rw [arrived]
    split
    · next hl =>
      rw [Path.arrive_room h hl]
      rfl
    · next hl => rw [Path.arrive_full hl]
  · refine ⟨_, composeData s e c, exec_responseReturn he hs hc, rfl,
      Path.acceptWaiting_one h he _, fun hk => composeData_write hk c,
      fun hk hn => composeData_notOkay hk hn⟩
  · refine ⟨_, responseOf s e .okay, exec_responseReturn he hs hc, rfl, rfl, ?_, fun i w hw => ?_⟩
    · show (composeData s e .okay).length = _
      simp [composeData_okay hk hx]
    · show (composeData s e .okay)[i]? = _
      simp [composeData_okay hk hx, hw]

end Sys2Proof.Machine
end

section
/-! The checks of taking (O7), the windows, classes and rights (O8), and the refusals by state (O26). -/
namespace Sys2Proof.Machine

open Sys2Proof

/-! ## The checks of taking (R5, R12, R13) -/

/-- The first place of a list that a test accepts. -/
theorem findIdx?_first {α : Type} {q : α → Bool} {l : List α} {i : Nat} {a : α}
    (ha : l[i]? = some a) (hq : q a = true)
    (before : ∀ j < i, ∀ b, l[j]? = some b → q b = false) : l.findIdx? q = some i := by
  obtain ⟨hi, rfl⟩ := List.getElem?_eq_some_iff.mp ha
  refine List.findIdx?_eq_some_iff_getElem.mpr ⟨hi, hq, fun j hj => ?_⟩
  rw [before j hj _ (List.getElem?_eq_getElem (by omega))]
  exact Bool.false_ne_true

section

variable {count : Nat} {role : Role} {r : Request} {words : List WordRef}

theorem protectionCheck_span (h : spanRefused r words = true) :
    protectionCheck count role r words = some ⟨.span, r.byteAddress⟩ := by
  simp [protectionCheck, h]

theorem protectionCheck_role (h : spanRefused r words = false) {i : Nat} {w : WordRef}
    (hw : words[i]? = some w) (hr : hasRight count r.kind role w = false)
    (before : ∀ j < i, ∀ v : WordRef, words[j]? = some v → hasRight count r.kind role v = true) :
    protectionCheck count role r words = some ⟨.role, BitVec.ofNat 32 (r.beatAddress i)⟩ := by
  have first : firstBreaking count r.kind role words = some i :=
    findIdx?_first hw (by simp [hr]) fun j hj v hv => by simp [before j hj v hv]
  simp [protectionCheck, h, first, detailAddress]

theorem firstBreaking_none (h : ∀ w ∈ words, hasRight count r.kind role w = true) :
    firstBreaking count r.kind role words = none :=
  List.findIdx?_eq_none_iff.mpr fun w hw => by simp [h w hw]

/-- A request whose every word the role may use is refused by its first OVERLAID word alone, and only as
a WRITE. -/
theorem protectionCheck_class (h : spanRefused r words = false)
    (hr : ∀ w ∈ words, hasRight count r.kind role w = true) :
    protectionCheck count role r words =
      match r.kind, firstOverlaid words with
      | .write, some i => some ⟨.wordClass, detailAddress r i⟩
      | _, _ => none := by
  simp only [protectionCheck, h, firstBreaking_none hr]
  rfl

theorem protectionCheck_read (h : spanRefused r words = false) (hk : r.kind = .read)
    (hr : ∀ w ∈ words, hasRight count r.kind role w = true) :
    protectionCheck count role r words = none := by
  rw [protectionCheck_class h hr, hk]

theorem protectionCheck_passed (h : spanRefused r words = false)
    (hr : ∀ w ∈ words, hasRight count r.kind role w = true)
    (hc : ∀ w ∈ words, w.wordClass ≠ .overlaid) : protectionCheck count role r words = none := by
  have none : firstOverlaid words = none :=
    List.findIdx?_eq_none_iff.mpr fun w hw => decide_eq_false (hc w hw)
  rw [protectionCheck_class h hr, none]
  cases r.kind <;> rfl

theorem protectionCheck_overlaid (h : spanRefused r words = false)
    (hr : ∀ w ∈ words, hasRight count r.kind role w = true) (hk : r.kind = .write) {i : Nat}
    {w : WordRef} (hw : words[i]? = some w) (hc : w.wordClass = .overlaid)
    (before : ∀ j < i, ∀ v : WordRef, words[j]? = some v → v.wordClass ≠ .overlaid) :
    protectionCheck count role r words =
      some ⟨.wordClass, BitVec.ofNat 32 (r.beatAddress i)⟩ := by
  have first : firstOverlaid words = some i :=
    findIdx?_first hw (decide_eq_true hc) fun j hj v hv => decide_eq_false (before j hj v hv)
  rw [protectionCheck_class h hr, hk, first]
  rfl

end

/-- Words that do not all lie in the window of the first: some word of a window, and a word outside that
window (R5). -/
theorem windows_differ_iff (w : WordRef) (rest : List WordRef) :
    (∃ x ∈ rest, x.window ≠ w.window) ↔
      ∃ a ∈ w :: rest, ∃ b ∈ w :: rest, a.window ≠ none ∧ b.window ≠ a.window := by
  constructor
  · rintro ⟨x, hx, hn⟩
    have first : w ∈ w :: rest := List.mem_cons_self
    have other : x ∈ w :: rest := List.mem_cons_of_mem w hx
    by_cases hw : w.window = none
    · exact ⟨x, other, w, first, fun e => hn (e.trans hw.symm), hn.symm⟩
    · exact ⟨w, first, x, other, hw, hn⟩
  · rintro ⟨a, ha, b, hb, -, hn⟩
    by_cases he : a.window = w.window
    · rcases List.mem_cons.mp hb with rfl | hb
      · exact absurd he.symm hn
      · exact ⟨b, hb, fun e => hn (e.trans he.symm)⟩
    · rcases List.mem_cons.mp ha with rfl | ha
      · exact absurd rfl he
      · exact ⟨a, ha, he⟩

theorem spanRefused_iff (r : Request) (words : List WordRef) :
    spanRefused r words = true ↔
      2 ^ 32 < 8 * (r.address.toNat + r.length) ∨
        ∃ w ∈ words, ∃ v ∈ words, w.window ≠ none ∧ v.window ≠ w.window := by
  have space : Config.spaceWords < r.address.toNat + r.length ↔
      2 ^ 32 < 8 * (r.address.toNat + r.length) := by
    unfold Config.spaceWords
    omega
  unfold spanRefused
  rw [Bool.or_eq_true, decide_eq_true_iff, space]
  cases words with
  | nil => simp
  | cons w rest =>
    rw [← windows_differ_iff]
    simp

/-- Settles O7, check by check. -/
theorem checksReportTheLowestWord : Obligations.ChecksReportTheLowestWord := by
  refine ⟨fun count role r words => ⟨protectionCheck_span,
      fun h i w hw hr => protectionCheck_role h hw hr, fun h hr => ⟨fun hk =>
        protectionCheck_read h hk hr, protectionCheck_passed h hr,
        fun i w hk hw hc => protectionCheck_overlaid h hr hk hw hc⟩⟩,
    spanRefused_iff, fun r => ⟨fun n h => ?_, fun beats h => ?_, rfl, fun _ => rfl⟩⟩
  · simp [Request.kind, Request.length, Request.beats, h]
  · simp [Request.kind, Request.length, Request.beats, h]

/-! ## The window map and decoding (R4, Table 1-2) -/

theorem Path.anchorBase_toNat (p : Path) : p.anchorBase.toNat = 65536 * p.anchor.toNat := by
  have := p.anchor.isLt
  simp [Path.anchorBase, Nat.shiftLeft_eq]
  omega

theorem WindowSpan.holds_iff (x : WindowSpan) (a : Nat) :
    x.holds a = true ↔ x.base ≤ a ∧ a < x.base + 8 * x.words :=
  decide_eq_true_iff

theorem Path.decode_getElem? (p : Path) (r : Request) {i : Nat} (hi : i < r.length) :
    (p.decode r)[i]? = some (p.decodeByte (8 * (r.address.toNat + i))) := by
  simp [Path.decode, hi, Request.beatAddress]

theorem Path.decodeByte_outside {p : Path} {a : Nat} (h : ∀ x ∈ p.windowMap, x.holds a = false) :
    p.decodeByte a = .plainMemory := by
  have none : (p.windowMap.find? fun x => x.holds a) = none :=
    List.find?_eq_none.mpr fun x hx => by simp [h x hx]
  simp [Path.decodeByte, none]

/-- At an address of one window alone, the word is that at its place in the window. -/
theorem Path.decodeByte_inside {p : Path} {x : WindowSpan} {a : Nat} (hx : x ∈ p.windowMap)
    (ha : x.holds a = true) (alone : ∀ y ∈ p.windowMap, y.holds a = true → y = x) :
    p.decodeByte a = wordAt x.id ((a - x.base) / 8) := by
  have found : (p.windowMap.find? fun x => x.holds a) = some x := by
    cases hf : p.windowMap.find? fun x => x.holds a with
    | none => exact absurd ha (List.find?_eq_none.mp hf x hx)
    | some y =>
      have held := List.find?_some (p := fun x : WindowSpan => x.holds a) hf
      rw [alone y (List.mem_of_find?_eq_some hf) held]
  simp [Path.decodeByte, found]

/-! The word at each place of a window (Table 1-2). -/

theorem wordAt_descriptor (w : Fin 32) : wordAt .descriptor w.val = .descriptor w := by
  simp [wordAt]

theorem wordAt_stage (k : Operator) (w : Fin 8) : wordAt .stage (8 * k.val + w.val) = .stage k w := by
  have entry : (8 * k.val + w.val) / 8 = k.val := by omega
  have place : (8 * k.val + w.val) % 8 = w.val := by omega
  simp only [wordAt, entry, place, k.isLt, dite_true]

theorem wordAt_carrier (n : SlotId) (w : Fin 4) :
    wordAt .carrier (4 * n.val + w.val) = .carrier n w := by
  have entry : (4 * n.val + w.val) / 4 = n.val := by omega
  have place : (4 * n.val + w.val) % 4 = w.val := by omega
  simp only [wordAt, entry, place, n.isLt, dite_true]

theorem wordAt_unit (n : UnitId) (w : Fin 8) : wordAt .unit (8 * n.val + w.val) = .unit n w := by
  have entry : (8 * n.val + w.val) / 8 = n.val := by omega
  have place : (8 * n.val + w.val) % 8 = w.val := by omega
  simp only [wordAt, entry, place, n.isLt, dite_true]

theorem wordAt_sector (n : SectorId) (w : Fin 16) :
    wordAt .sector (16 * n.val + w.val) = .sector n w := by
  have entry : (16 * n.val + w.val) / 16 = n.val := by omega
  have place : (16 * n.val + w.val) % 16 = w.val := by omega
  simp only [wordAt, entry, place, n.isLt, dite_true]

/-! ## Rights (R11, Table 1-4) -/

theorem Role.any_iff (r : Role) : r.any = true ↔ r ≠ .none := by
  cases r <;> simp [Role.any]

/-- Settles O8, table by table. -/
theorem windowsClassesAndRightsFollowTheTables :
    Obligations.WindowsClassesAndRightsFollowTheTables := by
  refine ⟨fun p => ⟨?map, WindowSpan.holds_iff, fun r => ⟨by simp [Path.decode],
      fun i => p.decode_getElem? r⟩, fun a => Path.decodeByte_outside,
      fun x a hx ha alone => ?decoding⟩, ?classes, ?windows, fun count role => ?rights⟩
  case map =>
    unfold Path.windowMap
    rw [p.anchorBase_toNat]
    cases p.windows <;> rfl
  case decoding =>
    have place : ∀ i, a = x.base + 8 * i → p.decodeByte a = wordAt x.id i := fun i hi => by
      rw [Path.decodeByte_inside hx ha alone, show (a - x.base) / 8 = i by omega]
    refine ⟨fun w hid h => ?_, fun k w hid h => ?_, fun n w hid h => ?_, fun n w hid h => ?_,
      fun n w hid h => ?_, fun hid => ?_⟩
    · rw [place w.val h, hid, wordAt_descriptor]
    · rw [place (8 * k.val + w.val) (by omega), hid, wordAt_stage]
    · rw [place (4 * n.val + w.val) (by omega), hid, wordAt_carrier]
    · rw [place (8 * n.val + w.val) (by omega), hid, wordAt_unit]
    · rw [place (16 * n.val + w.val) (by omega), hid, wordAt_sector]
    · rw [Path.decodeByte_inside hx ha alone, hid]
      rfl
  case classes =>
    refine ⟨fun w => ?_, fun _ _ => rfl, fun _ _ => rfl, fun _ _ => rfl, fun _ _ => rfl, rfl, rfl⟩
    simp only [WordRef.wordClass, descriptorClass, List.mem_cons, List.not_mem_nil, or_false]
  case windows =>
    exact ⟨fun _ => rfl, fun _ _ => rfl, fun _ _ => rfl, fun _ _ => rfl, fun _ _ => rfl, rfl, rfl⟩
  case rights =>
    refine ⟨fun w => ?_, fun w => ?_, fun k w => ?_, fun k w => ?_, fun n w => ?_, fun n w => ?_,
      fun n w => ?_, fun n w => ?_, fun n w => ?_, fun n w => ?_, ?_, ?_, fun kind => ?_⟩ <;>
      simp [hasRight, stageRight, Role.any_iff, or_assoc]

/-! ## The state check (R14, Table 1-5) -/

theorem modeRefusesWrites_iff (m : Mode) (words : List WordRef) :
    modeRefusesWrites m words = true ↔
      (m = .starting ∧ (∃ w ∈ words, w.window ≠ none) ∧ words ≠ [.descriptor 0]) ∨
        (m = .stopping ∧ ∃ w ∈ words, w.window ≠ none) := by
  have interpreted : words.any WordRef.interpreted = true ↔ ∃ w ∈ words, w.window ≠ none := by
    simp [WordRef.interpreted, Option.isSome_iff_ne_none]
  cases m <;> simp [modeRefusesWrites, ← interpreted]

/-- A test of the words with their beats, place by place. -/
theorem zip_any_iff {α β : Type} {q : α → β → Bool} (l : List α) (m : List β) :
    ((l.zip m).any fun x => q x.1 x.2) = true ↔
      ∃ (i : Nat) (a : α) (b : β), l[i]? = some a ∧ m[i]? = some b ∧ q a b = true := by
  rw [List.any_eq_true]
  constructor
  · rintro ⟨⟨a, b⟩, hx, hq⟩
    obtain ⟨i, hi⟩ := List.mem_iff_getElem?.mp hx
    obtain ⟨ha, hb⟩ := List.getElem?_zip_eq_some.mp hi
    exact ⟨i, a, b, ha, hb, hq⟩
  · rintro ⟨i, a, b, ha, hb, hq⟩
    exact ⟨(a, b), List.mem_of_getElem? (List.getElem?_zip_eq_some.mpr ⟨ha, hb⟩), hq⟩

variable {s : State} {b : Beat}

theorem stateRefused_read {r : Request} (h : r.kind = .read) (words : List WordRef) :
    stateRefused s r words = false := by
  simp [stateRefused, h]

theorem stateRefused_write_iff {r : Request} (h : r.kind = .write) (words : List WordRef) :
    stateRefused s r words = true ↔
      (s.site.mode = .starting ∧ (∃ w ∈ words, w.window ≠ none) ∧ words ≠ [.descriptor 0]) ∨
        (s.site.mode = .stopping ∧ ∃ w ∈ words, w.window ≠ none) ∨
          ∃ (i : Nat) (w : WordRef) (b : Beat), words[i]? = some w ∧ r.beats[i]? = some b ∧
            ownerRefuses s w b = true := by
  unfold stateRefused
  rw [h]
  simp only [Bool.or_eq_true]
  rw [modeRefusesWrites_iff, zip_any_iff, or_assoc]

/-! ## The refusals of the owning blocks (R14, R24, R26, R40, R41, R44, R51, R124, R157) -/

theorem lacksEnables_iff (b : Beat) : lacksEnables b = true ↔ b.enables ≠ 0xFF#8 := by
  simp [lacksEnables, allEnables]

theorem modeRefused_iff (m : Mode) (b : Beat) :
    modeRefused m b = true ↔ field b.data 0 2 = 0 ∨ field b.data 0 2 = 3 ∨
      (field b.data 0 2 = 1 ∧ m = .stopping) ∨ (field b.data 0 2 = 2 ∧ m ≠ .config) := by
  have small : field b.data 0 2 < 4 := Nat.mod_lt _ (by decide)
  unfold modeRefused ModeRequest.ofCode
  generalize field b.data 0 2 = v at small
  interval_cases v <;> simp [ModeRequest.accepted]

theorem refuses_w0_iff :
    ownerRefuses s (.descriptor 0) b = true ↔ b.enables ≠ 0xFF#8 ∨ field b.data 0 2 = 0 ∨
      field b.data 0 2 = 3 ∨ (field b.data 0 2 = 1 ∧ s.site.mode = .stopping) ∨
      (field b.data 0 2 = 2 ∧ s.site.mode ≠ .config) := by
  rw [← lacksEnables_iff, ← modeRefused_iff, ← Bool.or_eq_true]
  rfl

theorem refuses_w1_iff :
    ownerRefuses s (.descriptor 1) b = true ↔ b.enables ≠ 0xFF#8 ∨
      s.faults.ringSize ≤ field b.data 0 16 ∨
      (s.faults.producer + s.faults.ringSize - s.faults.consumer) % s.faults.ringSize <
        (field b.data 0 16 + s.faults.ringSize - s.faults.consumer) % s.faults.ringSize := by
  have word : ownerRefuses s (.descriptor 1) b =
      (lacksEnables b || !s.faults.accepts (field b.data 0 16)) := rfl
  rw [word, Bool.or_eq_true, lacksEnables_iff, Bool.not_eq_true', ← Bool.not_eq_true,
    Faults.accepts_iff, not_and_or, not_lt, not_le]

theorem refuses_w3_iff : ownerRefuses s (.descriptor 3) b = true ↔ b.enables ≠ 0xFF#8 :=
  lacksEnables_iff b

/-- Frame words are fixed outside CONFIG (R25). -/
theorem refuses_frame_iff {w : Fin 32} (h1 : 5 ≤ w.val) (h2 : w.val ≤ 16) :
    ownerRefuses s (.descriptor w) b = true ↔ s.site.mode ≠ .config := by
  have word : ownerRefuses s (.descriptor w) b = (s.site.mode != .config) := by
    simp only [ownerRefuses, descriptorRefused]
    rw [if_neg (by omega), if_neg (by omega), if_neg (by omega), if_pos ⟨h1, h2⟩]
  rw [word, bne_iff_ne]

/-- A live word is refused where it is out of range once merged (R26). -/
theorem refuses_live {w : Fin 32} {i : Fin 5} {j : Fin 17} (hw : w.val = 17 + i.val)
    (hj : j.val = 12 + i.val) :
    ownerRefuses s (.descriptor w) b =
      !liveOk i (mergeBytes (s.site.copy.get j) b.data b.enables) := by
  have place : w.val - 17 = i.val := by omega
  have copy : livePlace i = j := Fin.ext hj.symm
  simp only [ownerRefuses, descriptorRefused]
  rw [if_neg (by omega), if_neg (by omega), if_neg (by omega), if_neg (by omega),
    dif_pos (by omega)]
  simp only [place, ← copy]

theorem refuses_descriptor_rest {w : Fin 32} (h : w.val ∈ [2, 4] ∨ 22 ≤ w.val) :
    ownerRefuses s (.descriptor w) b = false := by
  simp only [List.mem_cons, List.not_mem_nil, or_false] at h
  simp only [ownerRefuses, descriptorRefused]
  rw [if_neg (by omega), if_neg (by omega), if_neg (by omega), if_neg (by omega),
    dif_neg (by omega)]

theorem Post.modeAfter_eq_three (p : Post) (b : Beat) :
    p.modeAfter b = 3 ↔ b.enables.getLsbD 0 = true ∧ field b.data 0 2 = 3 := by
  unfold Post.modeAfter
  split
  · next h => simp only [h, true_and]
  · next h => exact ⟨fun same => absurd same p.mode.code_ne_three, fun both => absurd both.1 h⟩

theorem Stage.refusesPost_iff (g : Stage) (b : Beat) :
    g.refusesPost b = true ↔
      g.pending = true ∨ (b.enables.getLsbD 0 = true ∧ field b.data 0 2 = 3) := by
  rw [← Post.modeAfter_eq_three g.front b]
  simp [Stage.refusesPost]

theorem refuses_stage (k : Operator) (w : Fin 8) :
    (w.val ≤ 1 → ownerRefuses s (.stage k w) b = (s.stage k).pending) ∧
    (w.val = 2 → (ownerRefuses s (.stage k w) b = true ↔
      (s.stage k).pending = true ∨ (b.enables.getLsbD 0 = true ∧ field b.data 0 2 = 3))) ∧
    (w.val = 3 ∨ w.val = 4 → (ownerRefuses s (.stage k w) b = true ↔ b.enables ≠ 0xFF#8)) ∧
    (5 ≤ w.val → ownerRefuses s (.stage k w) b = false) := by
  simp only [ownerRefuses, stageRefused]
  refine ⟨fun h => ?_, fun h => ?_, fun h => ?_, fun h => ?_⟩
  · rw [if_pos h]
  · rw [if_neg (by omega), if_pos h, Stage.refusesPost_iff]
  · rw [if_neg (by omega), if_neg (by omega), if_pos (by omega), lacksEnables_iff]
  · rw [if_neg (by omega), if_neg (by omega), if_neg (by omega)]

theorem refuses_unit_iff (n : UnitId) (w : Fin 8) :
    ownerRefuses s (.unit n w) b = true ↔
      w.val = 4 ∧ (b.enables ≠ 0xFF#8 ∨ field b.data 8 2 = 3) := by
  simp only [ownerRefuses, Bool.and_eq_true, Bool.or_eq_true, beq_iff_eq, lacksEnables_iff]

theorem refuses_sector (n : SectorId) (w : Fin 16) :
    (w.val ≤ 1 → (ownerRefuses s (.sector n w) b = true ↔
      s.site.mode = .serving ∨ s.site.mode = .hold)) ∧
    (w.val = 2 → (ownerRefuses s (.sector n w) b = true ↔ b.enables ≠ 0xFF#8)) ∧
    (3 ≤ w.val → ownerRefuses s (.sector n w) b = false) := by
  simp only [ownerRefuses, sectorRefused]
  refine ⟨fun h => ?_, fun h => ?_, fun h => ?_⟩
  · rw [if_pos h, Mode.inService_iff]
  · rw [if_neg (by omega), if_pos h, lacksEnables_iff]
  · rw [if_neg (by omega), if_neg (by omega)]

/-- Settles O26, word by word of Table 1-5. -/
theorem stateRefusalsFollowTheTable : Obligations.StateRefusalsFollowTheTable :=
  ⟨fun _ _ words => ⟨fun h => stateRefused_read h words, fun h _ => stateRefused_write_iff h words⟩,
    fun _ _ => ⟨refuses_w0_iff, refuses_w1_iff, refuses_w3_iff, fun _ => refuses_frame_iff,
      fun _ _ _ => refuses_live, fun _ => refuses_descriptor_rest, refuses_stage, refuses_unit_iff,
      refuses_sector, fun _ _ => rfl, rfl, rfl⟩⟩

end Sys2Proof.Machine
end

section
/-! The OKAY answer to a forwarded WRITE: what is merged, and what is then delivered (O11). -/
namespace Sys2Proof.Machine

open Sys2Proof

variable {s t u : State}

/-! ## Words that a WRITE does not merge -/

/-- A word that is no CAPTURED word merges nothing (R7). -/
theorem mergeWord_of_not_captured {w : WordRef} (h : w.wordClass ≠ .captured) (b : Beat) (s : State) :
    mergeWord w b s = s := by
  cases w with
  | plainMemory | ring | carrier n w | unit n w => rfl
  | descriptor w =>
    have h' : ¬ (5 ≤ w.val ∧ w.val ≤ 21) := by
      intro e
      refine h ?_
      simp only [WordRef.wordClass, descriptorClass]
      rw [if_neg (by omega), if_neg (by omega), if_pos e.2]
    simp only [mergeWord, mergeDescriptor]
    rw [if_neg (by omega), if_neg (by omega), if_neg (by omega)]
  | stage k w =>
    have h' : ¬ w.val ≤ 1 := fun e => h (by simp [WordRef.wordClass, stageClass, e])
    simp [mergeWord, h']
  | sector n w =>
    have h' : ¬ w.val ≤ 1 := fun e => h (by simp [WordRef.wordClass, sectorClass, e])
    simp [mergeWord, h']

/-- Merging every word in order is merging its CAPTURED words (R16). -/
theorem mergeAll_eq_foldl (words : List WordRef) (beats : List Beat) (s : State) :
    mergeAll words beats s = (words.zip beats).foldl (fun u p => mergeWord p.1 p.2 u) s := by
  unfold mergeAll wordsOf
  generalize words.zip beats = l
  induction l generalizing s with
  | nil => rfl
  | cons p l ih =>
    rw [List.filter_cons, List.foldl_cons]
    split
    · rw [List.foldl_cons, ih]
    · next h =>
      rw [ih, mergeWord_of_not_captured]
      simpa using h

/-- Without an ACTION word nothing is delivered (R8). -/
theorem deliverAll_of_not_action {words : List WordRef} (h : ∀ w ∈ words, w.wordClass ≠ .action)
    (beats : List Beat) (s : State) : deliverAll words beats s = s := by
  have none : wordsOf .action words beats = [] := by
    refine List.filter_eq_nil_iff.mpr fun p hp => ?_
    simpa using h p.1 (List.of_mem_zip hp).1
  rw [deliverAll, none, List.foldl_nil]

/-- An OKAY answer merges and then delivers, unless the mode was changed outside service (R16, R17). -/
theorem exec_writeOkay {pre post : List Entry} {e : Entry} {g : Granted} {rest : List Granted}
    {x : Taken} (hg : s.path.granted = g :: rest) (ho : g.own = false)
    (hk : g.access.kind = .write) (h : s.path.FirstIn .atMemory pre e post)
    (hx : e.taken = some x) (hd : delivers s.site.mode x.mode = true) :
    exec (.memoryWriteResponse .okay) s =
      .next (deliverAll x.words e.request.beats (mergeAll x.words e.request.beats
        (s.setPath { s.path with
          entries := pre ++ { e with stage := .ready, response := some .okay, data := [] } :: post
          granted := rest }))) := by
  rw [exec_memoryWriteResponse hg ho hk h]
  refine congrArg Host.Outcome.next ?_
  simp only [writeAnswered, writeOkay, hx, Path.settleAnswer_eq hg]
  exact if_pos hd

theorem delivers_inService {m r : Mode} (h : m.inService = true) : delivers m r = true := by
  simp [delivers, h]

/-! ## A fold of merges, seen at one place

`P` is what every merge keeps; `v` is the place. -/

section

variable {α : Type} {P : State → Prop} {v : State → α} {l : List (WordRef × Beat)}

/-- The words of `l` merged in order. -/
def mergeList (l : List (WordRef × Beat)) (s : State) : State :=
  l.foldl (fun u p => mergeWord p.1 p.2 u) s

theorem mergeList_append (l m : List (WordRef × Beat)) (s : State) :
    mergeList (l ++ m) s = mergeList m (mergeList l s) := List.foldl_append

theorem mergeList_cons (w : WordRef) (b : Beat) (l : List (WordRef × Beat)) (s : State) :
    mergeList ((w, b) :: l) s = mergeList l (mergeWord w b s) := rfl

theorem mergeList_keeps (h : ∀ p ∈ l, ∀ u, P u → P (mergeWord p.1 p.2 u)) (hs : P s) :
    P (mergeList l s) := by
  induction l generalizing s with
  | nil => exact hs
  | cons p l ih =>
    exact ih (fun q hq => h q (List.mem_cons_of_mem _ hq)) (h p List.mem_cons_self s hs)

/-- What no merge of the list changes stays. -/
theorem mergeList_same (keep : ∀ p ∈ l, ∀ u, P u → P (mergeWord p.1 p.2 u))
    (other : ∀ p ∈ l, ∀ u, P u → v (mergeWord p.1 p.2 u) = v u) (hs : P s) :
    v (mergeList l s) = v s :=
  (mergeList_keeps (P := fun u => P u ∧ v u = v s)
    (fun p hp u hu => ⟨keep p hp u hu.1, (other p hp u hu.1).trans hu.2⟩) ⟨hs, rfl⟩).2

/-- A word written once, with the words before and after it. -/
theorem split_at_word {words : List WordRef} {beats : List Beat} {j : Nat} {w : WordRef} {b : Beat}
    (once : words.Nodup) (hw : words[j]? = some w) (hb : beats[j]? = some b) :
    ∃ l m, words.zip beats = l ++ (w, b) :: m ∧ ∀ p ∈ l ++ m, p.1 ∈ words ∧ p.1 ≠ w := by
  induction words generalizing beats j with
  | nil => cases hw
  | cons a words ih =>
    obtain ⟨fresh, once⟩ := List.nodup_cons.mp once
    cases beats with
    | nil => cases hb
    | cons c beats =>
      cases j with
      | zero =>
        obtain rfl : a = w := by simpa using hw
        obtain rfl : c = b := by simpa using hb
        refine ⟨[], words.zip beats, rfl, fun p hp => ?_⟩
        have mem : p.1 ∈ words := (List.of_mem_zip hp).1
        exact ⟨List.mem_cons_of_mem _ mem, fun e => fresh (e ▸ mem)⟩
      | succ j =>
        have hw' : words[j]? = some w := by simpa using hw
        obtain ⟨l, m, hz, apart⟩ := ih once hw' (by simpa using hb)
        refine ⟨(a, c) :: l, m, by rw [List.zip_cons_cons, hz]; rfl, fun p hp => ?_⟩
        rcases List.mem_cons.mp hp with rfl | hp
        · refine ⟨List.mem_cons_self, fun same => fresh ?_⟩
          obtain rfl : a = w := same
          exact List.mem_of_getElem? hw'
        · exact ⟨List.mem_cons_of_mem _ (apart p hp).1, (apart p hp).2⟩

end

section

variable {P : State → Prop} {v : State → Word} {words : List WordRef} {w : WordRef}

/-- A place that only the word `w` is merged into: it is merged under the beat of `w`, or left. -/
theorem mergeList_at (keep : ∀ x ∈ words, ∀ b u, P u → P (mergeWord x b u))
    (other : ∀ x ∈ words, x ≠ w → ∀ b u, P u → v (mergeWord x b u) = v u)
    (same : ∀ b u, P u → v (mergeWord w b u) = mergeBytes (v u) b.data b.enables) (hs : P s)
    (beats : List Beat) :
    (w ∉ words → v (mergeList (words.zip beats) s) = v s) ∧
      (words.Nodup → ∀ (j : Nat) (b : Beat), words[j]? = some w → beats[j]? = some b →
        v (mergeList (words.zip beats) s) = mergeBytes (v s) b.data b.enables) := by
  refine ⟨fun hw => ?_, fun once j b hw hb => ?_⟩
  · refine mergeList_same (P := P) (fun p hp => keep _ (List.of_mem_zip hp).1 _)
      (fun p hp => ?_) hs
    have mem := (List.of_mem_zip hp).1
    exact other _ mem (fun e => hw (e ▸ mem)) _
  · obtain ⟨l, m, hz, apart⟩ := split_at_word once hw hb
    have before : ∀ p ∈ l, p.1 ∈ words ∧ p.1 ≠ w := fun p hp => apart p (List.mem_append_left m hp)
    have after : ∀ p ∈ m, p.1 ∈ words ∧ p.1 ≠ w := fun p hp => apart p (List.mem_append_right l hp)
    have hl : P (mergeList l s) := mergeList_keeps (fun p hp => keep _ (before p hp).1 _) hs
    rw [hz, mergeList_append, mergeList_cons,
      mergeList_same (P := P) (fun p hp => keep _ (after p hp).1 _)
        (fun p hp => other _ (after p hp).1 (after p hp).2 _)
        (keep _ (List.mem_of_getElem? hw) _ _ hl),
      same _ _ hl,
      mergeList_same (P := P) (fun p hp => keep _ (before p hp).1 _)
        (fun p hp => other _ (before p hp).1 (before p hp).2 _) hs]

end

/-! ## The words of one stage (R40 to R44) -/

theorem mergeWord_stage (j : Operator) {i : Fin 8} (h : i.val ≤ 1) (b : Beat) (s : State) :
    mergeWord (.stage j i) b s = s.setStage j ((s.stage j).mergeFront (i.val == 1) b) := by
  simp [mergeWord, h]

theorem mergeWord_stage_rest (j : Operator) {i : Fin 8} (h : ¬ i.val ≤ 1) (b : Beat) (s : State) :
    mergeWord (.stage j i) b s = s := by
  simp [mergeWord, h]

theorem Stage.mergeFront_pending {g : Stage} (h : g.pending = true) (search : Bool) (b : Beat) :
    g.mergeFront search b = g := by
  simp [Stage.mergeFront, h]

theorem Stage.deliverPost_pending {g : Stage} (h : g.pending = true) (b : Beat) :
    g.deliverPost b = g := by
  simp [Stage.deliverPost, h]

theorem Stage.mergeFront_tuning {g : Stage} (h : g.pending = false) (b : Beat) :
    g.mergeFront false b =
      { g with front := { g.front with tuning := mergeBytes g.front.tuning b.data b.enables } } := by
  simp [Stage.mergeFront, h]

theorem Stage.mergeFront_search {g : Stage} (h : g.pending = false) (b : Beat) :
    g.mergeFront true b =
      { g with front := { g.front with search := mergeBytes g.front.search b.data b.enables } } := by
  simp [Stage.mergeFront, h]

/-- A stage after the write of s0, s1 and s2, of those that are written. -/
def Stage.written (b0 b1 b2 : Option Beat) (g : Stage) : Stage :=
  let g0 := b0.elim g fun b => g.mergeFront false b
  let g1 := b1.elim g0 fun b => g0.mergeFront true b
  b2.elim g1 fun b => g1.deliverPost b

/-- The front half after it, where no post is pending. -/
def Post.written (b0 b1 b2 : Option Beat) (p : Post) : Post :=
  let q : Post := { p with
    tuning := b0.elim p.tuning fun b => mergeBytes p.tuning b.data b.enables
    search := b1.elim p.search fun b => mergeBytes p.search b.data b.enables }
  b2.elim q fun b => q.store b

theorem Stage.written_pending {g : Stage} (h : g.pending = true) (b0 b1 b2 : Option Beat) :
    g.written b0 b1 b2 = g := by
  cases b0 <;> cases b1 <;> cases b2 <;>
    simp [Stage.written, Stage.mergeFront_pending h, Stage.deliverPost_pending h]

/-- Without a pending post the words are merged and stored, and a full post acts (R41 to R43). -/
theorem Stage.written_free {g : Stage} (h : g.pending = false) (b0 b1 b2 : Option Beat) :
    g.written b0 b1 b2 =
      if ∀ b ∈ b2, b.enables ≠ 0xFF#8 then { g with front := g.front.written b0 b1 b2 }
      else if g.back = none then
        { g with front := g.front.written b0 b1 b2, back := some (g.front.written b0 b1 b2) }
      else { g with front := g.front.written b0 b1 b2, pending := true } := by
  have merged : (b1.elim (b0.elim g fun b => g.mergeFront false b) fun b =>
      (b0.elim g fun b => g.mergeFront false b).mergeFront true b) =
      { g with front := g.front.written b0 b1 none } := by
    cases b0 <;> cases b1 <;> simp [Post.written, Stage.mergeFront, h]
    rw [← h]
  unfold Stage.written
  simp only [merged]
  cases b2 with
  | none => simp
  | some b =>
    simp only [Option.elim_some, Stage.deliverPost, h, Bool.false_eq_true, if_false,
      Option.mem_def, Option.some.injEq, forall_eq', allEnables]
    by_cases full : b.enables = 0xFF#8
    · simp only [full, if_true, ne_eq, not_true, if_false, Stage.post]
      cases g.back <;> simp [Post.written]
    · simp [full, Post.written]

theorem Post.written_tuning (b0 b1 b2 : Option Beat) (p : Post) :
    (p.written b0 b1 b2).tuning = b0.elim p.tuning fun b => mergeBytes p.tuning b.data b.enables := by
  cases b2 <;> rfl

theorem Post.written_search (b0 b1 b2 : Option Beat) (p : Post) :
    (p.written b0 b1 b2).search = b1.elim p.search fun b => mergeBytes p.search b.data b.enables := by
  cases b2 <;> rfl

theorem PostMode.ofCode_code (m : PostMode) : PostMode.ofCode m.code = some m := by
  cases m <;> rfl

theorem PostMode.ofCode_field {d : Word} (h : field d 0 2 ≠ 3) :
    ∃ m, PostMode.ofCode (field d 0 2) = some m := by
  have small : field d 0 2 < 4 := Nat.mod_lt _ (by decide)
  generalize field d 0 2 = v at h small
  interval_cases v
  · exact ⟨.tune, rfl⟩
  · exact ⟨.search, rfl⟩
  · exact ⟨.release, rfl⟩
  · exact absurd rfl h

theorem Post.store_mode_enabled (p : Post) {b : Beat} (he : b.enables.getLsbD 0 = true)
    (h : field b.data 0 2 ≠ 3) : PostMode.ofCode (field b.data 0 2) = some (p.store b).mode := by
  obtain ⟨m, hm⟩ := PostMode.ofCode_field h
  simp [Post.store, Post.modeAfter, he, hm]

theorem Post.store_mode_kept (p : Post) {b : Beat} (he : b.enables.getLsbD 0 = false) :
    (p.store b).mode = p.mode := by
  simp only [Post.store, Post.modeAfter, he, Bool.false_eq_true, if_false, PostMode.ofCode_code,
    Option.getD_some]

theorem Post.store_slot (p : Post) (b : Beat) :
    (p.store b).slot = if b.enables.getLsbD 1 then BitVec.ofNat 8 (field b.data 8 8) else p.slot :=
  rfl

/-- The mode and the slot that a write of s2 leaves, by its first two enables (R41). -/
theorem Post.written_stored (b0 b1 b2 : Option Beat) (p : Post)
    (h : ∀ b ∈ b2, b.enables.getLsbD 0 = true → field b.data 0 2 ≠ 3) :
    (∀ b ∈ b2, b.enables.getLsbD 0 = true →
        PostMode.ofCode (field b.data 0 2) = some (p.written b0 b1 b2).mode) ∧
      ((∀ b ∈ b2, b.enables.getLsbD 0 = false) → (p.written b0 b1 b2).mode = p.mode) ∧
      (∀ b ∈ b2, b.enables.getLsbD 1 = true →
        (p.written b0 b1 b2).slot = BitVec.ofNat 8 (field b.data 8 8)) ∧
      ((∀ b ∈ b2, b.enables.getLsbD 1 = false) → (p.written b0 b1 b2).slot = p.slot) := by
  cases b2 with
  | none => exact ⟨nofun, fun _ => rfl, nofun, fun _ => rfl⟩
  | some b =>
    simp only [Option.mem_def, Option.some.injEq, forall_eq'] at h ⊢
    refine ⟨fun he => Post.store_mode_enabled _ he (h he), Post.store_mode_kept _,
      fun he => ?_, fun he => ?_⟩
    · simp only [Post.written, Option.elim_some, Post.store_slot, he, if_true]
    · simp only [Post.written, Option.elim_some, Post.store_slot, he, Bool.false_eq_true, if_false]

/-- The words of a list with the list. -/
theorem zip_map_self {α β : Type} (f : α → β) (l : List α) :
    (l.map f).zip l = l.map fun a => (f a, a) := by
  induction l with
  | nil => rfl
  | cons a l ih => rw [List.map_cons, List.zip_cons_cons, ih, List.map_cons]

/-- The words s0, s1 and s2 that are written, with their beats. -/
theorem zip_stage_words (k : Operator) (b0 b1 b2 : Option Beat) :
    (b0.toList.map (fun _ => WordRef.stage k 0) ++ b1.toList.map (fun _ => WordRef.stage k 1) ++
        b2.toList.map (fun _ => WordRef.stage k 2)).zip (b0.toList ++ b1.toList ++ b2.toList) =
      b0.toList.map (fun b => (.stage k 0, b)) ++ b1.toList.map (fun b => (.stage k 1, b)) ++
        b2.toList.map (fun b => (.stage k 2, b)) := by
  rw [List.zip_append (by simp), List.zip_append (by simp), zip_map_self, zip_map_self, zip_map_self]

/-- Words that may be written or not, one by one. -/
theorem foldl_option {f : State → WordRef × Beat → State} {w : WordRef} (o : Option Beat) (s : State) :
    (o.toList.map fun b => (w, b)).foldl f s = o.elim s fun b => f s (w, b) := by
  cases o <;> rfl

theorem State.setStage_setStage (s : State) (k : Operator) (g h : Stage) :
    (s.setStage k g).setStage k h = s.setStage k h := by
  simp [State.setStage]

/-- A step that changes one stage alone, on a state where that stage was put. -/
theorem elim_setStage {f : Stage → Beat → Stage} {step : State → Beat → State} {k : Operator}
    (h : ∀ u b, step u b = u.setStage k (f (u.stage k) b)) (o : Option Beat) (s : State) (g : Stage) :
    (o.elim (s.setStage k g) fun b => step (s.setStage k g) b) =
      s.setStage k (o.elim g fun b => f g b) := by
  cases o with
  | none => rfl
  | some b => simp [h, State.setStage_setStage]

/-- The write of s0, s1 and s2 changes the stage alone. -/
theorem writeAll_stage (k : Operator) (b0 b1 b2 : Option Beat) {words : List WordRef}
    {beats : List Beat} (hw : words = b0.toList.map (fun _ => .stage k 0) ++
      b1.toList.map (fun _ => .stage k 1) ++ b2.toList.map (fun _ => .stage k 2))
    (hb : beats = b0.toList ++ b1.toList ++ b2.toList) (s : State) :
    deliverAll words beats (mergeAll words beats s) =
      s.setStage k ((s.stage k).written b0 b1 b2) := by
  have idle0 (b : Beat) (u : State) : deliverWord (.stage k 0) b u = u :=
    deliverWord_of_not_action (by simp [WordRef.wordClass, stageClass]) b u
  have idle1 (b : Beat) (u : State) : deliverWord (.stage k 1) b u = u :=
    deliverWord_of_not_action (by simp [WordRef.wordClass, stageClass]) b u
  have merges : mergeAll words beats s = s.setStage k
      (b1.elim (b0.elim (s.stage k) fun b => (s.stage k).mergeFront false b) fun b =>
        (b0.elim (s.stage k) fun b => (s.stage k).mergeFront false b).mergeFront true b) := by
    rw [mergeAll_eq_foldl, hw, hb, zip_stage_words]
    simp only [List.foldl_append, foldl_option]
    have idle2 (b : Beat) (u : State) : mergeWord (.stage k 2) b u = u :=
      mergeWord_stage_rest k (by decide) b u
    have none2 (u : State) : (b2.elim u fun b => mergeWord (.stage k 2) b u) = u := by
      cases b2 <;> simp [idle2]
    rw [none2]
    have first := elim_setStage (f := fun g b => g.mergeFront false b)
      (fun u b => mergeWord_stage k (i := 0) (by decide) b u) b0 s (s.stage k)
    rw [s.setStage_self k] at first
    rw [first]
    exact elim_setStage (f := fun g b => g.mergeFront true b)
      (fun u b => mergeWord_stage k (i := 1) (by decide) b u) b1 s _
  have posts (u : State) : deliverAll words beats u =
      b2.elim u fun b => deliverWord (.stage k 2) b u := by
    rw [deliverAll_eq_foldl, hw, hb, zip_stage_words]
    simp only [List.foldl_append, foldl_option]
    have none (o : Option Beat) (u : State) : (o.elim u fun _ => u) = u := by cases o <;> rfl
    simp only [idle0, idle1, none]
  rw [merges, posts]
  exact elim_setStage (f := fun g b => g.deliverPost b) (fun u b => deliverWord_s2 k b u) b2 s _

/-! ## The words of stages (R16, R40) -/

/-- A stage word is merged into the front half of its own stage. -/
theorem stage_mergeWord (j k : Operator) (i : Fin 8) (b : Beat) (s : State) :
    (mergeWord (.stage j i) b s).stage k =
      if j = k ∧ i.val ≤ 1 then (s.stage k).mergeFront (i.val == 1) b else s.stage k := by
  by_cases hi : i.val ≤ 1
  · rw [mergeWord_stage j hi, s.stage_setStage]
    by_cases hj : j = k
    · simp [hj, hi]
    · rw [if_neg (Ne.symm hj), if_neg fun both => hj both.1]
  · rw [mergeWord_stage_rest j hi, if_neg fun both => hi both.2]

/-- `h` is the stage `g` but for s0 and s1 of its front half. -/
def Stage.Merged (g h : Stage) : Prop :=
  h = { g with front := { g.front with tuning := h.front.tuning, search := h.front.search } }

namespace Stage.Merged

variable {g h : Stage}

theorem pending_eq (m : g.Merged h) : h.pending = g.pending := by
  rw [m]

theorem mergeFront (m : g.Merged h) (search : Bool) (b : Beat) : g.Merged (h.mergeFront search b) := by
  unfold Stage.mergeFront
  split
  · exact m
  · unfold Stage.Merged at m ⊢
    split <;> rw [m]

end Stage.Merged

/-- What a merge of stage words keeps, seen at the stage `k`. -/
structure StageMerged (k : Operator) (s u : State) : Prop where
  kept : (s.stage k).pending = true → u.stage k = s.stage k
  merged : (s.stage k).Merged (u.stage k)

theorem StageMerged.mergeWord {k : Operator} (h : StageMerged k s u) (j : Operator) (i : Fin 8)
    (b : Beat) : StageMerged k s (mergeWord (.stage j i) b u) := by
  constructor
  · intro hp
    have hu := h.kept hp
    rw [stage_mergeWord, hu, Stage.mergeFront_pending hp, ite_self]
  · rw [stage_mergeWord]
    split
    · exact h.merged.mergeFront _ b
    · exact h.merged

theorem StageMerged.refl (k : Operator) (s : State) : StageMerged k s s := ⟨fun _ => rfl, rfl⟩

theorem StageMerged.merges {k : Operator} {words : List WordRef}
    (hw : ∀ w ∈ words, ∃ k i, w = .stage k i) (h : StageMerged k s u) :
    ∀ w ∈ words, ∀ b, StageMerged k s (Machine.mergeWord w b u) := by
  intro w hwm b
  obtain ⟨j, i, rfl⟩ := hw w hwm
  exact h.mergeWord j i b

/-- s0 or s1 of a stage's front half. -/
def Stage.frontWord (search : Bool) (g : Stage) : Word :=
  if search then g.front.search else g.front.tuning

/-- The place of that word in the stage's window. -/
def frontPlace (search : Bool) : Fin 8 := if search then 1 else 0

theorem frontPlace_val (search : Bool) : (frontPlace search).val ≤ 1 ∧
    ((frontPlace search).val == 1) = search := by
  cases search <;> decide

theorem eq_frontPlace {i : Fin 8} (h : i.val ≤ 1) : frontPlace (i.val == 1) = i := by
  obtain rfl | rfl : i = 0 ∨ i = 1 := by omega
  · rfl
  · rfl

/-- A merge into one of the two words leaves the other. -/
theorem Stage.frontWord_mergeFront {g : Stage} (h : g.pending = false) (x y : Bool) (b : Beat) :
    (g.mergeFront y b).frontWord x =
      if y = x then mergeBytes (g.frontWord x) b.data b.enables else g.frontWord x := by
  cases y with
  | false =>
    rw [Stage.mergeFront_tuning h]
    cases x <;> rfl
  | true =>
    rw [Stage.mergeFront_search h]
    cases x <;> rfl

/-- s0 and s1 of a stage with no pending post are merged under the beats of their words, or left. -/
theorem stageWord_at {words : List WordRef} (hw : ∀ w ∈ words, ∃ k i, w = .stage k i)
    (once : words.Nodup) (beats : List Beat) {k : Operator} (free : (s.stage k).pending = false)
    (x : Bool) :
    (∀ (j : Nat) (b : Beat), words[j]? = some (.stage k (frontPlace x)) → beats[j]? = some b →
      ((mergeList (words.zip beats) s).stage k).frontWord x =
        mergeBytes ((s.stage k).frontWord x) b.data b.enables) ∧
    (.stage k (frontPlace x) ∉ words →
      ((mergeList (words.zip beats) s).stage k).frontWord x = (s.stage k).frontWord x) := by
  have all := mergeList_at (v := fun u => (u.stage k).frontWord x) (P := StageMerged k s)
    (w := .stage k (frontPlace x)) (fun w hwm b u hu => hu.merges hw w hwm b)
    (fun w hwm hne b u hu => ?_) (fun b u hu => ?_) (.refl k s) beats
  · exact ⟨all.2 once, all.1⟩
  · obtain ⟨j, i, rfl⟩ := hw w hwm
    rw [stage_mergeWord]
    split
    · next both =>
      obtain ⟨rfl, low⟩ := both
      rw [Stage.frontWord_mergeFront (hu.merged.pending_eq.trans free), if_neg]
      intro same
      exact hne (by rw [← same, eq_frontPlace low])
    · rfl
  · obtain ⟨low, which⟩ := frontPlace_val x
    rw [stage_mergeWord, if_pos ⟨rfl, low⟩,
      Stage.frontWord_mergeFront (hu.merged.pending_eq.trans free), if_pos which]

/-- Beside the stages a stage word leaves the state. -/
theorem mergeWord_setStages (j : Operator) (i : Fin 8) (b : Beat) (s : State) :
    ∃ bank, mergeWord (.stage j i) b s = s.setStages { s.stages with bank := bank } := by
  by_cases hi : i.val ≤ 1
  · exact ⟨_, mergeWord_stage j hi b s⟩
  · exact ⟨s.stages.bank, mergeWord_stage_rest j hi b s⟩

/-- Stage words in service: each s0 and s1 is merged, but while a post is pending there. -/
theorem mergeAll_stages {words : List WordRef} (hw : ∀ w ∈ words, ∃ k i, w = .stage k i)
    (once : words.Nodup) (beats : List Beat) (s : State) :
    ∃ bank : Bank 6 Stage,
      mergeAll words beats s = s.setStages { s.stages with bank := bank } ∧
      ∀ k : Operator,
        ((s.stage k).pending = true → bank.get k = s.stage k) ∧
        ((s.stage k).pending = false →
          (s.stage k).Merged (bank.get k) ∧
          ((∀ (j : Nat) (b : Beat), words[j]? = some (.stage k 0) → beats[j]? = some b →
            (bank.get k).front.tuning =
              mergeBytes (s.stage k).front.tuning b.data b.enables) ∧
            (.stage k 0 ∉ words → (bank.get k).front.tuning = (s.stage k).front.tuning)) ∧
          ((∀ (j : Nat) (b : Beat), words[j]? = some (.stage k 1) → beats[j]? = some b →
            (bank.get k).front.search =
              mergeBytes (s.stage k).front.search b.data b.enables) ∧
            (.stage k 1 ∉ words → (bank.get k).front.search = (s.stage k).front.search))) := by
  rw [mergeAll_eq_foldl]
  change ∃ bank, mergeList (words.zip beats) s = _ ∧ _
  have shape : ∃ bank, mergeList (words.zip beats) s =
      s.setStages { s.stages with bank := bank } := by
    refine mergeList_keeps (P := fun u => ∃ bank, u = s.setStages { s.stages with bank := bank })
      (fun p hp u hu => ?_) ⟨s.stages.bank, rfl⟩
    obtain ⟨j, i, hj⟩ := hw _ (List.of_mem_zip hp).1
    obtain ⟨bank, rfl⟩ := hu
    obtain ⟨bank', h'⟩ := mergeWord_setStages j i p.2 (s.setStages { s.stages with bank := bank })
    exact ⟨bank', by rw [hj, h']; rfl⟩
  obtain ⟨bank, hbank⟩ := shape
  refine ⟨bank, hbank, fun k => ?_⟩
  have place : bank.get k = (mergeList (words.zip beats) s).stage k := by rw [hbank]; rfl
  have kept : StageMerged k s (mergeList (words.zip beats) s) :=
    mergeList_keeps (fun p hp u hu => hu.merges hw _ (List.of_mem_zip hp).1 _) (.refl k s)
  rw [place]
  refine ⟨kept.kept, fun free => ⟨kept.merged, ?_, ?_⟩⟩
  · exact stageWord_at hw once beats free false
  · exact stageWord_at hw once beats free true

/-! ## The words of the descriptor (R25, R148) -/

/-- The state with another copy of the descriptor's words. -/
def State.withCopy (s : State) (c : Bank 17 Word) : State := s.setSite { s.site with copy := c }

theorem State.withCopy_withCopy (s : State) (c d : Bank 17 Word) :
    (s.withCopy c).withCopy d = s.withCopy d := rfl

theorem mergeCopy_eq (w : Nat) (b : Beat) (s : State) :
    mergeCopy w b s = s.withCopy (s.site.copy.put (copyPlace w)
      (mergeBytes (s.site.copy.get (copyPlace w)) b.data b.enables)) := rfl

/-- The presentation of a deposit neither reads nor changes the copy. -/
theorem pump_withCopy (s : State) (c : Bank 17 Word) :
    pump (s.withCopy c) = (pump s).withCopy c := by
  have same : (s.withCopy c).depositOutstanding = s.depositOutstanding := rfl
  have queue : (s.withCopy c).faults.queue = s.faults.queue := rfl
  unfold pump
  rw [same, queue]
  split
  · rfl
  · cases s.faults.queue with
    | nil => rfl
    | cons x l =>
      change (if s.faults.mayDeposit s.site.mode then _ else _) = _
      dsimp only
      split <;> rfl

theorem close_withCopy (h : s.site.mode.inService = true) (c : Bank 17 Word) :
    close (s.withCopy c) = (close s).withCopy c := by
  have moving : s.site.mode ≠ .stopping := fun e => by rw [e] at h; cases h
  have moving' : (s.withCopy c).site.mode ≠ .stopping := moving
  rw [close_eq s moving, close_eq _ moving', pump_withCopy]

/-- The words w5 to w31 alone. -/
def FromW5 (words : List WordRef) : Prop :=
  ∀ w ∈ words, ∃ i : Fin 32, 5 ≤ i.val ∧ w = .descriptor i

theorem FromW5.not_action {words : List WordRef} (h : FromW5 words) :
    ∀ w ∈ words, w.wordClass ≠ .action := by
  intro w hw
  obtain ⟨i, hi, rfl⟩ := h w hw
  simp only [WordRef.wordClass, descriptorClass]
  rw [if_neg (by omega), if_neg (by omega)]
  split <;> nofun

theorem mergeFaultModes_site (b : Beat) (s : State) :
    (mergeFaultModes b s).site = (mergeCopy 20 b s).site := by
  unfold mergeFaultModes
  dsimp only
  split
  · next h =>
    have moving : s.site.mode ≠ .stopping := fun e => by rw [e] at h; cases h
    exact close_site _ moving
  · rfl

theorem mergeFaultModes_inService (h : s.site.mode.inService = true) (b : Beat) :
    mergeFaultModes b s = close ((mergeCopy 20 b s).setFaults
      (s.faults.modesChanged (mergeCopy 20 b s).faultView s.site.faultModes)) := by
  unfold mergeFaultModes
  exact if_pos h

theorem mergeFaultModes_outside (h : s.site.mode.inService = false) (b : Beat) :
    mergeFaultModes b s = mergeCopy 20 b s := by
  unfold mergeFaultModes
  exact if_neg (by rw [h]; nofun)

/-- Frame words are merged in CONFIG alone. -/
theorem mergeWord_frame {w : Fin 32} (h : 5 ≤ w.val ∧ w.val ≤ 16) (b : Beat) (s : State) :
    mergeWord (.descriptor w) b s = if s.site.mode = .config then mergeCopy w.val b s else s :=
  if_pos h

theorem mergeWord_w20 (b : Beat) (s : State) :
    mergeWord (.descriptor 20) b s = mergeFaultModes b s := by
  simp [mergeWord, mergeDescriptor]

theorem mergeWord_live {w : Fin 32} (h : 17 ≤ w.val ∧ w.val ≤ 21) (hw : w ≠ 20) (b : Beat)
    (s : State) : mergeWord (.descriptor w) b s = mergeCopy w.val b s := by
  simp only [mergeWord, mergeDescriptor]
  rw [if_neg (by omega), if_neg (by omega), if_pos h]

theorem mergeWord_plain {w : Fin 32} (h : 22 ≤ w.val) (b : Beat) (s : State) :
    mergeWord (.descriptor w) b s = s := by
  simp only [mergeWord, mergeDescriptor]
  rw [if_neg (by omega), if_neg (by omega), if_neg (by omega)]

/-- A word from w5 on is a frame word, w20, another live word, or a PLAIN word. -/
theorem descriptor_cases {w : Fin 32} (h : 5 ≤ w.val) :
    (5 ≤ w.val ∧ w.val ≤ 16) ∨ w = 20 ∨ ((17 ≤ w.val ∧ w.val ≤ 21) ∧ w ≠ 20) ∨ 22 ≤ w.val := by
  omega

theorem mergeCopy_get {w : Nat} (h : 5 ≤ w ∧ w ≤ 21) (b : Beat) (s : State) (i : Fin 17) :
    (mergeCopy w b s).site.copy.get i =
      if w = 5 + i.val then mergeBytes (s.site.copy.get i) b.data b.enables
      else s.site.copy.get i := by
  have place : i = copyPlace w ↔ w = 5 + i.val := by
    rw [Fin.ext_iff]
    simp only [copyPlace]
    omega
  rw [mergeCopy_eq]
  change (Bank.put _ _ _).get i = _
  rw [Bank.get_put]
  by_cases hi : i = copyPlace w
  · rw [if_pos hi, if_pos (place.mp hi), hi]
  · rw [if_neg hi, if_neg fun e => hi (place.mpr e)]

/-- A merge of a descriptor word changes one place of the copy, of a frame word in CONFIG alone. -/
theorem mergeWord_copy {w : Fin 32} (h : 5 ≤ w.val) (b : Beat) (s : State) (i : Fin 17) :
    (mergeWord (.descriptor w) b s).site.copy.get i =
      if w.val = 5 + i.val ∧ (17 ≤ w.val ∨ s.site.mode = .config) then
        mergeBytes (s.site.copy.get i) b.data b.enables
      else s.site.copy.get i := by
  rcases descriptor_cases h with hw | rfl | ⟨hw, hn⟩ | hw
  · rw [mergeWord_frame hw]
    by_cases hm : s.site.mode = .config
    · rw [if_pos hm, mergeCopy_get (by omega)]
      simp [hm]
    · rw [if_neg hm, if_neg]
      rintro ⟨-, high | config⟩
      · omega
      · exact hm config
  · rw [mergeWord_w20, mergeFaultModes_site, mergeCopy_get (by omega)]
    simp
  · rw [mergeWord_live hw hn, mergeCopy_get (by omega)]
    simp [hw.1]
  · rw [mergeWord_plain hw, if_neg]
    omega

theorem mergeWord_mode (w : Fin 32) (b : Beat) (s : State) :
    (mergeWord (.descriptor w) b s).site.mode = s.site.mode := by
  simp only [mergeWord, mergeDescriptor]
  split
  · split <;> rfl
  · split
    · rw [mergeFaultModes_site]; rfl
    · split <;> rfl

/-- But for w20 in service, a merge of a descriptor word changes the copy alone. -/
theorem mergeWord_withCopy {w : Fin 32} (h : 5 ≤ w.val) (b : Beat)
    (hq : w ≠ 20 ∨ s.site.mode.inService = false) :
    ∃ c, mergeWord (.descriptor w) b s = s.withCopy c := by
  rcases descriptor_cases h with hw | rfl | ⟨hw, hn⟩ | hw
  · rw [mergeWord_frame hw]
    split
    · exact ⟨_, rfl⟩
    · exact ⟨s.site.copy, rfl⟩
  · have outside := hq.resolve_left fun n => n rfl
    exact ⟨_, by rw [mergeWord_w20, mergeFaultModes_outside outside, mergeCopy_eq]⟩
  · exact ⟨_, mergeWord_live hw hn b s⟩
  · exact ⟨s.site.copy, mergeWord_plain hw b s⟩

/-- But for w20 in service, merges of descriptor words change the copy alone. -/
theorem mergeList_withCopy {l : List (WordRef × Beat)}
    (h : ∀ p ∈ l, ∃ w : Fin 32, 5 ≤ w.val ∧ p.1 = .descriptor w ∧
      (w ≠ 20 ∨ s.site.mode.inService = false)) :
    mergeList l s = s.withCopy (mergeList l s).site.copy := by
  obtain ⟨c, hc⟩ : ∃ c, mergeList l s = s.withCopy c := by
    refine mergeList_keeps (P := fun u => ∃ c, u = s.withCopy c) (fun p hp u hu => ?_)
      ⟨s.site.copy, rfl⟩
    obtain ⟨w, hw, hp, hq⟩ := h p hp
    obtain ⟨c, rfl⟩ := hu
    obtain ⟨d, hd⟩ := mergeWord_withCopy (s := s.withCopy c) hw p.2 hq
    exact ⟨d, by rw [hp, hd, s.withCopy_withCopy]⟩
  rw [hc]
  rfl

/-- A descriptor word from w5 on that is not w20. -/
def BesideModes (p : WordRef × Beat) : Prop :=
  ∃ w : Fin 32, 5 ≤ w.val ∧ p.1 = .descriptor w ∧ w ≠ 20

theorem mergeList_beside {l : List (WordRef × Beat)} (h : ∀ p ∈ l, BesideModes p) (s : State) :
    mergeList l s = s.withCopy (mergeList l s).site.copy := by
  refine mergeList_withCopy fun p hp => ?_
  obtain ⟨w, h5, hx, hne⟩ := h p hp
  exact ⟨w, h5, hx, .inl hne⟩

/-- Words but w20 leave the fault modes. -/
theorem mergeList_faultModes {l : List (WordRef × Beat)} (h : ∀ p ∈ l, BesideModes p) (s : State) :
    (mergeList l s).site.faultModes = s.site.faultModes := by
  refine mergeList_same (v := fun u => u.site.faultModes) (P := fun _ => True)
    (fun _ _ _ _ => trivial) (fun p hp u _ => ?_) trivial
  obtain ⟨w, h5, hx, hne⟩ := h p hp
  show (mergeWord p.1 p.2 u).site.copy.get 15 = u.site.copy.get 15
  rw [hx, mergeWord_copy h5, if_neg]
  rintro ⟨place, -⟩
  exact hne (Fin.ext place)

/-- The end of a change of fault modes from those of `s`, its copy being `c`. -/
def modesTaken (s : State) (c : Bank 17 Word) : State :=
  close ((s.withCopy c).setFaults
    (s.faults.modesChanged (s.withCopy c).faultView s.site.faultModes))

theorem mergeWord_w20_inService (hs : s.site.mode.inService = true) {c : Bank 17 Word}
    (hc : (s.withCopy c).site.faultModes = s.site.faultModes) (b : Beat) :
    ∃ d, mergeWord (.descriptor 20) b (s.withCopy c) = modesTaken s d := by
  refine ⟨c.put (copyPlace 20) (mergeBytes (c.get (copyPlace 20)) b.data b.enables), ?_⟩
  rw [mergeWord_w20, mergeFaultModes_inService (s := s.withCopy c) hs, hc, mergeCopy_eq,
    s.withCopy_withCopy]
  rfl

/-- A change of the copy that leaves the fault modes may come before the change of modes. -/
theorem modesTaken_withCopy (hs : s.site.mode.inService = true) {c d : Bank 17 Word}
    (hc : (s.withCopy c).site.faultModes = (s.withCopy d).site.faultModes) :
    (modesTaken s d).withCopy c = modesTaken s c := by
  have view : (s.withCopy c).faultView = (s.withCopy d).faultView :=
    congrArg (fun x => FaultView.mk s.site.mode x s.site.time) hc
  unfold modesTaken
  rw [view]
  exact (close_withCopy (s := (s.withCopy d).setFaults _) hs c).symm

theorem modesTaken_site (hs : s.site.mode.inService = true) (c : Bank 17 Word) :
    (modesTaken s c).site = (s.withCopy c).site := by
  have moving : s.site.mode ≠ .stopping := fun e => by rw [e] at hs; cases hs
  exact close_site _ moving

section

variable {words : List WordRef}

theorem FromW5.keeps_mode (hw : FromW5 words) {m : Mode} :
    ∀ w ∈ words, ∀ b u, u.site.mode = m → (mergeWord w b u).site.mode = m := by
  intro w hwm b u hu
  obtain ⟨i, -, rfl⟩ := hw w hwm
  rw [mergeWord_mode, hu]

/-- A place of the copy is merged under the beat of its word, or left. -/
theorem FromW5.copy_at (hw : FromW5 words) (once : words.Nodup) (beats : List Beat) {w : Fin 32}
    {i : Fin 17} (hi : w.val = 5 + i.val) (hl : 17 ≤ w.val ∨ s.site.mode = .config) :
    (.descriptor w ∉ words →
      (mergeList (words.zip beats) s).site.copy.get i = s.site.copy.get i) ∧
    ∀ (j : Nat) (b : Beat), words[j]? = some (.descriptor w) → beats[j]? = some b →
      (mergeList (words.zip beats) s).site.copy.get i =
        mergeBytes (s.site.copy.get i) b.data b.enables := by
  have all := mergeList_at (v := fun u => u.site.copy.get i) (w := .descriptor w)
    (hw.keeps_mode (m := s.site.mode)) (fun x hx hne b u hu => ?_) (fun b u hu => ?_) rfl beats
  · exact ⟨all.1, all.2 once⟩
  · obtain ⟨x, h5, rfl⟩ := hw x hx
    have apart : x.val ≠ 5 + i.val := by
      intro e
      exact hne (congrArg WordRef.descriptor (Fin.ext (e.trans hi.symm)))
    rw [mergeWord_copy h5, if_neg fun both => apart both.1]
  · rw [mergeWord_copy (by omega), if_pos ⟨hi, hu ▸ hl⟩]

/-- A frame word's place stays in service. -/
theorem FromW5.copy_frame (hw : FromW5 words) (hs : s.site.mode.inService = true)
    (beats : List Beat) {i : Fin 17} (hi : i.val < 12) :
    (mergeList (words.zip beats) s).site.copy.get i = s.site.copy.get i := by
  refine mergeList_same (v := fun u => u.site.copy.get i) (P := fun u => u.site.mode = s.site.mode)
    (fun p hp => hw.keeps_mode _ (List.of_mem_zip hp).1 _) (fun p hp u hu => ?_) rfl
  obtain ⟨x, h5, hx⟩ := hw _ (List.of_mem_zip hp).1
  rw [hx, mergeWord_copy h5, if_neg]
  rintro ⟨place, high | config⟩
  · omega
  · rw [← hu, config] at hs
    cases hs

/-- Without w20, or outside service, the merges change the copy alone. -/
theorem FromW5.mergeList_quiet (hw : FromW5 words) (beats : List Beat)
    (h : .descriptor 20 ∉ words ∨ s.site.mode.inService = false) :
    mergeList (words.zip beats) s =
      s.withCopy (mergeList (words.zip beats) s).site.copy := by
  refine mergeList_withCopy fun p hp => ?_
  have mem := (List.of_mem_zip hp).1
  obtain ⟨w, h5, hx⟩ := hw _ mem
  refine ⟨w, h5, hx, h.imp_left fun absent same => absent ?_⟩
  rw [hx, same] at mem
  exact mem

/-- With w20 in service the Fault Reporter takes the change of fault modes, and the other words
change the copy alone, before it and behind it. -/
theorem FromW5.mergeList_modes (hw : FromW5 words) (once : words.Nodup) {beats : List Beat}
    (hl : words.length = beats.length) (hs : s.site.mode.inService = true)
    (h : .descriptor 20 ∈ words) :
    mergeList (words.zip beats) s =
      modesTaken s (mergeList (words.zip beats) s).site.copy := by
  obtain ⟨j, hj⟩ := List.getElem?_of_mem h
  obtain ⟨b, hb⟩ : ∃ b, beats[j]? = some b := by
    have inside := (List.getElem?_eq_some_iff.mp hj).1
    exact ⟨beats[j], List.getElem?_eq_getElem (by omega)⟩
  obtain ⟨l, m, hz, apart⟩ := split_at_word once hj hb
  have beside : ∀ p ∈ l ++ m, BesideModes p := by
    intro p hp
    obtain ⟨mem, hne⟩ := apart p hp
    obtain ⟨w, h5, hx⟩ := hw _ mem
    exact ⟨w, h5, hx, fun same => hne (by rw [hx, same])⟩
  have besideL : ∀ p ∈ l, BesideModes p := fun p hp => beside p (List.mem_append_left m hp)
  have besideM : ∀ p ∈ m, BesideModes p := fun p hp => beside p (List.mem_append_right l hp)
  obtain ⟨c, before⟩ : ∃ c, mergeList l s = s.withCopy c := ⟨_, mergeList_beside besideL s⟩
  have old : (s.withCopy c).site.faultModes = s.site.faultModes := by
    rw [← before]
    exact mergeList_faultModes besideL s
  obtain ⟨d, change⟩ := mergeWord_w20_inService hs old b
  have new := mergeList_faultModes besideM (modesTaken s d)
  rw [hz, mergeList_append, mergeList_cons, before, change]
  rw [mergeList_beside besideM, modesTaken_site hs] at new
  rw [mergeList_beside besideM]
  exact modesTaken_withCopy hs new

end

/-! ## The answer -/

/-- What the answer to a write of w5 to w31 merges is all it does. -/
theorem FromW5.writeAll {words : List WordRef} (h : FromW5 words) (beats : List Beat) (s : State) :
    deliverAll words beats (mergeAll words beats s) = mergeList (words.zip beats) s := by
  rw [deliverAll_of_not_action h.not_action, mergeAll_eq_foldl]
  rfl

/-- Settles O11: a merge changes the place of its word alone, the deliveries follow, and a change of
fault modes goes with the merges around it. -/
theorem writeResponseMergesThenPosts : Obligations.WriteResponseMergesThenPosts := by
  refine ⟨?_, fun old new enables i hi => by
    rw [mergeBytes_getLsbD, byteMask_getLsbD enables i hi]⟩
  intro s pre post e g rest x hg ho hk h hx answered
  refine ⟨fun k b0 b1 b2 hw hb hs => ?stage, fun hw once hl hs => ?stages,
    fun hw once hl hs hm => ?config, fun hw once hl hs => ?service⟩
  case stage =>
    have done : exec (.memoryWriteResponse .okay) s =
        .next (answered.setStage k ((s.stage k).written b0 b1 b2)) :=
      (exec_writeOkay hg ho hk h hx (delivers_inService hs)).trans
        (congrArg Host.Outcome.next (writeAll_stage k b0 b1 b2 hw hb answered))
    refine ⟨fun pending => ?_, fun free defined => ?_⟩
    · rw [done, Stage.written_pending pending]
      exact congrArg Host.Outcome.next (answered.setStage_self k)
    · obtain ⟨mode, modeKept, slot, slotKept⟩ :=
        Post.written_stored b0 b1 b2 (s.stage k).front defined
      exact ⟨(s.stage k).front.written b0 b1 b2, Post.written_tuning .., Post.written_search ..,
        mode, modeKept, slot, slotKept, by rw [done, Stage.written_free free]⟩
  case stages =>
    obtain ⟨bank, merged, places⟩ := mergeAll_stages hw once e.request.beats answered
    refine ⟨bank, fun k => ⟨(places k).1, fun free => ?_⟩, ?_⟩
    · obtain ⟨shape, tuning, search⟩ := (places k).2 free
      exact ⟨_, _, shape, tuning, search⟩
    · rw [exec_writeOkay hg ho hk h hx (delivers_inService hs), deliverAll_eq_foldl]
      exact congrArg (fun u => Host.Outcome.next (List.foldl _ u _)) merged
  case config =>
    have same : delivers s.site.mode x.mode = true := by rw [hs, hm]; rfl
    have outside : s.site.mode.inService = false := by rw [hs]; rfl
    refine ⟨_, exec_writeOkay hg ho hk h hx same, ?_, fun i => ⟨fun j w b hi hj hb => ?_, fun none => ?_⟩⟩
    · rw [FromW5.writeAll hw]
      exact FromW5.mergeList_quiet hw _ (.inr outside)
    · rw [FromW5.writeAll hw]
      exact (FromW5.copy_at (s := answered) hw once _ hi (.inr hs)).2 j b hj hb
    · rw [FromW5.writeAll hw]
      exact (FromW5.copy_at (s := answered) hw once _ (w := ⟨5 + i.val, by omega⟩) rfl (.inr hs)).1
        (none _ rfl)
  case service =>
    have done : exec (.memoryWriteResponse .okay) s =
        .next (mergeList (x.words.zip e.request.beats) answered) :=
      (exec_writeOkay hg ho hk h hx (delivers_inService hs)).trans
        (congrArg Host.Outcome.next (FromW5.writeAll hw _ answered))
    refine ⟨(mergeList (x.words.zip e.request.beats) answered).site.copy,
      fun i => ⟨fun j w b hi hl hj hb => ?_, fun none => ?_⟩, fun absent => ?_, fun present => ?_⟩
    · exact (FromW5.copy_at (s := answered) hw once _ hi (.inl hl)).2 j b hj hb
    · by_cases low : i.val < 12
      · exact FromW5.copy_frame (s := answered) hw hs _ low
      · have live : 17 ≤ 5 + i.val := by omega
        exact (FromW5.copy_at (s := answered) hw once _ (w := ⟨5 + i.val, by omega⟩) rfl
          (.inl live)).1 (none _ rfl live)
    · exact done.trans (congrArg Host.Outcome.next
        (FromW5.mergeList_quiet (s := answered) hw _ (.inl absent)))
    · exact done.trans (congrArg Host.Outcome.next
        (FromW5.mergeList_modes (s := answered) hw once hl hs present))

end Sys2Proof.Machine
end

section
/-! Site Control's mode requests, its load reads, and site time (O14, O17, O18, O21, O22). -/
namespace Sys2Proof.Machine

open Sys2Proof

variable {s : State}

/-! ## Site time and the attention line (R36, R37) -/

theorem exec_siteTimeCount (s : State) : exec .siteTimeCount s = .next (countTime s) := rfl

/-- Settles O21, by whether the mode has its windows up. -/
theorem siteTimeCountsWhileServing : Obligations.SiteTimeCountsWhileServing := by
  refine fun s => ⟨fun counts => ?_, fun stands => ?_⟩
  · rw [exec_siteTimeCount, countTime, if_pos ((Mode.windowsUp_iff _).mpr counts)]
  · have down : s.site.mode.windowsUp = false := by rcases stands with e | e <;> rw [e] <;> rfl
    rw [exec_siteTimeCount, countTime, down]
    rfl

/-- Settles O22: the ring is empty exactly where its two indices agree. -/
theorem attentionFollowsTheIndices : Obligations.AttentionFollowsTheIndices := by
  intro s
  rw [← Mode.windowsUp_iff, State.attention, Faults.ringEmpty]
  simp

/-! ## The load reads (R28, Table 2-7) -/

theorem presentLoad_eq (p : OwnPurpose) (s : State) :
    presentLoad p s = s.setPath { s.path with ownPresented := some ⟨p, loadAccess s p, false⟩ } := rfl

theorem loadAccess_l1 (s : State) :
    loadAccess s .loadL1 = ⟨.read, BitVec.ofNat 32 (65536 * s.path.anchor.toNat + 40), 8, []⟩ :=
  congrArg (DownAccess.mk .read · 8 []) (anchorBase_eq s.path 40)

theorem loadAccess_l2 (s : State) :
    loadAccess s .loadL2 = ⟨.read, BitVec.ofNat 32 (65536 * s.path.anchor.toNat + 104), 8, []⟩ :=
  congrArg (DownAccess.mk .read · 8 []) (anchorBase_eq s.path 104)

theorem loadAccess_l3 (s : State) :
    loadAccess s .loadL3 = ⟨.read, BitVec.ofNat 32 (65536 * s.path.anchor.toNat + 168), 1, []⟩ :=
  congrArg (DownAccess.mk .read · 1 []) (anchorBase_eq s.path 168)

/-! ## SERVE_REQUEST and CONFIG_REQUEST (R24, R28, R30) -/

theorem exec_serveRequest (s : State) : exec .serveRequest s = .next (requestServe s) := rfl

theorem requestServe_config (h : s.site.mode = .config) : requestServe s = startLoading s := by
  simp [requestServe, h]

theorem requestServe_of_ne (h : s.site.mode ≠ .config) : requestServe s = s := by
  cases hm : s.site.mode with
  | config => exact absurd hm h
  | starting | serving | hold | stopping => simp [requestServe, hm]

/-- Nothing is deposited in CONFIG or STARTING, so a CONFIG request that ends there is all its event
does. -/
theorem exec_configRequest_idle (hm : s.site.mode ≠ .stopping)
    (h : (requestConfig s).site.mode.windowsUp = false) :
    exec .configRequest s = .next (requestConfig s) := by
  simp [exec, execConfigRequest, hm, close_idle _ h]

theorem exec_configRequest_starting (h : s.site.mode = .starting) :
    exec .configRequest s = .next (abandonStart s) := by
  have abandons : requestConfig s = abandonStart s := by simp [requestConfig, h]
  rw [exec_configRequest_idle (by simp [h]) (by rw [abandons]; rfl), abandons]

theorem exec_configRequest_config (h : s.site.mode = .config) :
    exec .configRequest s = .next s := by
  have stays : requestConfig s = s := by simp [requestConfig, h]
  rw [exec_configRequest_idle (by simp [h]) (by rw [stays, h]; rfl), stays]

theorem exec_configRequest_stopping (h : s.site.mode = .stopping) :
    exec .configRequest s = .next s := by
  simp [exec, execConfigRequest, h]

/-- Settles O14, mode by mode. -/
theorem serveStartsAndConfigAbandonsALoad : Obligations.ServeStartsAndConfigAbandonsALoad := by
  refine ⟨fun s => ⟨fun config => ?_, fun other => ?_⟩, fun s =>
    ⟨exec_configRequest_starting, fun h => h.elim exec_configRequest_config
      exec_configRequest_stopping⟩⟩
  · rw [exec_serveRequest, requestServe_config config, startLoading, presentLoad_eq, loadAccess_l1]
    rfl
  · rw [exec_serveRequest, requestServe_of_ne other]

/-! ## LOAD_READ_ANSWER (R29, R30) -/

/-- The state once the own access in flight is answered: it leaves with the oldest granted access. -/
def State.afterOwnAnswer (rest : List Granted) (s : State) : State :=
  s.setPath { s.path with granted := rest, ownInFlight := none }

section

variable {g : Granted} {rest : List Granted} {p : OwnPurpose} {a : DownAccess} {answer : ReadAnswer}

/-- An abandoned read's answer is discarded. -/
theorem exec_loadReadAnswer_abandoned (hg : s.path.granted = g :: rest) (ho : g.own = true)
    (hk : a.kind = .read) (hx : s.path.ownInFlight = some ⟨p, a, true⟩)
    (fits : answerFits a.length answer = true) :
    exec (.loadReadAnswer answer) s = .next (s.afterOwnAnswer rest) :=
  loadAnswer hg ho hx hk fits

/-- The answer to a read that is not abandoned, and then the end of its event. -/
theorem exec_loadReadAnswer (hg : s.path.granted = g :: rest) (ho : g.own = true)
    (hk : a.kind = .read) (hx : s.path.ownInFlight = some ⟨p, a, false⟩)
    (fits : answerFits a.length answer = true) :
    exec (.loadReadAnswer answer) s =
      .next (close (loadAnswered p answer (s.afterOwnAnswer rest))) :=
  loadAnswer hg ho hx hk fits

/-- An answer that leaves the part short of SERVING is all its event does. -/
theorem exec_loadReadAnswer_idle {t : State} (hg : s.path.granted = g :: rest) (ho : g.own = true)
    (hk : a.kind = .read) (hx : s.path.ownInFlight = some ⟨p, a, false⟩)
    (fits : answerFits a.length answer = true)
    (answered : loadAnswered p answer (s.afterOwnAnswer rest) = t)
    (h : t.site.mode.windowsUp = false) : exec (.loadReadAnswer answer) s = .next t := by
  rw [exec_loadReadAnswer hg ho hk hx fits, answered, close_idle _ h]

end

theorem Mode.windowsUp_starting {m : Mode} (h : m = .starting) : m.windowsUp = false := by
  rw [h]
  rfl

theorem Site.loadWords_mode (first : Nat) (data : List Word) (t : Site) :
    (t.loadWords first data).mode = t.mode := rfl

/-- The loaded words fill their places of the copy, and the others stay. -/
theorem Site.loadWords_get (t : Site) (first : Nat) (data : List Word) (i : Fin 17) :
    (t.loadWords first data).copy.get i =
      if first ≤ i.val ∧ i.val < first + data.length then data.getD (i.val - first) 0
      else t.copy.get i := by
  simp only [Site.loadWords, Bank.get_tabulate]
  by_cases above : first ≤ i.val
  · by_cases below : i.val < first + data.length
    · have inside : i.val - first < data.length := by omega
      simp [above, below, inside]
    · have beyond : data.length ≤ i.val - first := by omega
      simp [above, below, beyond]
  · simp [above]

theorem loadAnswered_l1 (data : List Word) (s : State) :
    loadAnswered .loadL1 (.okay data) s =
      (s.setSite (s.site.loadWords 0 data)).setPath
        { s.path with
          ownPresented := some
            ⟨.loadL2,
              ⟨.read, BitVec.ofNat 32 (65536 * s.path.anchor.toNat + 104), 8, []⟩, false⟩ } := by
  rw [loadAnswered, loadOkay, presentLoad_eq, loadAccess_l2]
  rfl

theorem loadAnswered_l2 (data : List Word) (s : State) :
    loadAnswered .loadL2 (.okay data) s =
      (s.setSite (s.site.loadWords 8 data)).setPath
        { s.path with
          ownPresented := some
            ⟨.loadL3,
              ⟨.read, BitVec.ofNat 32 (65536 * s.path.anchor.toNat + 168), 1, []⟩, false⟩ } := by
  rw [loadAnswered, loadOkay, presentLoad_eq, loadAccess_l3]
  rfl

/-- Settles O17: the three outcomes of an answer, and what the loaded words leave of the copy. -/
theorem loadReadsFillTheCopyOrEndTheStart : Obligations.LoadReadsFillTheCopyOrEndTheStart := by
  refine ⟨fun s g rest a data hg ho hk ha hd hm => ?okay, fun s g rest p a hg ho hk =>
    ⟨fun hx => ?fault, fun hx => ⟨?_, fun data hd => ?_⟩⟩⟩
  case okay =>
    have fits : answerFits a.length (.okay data) = true := by simp [answerFits, ha, hd]
    have down : ∀ first, (s.site.loadWords first data).mode.windowsUp = false := fun first => by
      rw [Site.loadWords_mode, hm]
      rfl
    refine ⟨fun hx => ?l1, fun hx => ?l2⟩
    case l1 =>
      refine ⟨_, exec_loadReadAnswer_idle hg ho hk hx fits (loadAnswered_l1 data _) (down 0), rfl, rfl,
        fun i => ?_⟩
      have filled := Site.loadWords_get s.site 0 data i
      simp only [hd, Nat.zero_add, Nat.zero_le, true_and, Nat.sub_zero] at filled
      exact filled
    case l2 =>
      refine ⟨_, exec_loadReadAnswer_idle hg ho hk hx fits (loadAnswered_l2 data _) (down 8), rfl, rfl,
        fun i => ?_⟩
      have filled := Site.loadWords_get s.site 8 data i
      rwa [hd] at filled
  case fault => exact exec_loadReadAnswer_idle hg ho hk hx rfl rfl rfl
  · exact exec_loadReadAnswer_abandoned hg ho hk hx rfl
  · exact exec_loadReadAnswer_abandoned hg ho hk hx (by simp [answerFits, hd])

/-! ## The checks behind L3 and the sector reads (R29, R31) -/

theorem loadAnswered_l3 (w : Word) (s : State) :
    loadAnswered .loadL3 (.okay [w]) s =
      afterL3 (s.setSite { s.site with copy := s.site.copy.put 16 w }) := by
  simp only [loadAnswered, loadOkay, loadWords_last]

theorem afterL3_failing {code : ErrorCode} (h : firstPart s.path s.site = some code) :
    afterL3 s = endStart code s := by
  simp [afterL3, h]

theorem afterL3_passing (h : firstPart s.path s.site = none) :
    afterL3 s = presentLoad (.loadSector 0) s := by
  simp [afterL3, h]

theorem afterSector_next {n m : SectorId} (hm : m.val = n.val + 1) (h : m.val < s.site.sectorCount) :
    afterSector n s = presentLoad (.loadSector m) s := by
  have place : n.val + 1 < 12 := hm ▸ m.isLt
  have same : (⟨n.val + 1, place⟩ : SectorId) = m := Fin.ext hm.symm
  rw [afterSector, dif_pos place, if_pos (hm ▸ h), same]

theorem afterSector_last {n : SectorId} (h : s.site.sectorCount ≤ n.val + 1) :
    afterSector n s = afterSectors s := by
  have last : ¬ n.val + 1 < s.site.sectorCount := by omega
  simp [afterSector, last]

theorem afterSectors_failing {code : ErrorCode} (h : secondPart s.site s.steering = some code) :
    afterSectors s = endStart code s := by
  simp [afterSectors, h]

theorem afterSectors_passing (h : secondPart s.site s.steering = none) :
    afterSectors s = enterServing s := by
  simp [afterSectors, h]

theorem answerFits_okay {n : Nat} {data : List Word} (h : data.length = n) :
    answerFits n (.okay data) = true := decide_eq_true h

/-- Settles O18: a failing check ends the start, and a passing one presents the next read. -/
theorem loadedWordsAreChecked : Obligations.LoadedWordsAreChecked := by
  constructor
  · intro s g rest a w hg ho hk ha hx hm site path
    have fits : answerFits a.length (.okay [w]) = true := answerFits_okay ha.symm
    refine ⟨fun code fails => ?_, fun passes => ?_⟩
    · exact exec_loadReadAnswer_idle hg ho hk hx fits
        ((loadAnswered_l3 w _).trans (afterL3_failing fails)) rfl
    · exact exec_loadReadAnswer_idle hg ho hk hx fits
        ((loadAnswered_l3 w _).trans (afterL3_passing passes)) (Mode.windowsUp_starting hm)
  · intro s g rest a n w0 w1 hg ho hk ha hx hm loaded path
    have fits : answerFits a.length (.okay [w0, w1]) = true := answerFits_okay ha.symm
    refine ⟨fun m next more => ?_, fun code last fails => ?_⟩
    · exact exec_loadReadAnswer_idle hg ho hk hx fits (afterSector_next next more)
        (Mode.windowsUp_starting hm)
    · exact exec_loadReadAnswer_idle hg ho hk hx fits
        ((afterSector_last (s := loaded.setPath path) last).trans (afterSectors_failing fails)) rfl

end Sys2Proof.Machine
end

section
/-! The service stop (O15). -/
namespace Sys2Proof.Machine

open Sys2Proof

variable {s : State}

/-! ## The end of an event in STOPPING (R35, R151, R153) -/

theorem stopDone_iff (hm : s.site.mode = .stopping) :
    s.stopDone = true ↔
      s.site.owingBreaks = 0 ∧ s.faults.queue = [] ∧ s.depositOutstanding = false := by
  simp [State.stopDone, hm, and_assoc]

/-- The stop goes on, or ends, from the state that the presentation of the next deposit leaves. -/
theorem StopGoesOn.finishStop {t : State} {free : Bool} {p : Path} (hm : t.site.mode = .stopping)
    (idle : t.faults.queue = [] → (t.depositOutstanding = false ↔ free = true))
    (path : t.path = { p with
      ownPresented :=
        if free then
          match t.faults.queue with
          | [] => p.ownPresented
          | x :: _ => some (t.faults.headDeposit x)
        else p.ownPresented }) : StopGoesOn free p (Machine.finishStop t) := by
  have done : t.stopDone = true ↔
      t.site.owingBreaks = 0 ∧ t.faults.queue = [] ∧ free = true := by
    rw [stopDone_iff hm]
    exact and_congr_right fun _ => and_congr_right idle
  unfold Machine.finishStop
  split
  · next h =>
    obtain ⟨owing, empty, isFree⟩ := done.mp h
    refine ⟨fun _ => ⟨rfl, ?_, defaultRoles_get⟩, fun k => absurd ⟨owing, empty, isFree⟩ k⟩
    simp [enterConfig, path, empty]
  · next h => exact ⟨fun k => absurd (done.mpr k) h, fun _ => ⟨hm, path⟩⟩

/-- The end of an event in STOPPING, by what its presentation does: nothing, the discard of the whole
queue, or a deposit. -/
theorem StopGoesOn.close (hm : s.site.mode = .stopping) :
    StopGoesOn (!s.depositOutstanding) s.path (close s) := by
  refine StopGoesOn.finishStop (by rw [pump_site, hm]) ?_ ?_
  · intro empty
    rcases pump_cases s with ⟨same, -⟩ | ⟨-, -, discarded⟩ | ⟨x, l, -, queued, -, -, presented⟩
    · simp [same]
    · have kept : (s.setFaults s.faults.discardQueue).depositOutstanding = s.depositOutstanding := rfl
      simp [discarded, kept]
    · rw [presented, if_neg (by simp [hm])] at empty
      rw [show s.faults.queue = [] from empty] at queued
      cases queued
  · rcases pump_cases s with ⟨same, why⟩ | ⟨-, -, discarded⟩ | ⟨x, l, free, queued, -, -, presented⟩
    · rw [same]
      rcases why with outstanding | empty | ⟨serving, -⟩ | down
      · simp [outstanding]
      · simp [empty]
      · rw [hm] at serving
        cases serving
      · rw [hm] at down
        cases down
    · simp [discarded, Faults.discardQueue]
    · rw [presented, if_neg (by simp [hm])]
      simp [free, queued, State.present]

theorem Faults.makeRoom_stopping_ring (f : Faults) : SameRing f (f.makeRoom .stopping) := by
  unfold Faults.makeRoom
  simp only
  split
  · exact ⟨rfl, rfl, rfl, rfl, rfl, rfl⟩
  · exact .refl f

/-- In STOPPING no entry is given up to a notice that waits: the ring and the lapse timer stay. -/
theorem close_stopping_ring (hm : s.site.mode = .stopping) : SameRing s.faults (close s).faults := by
  rcases close_faults s with same | room
  · rw [same]
    exact .refl _
  · rw [room, hm]
    exact s.faults.makeRoom_stopping_ring

/-! ## What the stages of the stop leave (R34) -/

theorem serviceStop_context (s : State) (n : SlotId) :
    (serviceStop s).context n = (s.context n).stopped := Bank.get_tabulate _ n

theorem serviceStop_unit (s : State) (u : UnitId) :
    (serviceStop s).unit u = (s.unit u).stopped := Bank.get_tabulate _ u

/-- A link that owes a stop break is emptied and asked for it; the others are emptied. -/
theorem serviceStop_link (s : State) (n : UnitId) :
    (serviceStop s).link n =
      if (s.unit n).state = .off ∨ (s.unit n).state = .out then (s.link n).fullEmpty
      else (s.link n).afterUnitLoss := by
  have stopped : (serviceStop s).link n =
      (s.link n).stopped ((owingLinks s.units).getLsbD n.val) := Bank.get_tabulate _ n
  rw [stopped, Link.stopped, Link.fullEmpty_askBreak]
  by_cases free : (s.unit n).state = .off ∨ (s.unit n).state = .out
  · have noBreak : ¬ (owingLinks s.units).getLsbD n.val = true := fun owes => by
      obtain ⟨notOff, notOut⟩ := (owing_bit s.units n).mp owes
      exact free.elim notOff notOut
    rw [if_neg noBreak, if_pos free]
  · rw [if_pos ((owing_bit s.units n).mpr (not_or.mp free)), if_neg free]

theorem owingLinks_eq_zero (units : Bank 24 UnitRecord) :
    owingLinks units = 0 ↔ ∀ u, (units.get u).state = .off ∨ (units.get u).state = .out := by
  constructor
  · intro none u
    by_contra owes
    have bit := (owing_bit units u).mpr (not_or.mp owes)
    rw [none] at bit
    simp at bit
  · intro all
    refine BitVec.eq_of_getLsbD_eq fun i hi => ?_
    have clear : ¬ (owingLinks units).getLsbD (⟨i, hi⟩ : UnitId).val = true := fun bit => by
      obtain ⟨notOff, notOut⟩ := (owing_bit units ⟨i, hi⟩).mp bit
      exact (all ⟨i, hi⟩).elim notOff notOut
    simpa using clear

theorem serviceStop_latch (s : State) (id : LatchId) :
    (serviceStop s).faults.latch id = { (s.faults.latch id).cleared with condition := false } := by
  rw [serviceStop_faults, Faults.latch_produceStopped, Faults.latch_releaseAll]
  rfl

theorem Faults.produceStopped_detail (f : Faults) (v : FaultView) :
    (f.produceStopped v).detail = f.detail := by
  unfold Faults.produceStopped
  split
  · rfl
  · split <;> rfl

/-- Stage 6 stops the lapse timer, and the stop leaves the ring as it was. -/
theorem serviceStop_ring (s : State) :
    SameRing { s.faults with lapseTimer := none } (serviceStop s).faults := by
  have released : SameRing { s.faults with lapseTimer := none } s.faults.releaseAll :=
    ⟨by simp, by simp, by simp, by simp, by simp, by simp⟩
  exact released.trans (Faults.produceStopped_ring _ _)

theorem UnitRecord.stopped_filters (r : UnitRecord) (a : Fin 4) :
    r.stopped.filters.get a = ⟨0, 0, false⟩ := Bank.get_fill _ a

/-- Site Control once the event of the stop has ended: CONFIG at once where no link owes a break, no
deposit is outstanding and the ring is full; nothing else of it depends on that. -/
theorem close_serviceStop_site (s : State) :
    (close (serviceStop s)).site =
      { s.site with
        owingBreaks := owingLinks s.units
        mode :=
          if (∀ u, (s.unit u).state = .off ∨ (s.unit u).state = .out) ∧
              s.depositOutstanding = false ∧ s.faults.ringFull = true then .config
          else .stopping } := by
  simp only [stop_mode, owingLinks_eq_zero, State.unit_eq, serviceStop_site]
  split <;> rfl

/-- Settles O15, block by block: the stages of the stop set each block, and the end of the event that
follows touches Site Control, the Path Interpreter and the notice queue alone. -/
theorem serviceStopVacatesEveryBlock : Obligations.ServiceStopVacatesEveryBlock := by
  intro s inService
  have site := close_serviceStop_site s
  have stopping : (serviceStop s).site.mode = .stopping := rfl
  obtain ⟨producer, consumer, -, -, -, lapse⟩ :=
    (serviceStop_ring s).trans (close_stopping_ring stopping)
  refine ⟨close (serviceStop s), stopReq inService, close_pending _, close_linkRate _,
    StopGoesOn.close stopping, by rw [site], by simp [site], fun u => ?owing, fun n => ?context,
    ?occupancy, ?changed, fun n => ?link, fun u => ?unit, close_pollTimer _, ?steering,
    fun id => ?latch, lapse, ?detail, producer, consumer⟩
  case owing =>
    rw [site]
    exact owing_bit s.units u
  case context =>
    rw [State.context, close_carriers]
    exact serviceStop_context s n
  case occupancy =>
    rw [close_carriers]
    exact fun u => Bank.get_fill _ u
  case changed =>
    rw [close_carriers]
    exact fun k => Bank.get_fill _ k
  case link =>
    rw [State.link, close_links]
    exact serviceStop_link s n
  case unit =>
    have stopped : (close (serviceStop s)).unit u = (s.unit u).stopped := by
      rw [State.unit, close_units]
      exact serviceStop_unit s u
    rw [stopped]
    exact ⟨rfl, rfl, rfl, rfl, rfl, rfl, rfl, UnitRecord.stopped_filters _, rfl, rfl, rfl, rfl, rfl⟩
  case steering =>
    rw [close_steering]
    exact ⟨fun d k => Bank.get_fill _ _, fun n => Bank.get_fill _ n, rfl, rfl, rfl⟩
  case latch => rw [close_latch, serviceStop_latch]
  case detail =>
    rw [close_detail, serviceStop_faults, Faults.produceStopped_detail, Faults.releaseAll_detail]

end Sys2Proof.Machine
end

section
/-! The entry to SERVING (O19). -/
namespace Sys2Proof.Machine

open Sys2Proof

variable {s : State}

/-! ## Fields of a word -/

theorem field_lt (w : Word) (lo width : Nat) : field w lo width < 2 ^ width :=
  Nat.mod_lt _ (by positivity)

/-- A field that fits a narrower word keeps its value there. -/
theorem toNat_ofNat_field (w : Word) (lo width : Nat) :
    (BitVec.ofNat width (field w lo width)).toNat = field w lo width := by
  rw [BitVec.toNat_ofNat, Nat.mod_eq_of_lt (field_lt w lo width)]

/-! ## The Fault Reporter at the start (Table 9-4, R161) -/

/-- The STARTED notice: number 0, at site time 0, with the ring size in force. -/
def startedNotice (size : Nat) : Notice := ⟨0, 0, ⟨.started, none, 0, 0, BitVec.ofNat 32 size⟩⟩

theorem Faults.start_eq (t : Site) (base : ByteAddr) (size : Nat) :
    Faults.start t.startView base size =
      { Faults.afterReset with
        ringBase := base, ringSize := size, queue := [startedNotice size], sequence := 1 } := rfl

theorem Faults.start_latch (v : FaultView) (base : ByteAddr) (size : Nat) (id : LatchId) :
    (Faults.start v base size).latch id = ⟨false, false, false, none, 0⟩ := by
  cases id with
  | unit n k => exact Bank.get_fill _ _
  | hole d k => exact Bank.get_fill _ _
  | protection => rfl
  | lapse => rfl

/-- A ring of 16 entries or more has room for the STARTED notice. -/
theorem Faults.start_room (v : FaultView) (base : ByteAddr) {size : Nat} (h : 16 ≤ size) :
    (Faults.start v base size).ringFull = false := by
  have empty : (Faults.start v base size).unconsumed = 0 := by
    show (0 + size - 0) % size = 0
    simp
  have size_eq : (Faults.start v base size).ringSize = size := rfl
  rw [Faults.ringFull, empty, size_eq]
  exact decide_eq_false (by omega)

theorem ringEntries_ge (code : Nat) : 16 ≤ ringEntries code :=
  Nat.le_mul_of_pos_right 16 (by positivity)

/-! ## The entry and the end of its event (R32, R153) -/

/-- With no own access about, the event of the entry to SERVING ends with the STARTED notice's deposit
presented, and nothing else of the entry changes. -/
theorem close_enterServing (presented : s.path.ownPresented = none)
    (inFlight : s.path.ownInFlight = none) :
    close (enterServing s) =
      (enterServing s).present
        ((enterServing s).faults.depositOf (startedNotice (ringEntries s.site.ringSizeCode))) := by
  have free : (enterServing s).depositOutstanding = false := by
    simp [State.depositOutstanding, presented, inFlight]
  have room := Faults.start_room s.site.startView (BitVec.ofNat 32 s.site.ringBase)
    (ringEntries_ge s.site.ringSizeCode)
  have may : (enterServing s).faults.mayDeposit .serving = true := by
    rw [mayDeposit_serving, enterServing_faults, room]
    rfl
  rw [close_eq _ (fun stopping : Mode.serving = .stopping => by cases stopping),
    pump_presents rfl free rfl may]
  rfl

theorem linkAtStart_eq (count : Nat) (u : UnitId) :
    linkAtStart count u = if u.val < count then Link.afterReset.inBreak else Link.afterReset := rfl

theorem Steering.start_def (g : Steering) (count epoch : Nat) (d : SectorId) :
    (g.start count epoch).defs.get d =
      if d.val < count then (g.loaded.get d).definition else ⟨0, []⟩ := Bank.get_tabulate _ d

/-- Settles O19, block by block from the values each takes at the entry; the deposit is that of the
STARTED notice at entry 0 of the ring. -/
theorem lastSectorReadEntersServing : Obligations.LastSectorReadEntersServing := by
  intro s g rest a n w0 w1 hg ho hk ha hx presented hm last loaded passes
  let u := (s.setSteering loaded).afterOwnAnswer rest
  have answered : loadAnswered (.loadSector n) (.okay [w0, w1]) (s.afterOwnAnswer rest) =
      enterServing u := (afterSector_last (s := u) last).trans (afterSectors_passing (s := u) passes)
  have ends := close_enterServing (s := u) presented rfl
  have fits : answerFits a.length (.okay [w0, w1]) = true := answerFits_okay ha.symm
  refine ⟨_, (exec_loadReadAnswer hg ho hk hx fits).trans
    (congrArg Host.Outcome.next ((congrArg close answered).trans ends)), rfl,
    ⟨rfl, rfl, rfl, rfl, rfl, rfl⟩, ⟨rfl, fun k => ?stage⟩,
    ⟨fun m => ?context, fun v => Bank.get_fill _ v, fun k => Bank.get_fill _ k⟩, fun v => ?link,
    ?rate, ⟨fun v => Bank.get_tabulate _ v, rfl⟩,
    ⟨fun d => Steering.start_def _ _ _ d, fun d k => Bank.get_fill _ _, fun m => Bank.get_fill _ m,
      rfl, rfl⟩,
    ⟨fun id => Faults.start_latch _ _ _ id, rfl, rfl, rfl, rfl, rfl, rfl, rfl, ?base, rfl, rfl⟩,
    _, rfl, rfl, rfl, ?address⟩
  case stage =>
    show (Stages.afterReset.bank.get k).IsReset
    rw [show Stages.afterReset.bank.get k = Stage.afterReset from Bank.get_fill _ k]
    exact Stage.afterReset_isReset
  case context =>
    show (Carriers.afterReset.contexts.get m).IsReset
    rw [show Carriers.afterReset.contexts.get m = Context.afterReset from Bank.get_fill _ m]
    exact Context.afterReset_isReset
  case link => exact (Bank.get_tabulate _ v).trans (linkAtStart_eq _ v)
  case rate => exact toNat_ofNat_field _ 24 8
  case base => exact toNat_ofNat_field _ 0 32
  case address => exact BitVec.add_zero _

end Sys2Proof.Machine
end

section
/-! The check of the roles misses the undefined codes of w10, which refutes O20. -/
namespace Sys2Proof.Machine

open Sys2Proof

/-! The last branch of `Role.ofCode` reads `none` as the role of that name, so a code of 9 to 15 stands
for `Role.none` where Table 10-1 leaves it undefined, and check 4 of Table 2-8 lets it pass. -/

/-- The copy w5 to w21 of a site of 4 units, 2 sectors and 2 operators. In w10, 0x7298, initiator 0 is
the CONTROLLER, initiator 1 has the undefined role code 9, initiator 2 is OPERATOR 2, and initiator 3 the
OBSERVER; every other field is in range. -/
def roleNineSite : Site where
  mode := .starting
  error := .none
  copy := ⟨#v[0x0020000000100000, 0x0040000000300000, 0x500000, 0x20204, 0x2803E80000, 0x7298,
    0x3E80000, 0x3E80000, 0, 0, 0, 0, 0x05050A02, 0x30402, 0x1020514, 0, 0x11111111]⟩
  time := 0
  owingBreaks := 0

theorem roleNineSite_undefined : roleNineSite.roleCode 1 = 9 := by decide

/-- Check 3 of Table 2-8 passes. -/
theorem roleNineSite_bands :
    ¬ (40 < roleNineSite.maxPower ∨ roleNineSite.rangeHigh ≤ roleNineSite.rangeLow ∨
      ∃ k : Operator, k.val < roleNineSite.operatorCount ∧
        (roleNineSite.bandHigh k ≤ roleNineSite.bandLow k ∨
          roleNineSite.bandLow k < roleNineSite.rangeLow ∨
          roleNineSite.rangeHigh < roleNineSite.bandHigh k)) := by
  decide

/-- The model's validation passes the site, with no sector words loaded. -/
theorem roleNineSite_passes : secondPart roleNineSite Steering.afterReset = none := by
  decide +kernel

/-- Refutes O20: in `roleNineSite` the bands pass and initiator 1's role code 9 is undefined, so the
statement asks for BAD-ROLE, and the model gives no code. -/
theorem not_validationChecksFollowTheTable : ¬ Obligations.ValidationChecksFollowTheTable := by
  intro h
  obtain ⟨checks, -⟩ := h
  obtain ⟨-, -, -, -, -, roles, -⟩ :=
    checks (Path.afterReset 0) roleNineSite Steering.afterReset
  have undefinedRole : ∃ i, 8 < roleNineSite.roleCode i :=
    ⟨1, by rw [roleNineSite_undefined]; decide⟩
  have refused : secondPart roleNineSite Steering.afterReset = some .badRole :=
    roles roleNineSite_bands (.inl undefinedRole)
  rw [roleNineSite_passes] at refused
  cases refused

end Sys2Proof.Machine
end

section
/-! The service stop's posts and its STOPPED notice (O16). -/
namespace Sys2Proof.Machine

open Sys2Proof

variable {s : State} {f : Faults}

/-! ## The posts (R53) -/

theorem Stage.stopped_idle {g : Stage} (idle : g.back = none) : g.stopped = g := by
  simp [Stage.stopped, idle]

/-- The waiting post completes, and the pending one behind it. -/
theorem Stage.stopped_waiting {g : Stage} {p : Post} (waiting : g.back = some p) :
    g.stopped =
      { g with
        back := none, pending := false, lastOutcome := .notServing
        lastSlot := if g.pending then g.front.slot else p.slot
        serial := g.serial + if g.pending then 2 else 1 } := by
  cases h : g.pending with
  | true => simp [Stage.stopped, Stage.complete, waiting, h, BitVec.add_assoc]
  | false => simp [Stage.stopped, Stage.complete, waiting, h]

theorem serviceStop_stage (s : State) (k : Operator) :
    (serviceStop s).stage k = (s.stage k).stopped := Bank.get_tabulate _ k

/-! ## The STOPPED notice (R151) -/

theorem Faults.produceStopped_noPlace (v : FaultView) (full : 16 ≤ f.queue.length) :
    f.produceStopped v = f := if_pos full

theorem Faults.produceStopped_alone (v : FaultView) (room : f.queue.length < 16)
    (alone : f.suppressed = 0 ∨ f.queue.length = 15) :
    f.produceStopped v = f.enqueue v stoppedBody := by
  have noReport : ¬ (0 < f.suppressed ∧ f.queue.length + 2 ≤ Config.noticeRoom) := by
    unfold Config.noticeRoom
    omega
  exact (if_neg (Nat.not_le.mpr room)).trans (if_neg noReport)

theorem Faults.produceStopped_behind (v : FaultView) (room : f.queue.length < 15)
    (counted : 0 < f.suppressed) :
    f.produceStopped v = (f.enqueueSuppressed v).enqueue v stoppedBody := by
  have noRefusal : ¬ Config.noticeRoom ≤ f.queue.length := by
    unfold Config.noticeRoom
    omega
  have report : 0 < f.suppressed ∧ f.queue.length + 2 ≤ Config.noticeRoom :=
    ⟨counted, by unfold Config.noticeRoom; omega⟩
  exact (if_neg noRefusal).trans (if_pos report)

/-! ## The notice queue at the end of an event in STOPPING (R35, R151) -/

/-- In STOPPING a full ring discards the queue where no deposit is outstanding, and the end of the
event changes nothing else of the Fault Reporter. -/
theorem close_stopping_faults (hm : s.site.mode = .stopping) :
    (close s).faults = s.faults.afterFullRing (!s.depositOutstanding) := by
  have pumped : (close s).faults = (pump s).faults := by
    unfold close finishStop
    split <;> rfl
  have stays : s.depositOutstanding = true ∨ s.faults.queue = [] ∨ s.faults.ringFull = false →
      s.faults.afterFullRing (!s.depositOutstanding) = s.faults := by
    intro why
    refine if_neg fun ⟨free, queued, full⟩ => ?_
    rcases why with outstanding | empty | room
    · simp [outstanding] at free
    · exact queued empty
    · simp [room] at full
  rw [pumped]
  unfold pump
  split
  · next outstanding => exact (stays (.inl outstanding)).symm
  next free =>
  split
  · next empty => exact (stays (.inr (.inl empty))).symm
  · next x rest queued =>
    cases full : s.faults.ringFull with
    | true =>
      simp [hm, Faults.makeRoom, mayDeposit_stopping, full, Faults.afterFullRing, free, queued,
        Faults.discardQueue, Config.halfTop]
    | false =>
      rw [stays (.inr (.inr full))]
      simp [hm, Faults.makeRoom, mayDeposit_stopping, full]

/-- Settles O16: stage 7 of the stop completes the posts and stage 8 queues the STOPPED notice, and the end
of the event then meets the ring. -/
theorem serviceStopCompletesPostsAndQueuesStopped :
    Obligations.ServiceStopCompletesPostsAndQueuesStopped := by
  constructor
  · intro s k inService
    have stage : (close (serviceStop s)).stage k = (s.stage k).stopped := by
      rw [State.stage, close_stages]
      exact serviceStop_stage s k
    refine ⟨_, stopReq inService, by rw [close_stages]; rfl, fun idle => ?_, fun p waiting => ?_⟩
    · rw [stage, Stage.stopped_idle idle]
    · rw [stage, Stage.stopped_waiting waiting]
  · intro s inService
    have stopping : (serviceStop s).site.mode = .stopping := rfl
    obtain ⟨producer, consumer, size, base, depositFault, -⟩ := serviceStop_ring s
    refine ⟨_, (serviceStop s).faults, stopReq inService, close_stopping_faults stopping,
      StopGoesOn.close stopping, ⟨producer, consumer, size, base, depositFault⟩, ?_, ?_, ?_⟩ <;>
      rw [serviceStop_faults]
    · intro full
      rw [Faults.produceStopped_noPlace _ (by simpa using full)]
      simp
    · intro room alone
      rw [Faults.produceStopped_alone _ (by simpa using room) (by simpa using alone)]
      simp [Faults.enqueue, stoppedBody, State.stopView]
    · intro room suppressed
      rw [Faults.produceStopped_behind _ (by simpa using room) (by simpa using suppressed)]
      simp [Faults.enqueueSuppressed, Faults.enqueue, stoppedBody, suppressedBody, State.stopView,
        BitVec.add_assoc]

end Sys2Proof.Machine
end

section
/-! Posts and the removal from the changed sets (O32, O33). -/
namespace Sys2Proof.Machine

open Sys2Proof

variable {s : State}

theorem State.stageWritable_of (inService : s.site.mode.inService = true) {k : Operator}
    (inCount : k.val < s.site.operatorCount) : s.stageWritable k = true := by
  simp [State.stageWritable, inService, inCount]

/-! ## A write of s2 (R41 to R44) -/

/-- The post fields with the mode and the slot that a write of s2 brings (R41). -/
def Post.withFields (m : PostMode) (b : Beat) (p : Post) : Post :=
  { p with
    mode := m, slot := if b.enables.getLsbD 1 then BitVec.ofNat 8 (field b.data 8 8) else p.slot }

theorem Post.store_eq {p : Post} {b : Beat} {m : PostMode}
    (mode : PostMode.ofCode (p.modeAfter b) = some m) : p.store b = p.withFields m b := by
  simp [Post.store, Post.withFields, mode]

/-- The mode after a write of s2: the one byte 0 brings where it is enabled, and the stored one
otherwise (R41). -/
theorem Post.ofCode_modeAfter {p : Post} {b : Beat} {m : PostMode}
    (mode : if b.enables.getLsbD 0 = true then PostMode.ofCode (field b.data 0 2) = some m
      else m = p.mode) : PostMode.ofCode (p.modeAfter b) = some m := by
  unfold Post.modeAfter
  split
  · next brought => rwa [if_pos brought] at mode
  · next kept =>
    rw [if_neg kept] at mode
    rw [mode, p.mode.ofCode_code]

theorem postWritten_refused {k : Operator} {b : Beat} (refused : (s.stage k).refusesPost b = true) :
    postWritten k b s = s := by
  simp [postWritten, refused]

theorem Post.withFields_full (m : PostMode) (data : Word) (p : Post) :
    p.withFields m ⟨data, allEnables⟩ =
      { p with mode := m, slot := BitVec.ofNat 8 (field data 8 8) } := by
  simp [Post.withFields, allEnables]

/-- The stage whose front half has stored the fields of a write of s2 (R41). -/
def Stage.withFields (m : PostMode) (b : Beat) (g : Stage) : Stage :=
  { g with front := g.front.withFields m b }

/-- A write of s2 that is taken stores its fields, and a full one acts as well. -/
theorem postWritten_stored {k : Operator} {b : Beat} {m : PostMode}
    (writable : s.stageWritable k = true) (free : (s.stage k).pending = false)
    (mode : PostMode.ofCode ((s.stage k).front.modeAfter b) = some m) :
    postWritten k b s = s.setStage k
      (if b.enables = allEnables then ((s.stage k).withFields m b).post
        else (s.stage k).withFields m b) := by
  have isDefined : (s.stage k).front.modeAfter b ≠ 3 := fun three => by
    rw [three] at mode
    cases mode
  have taken : (s.stage k).refusesPost b = false := by simp [Stage.refusesPost, free, isDefined]
  simp [postWritten, writable, taken, Stage.deliverPost, free, Post.store_eq mode, Stage.withFields]

/-- A full post copies the front half into an IDLE back half, or waits as pending (R42, R43). -/
theorem Stage.post_eq (g : Stage) :
    g.post = if g.back = none then { g with back := some g.front } else { g with pending := true } := by
  cases h : g.back <;> simp [Stage.post, h]

/-- Settles O32: a write that is taken stores its fields, and a refused one changes nothing. -/
theorem postsAreStoredAndActed : Obligations.PostsAreStoredAndActed := by
  intro s k data enables inService inCount g slot
  have writable := State.stageWritable_of inService inCount
  have full : exec (.fullPost k data) s = .next (postWritten k ⟨data, allEnables⟩ s) := rfl
  refine ⟨fun m free mode => ?_, fun m free notFull mode => ?_, fun refused => ?_, fun refused => ?_⟩
  · have brought : PostMode.ofCode (g.front.modeAfter ⟨data, allEnables⟩) = some m :=
      Post.ofCode_modeAfter (by simpa [allEnables] using mode)
    rw [full, postWritten_stored writable free brought, if_pos rfl, Stage.post_eq,
      Stage.withFields, Post.withFields_full]
  · rw [exec_shortPost notFull,
      postWritten_stored (b := ⟨data, enables⟩) writable free (Post.ofCode_modeAfter mode)]
    exact congrArg (fun g => Host.Outcome.next (s.setStage k g)) (if_neg notFull)
  · have named : (s.stage k).pending = true ∨ (allEnables.getLsbD 0 = true ∧ field data 0 2 = 3) :=
      refused.imp_right fun three => ⟨rfl, three⟩
    rw [full, postWritten_refused ((Stage.refusesPost_iff _ _).mpr named)]
  · by_cases notFull : enables = allEnables
    · simp [exec, execShortPost, notFull]
    · rw [exec_shortPost notFull, postWritten_refused ((Stage.refusesPost_iff _ _).mpr refused)]

/-! ## The removal from a changed set (R51) -/

/-- A write of s3 names slots 0 to 63, and one of s4 the slots from 64. -/
theorem getLsbD_namedSlots (high : Bool) (names : Word) (n : SlotId) :
    (namedSlots high names).getLsbD n.val =
      if high then decide (64 ≤ n.val) && names.getLsbD (n.val - 64)
      else decide (n.val < 64) && names.getLsbD n.val := by
  have isSlot := n.isLt
  cases high with
  | false =>
    by_cases low : n.val < 64
    · simp [namedSlots, low]
    · simp [namedSlots, low, BitVec.getLsbD_of_ge names _ (Nat.not_lt.mp low)]
  | true =>
    have inWord : n.val - 64 < 32 := by omega
    by_cases low : n.val < 64
    · simp [namedSlots, low]
    · have above : 64 ≤ n.val := Nat.not_lt.mp low
      simp [namedSlots, low, above, inWord]

/-- Settles O33: the named slots leave one operator's set, bit by bit. -/
theorem namedSlotsLeaveTheChangedSet : Obligations.NamedSlotsLeaveTheChangedSet := by
  intro s k high names inService inCount
  have row := exec_changedSetRemove (State.stageWritable_of inService inCount) high names
  refine ⟨_, row, rfl, rfl, rfl, fun n => ?named, fun j other => Bank.get_put_ne _ _ other⟩
  case named =>
    have removed : (removeChanged k high names s).carriers.changed.get k =
        s.carriers.changed.get k &&& ~~~ namedSlots high names := Bank.get_put_self _ _ _
    rw [removed, BitVec.getLsbD_and, BitVec.getLsbD_not, getLsbD_namedSlots]
    simp

end Sys2Proof.Machine
end

section
/-! The validator's turns, and the validation of a post that fails a check (O34). -/
namespace Sys2Proof.Machine

open Sys2Proof

variable {s : State} {k : Operator} {p : Post} {o : Outcome}

/-! ## Whose turn it is (R45) -/

/-- How many stages come before stage `k` in cyclic order behind the stage `last`. -/
def turnBehind (last k : Operator) : Nat := (k.val + 5 - last.val) % 6

theorem mem_cyclicAfter : ∀ last k : Operator, k ∈ cyclicAfter last := by decide

theorem cyclicAfter_ascending : ∀ last : Operator,
    (cyclicAfter last).Pairwise fun j k => turnBehind last j < turnBehind last k := by decide

theorem Stages.next_iff (t : Stages) (k : Operator) (p : Post) :
    t.next = some (k, p) ↔
      (t.bank.get k).back = some p ∧
      ∀ j, (t.bank.get j).back ≠ none → turnBehind t.lastServed k ≤ turnBehind t.lastServed j := by
  have ascending := cyclicAfter_ascending t.lastServed
  unfold Stages.next
  rw [List.findSome?_eq_some_iff]
  constructor
  · rintro ⟨before, k', behind, split, found, earlierIdle⟩
    obtain ⟨p', waiting, pair⟩ := Option.map_eq_some_iff.mp found
    obtain ⟨rfl, rfl⟩ := Prod.mk.inj pair
    refine ⟨waiting, fun j posted => ?_⟩
    have member := mem_cyclicAfter t.lastServed j
    rw [split] at member ascending
    rcases List.mem_append.mp member with earlier | here
    · exact absurd (Option.map_eq_none_iff.mp (earlierIdle j earlier)) posted
    · rcases List.mem_cons.mp here with rfl | later
      · exact le_rfl
      · exact (List.rel_of_pairwise_cons (List.pairwise_append.mp ascending).2.1 later).le
  · rintro ⟨waiting, first⟩
    obtain ⟨before, behind, split⟩ := List.append_of_mem (mem_cyclicAfter t.lastServed k)
    refine ⟨before, k, behind, split, by rw [waiting]; rfl, fun j earlier => ?_⟩
    rw [split] at ascending
    obtain ⟨-, -, apart⟩ := List.pairwise_append.mp ascending
    have sooner := apart j earlier k List.mem_cons_self
    by_contra posted
    exact absurd (first j fun idle => posted (Option.map_eq_none_iff.mpr idle)) (Nat.not_le.mpr sooner)

/-! ## A validation (R46, R58) -/

theorem validation_idle {m : PostMode} (h : ∀ k p, s.stages.next = some (k, p) → p.mode ≠ m) :
    validation m s = s := by
  unfold validation
  split
  · next k p next => exact if_neg (h k p next)
  · rfl

theorem validation_next (next : s.stages.next = some (k, p)) :
    validation p.mode s = close (settling (validate k p) s) := by
  simp [validation, next]

theorem Stage.validated_eq (o : Outcome) (p : Post) (g : Stage) :
    g.validated o p = g.afterValidation o p := by
  cases h : g.pending <;> simp [Stage.validated, Stage.afterValidation, Stage.complete, h]

/-- A post that fails a check completes its stage, and nothing else changes. -/
theorem validate_failing (fails : checkPost s k p = .inr o) :
    validate k p s = s.setStages (s.stages.afterValidation k p o) := by
  have judged : judgePost s k p = (s, o) := by simp [judgePost, fails]
  simp [validate, judged, Stages.afterValidation, Stage.validated_eq]

/-- No cell's figures change, so the failed validation decides no standing. -/
theorem validation_failing (next : s.stages.next = some (k, p)) (fails : checkPost s k p = .inr o) :
    validation p.mode s = close (s.setStages (s.stages.afterValidation k p o)) := by
  have steering : (validate k p s).steering = s.steering := by rw [validate_failing fails]; rfl
  rw [validation_next next, settling_same steering, validate_failing fails]

/-- Beside the stages it changes, the end of such an event stays on the log side. -/
theorem OnlyLog.close_setStages (x : Stages) (hm : s.site.mode ≠ .stopping) :
    OnlyLog s ((close (s.setStages x)).setStages s.stages) :=
  congrArg (fun t : State => t.setStages s.stages) (close_onlyLog (s.setStages x) hm)

/-- Settles O34: the order of the turns, and the end of the event of a failed validation. -/
theorem validatorTakesTurnsAndCompletesPosts : Obligations.ValidatorTakesTurnsAndCompletesPosts := by
  constructor
  · intro s
    exact ⟨s.stages.next_iff, fun h => congrArg Host.Outcome.next (validation_idle h),
      fun h => congrArg Host.Outcome.next (validation_idle h),
      fun h => congrArg Host.Outcome.next (validation_idle h)⟩
  · intro s k p o c next fails hm row
    have meaning : exec c s = .next (validation p.mode s) := by
      rcases row with ⟨rfl, mode⟩ | ⟨rfl, mode⟩ | ⟨rfl, mode⟩ <;> rw [mode] <;> rfl
    rw [validation_failing next fails] at meaning
    exact ⟨_, meaning, close_stages _, OnlyLog.close_setStages _ hm,
      PresentsNext.close (s.setStages _) hm, LogTells.close (e := s.setStages _) hm rfl rfl rfl,
      fun id => close_latch _ id⟩

end Sys2Proof.Machine
end

section
/-! The checks of Table 4-4, and the fields of a post (O35). -/
namespace Sys2Proof.Machine

open Sys2Proof

/-! ## The first of a table of checks that fails -/

/-- `r` is the outcome of the first check of the table that fails, or none where all pass: each row
says when its check fails, and the outcome it gives. -/
def FirstFailing : List (Prop × Outcome) → Option Outcome → Prop
  | [], r => r = none
  | row :: rest, r => (row.1 → r = some row.2) ∧ (¬ row.1 → FirstFailing rest r)

namespace FirstFailing

variable {table : List (Prop × Outcome)} {r : Option Outcome}

theorem of_all_pass (pass : ∀ row ∈ table, ¬ row.1) : FirstFailing table none := by
  induction table with
  | nil => rfl
  | cons row rest ih =>
    exact ⟨fun fails => absurd fails (pass row List.mem_cons_self),
      fun _ => ih fun x later => pass x (List.mem_cons_of_mem _ later)⟩

/-- One check, made by a condition that says when it fails, before the others. -/
theorem check {c fails : Prop} [Decidable c] {o : Outcome} (means : c ↔ fails)
    (others : FirstFailing table r) :
    FirstFailing ((fails, o) :: table) (if c then some o else r) :=
  ⟨fun failed => if_pos (means.mpr failed), fun passed => by
    rwa [if_neg fun h => passed (means.mp h)]⟩

theorem eq_none (h : FirstFailing table r) (pass : ∀ row ∈ table, ¬ row.1) : r = none := by
  induction table with
  | nil => exact h
  | cons row rest ih =>
    exact ih (h.2 (pass row List.mem_cons_self)) fun x later =>
      pass x (List.mem_cons_of_mem _ later)

theorem all_pass (h : FirstFailing table none) : ∀ row ∈ table, ¬ row.1 := by
  induction table with
  | nil => exact fun _ => (nomatch ·)
  | cons head rest ih =>
    have passes : ¬ head.1 := fun fails => nomatch h.1 fails
    exact List.forall_mem_cons.mpr ⟨passes, ih (h.2 passes)⟩

theorem eq_some (h : FirstFailing table r) {i : Nat} {row : Prop × Outcome}
    (at_i : table[i]? = some row) (fails : row.1)
    (first : ∀ (j : Nat) (x : Prop × Outcome), j < i → table[j]? = some x → ¬ x.1) :
    r = some row.2 := by
  induction table generalizing i with
  | nil => cases at_i
  | cons head rest ih =>
    cases i with
    | zero =>
      obtain rfl : head = row := by simpa using at_i
      exact h.1 fails
    | succ i =>
      exact ih (h.2 (first 0 head (Nat.succ_pos i) rfl)) at_i fun j x lt at_j =>
        first (j + 1) x (Nat.succ_lt_succ lt) at_j

end FirstFailing

/-! ## The table (R58, R59) -/

section
variable {s : State} {k : Operator} {p : Post} {n : SlotId}

/-- The modes that a slot's state allows (Table 4-5). -/
theorem modeAllowed_iff (m : PostMode) (c : CarrierState) :
    modeAllowed m c = true ↔
      c = .vacant ∨ (c = .searching ∧ m = .release) ∨
        ((c = .waiting ∨ c = .onAir ∨ c = .suspended) ∧ m ≠ .search) := by
  cases c <;> cases m <;> decide

theorem Post.badField_iff (p : Post) (maxPower : Nat) :
    p.badField maxPower = true ↔
      p.tuningFields.bandwidth.toNat < 1 ∨ 4 < p.tuningFields.bandwidth.toNat ∨
        maxPower < p.tuningFields.power.toNat ∨
        (p.mode = .search ∧ (p.step = 0 ∨ p.stopLevel = 0)) := by
  simp [Post.badField, or_assoc]

/-- The channel checks 8 to 10 are about: the start channel of a SEARCH, the channel of any
other post. -/
def Post.centre (p : Post) : BitVec 16 :=
  if p.mode = .search then p.startChannel else p.tuningFields.channel

theorem Post.interval_eq (p : Post) :
    p.interval = intervalOf p.centre.toNat p.tuningFields.bandwidth := by
  unfold Post.interval Post.centre
  cases p.mode <;> rfl

theorem Interval.not_inside_iff (i : Interval) (low high : Nat) :
    (!i.inside low high) = true ↔ ¬ ((low : Int) ≤ i.low ∧ i.high ≤ (high : Int)) := by
  rw [Bool.not_eq_true', Interval.inside, decide_eq_false_iff_not]

theorem Carriers.overlapsOthers_iff (c : Carriers) (n : SlotId) (i : Interval) :
    c.overlapsOthers n i = true ↔
      ∃ e ∈ c.occupancy.get (slotUnit n), e.slot ≠ n ∧
        max e.interval.low i.low < min e.interval.high i.high := by
  simp only [Carriers.overlapsOthers, Interval.overlaps, List.any_eq_true, Bool.and_eq_true,
    bne_iff_ne, decide_eq_true_eq]

/-- The mode of the post places a carrier: TUNE or SEARCH. -/
def Post.Places (p : Post) : Prop := p.mode = .tune ∨ p.mode = .search

/-- The rows of Table 4-4 from check 3 on: when each fails on slot `n`, and its outcome. -/
def slotChecks (s : State) (k : Operator) (p : Post) (n : SlotId) : List (Prop × Outcome) :=
  let c := s.context n
  let u := s.unit (slotUnit n)
  let i := intervalOf p.centre.toNat p.tuningFields.bandwidth
  [(c.state ≠ .vacant ∧ c.owner ≠ some k, .notOwner),
    (¬ (c.state = .vacant ∨ (c.state = .searching ∧ p.mode = .release) ∨
        ((c.state = .waiting ∨ c.state = .onAir ∨ c.state = .suspended) ∧ p.mode ≠ .search)),
      .slotBusy),
    (p.Places ∧ u.state ≠ .live ∧ ¬ (p.mode = .tune ∧ c.state = .suspended), .unitDown),
    (p.mode = .search ∧ u.garbled = true, .linkPoor),
    (p.Places ∧ (p.tuningFields.bandwidth.toNat < 1 ∨ 4 < p.tuningFields.bandwidth.toNat ∨
      s.site.maxPower < p.tuningFields.power.toNat ∨
      (p.mode = .search ∧ (p.step = 0 ∨ p.stopLevel = 0))), .badField),
    (p.Places ∧ ¬ ((s.site.rangeLow : Int) ≤ i.low ∧ i.high ≤ (s.site.rangeHigh : Int)),
      .outOfRange),
    (p.Places ∧ ¬ ((s.site.bandLow k : Int) ≤ i.low ∧ i.high ≤ (s.site.bandHigh k : Int)),
      .outOfBand),
    (p.mode = .tune ∧ ∃ e ∈ s.carriers.occupancy.get (slotUnit n), e.slot ≠ n ∧
      max e.interval.low i.low < min e.interval.high i.high, .overlap)]

/-- The checks of a slot are those of the table, in its order. A RELEASE is asked the first two
alone. -/
theorem checkSlot_firstFailing (s : State) (k : Operator) (p : Post) (n : SlotId) :
    FirstFailing (slotChecks s k p n) (checkSlot s k p n) := by
  unfold checkSlot slotChecks
  refine .check Iff.rfl (.check (by simp [← modeAllowed_iff]) ?_)
  by_cases releases : p.mode = .release
  · rw [if_pos releases]
    refine .of_all_pass ?_
    simp [Post.Places, releases]
  · have places : p.Places := by
      unfold Post.Places
      cases mode : p.mode with
      | tune => exact .inl rfl
      | search => exact .inr rfl
      | release => exact absurd mode releases
    rw [if_neg releases, Post.interval_eq]
    refine .check (and_iff_right places).symm <| .check Iff.rfl <|
      .check ((p.badField_iff _).trans (and_iff_right places).symm) <|
      .check ((Interval.not_inside_iff _ _ _).trans (and_iff_right places).symm) <|
      .check ((Interval.not_inside_iff _ _ _).trans (and_iff_right places).symm) <|
      .check (and_congr_right fun _ => Carriers.overlapsOthers_iff _ _ _) rfl

theorem checkPost_notServing (k : Operator) (p : Post) (h : s.site.mode.inService = false) :
    checkPost s k p = .inr .notServing := by
  simp [checkPost, h]

theorem checkPost_badSlot (k : Operator) (inService : s.site.mode.inService = true)
    (h : 4 * s.site.unitCount ≤ p.slot.toNat ∨ 96 ≤ p.slot.toNat) :
    checkPost s k p = .inr .badSlot := by
  unfold checkPost slotOfValue
  rw [inService]
  by_cases configured : 4 * s.site.unitCount ≤ p.slot.toNat
  · simp [configured]
  · simp [configured, Nat.not_lt.mpr (h.resolve_left configured)]

/-- A post to a configured slot: the outcome of the slot's checks, or the slot. -/
theorem checkPost_slot (k : Operator) (inService : s.site.mode.inService = true)
    (slot : p.slot.toNat = n.val) (configured : n.val < 4 * s.site.unitCount) :
    checkPost s k p = (checkSlot s k p n).elim (.inl n) .inr := by
  have named : slotOfValue p.slot = some n := by simp [slotOfValue, slot]
  have inCount : ¬ 4 * s.site.unitCount ≤ p.slot.toNat := by omega
  unfold checkPost
  rw [inService, named, Bool.not_true, if_neg Bool.false_ne_true, if_neg inCount]
  dsimp only
  cases checkSlot s k p n <;> rfl

/-- A post that passes is made in service, to a slot whose checks it passes. -/
theorem checkPost_passes (pass : checkPost s k p = .inl n) :
    s.site.mode.inService = true ∧ checkSlot s k p n = none := by
  have inService : s.site.mode.inService = true := by
    by_contra out
    rw [checkPost_notServing k p (Bool.not_eq_true _ ▸ out)] at pass
    cases pass
  have configured : ¬ (4 * s.site.unitCount ≤ p.slot.toNat ∨ 96 ≤ p.slot.toNat) := fun bad => by
    rw [checkPost_badSlot k inService bad] at pass
    cases pass
  rw [checkPost_slot (n := ⟨p.slot.toNat, by omega⟩) k inService rfl (by simp; omega)] at pass
  cases passes : checkSlot s k p ⟨p.slot.toNat, by omega⟩ with
  | some o => rw [passes] at pass; cases pass
  | none => rw [passes] at pass; cases pass; exact ⟨inService, passes⟩

/-- A post that passes names a VACANT slot or one of its own operator's (check 3). -/
theorem checkPost_owner (pass : checkPost s k p = .inl n) :
    (s.context n).state = .vacant ∨ (s.context n).owner = some k := by
  have table := checkSlot_firstFailing s k p n
  rw [(checkPost_passes pass).2] at table
  by_contra foreign
  exact table.all_pass _ List.mem_cons_self (not_or.mp foreign)

end

/-! ## The fields (Table 10-5) -/

theorem field_low (w : Word) (width : Nat) : field w 0 width = w.toNat % 2 ^ width := by
  simp [field]

theorem PostMode.ofCode_undefined {m : Nat} (h : 3 ≤ m) : PostMode.ofCode m = none := by
  have h0 : m ≠ 0 := by omega
  have h1 : m ≠ 1 := by omega
  have h2 : m ≠ 2 := by omega
  simp [PostMode.ofCode, h0, h1, h2]

/-- Settles O35: the checks of a slot are a table whose first failing row decides. -/
theorem postsPassTheTableOfChecks : Obligations.PostsPassTheTableOfChecks := by
  refine ⟨fun s k p => ⟨checkPost_notServing k p, checkPost_badSlot k, ?_⟩, fun p => ?_,
    rfl, rfl, rfl, fun _ => PostMode.ofCode_undefined⟩
  · intro n inService slot configured
    have row := checkPost_slot k inService slot configured
    have table : FirstFailing _ (checkSlot s k p n) := checkSlot_firstFailing s k p n
    constructor
    · intro i x at_i fails first
      exact row.trans (by rw [table.eq_some at_i fails first]; rfl)
    · intro pass
      exact row.trans (by rw [table.eq_none pass]; rfl)
  · exact ⟨⟨(toNat_ofNat_field _ 0 16).trans (field_low _ _), toNat_ofNat_field _ 16 8,
      toNat_ofNat_field _ 24 8⟩, (toNat_ofNat_field _ 0 16).trans (field_low _ _), rfl, rfl, rfl⟩

end Sys2Proof.Machine
end

section
/-! Events of one carrier slot: its context, its unit's link and its cell, from the operations that
make the event to its end. -/
namespace Sys2Proof.Machine

open Sys2Proof

variable {s t u e : State} {n : SlotId} {c : Context} {o : Option Operator}

/-! ## The operator a change tells (R49) -/

namespace Context

variable {old new : Context}

/-- A change of state that does not vacate the slot tells its owner after it. -/
theorem told_owner (change : old.state ≠ new.state) (stays : new.state ≠ .vacant) :
    old.told new = new.owner := by
  simp [told, change, stays]

/-- A slot that becomes VACANT tells its owner before it. -/
theorem told_vacated (change : old.state ≠ new.state) (vacant : new.state = .vacant) :
    old.told new = old.owner := by
  rw [vacant] at change
  simp [told, change, vacant]

/-- Where the state stays, a change of the last outcome tells the owner. -/
theorem told_outcome (same : old.state = new.state) (stays : new.state ≠ .vacant) :
    old.told new = if old.outcome = new.outcome then none else new.owner := by
  simp [told, same, stays]

end Context

/-! ## Links -/

/-- No link but that of unit `u` differs. -/
def OtherLinksStay (u : UnitId) (s t : State) : Prop := ∀ j, j ≠ u → t.link j = s.link j

namespace OtherLinksStay

variable {w : UnitId}

theorem of_links (h : t.links = s.links) : OtherLinksStay w s t := fun j _ => by
  unfold State.link
  rw [h]

theorem trans (h : OtherLinksStay w s t) (k : OtherLinksStay w t u) : OtherLinksStay w s u :=
  fun j hj => (k j hj).trans (h j hj)

theorem onLink (s : State) (w f) : OtherLinksStay w s (s.onLink w f) :=
  fun _ hj => State.link_onLink_ne s f hj

/-- The unit's link put back, the links are as they were. -/
theorem put_back (h : OtherLinksStay w s t) : t.links.put w (s.link w) = s.links := by
  refine Bank.ext_get fun j => ?_
  rw [Bank.get_put]
  split
  · next here => rw [here]; rfl
  · next other => exact h j other

end OtherLinksStay

theorem State.updateSlot_links (s : State) (n c) : (s.updateSlot n c).links = s.links := by
  unfold State.updateSlot
  simp only
  split
  · rfl
  · split <;> rfl

@[simp] theorem State.updateSlot_steering (s : State) (n c) :
    (s.updateSlot n c).steering = s.steering := by
  unfold State.updateSlot
  simp only
  split
  · rfl
  · split <;> rfl

@[simp] theorem State.link_updateSlot (s : State) (n c w) :
    (s.updateSlot n c).link w = s.link w := by
  unfold State.link
  rw [State.updateSlot_links]

@[simp] theorem State.context_updateSlot (s : State) (n c) : (s.updateSlot n c).context n = c :=
  (SlotChanged.updateSlot s n c).1

/-! ## Commands of a slot (R63, R66, R84, R96) -/

theorem SlotChanged.onLink (h : SlotChanged n c o s t) (w f) : SlotChanged n c o s (t.onLink w f) :=
  h.of_carriers rfl

/-- A slot takes a context whose change tells `o`. -/
theorem SlotChanged.updateSlot_telling (c : Context) (tells : (s.context n).told c = o) :
    SlotChanged n c o s (s.updateSlot n c) :=
  tells ▸ .updateSlot s n c

/-- A slot that changes twice, telling the same operator both times. -/
theorem SlotChanged.again {c' : Context} (h : SlotChanged n c o s t) (k : SlotChanged n c' o t u) :
    SlotChanged n c' o s u := by
  obtain ⟨-, others, lists, sets⟩ := h
  obtain ⟨here, others', lists', sets'⟩ := k
  refine ⟨here, fun m hm => (others' m hm).trans (others m hm), fun w => ?_, fun j m => ?_⟩
  · rw [lists' w]
    split
    · rfl
    · next other => rw [lists w, if_neg other]
  · rw [sets' j m, sets j m, Bool.or_assoc, Bool.or_self]

/-- A command queued or deferred behind an orphan: what of it the context holds. -/
theorem SlotChanged.queueOrDefer (h : SlotChanged n c o s t) (x : Command) :
    SlotChanged n { c with deferred := if c.orphan then some x else c.deferred } o s
      (t.queueOrDefer n x) := by
  have here : t.context n = c := h.1
  unfold State.queueOrDefer
  rw [here]
  split
  · exact h.setContext_again _
  · exact h.onLink _ _

theorem State.link_queueOrDefer (s : State) (n x) :
    (s.queueOrDefer n x).link (slotUnit n) =
      if (s.context n).orphan then s.link (slotUnit n)
      else { s.link (slotUnit n) with queue := (s.link (slotUnit n)).queue ++ [x] } := by
  unfold State.queueOrDefer
  split
  · rfl
  · exact State.link_onLink_self _ _ _

@[simp] theorem State.queueOrDefer_steering (s : State) (n x) :
    (s.queueOrDefer n x).steering = s.steering := by
  unfold State.queueOrDefer
  split <;> rfl

theorem OtherLinksStay.queueOrDefer (s : State) (n x) :
    OtherLinksStay (slotUnit n) s (s.queueOrDefer n x) := by
  unfold State.queueOrDefer
  split
  · exact .of_links rfl
  · exact .onLink s _ _

theorem SlotChanged.supersede (h : SlotChanged n c o s t) (x : Tuning) :
    SlotChanged n
      { c with deferred := if c.deferred.isSome then some (.tune n x) else c.deferred } o s
      (t.supersede n x) := by
  have here : t.context n = c := h.1
  unfold State.supersede
  rw [here]
  split
  · exact h.setContext_again _
  · exact h.onLink _ _

theorem State.link_supersede (s : State) (n x) :
    (s.supersede n x).link (slotUnit n) =
      if (s.context n).deferred.isSome then s.link (slotUnit n)
      else (s.link (slotUnit n)).supersede n x := by
  unfold State.supersede
  split
  · rfl
  · exact State.link_onLink_self _ _ _

@[simp] theorem State.supersede_steering (s : State) (n x) :
    (s.supersede n x).steering = s.steering := by
  unfold State.supersede
  split <;> rfl

theorem OtherLinksStay.supersede (s : State) (n x) :
    OtherLinksStay (slotUnit n) s (s.supersede n x) := by
  unfold State.supersede
  split
  · exact .of_links rfl
  · exact .onLink s _ _

theorem SlotChanged.withdraw (h : SlotChanged n c o s t) :
    SlotChanged n { c with deferred := none } o s (t.withdraw n) := by
  have here : t.context n = c := h.1
  unfold State.withdraw
  rw [here]
  split
  · exact h.setContext_again _
  · next queued =>
    have absent : c.deferred = none := by simpa using queued
    rw [← absent]
    exact h.onLink _ _

theorem State.link_withdraw (s : State) (n) :
    (s.withdraw n).link (slotUnit n) =
      if (s.context n).deferred.isSome then s.link (slotUnit n)
      else (s.link (slotUnit n)).remove n := by
  unfold State.withdraw
  split
  · rfl
  · exact State.link_onLink_self _ _ _

@[simp] theorem State.withdraw_steering (s : State) (n) : (s.withdraw n).steering = s.steering := by
  unfold State.withdraw
  split <;> rfl

theorem OtherLinksStay.withdraw (s : State) (n) : OtherLinksStay (slotUnit n) s (s.withdraw n) := by
  unfold State.withdraw
  split
  · exact .of_links rfl
  · exact .onLink s _ _

/-- What a superseding makes of each queued command: the slot's TUNE has the new tuning (R96). -/
theorem Link.getElem?_supersede {l : Link} {i : Nat} {x : Command} (n : SlotId) (v : Tuning)
    (at_i : l.queue[i]? = some x) :
    (l.supersede n v).queue[i]? = some (if x.code = 1 ∧ x.slot = some n then .tune n v else x) := by
  simp only [Link.supersede, List.getElem?_map, at_i, Option.map_some, Option.some.injEq]
  cases x with
  | tune m u => by_cases here : m = n <;> simp [Command.code, Command.slot, here]
  | drop | scan | poll => rfl

/-- What a replacement with a DROP makes of each queued command: the slot's TUNE is the DROP
(R96). -/
theorem Link.getElem?_replaceWithDrop {l : Link} {i : Nat} {x : Command} (n : SlotId)
    (at_i : l.queue[i]? = some x) :
    (l.replaceWithDrop n).queue[i]? =
      some (if x.code = 1 ∧ x.slot = some n then .drop n else x) := by
  simp only [Link.replaceWithDrop, List.getElem?_map, at_i, Option.map_some, Option.some.injEq]
  cases x with
  | tune m u => by_cases here : m = n <;> simp [Command.code, Command.slot, here]
  | drop | scan | poll => rfl

/-! ## The end of a slot's event (R132, R153) -/

/-- An event of a slot of unit `w` before its standings are decided: nothing but Carrier Control,
the unit's link and the Steering Engine differs, and no cell's trend does. -/
structure SlotEvent (w : UnitId) (s e : State) : Prop where
  frame : CarrierFrame s e
  quiet : Quiet s e
  links : OtherLinksStay w s e

/-- `t` has Carrier Control and the links of the event `e`, which began in `s`, and the Steering
Engine with the standings decided that the event changed. -/
structure Ends (s e t : State) : Prop where
  carriers : t.carriers = e.carriers
  links : t.links = e.links
  steering : ∃ d : State, d.steering = e.steering ∧
    t.steering = (decideStandings s.steering d).steering

namespace Ends

theorem close (s e : State) (x : Stages) :
    Ends s e (close (decideStandings s.steering (e.setStages x))) := by
  obtain ⟨-, carriers, links, -, steering, -⟩ := close_settled s.steering (e.setStages x)
  exact ⟨carriers, links, e.setStages x, rfl, steering⟩

variable (h : Ends s e t)
include h

theorem slot (k : SlotChanged n c o s e) : SlotChanged n c o s t := k.of_carriers h.carriers

theorem link (w : UnitId) : t.link w = e.link w := by
  unfold State.link
  rw [h.links]

theorem figures {k : Option Operator} {fr : SteeringRecord → SteeringRecord} {f : Cell → Cell}
    (he : e.steering = (s.steering.onRecord n fr).onSlotCell n k f) :
    SlotFigures n k (fr (s.steering.record n)) f s t := by
  obtain ⟨d, same, decided⟩ := h.steering
  exact .settled (same.trans he) decided

theorem steering_same (he : e.steering = s.steering) : t.steering = s.steering := by
  obtain ⟨d, same, decided⟩ := h.steering
  rw [decided, decideStandings_same s.steering d (same.trans he), same, he]

end Ends

/-- What the end of a slot's event leaves beside the slot, where the stages become `x` with it: the
event stays on the carrier side, the cells that became DARK or ceased to be are told, and the next
deposit is presented. -/
theorem SlotEvent.close {w : UnitId} (h : SlotEvent w s e) (hm : s.site.mode ≠ .stopping)
    (x : Stages) :
    let t := close (decideStandings s.steering (e.setStages x))
    OnlyCarrierSide w s (t.setStages s.stages) ∧ OnlyHoleLatches s t ∧
      PresentsNext (!s.depositOutstanding) s.path t ∧
      LogTells (s.noticesOf (holeChanges s t)) s t := by
  have f := h.frame
  have settled := UnitFrame.decideStandings s.steering (e.setStages x)
  have path : (decideStandings s.steering (e.setStages x)).path = s.path :=
    settled.path.trans f.path
  have site : (decideStandings s.steering (e.setStages x)).site = s.site :=
    settled.site.trans f.site
  refine ⟨.close_settled _ hm f.pending f.path f.site f.linkRate f.units f.pollTimer
    h.links.put_back, fun id other => ?_, ?_,
    .of_quiet (h.quiet.trans (.setStages e x)) hm f.path _⟩
  · rw [close_settled_latch _ _ id other]
    exact congrArg (Faults.latch · id) f.faults
  · have presents := PresentsNext.close _ (site ▸ hm)
    unfold State.depositOutstanding at presents ⊢
    rwa [path] at presents

end Sys2Proof.Machine
end

section
/-! TUNED and DROPPED (O44). -/
namespace Sys2Proof.Machine

open Sys2Proof

variable {s : State} {m : SlotId}

/-! ## What a reply does to its slot (R68, R69) -/

/-- Result 0 for a TUNING slot: it is ON-AIR with its requested tuning (R68). -/
theorem carrierTuned_accepted {q : Requested} (tuning : (s.context m).state = .tuning)
    (requested : (s.context m).requested = some q) :
    SlotChanged m ((s.context m).tunedAccepted q) (s.context m).owner s (carrierTuned s m 0) ∧
      (carrierTuned s m 0).steering =
        s.steering.enteredOnAir m q.tuning.bandwidth.toNat (s.impairedAt m) := by
  have effect : carrierTuned s m 0 = (s.updateSlot m ((s.context m).tunedAccepted q)).onSteering
      (Steering.enteredOnAir m q.tuning.bandwidth.toNat (s.impairedAt m)) := by
    simp [carrierTuned, tuning, requested]
  have changed := SlotChanged.updateSlot_telling ((s.context m).tunedAccepted q)
    (Context.told_owner (tuning.trans_ne nofun) nofun)
  rw [effect]
  exact ⟨changed.of_carriers rfl, by simp⟩

/-- Another result for a TUNING slot whose unit holds a tuning: it is ON-AIR with that one (R68). -/
theorem carrierTuned_retune {q : Requested} {v : Tuning} {result : Byte}
    (tuning : (s.context m).state = .tuning) (requested : (s.context m).requested = some q)
    (held : (s.context m).held = some v) (rejected : result ≠ 0) :
    SlotChanged m ((s.context m).retuneRejected q v result) (s.context m).owner s
        (carrierTuned s m result) ∧
      (carrierTuned s m result).steering =
        s.steering.enteredOnAir m v.bandwidth.toNat (s.impairedAt m) := by
  have effect : carrierTuned s m result =
      (s.updateSlot m ((s.context m).retuneRejected q v result)).onSteering
        (Steering.enteredOnAir m v.bandwidth.toNat (s.impairedAt m)) := by
    simp only [carrierTuned, tuning, requested, held, if_neg rejected]
  have changed := SlotChanged.updateSlot_telling ((s.context m).retuneRejected q v result)
    (Context.told_owner (tuning.trans_ne nofun) nofun)
  rw [effect]
  exact ⟨changed.of_carriers rfl, by simp⟩

theorem Context.firstRejected_held {c : Context} {reason : Byte} (held : c.held = none) :
    c.firstRejected reason = { c.firstRejected reason with held := c.held } := by
  rw [held]
  rfl

/-- Another result for a TUNING slot whose unit holds nothing: it is VACANT (R68). -/
theorem carrierTuned_first {q : Requested} {result : Byte}
    (tuning : (s.context m).state = .tuning) (requested : (s.context m).requested = some q)
    (held : (s.context m).held = none) (rejected : result ≠ 0) :
    SlotChanged m ((s.context m).firstRejected result) (s.context m).owner s
        (carrierTuned s m result) ∧
      (carrierTuned s m result).steering = s.steering.lost m := by
  have effect : carrierTuned s m result =
      (s.updateSlot m ((s.context m).firstRejected result)).onSteering (Steering.lost m) := by
    simp only [carrierTuned, tuning, requested, held, if_neg rejected]
  have changed := SlotChanged.updateSlot_telling ((s.context m).firstRejected result)
    (Context.told_vacated (tuning.trans_ne nofun) rfl)
  rw [effect]
  exact ⟨changed.of_carriers rfl, by simp⟩

theorem carrierTuned_other (result : Byte) (other : (s.context m).state ≠ .tuning) :
    carrierTuned s m result = s := by
  unfold carrierTuned
  simp only
  split
  · next tuning _ => exact absurd tuning other
  · rfl

/-- DROPPED for a RELEASING slot: it is VACANT (R69). -/
theorem carrierDropped_releasing (releasing : (s.context m).state = .releasing) :
    SlotChanged m { (s.context m).vacate with outcome := .released } (s.context m).owner s
        (carrierDropped s m) ∧
      (carrierDropped s m).steering = s.steering.lost m := by
  have effect : carrierDropped s m =
      (s.updateSlot m { (s.context m).vacate with outcome := .released }).onSteering
        (Steering.lost m) := by
    simp [carrierDropped, releasing]
  have changed := SlotChanged.updateSlot_telling { (s.context m).vacate with outcome := .released }
    (Context.told_vacated (releasing.trans_ne nofun) rfl)
  rw [effect]
  exact ⟨changed.of_carriers rfl, by simp⟩

theorem carrierDropped_other (other : (s.context m).state ≠ .releasing) :
    carrierDropped s m = s := by
  simp [carrierDropped, other]

theorem carrierTuned_links (s : State) (m) (result : Byte) :
    (carrierTuned s m result).links = s.links := by
  unfold carrierTuned
  simp only
  split
  · split
    · exact State.updateSlot_links s m _
    · split <;> exact State.updateSlot_links s m _
  · rfl

theorem carrierDropped_links (s : State) (m) : (carrierDropped s m).links = s.links := by
  unfold carrierDropped
  simp only
  split
  · exact State.updateSlot_links s m _
  · rfl

/-! ## The event of a taken reply (R103) -/

section
variable {n : UnitId} {effect : State → State}

/-- The command in flight ends before the reply is delivered. -/
theorem SlotEvent.delivered (frame : ∀ s, CarrierFrame s (effect s))
    (quiet : ∀ s, Quiet s (effect s)) (links : ∀ s, (effect s).links = s.links) (s : State) :
    SlotEvent n s (effect (s.onLink n Link.replyTaken)) where
  frame := (CarrierFrame.onLink s n _).trans (frame _)
  quiet := (Quiet.onLink s n _).trans (quiet _)
  links := (OtherLinksStay.onLink s n _).trans (.of_links (links _))

/-- What a taken reply leaves of the link, and beside the slot it is for. -/
theorem delivering_end (frame : ∀ s, CarrierFrame s (effect s)) (quiet : ∀ s, Quiet s (effect s))
    (links : ∀ s, (effect s).links = s.links) (hm : s.site.mode ≠ .stopping) :
    let t := delivering n effect s
    Ends s (effect (s.onLink n Link.replyTaken)) t ∧ t.link n = (s.link n).replyTaken ∧
      PresentsNext (!s.depositOutstanding) s.path t ∧ OnlyCarrierSide n s t ∧
      OnlyHoleLatches s t ∧ LogTells (s.noticesOf (holeChanges s t)) s t := by
  intro t
  have event := SlotEvent.delivered (n := n) frame quiet links s
  have ends : Ends s (effect (s.onLink n Link.replyTaken)) t := .close _ _ _
  have link : t.link n = (s.link n).replyTaken := by
    rw [ends.link, State.link, links]
    exact State.link_onLink_self s n _
  have stages : t.setStages s.stages = t :=
    congrArg t.setStages ((close_stages _).trans
      ((UnitFrame.decideStandings _ _).stages.trans event.frame.stages)).symm
  obtain ⟨side, holes, presents, tells⟩ :=
    event.close hm (effect (s.onLink n Link.replyTaken)).stages
  exact ⟨ends, link, presents, stages ▸ side, holes, tells⟩

end

/-- Settles O44: one slot's event for each case of Table 4-2 that a reply meets. -/
theorem tunedAndDroppedMoveTheSlot : Obligations.TunedAndDroppedMoveTheSlot := by
  intro s n c m hm x r done entered
  have start : ∀ {v o t}, SlotChanged m v o (s.onLink n Link.replyTaken) t →
      SlotChanged m v o s t :=
    fun h => h.from_carriers rfl
  refine ⟨fun result taken => ?tuned, fun taken => ?dropped⟩
  case tuned =>
    obtain ⟨ends, link, presents, side, holes, tells⟩ :=
      delivering_end (n := n) (fun s => .carrierTuned s m result)
        (fun s => .carrierTuned s m result) (fun s => carrierTuned_links s m result) hm
    refine ⟨_, ?row, link, presents, side, holes, tells, ?accepted, ?retune, ?first, ?other⟩
    case row => simp only [exec, execTunedReply, taken]
    case accepted =>
      rintro q tuning requested rfl
      obtain ⟨changed, steering⟩ :=
        carrierTuned_accepted (s := s.onLink n Link.replyTaken) tuning requested
      exact ⟨ends.slot (start changed), ends.figures steering⟩
    case retune =>
      intro q v tuning requested held rejected
      obtain ⟨changed, steering⟩ :=
        carrierTuned_retune (s := s.onLink n Link.replyTaken) tuning requested held rejected
      exact ⟨ends.slot (start changed), ends.figures steering⟩
    case first =>
      intro q tuning requested held rejected
      obtain ⟨changed, steering⟩ :=
        carrierTuned_first (s := s.onLink n Link.replyTaken) tuning requested held rejected
      have moved : SlotChanged m (x.firstRejected result) x.owner s _ := ends.slot (start changed)
      rw [Context.firstRejected_held held] at moved
      exact ⟨moved, ends.figures steering⟩
    case other =>
      intro other
      rw [carrierTuned_other (s := s.onLink n Link.replyTaken) result other] at ends
      exact ⟨ends.carriers, ends.steering_same rfl⟩
  case dropped =>
    obtain ⟨ends, link, presents, side, holes, tells⟩ :=
      delivering_end (n := n) (fun s => .carrierDropped s m) (fun s => .carrierDropped s m)
        (fun s => carrierDropped_links s m) hm
    refine ⟨_, ?row, link, presents, side, holes, tells, ?releasing, ?other⟩
    case row => simp only [exec, execDroppedReply, taken]
    case releasing =>
      intro releasing
      obtain ⟨changed, steering⟩ :=
        carrierDropped_releasing (s := s.onLink n Link.replyTaken) releasing
      exact ⟨ends.slot (start changed), ends.figures steering⟩
    case other =>
      intro other
      rw [carrierDropped_other (s := s.onLink n Link.replyTaken) other] at ends
      exact ⟨ends.carriers, ends.steering_same rfl⟩

end Sys2Proof.Machine
end

section
/-! DISPATCH (O39). -/
namespace Sys2Proof.Machine

open Sys2Proof

variable {s : State} {n : UnitId} {m : SlotId} {c : Command} {rest : List Command}

/-! ## What a link would dispatch (R98) -/

theorem Link.dispatchable_free {l : Link} (u : UnitState) (noCommand : l.inFlight = none)
    (idle : l.tx = .idle) (noBreak : l.breakRequest = false) :
    l.dispatchable u = permitted u l.queue := by
  simp [dispatchable, noCommand, idle, noBreak]

theorem Link.dispatchable_busy {l : Link} (u : UnitState)
    (busy : l.inFlight ≠ none ∨ l.tx ≠ .idle ∨ l.breakRequest = true) :
    l.dispatchable u = none := by
  refine if_neg ?_
  rintro ⟨noCommand, idle, noBreak⟩
  rcases busy with busy | busy | busy
  · exact busy (Option.isNone_iff_eq_none.mp noCommand)
  · exact busy idle
  · rw [noBreak] at busy
    cases busy

theorem permitted_probing {q : List Command} (poll : .poll ∈ q) :
    permitted .probing q = some (.poll, q.erase .poll) := by
  simp [permitted, poll]

/-- The unit's state permits no command of the queue. -/
theorem permitted_none {u : UnitState} {q : List Command}
    (h : (u = .live ∧ q = []) ∨ (u = .probing ∧ .poll ∉ q) ∨ (u ≠ .live ∧ u ≠ .probing)) :
    permitted u q = none := by
  rcases h with ⟨rfl, rfl⟩ | ⟨rfl, absent⟩ | ⟨notLive, notProbing⟩
  · rfl
  · simp [permitted, absent]
  · cases u with
    | live => exact absurd rfl notLive
    | probing => exact absurd rfl notProbing
    | off | out | resetting | down => rfl

theorem Link.dispatchable_none {l : Link} {u : UnitState}
    (h : (u = .live ∧ l.queue = []) ∨ (u = .probing ∧ .poll ∉ l.queue) ∨
      (u ≠ .live ∧ u ≠ .probing)) : l.dispatchable u = none := by
  unfold dispatchable
  rw [permitted_none h, ite_self]

/-! ## The row -/

theorem exec_dispatch_none (h : (s.link n).dispatchable (s.unit n).state = none) :
    exec (.dispatch n) s = .next s := by
  simp only [exec, execDispatch, h]

/-- A TUNE that is sent moves its slot on; another command leaves Carrier Control as it is. -/
theorem exec_dispatch_tune {v : Tuning}
    (h : (s.link n).dispatchable (s.unit n).state = some (.tune m v, rest)) :
    exec (.dispatch n) s =
      .next (tuneDispatched (s.onLink n (Link.dispatch (.tune m v) rest)) m) := by
  simp only [exec, execDispatch, h]

theorem exec_dispatch_other (h : (s.link n).dispatchable (s.unit n).state = some (c, rest))
    (other : c.code ≠ 1) : exec (.dispatch n) s = .next (s.onLink n (Link.dispatch c rest)) := by
  simp only [exec, execDispatch, h]
  cases c with
  | tune => exact absurd rfl other
  | drop | scan | poll => rfl

/-! ## The slot of a TUNE that is sent (R67) -/

theorem tuneDispatched_waiting (waiting : (s.context m).state = .waiting) :
    SlotChanged m { s.context m with state := .tuning } (s.context m).owner s
      (tuneDispatched s m) := by
  rw [tuneDispatched, if_pos waiting]
  exact SlotChanged.updateSlot_telling _ (Context.told_owner (waiting.trans_ne nofun) nofun)

theorem tuneDispatched_other (other : (s.context m).state ≠ .waiting) : tuneDispatched s m = s :=
  if_neg other

theorem tuneDispatched_onlyCarriers (s : State) (m) : OnlyCarriers s (tuneDispatched s m) := by
  unfold OnlyCarriers tuneDispatched
  split
  · have frame := CarrierFrame.updateSlot s m { s.context m with state := .tuning }
    exact State.ext_parts frame.pending frame.path frame.site frame.stages rfl
      (State.updateSlot_links s m _) frame.linkRate frame.units frame.pollTimer
      (State.updateSlot_steering s m _) frame.faults
  · rfl

/-- Settles O39: what the link would dispatch decides, and a TUNE moves its slot on. -/
theorem dispatchSendsThePermittedCommand : Obligations.DispatchSendsThePermittedCommand := by
  intro s n l sent
  refine ⟨fun noCommand idle noBreak live c rest queue => ?live,
    fun noCommand idle noBreak probing poll => ?probing, fun nothing => ?nothing⟩
  case live =>
    have sends : l.dispatchable (s.unit n).state = some (c, rest) := by
      rw [Link.dispatchable_free _ noCommand idle noBreak, live, queue]
      rfl
    refine ⟨exec_dispatch_other sends, ?_⟩
    rintro m v rfl
    have only := tuneDispatched_onlyCarriers (s.onLink n (Link.dispatch (.tune m v) rest)) m
    have links := congrArg State.links only
    have back := congrArg (State.setLinks · s.links) only
    refine ⟨_, exec_dispatch_tune sends, ?_, back,
      fun j other => ?_, fun waiting => ?_, fun other => ?_⟩
    · exact (congrArg (Bank.get · n) links).trans (State.link_onLink_self s n _)
    · exact (congrArg (Bank.get · j) links).trans (State.link_onLink_ne s _ other)
    · exact (tuneDispatched_waiting (s := s.onLink n _) waiting).from_carriers rfl
    · rw [tuneDispatched_other (s := s.onLink n _) other]
      rfl
  case probing =>
    refine exec_dispatch_other (c := .poll) ?_ nofun
    rw [Link.dispatchable_free _ noCommand idle noBreak, probing, permitted_probing poll]
  case nothing =>
    refine exec_dispatch_none ?_
    rcases nothing with busy | busy | busy | unpermitted
    · exact Link.dispatchable_busy _ (.inl busy)
    · exact Link.dispatchable_busy _ (.inr (.inl busy))
    · exact Link.dispatchable_busy _ (.inr (.inr busy))
    · exact Link.dispatchable_none unpermitted

end Sys2Proof.Machine
end

section
/-! The validation of a post that passes: its end, and VALIDATE_TUNE (O36). -/
namespace Sys2Proof.Machine

open Sys2Proof

variable {s : State} {k : Operator} {p : Post} {n : SlotId}

/-! ## The event of a post that passes (R46, R60) -/

theorem OtherLinksStay.tuneEffect (s : State) (k p n) :
    OtherLinksStay (slotUnit n) s (tuneEffect s k p n).1 := by
  have update : ∀ c, OtherLinksStay (slotUnit n) s (s.updateSlot n c) :=
    fun c => .of_links (s.updateSlot_links n c)
  unfold Machine.tuneEffect
  simp only
  split
  · exact (update _).trans (.queueOrDefer _ n _)
  · exact (update _).trans (.queueOrDefer _ n _)
  · exact (update _).trans (.supersede _ n _)
  · exact update _
  · exact .of_links rfl

theorem OtherLinksStay.searchEffect (s : State) (k p n) :
    OtherLinksStay (slotUnit n) s (searchEffect s k p n).1 := by
  have update : ∀ s c, OtherLinksStay (slotUnit n) s (s.updateSlot n c) :=
    fun s c => .of_links (s.updateSlot_links n c)
  unfold Machine.searchEffect
  simp only
  split
  · exact (update _ _).trans (.queueOrDefer _ n _)
  · exact (update _ _).trans (update _ _)

theorem OtherLinksStay.releaseEffect (s : State) (n) :
    OtherLinksStay (slotUnit n) s (releaseEffect s n).1 := by
  have update : ∀ c, OtherLinksStay (slotUnit n) s (s.updateSlot n c) :=
    fun c => .of_links (s.updateSlot_links n c)
  unfold Machine.releaseEffect releaseSearch
  simp only
  split
  · split
    · exact update _
    · split
      · exact update _
      · exact (update _).trans (.onLink _ _ _)
  · split
    · exact (update _).trans (.withdraw _ n)
    · exact (update _).trans (.onLink _ _ _)
  · exact (update _).trans (.queueOrDefer _ n _)
  · exact update _
  · exact .of_links rfl

theorem SlotEvent.postEffect (pass : checkPost s k p = .inl n) :
    SlotEvent (slotUnit n) s (postEffect s k p n).1 := by
  have judged : judgePost s k p = Machine.postEffect s k p n := by simp only [judgePost, pass]
  refine ⟨judged ▸ CarrierFrame.judgePost s k p, judged ▸ Quiet.judgePost s k p, ?_⟩
  unfold Machine.postEffect
  split
  · exact .tuneEffect s k p n
  · exact .searchEffect s k p n
  · exact .releaseEffect s n

theorem validate_passing (pass : checkPost s k p = .inl n) :
    validate k p s = (postEffect s k p n).1.setStages
      (s.stages.afterValidation k p (postEffect s k p n).2) := by
  have judged : judgePost s k p = postEffect s k p n := by simp only [judgePost, pass]
  simp only [validate, judged, (SlotEvent.postEffect pass).frame.stages, Stages.afterValidation,
    Stage.validated_eq]

theorem mode_ne_stopping_of_pass (pass : checkPost s k p = .inl n) : s.site.mode ≠ .stopping := by
  have inService := (checkPost_passes pass).1
  exact fun stopping => by rw [stopping] at inService; cases inService

section
variable {e : State} {o : Outcome} (next : s.stages.next = some (k, p))
  (pass : checkPost s k p = .inl n) (effect : postEffect s k p n = (e, o))
include next pass effect

theorem validation_passing : validation p.mode s =
    close (decideStandings s.steering (e.setStages (s.stages.afterValidation k p o))) := by
  rw [validation_next next, settling, validate_passing pass, effect]

/-- What the validation of a post that passes leaves of the stages, and beside its slot. -/
theorem validation_end :
    let t := validation p.mode s
    Ends s e t ∧ t.stages = s.stages.afterValidation k p o ∧
      OnlyCarrierSide (slotUnit n) s (t.setStages s.stages) ∧ OnlyHoleLatches s t ∧
      PresentsNext (!s.depositOutstanding) s.path t ∧
      LogTells (s.noticesOf (holeChanges s t)) s t := by
  have event := SlotEvent.postEffect pass
  rw [effect] at event
  rw [validation_passing next pass effect]
  exact ⟨.close s e _, (close_stages _).trans (UnitFrame.decideStandings _ _).stages,
    event.close (mode_ne_stopping_of_pass pass) _⟩

/-- A validation that leaves the Steering Engine as it is tells nothing. -/
theorem validation_still (same : e.steering = s.steering) :
    let t := validation p.mode s
    LogTells [] s t ∧ ∀ id, t.faults.latch id = s.faults.latch id := by
  have event := SlotEvent.postEffect pass
  rw [effect] at event
  have still := decideStandings_same s.steering
    (e.setStages (s.stages.afterValidation k p o)) same
  rw [validation_passing next pass effect, still]
  refine ⟨.of_closed (event.quiet.trans (.setStages e _)) (mode_ne_stopping_of_pass pass)
    event.frame.path, fun id => (close_latch _ id).trans ?_⟩
  exact congrArg (Faults.latch · id) event.frame.faults

end

/-! ## A slot whose command is queued -/

/-- A slot takes the context `c` and queues or defers the command `x`, and the Steering Engine takes
a report. -/
theorem updateSlot_queueOrDefer {c : Context} {told : Option Operator} (x : Command) (f)
    (tells : (s.context n).told c = told) :
    let e := ((s.updateSlot n c).queueOrDefer n x).onSteering f
    SlotChanged n { c with deferred := if c.orphan then some x else c.deferred }
        told s e ∧
      e.link (slotUnit n) =
        (if c.orphan then s.link (slotUnit n)
          else { s.link (slotUnit n) with queue := (s.link (slotUnit n)).queue ++ [x] }) ∧
      e.steering = f s.steering := by
  have link := (s.updateSlot n c).link_queueOrDefer n x
  rw [State.context_updateSlot, State.link_updateSlot] at link
  exact ⟨((SlotChanged.updateSlot_telling c tells).queueOrDefer x).of_carriers rfl, link, by simp⟩

/-- A carrier that is on air leaves it (R128, R129). -/
theorem Steering.leftOnAir_some {g : Steering} {code : Nat} (impaired : Bool)
    (onAir : (g.record n).onAir = some code) :
    g.leftOnAir n impaired =
      (g.onRecord n fun r => { r with onAir := none }).onSlotCell n (g.record n).operator fun c =>
        { c with
          capacity := c.capacity - weight impaired code
          load := c.load - (g.record n).users } := by
  simp only [leftOnAir, onAir]

/-! ## TUNE by the slot's state (R61 to R64) -/

/-- A slot's context with a TUNE post accepted, before its state moves on (R60). -/
def Context.tunePosted (p : Post) (c : Context) : Context :=
  { c.validated .accepted with requested := some p.requested }

/-- An accepted TUNE of a VACANT slot (R61). -/
theorem tuneEffect_vacant (vacant : (s.context n).state = .vacant) :
    (tuneEffect s k p n).1 =
      ((s.updateSlot n { (s.context n).tunePosted p with
          state := .waiting, owner := some k, held := none }).queueOrDefer n
        (.tune n p.tuningFields)).onSteering (Steering.gained n k) := by
  simp only [tuneEffect, vacant]
  rfl

/-- An accepted TUNE of an ON-AIR slot (R62). -/
theorem tuneEffect_onAir (onAir : (s.context n).state = .onAir) :
    (tuneEffect s k p n).1 =
      ((s.updateSlot n { (s.context n).tunePosted p with state := .waiting }).queueOrDefer n
        (.tune n p.tuningFields)).onSteering (Steering.leftOnAir n (s.impairedAt n)) := by
  simp only [tuneEffect, onAir]
  rfl

/-- An accepted TUNE of a WAITING slot (R63). -/
theorem tuneEffect_waiting (waiting : (s.context n).state = .waiting) :
    (tuneEffect s k p n).1 =
      (s.updateSlot n ((s.context n).tunePosted p)).supersede n p.tuningFields := by
  simp only [tuneEffect, waiting]
  rfl

/-- An accepted TUNE of a SUSPENDED slot (R64). -/
theorem tuneEffect_suspended (suspended : (s.context n).state = .suspended) :
    (tuneEffect s k p n).1 = s.updateSlot n ((s.context n).tunePosted p) := by
  simp only [tuneEffect, suspended]
  rfl

/-- A TUNE that leaves the slot's state tells its owner where the last outcome changes (R49). -/
theorem Context.told_tunePosted {c : Context} (stays : c.state ≠ .vacant)
    (owner : c.owner = some k) :
    c.told (c.tunePosted p) = if c.outcome = .accepted then none else some k := by
  rw [Context.told_outcome (old := c) (new := c.tunePosted p) rfl stays, ← owner]
  rfl

/-- A link whose queue a superseding has changed, unless the TUNE was deferred: nothing else of it
differs, and each command has stayed in its place (R63, R96). -/
theorem Link.superseded {l l' : Link} {deferred : Bool} {v : Tuning}
    (h : l' = if deferred then l else l.supersede n v) :
    l' = { l with queue := l'.queue } ∧ l'.queue.length = l.queue.length ∧
      ∀ (i : Nat) (x : Command), l.queue[i]? = some x →
        l'.queue[i]? =
          some (if deferred = false ∧ x.code = 1 ∧ x.slot = some n then .tune n v else x) := by
  cases deferred with
  | true => subst h; exact ⟨rfl, rfl, fun i x at_i => by simpa using at_i⟩
  | false =>
    subst h
    exact ⟨rfl, List.length_map _, fun i x at_i => by simpa using getElem?_supersede n v at_i⟩

/-- Settles O36: the four states that check 4 lets a TUNE through. -/
theorem tuneIsAcceptedByTheSlotsState : Obligations.TuneIsAcceptedByTheSlotsState := by
  intro s k p n next mode pass c l tune c' told
  have effect : postEffect s k p n = ((tuneEffect s k p n).1, .accepted) := by
    simp only [postEffect, mode]
    rfl
  obtain ⟨ends, stages, side, holes, presents, tells⟩ := validation_end next pass effect
  have owned : c.state ≠ .vacant → c.owner = some k := (checkPost_owner pass).resolve_left
  rw [mode] at ends stages side holes presents tells
  refine ⟨_, rfl, stages, side, holes, presents, tells, fun vacant => ?vacant,
    fun onAir code weighed => ?onAir, fun waiting => ?waiting, fun suspended => ?suspended⟩
  case vacant =>
    rw [tuneEffect_vacant vacant] at ends
    obtain ⟨changed, link, steering⟩ := updateSlot_queueOrDefer (c := { c.tunePosted p with
      state := .waiting, owner := some k, held := none }) tune (Steering.gained n k)
      (Context.told_owner (vacant.trans_ne nofun) nofun)
    exact ⟨ends.slot changed, (ends.link _).trans link, ends.figures steering⟩
  case onAir =>
    rw [tuneEffect_onAir onAir] at ends
    have owner := owned (onAir.trans_ne nofun)
    obtain ⟨changed, link, steering⟩ := updateSlot_queueOrDefer (c := { c.tunePosted p with
      state := .waiting }) tune (Steering.leftOnAir n (s.impairedAt n))
      ((Context.told_owner (onAir.trans_ne (by exact nofun)) (by exact nofun)).trans owner)
    exact ⟨ends.slot changed, (ends.link _).trans link,
      ends.figures (steering.trans (Steering.leftOnAir_some _ weighed))⟩
  case waiting =>
    rw [tuneEffect_waiting waiting] at ends
    have stays : c.state ≠ .vacant := waiting.trans_ne nofun
    have changed := (SlotChanged.updateSlot_telling (c.tunePosted p)
      (Context.told_tunePosted stays (owned stays))).supersede p.tuningFields
    have link := (s.updateSlot n (c.tunePosted p)).link_supersede n p.tuningFields
    rw [State.context_updateSlot, State.link_updateSlot, ← ends.link] at link
    obtain ⟨rest, length, queued⟩ := Link.superseded link
    exact ⟨ends.slot changed, rest, length, queued, ends.steering_same (by simp)⟩
  case suspended =>
    rw [tuneEffect_suspended suspended] at ends
    have stays : c.state ≠ .vacant := suspended.trans_ne nofun
    have changed := SlotChanged.updateSlot_telling (c.tunePosted p)
      (Context.told_tunePosted stays (owned stays))
    exact ⟨ends.slot changed, (ends.link _).trans (s.link_updateSlot n _ _),
      ends.steering_same (by simp)⟩

end Sys2Proof.Machine
end

section
/-! VALIDATE_RELEASE (O38). -/
namespace Sys2Proof.Machine

open Sys2Proof

variable {s : State} {k : Operator} {p : Post} {n : SlotId}

theorem Link.scanInFlight_iff (l : Link) (n : SlotId) :
    l.scanInFlight n = true ↔
      ∃ i ch b, l.inFlight = some i ∧ i.command = .scan n ch b := by
  unfold scanInFlight
  cases l.inFlight with
  | none => exact ⟨nofun, fun ⟨_, _, _, nothing, _⟩ => nomatch nothing⟩
  | some x =>
    cases command : x.command with
    | scan m ch b => simp [command]
    | tune | drop | poll => simp [command]

/-- A link in whose queue the slot's TUNE has become a DROP: nothing else of it differs, and each
command has stayed in its place (R66, R96). -/
theorem Link.replacedWithDrop (l : Link) (n : SlotId) :
    let l' := l.replaceWithDrop n
    l' = { l with queue := l'.queue } ∧ l'.queue.length = l.queue.length ∧
      ∀ (i : Nat) (x : Command), l.queue[i]? = some x →
        l'.queue[i]? = some (if x.code = 1 ∧ x.slot = some n then .drop n else x) :=
  ⟨rfl, List.length_map _, fun _ _ => getElem?_replaceWithDrop n⟩

/-! ## RELEASE by the slot's state (R66, Table 4-6) -/

/-- A slot's context with a RELEASE post accepted that leaves it VACANT (R60, R66). -/
def Context.released (c : Context) : Context := (c.validated .released).vacate

/-- A slot's context with a RELEASE post accepted that waits for the unit's DROPPED (R60, R66). -/
def Context.releasing (c : Context) : Context :=
  { c.validated .accepted with state := .releasing, requested := none }

/-- A released slot tells the operator it belonged to (R49). -/
theorem Context.told_released {c : Context} (stays : c.state ≠ .vacant) (owner : c.owner = some k) :
    c.told c.released = some k :=
  (told_vacated (new := c.released) stays rfl).trans owner

/-- A slot that begins to release its tuning tells its owner (R49). -/
theorem Context.told_releasing {c : Context} (begins : c.state ≠ .releasing)
    (owner : c.owner = some k) :
    c.told c.releasing = some k :=
  (told_owner (new := c.releasing) begins nofun).trans owner

/-- The outcome of a RELEASE: ACCEPTED where a DROP is to follow, RELEASED otherwise. -/
theorem releaseEffect_outcome (s : State) (n : SlotId) :
    (releaseEffect s n).2 =
      if (s.context n).state = .onAir ∨
        ((s.context n).state = .waiting ∧ (s.context n).held ≠ none) then .accepted
      else .released := by
  cases state : (s.context n).state with
  | waiting => cases held : (s.context n).held <;> simp [releaseEffect, state, held]
  | vacant | searching | tuning | onAir | releasing | suspended => simp [releaseEffect, state]

theorem releaseEffect_vacant (vacant : (s.context n).state = .vacant) :
    (releaseEffect s n).1 = s := by
  simp only [releaseEffect, vacant]

/-- The search of a SEARCHING slot is given up: what becomes of its SCAN (R66, R84, R85). -/
theorem releaseSearch_slot {c : Context} {told : Option Operator}
    (tells : (s.context n).told c.vacate = told) :
    let e := releaseSearch s n c
    let inFlight := (s.link (slotUnit n)).scanInFlight n
    SlotChanged n { c.vacate with
        deferred := if c.orphan then none else c.deferred
        orphan := c.orphan || inFlight } told s e ∧
      e.link (slotUnit n) =
        (if c.orphan ∨ inFlight = true then s.link (slotUnit n)
          else (s.link (slotUnit n)).remove n) ∧
      e.steering = s.steering := by
  have update : ∀ d o, SlotChanged n { c.vacate with deferred := d, orphan := o } told s
      (s.updateSlot n { c.vacate with deferred := d, orphan := o }) :=
    fun _ _ => .updateSlot_telling _ tells
  unfold releaseSearch
  cases orphan : c.orphan with
  | true =>
    have kept : { c.vacate with deferred := none } =
        { c.vacate with deferred := none, orphan := true } := by
      rw [← orphan]
      rfl
    rw [if_pos rfl, kept]
    exact ⟨update none true, by simp, by simp⟩
  | false =>
    rw [if_neg Bool.false_ne_true]
    cases (s.link (slotUnit n)).scanInFlight n with
    | true =>
      rw [if_pos rfl]
      exact ⟨update c.deferred true, by simp, by simp⟩
    | false =>
      have kept : c.vacate = { c.vacate with deferred := c.deferred, orphan := false } := by
        rw [← orphan]
        rfl
      rw [if_neg Bool.false_ne_true]
      exact ⟨kept ▸ (update c.deferred false).onLink _ _, by simp, by simp⟩

/-- An accepted RELEASE of a SEARCHING slot. -/
theorem releaseEffect_searching (searching : (s.context n).state = .searching) :
    (releaseEffect s n).1 =
      (releaseSearch s n ((s.context n).validated .released)).onSteering (Steering.lost n) := by
  simp only [releaseEffect, searching]

/-- An accepted RELEASE of a WAITING slot whose unit holds nothing for it. -/
theorem releaseEffect_first (waiting : (s.context n).state = .waiting)
    (held : (s.context n).held = none) :
    (releaseEffect s n).1 =
      ((s.updateSlot n (s.context n).released).withdraw n).onSteering (Steering.lost n) := by
  simp only [releaseEffect, waiting, held]
  rfl

/-- An accepted RELEASE of a WAITING slot whose unit holds a tuning for it. -/
theorem releaseEffect_retune (waiting : (s.context n).state = .waiting)
    (held : (s.context n).held ≠ none) :
    (releaseEffect s n).1 =
      (s.updateSlot n (s.context n).releasing).onLink (slotUnit n) (Link.replaceWithDrop n) := by
  obtain ⟨v, some_v⟩ := Option.ne_none_iff_exists'.mp held
  simp only [releaseEffect, waiting, some_v]
  rfl

/-- An accepted RELEASE of an ON-AIR slot. -/
theorem releaseEffect_onAir (onAir : (s.context n).state = .onAir) :
    (releaseEffect s n).1 =
      ((s.updateSlot n (s.context n).releasing).queueOrDefer n (.drop n)).onSteering
        (Steering.leftOnAir n (s.impairedAt n)) := by
  simp only [releaseEffect, onAir]
  rfl

/-- An accepted RELEASE of a SUSPENDED slot. -/
theorem releaseEffect_suspended (suspended : (s.context n).state = .suspended) :
    (releaseEffect s n).1 =
      (s.updateSlot n (s.context n).released).onSteering (Steering.lost n) := by
  simp only [releaseEffect, suspended]
  rfl

/-- Settles O38: the states of Table 4-6. -/
theorem releaseActsByTheSlotsState : Obligations.ReleaseActsByTheSlotsState := by
  intro s k p n next mode pass c l x flags gone leaving lost removed
  have effect : postEffect s k p n =
      ((releaseEffect s n).1,
        if c.state = .onAir ∨ (c.state = .waiting ∧ c.held ≠ none) then .accepted
        else .released) := by
    rw [← releaseEffect_outcome]
    simp only [postEffect, mode]
  obtain ⟨ends, stages, side, holes, presents, tells⟩ := validation_end next pass effect
  have owned : c.state ≠ .vacant → c.owner = some k := (checkPost_owner pass).resolve_left
  rw [mode] at ends stages side holes presents tells
  refine ⟨l.scanInFlight_iff n, _, rfl, stages, side, holes, presents, tells, fun vacant => ?vacant,
    fun searching => ?searching, fun waiting held => ?first, fun waiting held => ?retune,
    fun onAir code weighed => ?onAir, fun suspended => ?suspended⟩
  case vacant =>
    rw [releaseEffect_vacant vacant] at ends
    exact ⟨ends.carriers, ends.links, ends.steering_same rfl⟩
  case searching =>
    rw [releaseEffect_searching searching] at ends
    have stays : c.state ≠ .vacant := searching.trans_ne nofun
    obtain ⟨changed, link, steering⟩ := releaseSearch_slot (c := c.validated .released)
      (Context.told_released stays (owned stays))
    exact ⟨ends.slot (changed.of_carriers rfl), (ends.link _).trans link,
      ends.figures (congrArg (Steering.lost n) steering)⟩
  case first =>
    rw [releaseEffect_first waiting held] at ends
    have stays : c.state ≠ .vacant := waiting.trans_ne nofun
    have changed := (SlotChanged.updateSlot_telling c.released
      (Context.told_released stays (owned stays))).withdraw
    have link := (s.updateSlot n c.released).link_withdraw n
    rw [State.context_updateSlot, State.link_updateSlot] at link
    exact ⟨ends.slot changed, (ends.link _).trans link,
      ends.figures (congrArg (Steering.lost n) (by simp))⟩
  case retune =>
    rw [releaseEffect_retune waiting held] at ends
    have stays : c.state ≠ .vacant := waiting.trans_ne nofun
    have changed := SlotChanged.updateSlot_telling c.releasing
      (Context.told_releasing (waiting.trans_ne nofun) (owned stays))
    have link : _ = l.replaceWithDrop n := (ends.link (slotUnit n)).trans
      ((State.link_onLink_self _ _ _).trans
        (congrArg (Link.replaceWithDrop n) (s.link_updateSlot n _ _)))
    rw [link]
    obtain ⟨rest, length, queued⟩ := l.replacedWithDrop n
    exact ⟨ends.slot (changed.onLink _ _), rest, length, queued, ends.steering_same (by simp)⟩
  case onAir =>
    rw [releaseEffect_onAir onAir] at ends
    have stays : c.state ≠ .vacant := onAir.trans_ne nofun
    obtain ⟨changed, link, steering⟩ := updateSlot_queueOrDefer (c := c.releasing) (.drop n)
      (Steering.leftOnAir n (s.impairedAt n))
      (Context.told_releasing (onAir.trans_ne nofun) (owned stays))
    exact ⟨ends.slot changed, (ends.link _).trans link,
      ends.figures (steering.trans (Steering.leftOnAir_some _ weighed))⟩
  case suspended =>
    rw [releaseEffect_suspended suspended] at ends
    have stays : c.state ≠ .vacant := suspended.trans_ne nofun
    have changed := SlotChanged.updateSlot_telling c.released
      (Context.told_released stays (owned stays))
    exact ⟨ends.slot (changed.of_carriers rfl), (ends.link _).trans (s.link_updateSlot n _ _),
      ends.figures (congrArg (Steering.lost n) (by simp))⟩

end Sys2Proof.Machine
end

section
/-! The walk over candidates, and VALIDATE_SEARCH (O37). -/
namespace Sys2Proof.Machine

open Sys2Proof

/-! ## Candidates (R76, R77) -/

namespace SearchRecord

variable {r m r' : SearchRecord} {i : Nat} {claimed : Interval → Bool}

/-- The value of the candidate `i` steps on, on whole numbers (R77). -/
def valueAt (r : SearchRecord) (i : Nat) : Int :=
  r.candidate.toNat + (if r.direction = .up then (i * r.step : Int) else -(i * r.step : Int))

/-- The candidate `i` steps on lies within the limits (R76). -/
def InsideAt (r : SearchRecord) (i : Nat) : Prop :=
  (r.lower : Int) ≤ r.valueAt i - 25 * r.bandwidth.toNat ∧
    r.valueAt i + 25 * r.bandwidth.toNat ≤ (r.upper : Int)

/-- The candidate `i` steps on is overlapped (R78). -/
def BusyAt (claimed : Interval → Bool) (r : SearchRecord) (i : Nat) : Prop :=
  claimed (intervalOf (r.valueAt i) r.bandwidth) = true

/-- The walk from `r` has reached `r'` in `i` steps: every candidate before it is overlapped, and
each step stays inside the limits. -/
def WalksTo (claimed : Interval → Bool) (r : SearchRecord) (i : Nat) (r' : SearchRecord) : Prop :=
  (r'.candidate.toNat : Int) = r.valueAt i ∧ r' = { r with candidate := r'.candidate } ∧
    ∀ j < i, r.BusyAt claimed j ∧ r.InsideAt (j + 1)

@[simp] theorem valueAt_zero (r : SearchRecord) : r.valueAt 0 = r.candidate.toNat := by
  simp [valueAt]

theorem valueAt_one (r : SearchRecord) : r.valueAt 1 = r.nextValue := by
  unfold valueAt nextValue
  cases r.direction with
  | up => simp
  | down => simp [Int.sub_eq_add_neg]

theorem within_nextValue (r : SearchRecord) : r.within r.nextValue = true ↔ r.InsideAt 1 := by
  rw [within, Interval.inside, decide_eq_true_iff, InsideAt, valueAt_one]
  rfl

/-- A candidate inside the limits is a channel. -/
theorem InsideAt.channel (h : r.InsideAt i) (top : r.upper ≤ 65535) :
    0 ≤ r.valueAt i ∧ r.valueAt i ≤ 65535 := by
  obtain ⟨low, high⟩ := h
  omega

theorem move_none : r.move = none ↔ ¬ r.InsideAt 1 := by
  rw [← within_nextValue]
  simp [move]

/-- A move is one step, inside the limits; nothing but the candidate changes. -/
theorem move_some (moves : r.move = some m) (top : r.upper ≤ 65535) :
    r.InsideAt 1 ∧ m = { r with candidate := m.candidate } ∧
      (m.candidate.toNat : Int) = r.valueAt 1 := by
  unfold move at moves
  split at moves
  · next inside =>
    have inside := r.within_nextValue.mp inside
    obtain ⟨low, high⟩ := inside.channel top
    rw [← Option.some.inj moves]
    refine ⟨inside, rfl, ?_⟩
    rw [valueAt_one] at low high ⊢
    simp only [BitVec.toNat_ofInt]
    omega
  · cases moves

theorem valueAt_move (moves : r.move = some m) (top : r.upper ≤ 65535) (i : Nat) :
    m.valueAt i = r.valueAt (i + 1) := by
  obtain ⟨-, same, next⟩ := move_some moves top
  have hd : m.direction = r.direction := by rw [same]
  have hs : m.step = r.step := by rw [same]
  unfold valueAt at next ⊢
  rw [hd, hs, next]
  split
  · push_cast; ring
  · push_cast; ring

theorem insideAt_move (moves : r.move = some m) (top : r.upper ≤ 65535) (i : Nat) :
    m.InsideAt i ↔ r.InsideAt (i + 1) := by
  have same := (move_some moves top).2.1
  unfold InsideAt
  rw [valueAt_move moves top, same]

theorem busyAt_move (moves : r.move = some m) (top : r.upper ≤ 65535) (i : Nat) :
    m.BusyAt claimed i ↔ r.BusyAt claimed (i + 1) := by
  have same := (move_some moves top).2.1
  unfold BusyAt
  rw [valueAt_move moves top, same]

theorem busyAt_zero : r.BusyAt claimed 0 ↔ claimed r.tuning.interval = true := by
  unfold BusyAt
  rw [valueAt_zero]
  rfl

theorem WalksTo.refl (claimed : Interval → Bool) (r : SearchRecord) : r.WalksTo claimed 0 r :=
  ⟨r.valueAt_zero.symm, rfl, fun _ lt => absurd lt (Nat.not_lt_zero _)⟩

/-- A walk that goes on from the next candidate, from one step before. -/
theorem WalksTo.step (walks : m.WalksTo claimed i r') (moves : r.move = some m)
    (top : r.upper ≤ 65535) (busy : r.BusyAt claimed 0) : r.WalksTo claimed (i + 1) r' := by
  obtain ⟨inside, same, -⟩ := move_some moves top
  obtain ⟨value, same', before⟩ := walks
  refine ⟨value.trans (valueAt_move moves top i), same'.trans (by rw [same]), fun j lt => ?_⟩
  cases j with
  | zero => exact ⟨busy, inside⟩
  | succ j =>
    obtain ⟨busy_j, inside_j⟩ := before j (Nat.lt_of_succ_lt_succ lt)
    exact ⟨(busyAt_move moves top j).mp busy_j, (insideAt_move moves top (j + 1)).mp inside_j⟩

end SearchRecord

/-! ## The walk (R78) -/

section
variable {claimed : Interval → Bool} {r' : SearchRecord}

/-- A walk that stands still does so at a candidate that is not overlapped. -/
theorem examine_clear (fuel : Nat) : ∀ r : SearchRecord, r.upper ≤ 65535 →
    examine claimed fuel r = .clear r' →
    ∃ i, r.WalksTo claimed i r' ∧ ¬ r.BusyAt claimed i := by
  induction fuel with
  | zero => intro r _ ended; cases ended
  | succ fuel ih =>
    intro r top ended
    unfold examine at ended
    split at ended
    · next busy =>
      split at ended
      · next m moves =>
        have same := (SearchRecord.move_some moves top).2.1
        obtain ⟨i, walks, clear⟩ := ih m (by rw [same]; exact top) ended
        exact ⟨i + 1, walks.step moves top (SearchRecord.busyAt_zero.mpr busy),
          fun h => clear ((SearchRecord.busyAt_move moves top i).mpr h)⟩
      · cases ended
    · next clear =>
      cases ended
      exact ⟨0, .refl claimed _, fun h => clear (SearchRecord.busyAt_zero.mp h)⟩

/-- A walk that ends does so at the limit, or where its bound on steps is used up. -/
theorem examine_limit (fuel : Nat) : ∀ r : SearchRecord, r.upper ≤ 65535 →
    examine claimed fuel r = .limit r' →
    ∃ i, r.WalksTo claimed i r' ∧ (i = fuel ∨ r.BusyAt claimed i ∧ ¬ r.InsideAt (i + 1)) := by
  induction fuel with
  | zero =>
    intro r _ ended
    cases ended
    exact ⟨0, .refl claimed _, .inl rfl⟩
  | succ fuel ih =>
    intro r top ended
    unfold examine at ended
    split at ended
    · next busy =>
      have busy := SearchRecord.busyAt_zero.mpr busy
      split at ended
      · next m moves =>
        have same := (SearchRecord.move_some moves top).2.1
        obtain ⟨i, walks, ends⟩ := ih m (by rw [same]; exact top) ended
        refine ⟨i + 1, walks.step moves top busy, ends.imp (congrArg Nat.succ) ?_⟩
        rintro ⟨busy_i, outside⟩
        exact ⟨(SearchRecord.busyAt_move moves top i).mp busy_i,
          fun h => outside ((SearchRecord.insideAt_move moves top (i + 1)).mpr h)⟩
      · next stuck =>
        cases ended
        exact ⟨0, .refl claimed _, .inr ⟨busy, SearchRecord.move_none.mp stuck⟩⟩
    · cases ended

/-- The limits hold fewer candidates than the bound on steps (R77; log 20). -/
theorem SearchRecord.WalksTo.bound {r : SearchRecord} {i : Nat} (walks : r.WalksTo claimed i r')
    (steps : 1 ≤ r.step) (top : r.upper ≤ 65535) : i < 65536 := by
  by_contra far
  have start := r.candidate.isLt
  have inside := (walks.2.2 65535 (by omega)).2
  obtain ⟨low, high⟩ := inside.channel top
  unfold SearchRecord.valueAt at low high
  by_cases up : r.direction = .up
  · rw [if_pos up] at high
    push_cast at high
    omega
  · rw [if_neg up] at low
    push_cast at low
    omega

end

/-! ## SEARCH (R65, R79) -/

section
variable {s : State} {k : Operator} {p : Post} {n : SlotId} {r : SearchRecord}

/-- A slot's context with a SEARCH post accepted, its search at the candidate of `r` (R60, R65). -/
def Context.searchPosted (k : Operator) (r : SearchRecord) (c : Context) : Context :=
  { c.validated .accepted with state := .searching, owner := some k, search := some r }

/-- A SEARCH that starts at a clear candidate. -/
theorem searchEffect_clear
    (walk : examine (s.carriers.overlapsOthers n) 65536 (searchRecordOf s.site k p) = .clear r) :
    searchEffect s k p n =
      (((s.updateSlot n ((s.context n).searchPosted k r)).queueOrDefer n (r.scan n)).onSteering
        (Steering.gained n k), .accepted) := by
  unfold searchEffect
  simp only [Config.walkBound, walk]
  rfl

/-- A SEARCH whose walk ends at the band limit. -/
theorem searchEffect_limit
    (walk : examine (s.carriers.overlapsOthers n) 65536 (searchRecordOf s.site k p) = .limit r) :
    searchEffect s k p n =
      ((s.updateSlot n ((s.context n).searchPosted k r)).updateSlot n
        (((s.context n).searchPosted k r).atBandLimit r), .noClear) := by
  unfold searchEffect
  simp only [Config.walkBound, walk]
  rfl

/-- A VACANT slot that begins a search and ends it in the same event tells its operator (R49). -/
theorem SlotChanged.searchedOut (vacant : (s.context n).state = .vacant) :
    SlotChanged n (((s.context n).searchPosted k r).atBandLimit r) (some k) s
      ((s.updateSlot n ((s.context n).searchPosted k r)).updateSlot n
        (((s.context n).searchPosted k r).atBandLimit r)) := by
  have begins := SlotChanged.updateSlot_telling ((s.context n).searchPosted k r)
    (Context.told_owner (vacant.trans_ne nofun) nofun)
  refine begins.again (.updateSlot_telling _ ?_)
  rw [State.context_updateSlot]
  exact Context.told_vacated nofun rfl

/-- Settles O37: the effect by how the walk ends, and the walk by induction on its bound. -/
theorem searchStartsAtTheFirstClearCandidate :
    Obligations.SearchStartsAtTheFirstClearCandidate := by
  constructor
  · intro s k p n r next mode pass c l first claimed
    have vacant : c.state = .vacant := State.CarriersInv.checkPost_search pass mode
    have effect : postEffect s k p n = searchEffect s k p n := by simp only [postEffect, mode]
    refine ⟨fun clear => ?clear, fun limit => ?limit⟩
    case clear =>
      obtain ⟨ends, stages, side, holes, presents, tells⟩ :=
        validation_end next pass (effect.trans (searchEffect_clear clear))
      obtain ⟨changed, link, steering⟩ := updateSlot_queueOrDefer (c := c.searchPosted k r)
        (r.scan n) (Steering.gained n k)
        (Context.told_owner (vacant.trans_ne nofun) nofun)
      rw [mode] at ends stages side holes presents tells
      exact ⟨_, rfl, stages, side, holes, presents, tells, ends.slot changed,
        (ends.link _).trans link, ends.figures steering⟩
    case limit =>
      have effect := effect.trans (searchEffect_limit limit)
      obtain ⟨ends, stages, side, -, presents, -⟩ := validation_end next pass effect
      obtain ⟨tells, latches⟩ := validation_still next pass effect (by simp)
      rw [mode] at ends stages side presents tells latches
      exact ⟨_, rfl, stages, side, presents, tells, latches, ends.slot (.searchedOut vacant),
        (ends.link _).trans ((State.link_updateSlot _ n _ _).trans (s.link_updateSlot n _ _)),
        ends.steering_same (by simp)⟩
  · intro claimed first r steps top at_ inside busy
    refine ⟨fun clear => ?_, fun limit => ?_⟩
    · obtain ⟨i, ⟨value, same, before⟩, free⟩ := examine_clear _ first top clear
      exact ⟨i, value, same, free, before⟩
    · obtain ⟨i, walks, ends⟩ := examine_limit _ first top limit
      have inBound := walks.bound steps top
      obtain ⟨busy_i, outside⟩ := ends.resolve_left inBound.ne
      obtain ⟨value, same, before⟩ := walks
      exact ⟨i, value, same, busy_i, before, outside⟩

end

end Sys2Proof.Machine
end

section
/-! Contexts and occupancy lists under every step, and what an occupancy list holds (O55). -/
namespace Sys2Proof.Machine

open Sys2Proof

/-! ## Carrier Control's invariant under the other blocks' operations -/

namespace State.CarriersInv

variable {s t : State}

theorem setPending (h : s.CarriersInv) (x) : (s.setPending x).CarriersInv := h.of_carriers rfl

theorem setPath (h : s.CarriersInv) (x) : (s.setPath x).CarriersInv := h.of_carriers rfl

theorem setSite (h : s.CarriersInv) (x) : (s.setSite x).CarriersInv := h.of_carriers rfl

theorem setStage (h : s.CarriersInv) (k g) : (s.setStage k g).CarriersInv := h.of_carriers rfl

theorem setStages (h : s.CarriersInv) (x) : (s.setStages x).CarriersInv := h.of_carriers rfl

theorem setLinks (h : s.CarriersInv) (x) : (s.setLinks x).CarriersInv := h.of_carriers rfl

theorem setSteering (h : s.CarriersInv) (x) : (s.setSteering x).CarriersInv := h.of_carriers rfl

theorem close (h : s.CarriersInv) : (close s).CarriersInv := h.of_carriers (close_carriers s)

/-- A command that acts under a condition. -/
theorem ite {p : Prop} [Decidable p] (h : s.CarriersInv) (acts : t.CarriersInv) :
    (if p then t else s).CarriersInv := by
  split
  · exact acts
  · exact h

theorem settling (effect : State → State) (h : (effect s).CarriersInv) :
    (settling effect s).CarriersInv :=
  h.decideStandings _

/-! ### The Unit Supervisor (R70, R71, R112 to R126) -/

theorem reportChanges (h : s.CarriersInv) (u l) : (reportChanges u l s).CarriersInv :=
  foldl_keeps (p := State.CarriersInv) l (fun _ _ k => k.setFaults _) s h

theorem setImpaired (h : s.CarriersInv) (u v) : (setImpaired u v s).CarriersInv := by
  unfold Machine.setImpaired
  split
  · exact h
  · exact (h.onUnit u _).onSteering _

theorem leaveLive (h : s.CarriersInv) (u) : (leaveLive u s).CarriersInv :=
  ((h.unitLeftLive u).onSteering _).setImpaired u false

theorem leaveIfLive (h : s.CarriersInv) (was u) : (leaveIfLive was u s).CarriersInv :=
  h.ite (h.leaveLive u)

theorem enterResetting (h : s.CarriersInv) (u) : (enterResetting u s).CarriersInv :=
  (h.onUnit u _).onLink u _

theorem enterDown (h : s.CarriersInv) (u) : (enterDown u s).CarriersInv :=
  (((h.onLink u _).leaveIfLive _ u).onLink u _).onUnit u _

theorem goLive (h : s.CarriersInv) (u) : (goLive u s).CarriersInv :=
  ((h.onUnit u _).unitReachedLive u).setImpaired u _

theorem probingDecision (h : s.CarriersInv) (u a) : (probingDecision u a s).CarriersInv := by
  unfold Machine.probingDecision
  split
  · exact h.enterDown u
  · exact h.ite (h.goLive u)

theorem probingStatus (h : s.CarriersInv) (u a f) : (probingStatus u a f s).CarriersInv :=
  ((h.onUnit u _).probingDecision u a).reportChanges u _

theorem liveStatus (h : s.CarriersInv) (u a f) : (liveStatus u a f s).CarriersInv := by
  refine State.CarriersInv.reportChanges ?_ u _
  split
  · exact (h.onUnit u _).enterDown u
  · exact (h.onUnit u _).setImpaired u _

theorem takeStatus (h : s.CarriersInv) (u a f) : (takeStatus u a f s).CarriersInv := by
  refine State.CarriersInv.onSteering ?_ _
  split
  · exact h.probingStatus u a f
  · exact h.liveStatus u a f
  · exact h

theorem secondTimeout (h : s.CarriersInv) (u) : (secondTimeout u s).CarriersInv := by
  unfold Machine.secondTimeout
  split
  · exact ((h.onUnit u _).enterDown u).reportChanges u _
  · exact (h.onUnit u _).reportChanges u _
  · exact h

theorem restartLive (h : s.CarriersInv) (u) : (restartLive u s).CarriersInv :=
  ((((h.onUnit u _).onLink u _).leaveLive u).onLink u _).setFaults _

theorem recoveryAttempt (h : s.CarriersInv) (u) : (recoveryAttempt u s).CarriersInv :=
  (h.onUnit u _).enterResetting u

theorem unitBreak (h : s.CarriersInv) (u) : (unitBreak u s).CarriersInv := by
  unfold Machine.unitBreak
  split
  · exact h.restartLive u
  · exact (h.onLink u _).setFaults _
  · split
    · exact h
    · exact h.recoveryAttempt u
  · exact h

theorem pollUnit (h : s.CarriersInv) (u) : (pollUnit s u).CarriersInv := by
  have polled (g : Bool) := ((h.onUnit u fun r => { r with garbled := g }).onLink u Link.polled)
  unfold Machine.pollUnit
  split
  · exact (polled _).reportChanges u _
  · exact (polled _).reportChanges u _
  · exact h

theorem pollExpired (h : s.CarriersInv) : (pollExpired s).CarriersInv :=
  foldl_keeps (p := State.CarriersInv) _ (fun _ u k => k.pollUnit u) _ (h.of_carriers rfl)

theorem goOut (h : s.CarriersInv) (u) : (goOut u s).CarriersInv :=
  ((((h.onLink u _).leaveIfLive _ u).onLink u _).onUnit u _).reportChanges u _

theorem requestOut (h : s.CarriersInv) (u) : (requestOut u s).CarriersInv := by
  unfold Machine.requestOut
  split
  · exact h
  · exact h
  · exact h.goOut u

theorem requestIn (h : s.CarriersInv) (u) : (requestIn u s).CarriersInv :=
  h.ite ((h.onUnit u _).enterResetting u)

theorem requestRevive (h : s.CarriersInv) (u) : (requestRevive u s).CarriersInv :=
  h.ite ((h.onUnit u _).enterResetting u)

theorem deliverUnit (h : s.CarriersInv) (u b) : (deliverUnit u b s).CarriersInv := by
  have admin (c) : (deliverAdmin u c (acknowledgeUnit u (b.data.setWidth 7) s)).CarriersInv := by
    have acknowledged : (acknowledgeUnit u (b.data.setWidth 7) s).CarriersInv := h.setFaults _
    unfold deliverAdmin
    split
    · exact acknowledged.requestOut u
    · exact acknowledged.ite (acknowledged.requestIn u)
  exact (admin _).ite ((admin _).requestRevive u)

/-- A part of a u4 write (R123). -/
theorem unitWritten {effect : State → State} (h : s.CarriersInv) (acts : (effect s).CarriersInv) :
    (unitWritten effect s).CarriersInv :=
  h.ite (acts.settling effect).close

/-- A reply that is taken (R103). -/
theorem delivering {effect : State → State} (h : s.CarriersInv)
    (acts : ∀ s : State, s.CarriersInv → (effect s).CarriersInv) (n) :
    (delivering n effect s).CarriersInv :=
  ((acts _ (h.onLink n _)).settling effect).close

/-! ### Site Control and the Fault Reporter (R28 to R35, R147, R157 to R159) -/

theorem presentLoad (h : s.CarriersInv) (p) : (presentLoad p s).CarriersInv := h.setPath _

theorem requestConfig (h : s.CarriersInv) : (requestConfig s).CarriersInv := by
  unfold Machine.requestConfig
  split
  · exact (h.setSite _).setPath _
  · exact .stop s.carriers
  · exact .stop s.carriers
  · exact h

theorem requestServe (h : s.CarriersInv) : (requestServe s).CarriersInv := by
  unfold Machine.requestServe
  split
  · exact (h.setSite _).presentLoad _
  · exact h

theorem deliverMode (h : s.CarriersInv) (b) : (deliverMode b s).CarriersInv := by
  unfold Machine.deliverMode
  split
  · next r _ =>
    cases r with
    | config => exact h.requestConfig
    | serve => exact h.requestServe
  · exact h

theorem consume (h : s.CarriersInv) (v : Nat) : (consume v s).CarriersInv := by
  refine h.of_carriers ?_
  unfold Machine.consume
  split <;> rfl

theorem deliverSiteFaults (h : s.CarriersInv) (b) : (deliverSiteFaults b s).CarriersInv := by
  refine h.of_carriers ?_
  unfold Machine.deliverSiteFaults
  simp only
  split <;> split <;> split <;> rfl

theorem afterSectors (h : s.CarriersInv) : (afterSectors s).CarriersInv := by
  unfold Machine.afterSectors
  split
  · exact h.setSite _
  · exact .afterReset

theorem afterSector (h : s.CarriersInv) (n) : (afterSector n s).CarriersInv := by
  unfold Machine.afterSector
  split
  · exact h.afterSectors.ite (h.presentLoad _)
  · exact h.afterSectors

theorem afterL3 (h : s.CarriersInv) : (afterL3 s).CarriersInv := by
  unfold Machine.afterL3
  split
  · exact h.setSite _
  · exact h.presentLoad _

theorem loadAnswered (h : s.CarriersInv) (p a) : (loadAnswered p a s).CarriersInv := by
  cases a with
  | fault => exact h.setSite _
  | okay data =>
    cases p with
    | loadL1 => exact (h.setSite _).presentLoad _
    | loadL2 => exact (h.setSite _).presentLoad _
    | loadL3 => exact (h.setSite _).afterL3
    | loadSector n => exact (h.onSteering _).afterSector n
    | deposit => exact h

/-! ### The words of a write (R8, R16) -/

theorem removeChanged (h : s.CarriersInv) (k high names) :
    (removeChanged k high names s).CarriersInv := h

theorem deliverWord (h : s.CarriersInv) (w b) : (deliverWord w b s).CarriersInv := by
  cases w with
  | descriptor w =>
    have faults := h.ite (p := w.val = 3) (h.deliverSiteFaults b).close
    exact (faults.ite (h.consume _).close).ite (h.deliverMode b).close
  | stage k w =>
    exact ((h.ite (h.removeChanged k true _)).ite (h.removeChanged k false _)).ite (h.setStage k _)
  | unit n w => exact h.ite ((h.deliverUnit n b).settling _).close
  | sector n w => exact h.ite (h.setFaults _).close
  | plainMemory | carrier | ring => exact h

theorem mergeWord (h : s.CarriersInv) (w b) : (mergeWord w b s).CarriersInv := by
  have copy (n) : (mergeCopy n b s).CarriersInv := h.setSite _
  have modes : (mergeFaultModes b s).CarriersInv :=
    (copy 20).ite ((copy 20).setFaults _).close
  cases w with
  | descriptor w =>
    refine State.CarriersInv.ite ((h.ite (copy _)).ite modes) (h.ite (copy _))
  | stage k w => exact h.ite (h.setStage k _)
  | sector n w => exact h.ite (h.onSteering _)
  | plainMemory | carrier | unit | ring => exact h

theorem takeEntry (h : s.CarriersInv) (x) : (takeEntry x s).CarriersInv := by
  have put (e) := h.setPath { s.path with entries := x.put e }
  unfold Machine.takeEntry applyVerdict
  simp only
  split
  · exact ((put _).setFaults _).close
  · exact put _
  · exact put _
  · exact foldl_keeps (p := State.CarriersInv) _ (fun _ p k => k.deliverWord p.1 p.2) _ (put _)

theorem writeAnswered (h : s.CarriersInv) (x a) : (writeAnswered x a s).CarriersInv :=
  writeAnswered_keeps (P := State.CarriersInv) (fun _ w b k => k.mergeWord w b)
    (fun _ w b k => k.deliverWord w b) (fun _ => h.setPath _) a

/-! ### The rows (R46, R67, R94, R99) -/

theorem postWritten (h : s.CarriersInv) (k b) : (postWritten k b s).CarriersInv :=
  h.ite (h.setStage k _)

theorem validation (h : s.CarriersInv) (m) : (validation m s).CarriersInv := by
  unfold Machine.validation
  split
  · next k p _ =>
    have judged : (validate k p s).CarriersInv := (h.judgePost k p).setStages _
    exact h.ite (judged.settling _).close
  · exact h

theorem breakEnded (h : s.CarriersInv) (n) : (breakEnded n s).CarriersInv := by
  have ended := (h.onLink n Link.endBreak).onUnit n UnitRecord.breakEnded
  exact ended.ite (ended.setSite _).close

theorem replyTimerExpired (h : s.CarriersInv) (n x) : (replyTimerExpired n x s).CarriersInv :=
  (h.onLink n _).ite (((h.onLink n _).secondTimeout n).settling _).close

/-- Every command keeps the contexts coherent and the occupancy lists in agreement. -/
theorem exec (h : s.CarriersInv) (c : Instr) : ∃ t, exec c s = .next t ∧ t.CarriersInv := by
  cases c with
  | pinReset => exact ⟨_, rfl, .afterReset⟩
  | requestArrival => exact ⟨_, rfl, h.ite (h.setPath _)⟩
  | takeRequest =>
    refine ⟨_, rfl, ?_⟩
    split
    · exact h.takeEntry _
    · exact h
  | arbiterGrant => exact ⟨_, rfl, h.setPath _⟩
  | memoryWriteResponse a =>
    refine ⟨_, rfl, ?_⟩
    split
    · exact h.writeAnswered _ a
    · exact h
  | memoryReadResponse a =>
    refine ⟨_, rfl, ?_⟩
    split
    · exact h.ite (readAnswered_keeps (P := State.CarriersInv) (fun _ _ => h.setPath _) a)
    · exact h
  | responseReturn =>
    refine ⟨_, rfl, ?_⟩
    split
    · exact h.setPath _
    · exact h
  | serveRequest => exact ⟨_, rfl, h.requestServe⟩
  | configRequest =>
    refine ⟨_, rfl, ?_⟩
    split
    · exact h
    · exact h.requestConfig.close
  | loadReadAnswer a =>
    refine ⟨_, rfl, ?_⟩
    split
    · next x _ =>
      have answered := h.setPath s.path.ownAnswered
      simp only
      split
      · exact h
      · split
        · exact answered
        · exact (answered.loadAnswered x.purpose a).close
    · exact h
  | consumerWrite => exact ⟨_, rfl, h.ite (h.consume _).close⟩
  | acknowledgeProtection | acknowledgeLapse | clearDepositFault | holeAcknowledge =>
    exact ⟨_, rfl, h.ite (h.setFaults _).close⟩
  | depositAnswer a =>
    refine ⟨_, rfl, ?_⟩
    split
    · exact ((h.setPath _).setFaults _).close
    · exact h
  | lapseExpiry => exact ⟨_, rfl, h.ite ((h.setSite _).setFaults _).close⟩
  | fullPost k data => exact ⟨_, rfl, h.postWritten k _⟩
  | shortPost k data en =>
    refine ⟨_, rfl, ?_⟩
    split
    · exact h
    · exact h.postWritten k _
  | changedSetRemove k high names => exact ⟨_, rfl, h.ite (h.removeChanged k high names)⟩
  | validateTune | validateSearch | validateRelease => exact ⟨_, rfl, h.validation _⟩
  | unitAcknowledge => exact ⟨_, rfl, h.unitWritten (h.setFaults _)⟩
  | adminOut u => exact ⟨_, rfl, h.unitWritten (h.requestOut u)⟩
  | adminIn u => exact ⟨_, rfl, h.unitWritten (h.requestIn u)⟩
  | revive u => exact ⟨_, rfl, h.unitWritten (h.requestRevive u)⟩
  | dispatch n =>
    refine ⟨_, rfl, ?_⟩
    split
    · split
      · exact (h.onLink n _).tuneDispatched _
      · exact h.onLink n _
    · exact h
  | frameSendEnd n | breakBegin n | noiseDiscard n | framingDiscard n | lineConditionReady n =>
    exact ⟨_, rfl, h.ite (h.onLink n _)⟩
  | breakEnd n => exact ⟨_, rfl, h.ite (h.breakEnded n)⟩
  | replyTimerExpiry n =>
    refine ⟨_, rfl, ?_⟩
    split
    · exact h.replyTimerExpired n _
    · exact h
  | tunedReply n =>
    refine ⟨_, rfl, ?_⟩
    split
    · exact h.delivering (fun _ k => k.carrierTuned _ _) n
    · exact h
  | droppedReply n =>
    refine ⟨_, rfl, ?_⟩
    split
    · exact h.delivering (fun _ k => k.carrierDropped _) n
    · exact h
  | levelReply n =>
    refine ⟨_, rfl, ?_⟩
    split
    · exact h.delivering (fun _ k => k.carrierLevel _ _) n
    · exact h
  | statusReply n =>
    refine ⟨_, rfl, ?_⟩
    split
    · exact h.delivering (fun _ k => k.takeStatus n _ _) n
    · exact h
  | strayFrame n | checkDiscard n =>
    refine ⟨_, rfl, ?_⟩
    split
    · exact h.onLink n _
    · exact h
  | breakReceived n => exact ⟨_, rfl, h.ite (((h.onLink n _).unitBreak n).settling _).close⟩
  | guardExpiry n => exact ⟨_, rfl, h.ite ((h.onUnit n _).onLink n _)⟩
  | recoveryExpiry n => exact ⟨_, rfl, h.ite (h.recoveryAttempt n)⟩
  | pollExpiry => exact ⟨_, rfl, h.ite h.pollExpired.close⟩
  | epochExpiry => exact ⟨_, rfl, h.ite (h.setSteering _)⟩
  | goodCharacterReceived n =>
    refine ⟨_, rfl, ?_⟩
    split
    · exact h.ite (h.onLink n _)
    · exact h
  | siteTimeCount => exact ⟨_, rfl, h.ite (h.setSite _)⟩

/-- Every step keeps them: a character time touches links alone. -/
theorem step (h : s.CarriersInv) (next : step s = .next t) : t.CarriersInv := by
  unfold Machine.step at next
  split at next
  · cases next
    exact h.setLinks _
  · next c rest _ =>
    obtain ⟨u, answers, kept⟩ := (h.setPending rest).exec c
    rw [answers] at next
    cases next
    exact kept

end State.CarriersInv

/-! ## What an occupancy list holds (Table 4-3, R56, R78) -/

theorem held_mem_occupancyOf (contexts : Bank 96 Context) (u : UnitId) (i : Interval) (n : SlotId) :
    ⟨i, n, true⟩ ∈ occupancyOf contexts u ↔ slotUnit n = u ∧ (contexts.get n).ClaimsHeld i := by
  simp [mem_occupancyOf, Context.held_mem_claims]

theorem requested_mem_occupancyOf (contexts : Bank 96 Context) (u : UnitId) (i : Interval)
    (n : SlotId) :
    ⟨i, n, false⟩ ∈ occupancyOf contexts u ↔
      slotUnit n = u ∧ (contexts.get n).ClaimsRequested i ∧ ¬ (contexts.get n).ClaimsHeld i := by
  simp [mem_occupancyOf, Context.requested_mem_claims]

/-- Settles O55: every command keeps the invariant block by block, and a list holds what its unit's
slots claim, entry by entry. -/
theorem stepKeepsContextsAndOccupancy : Obligations.StepKeepsContextsAndOccupancy :=
  ⟨fun _ _ next inv => State.CarriersInv.step inv next,
    fun contexts u =>
      ⟨fun i n => ⟨held_mem_occupancyOf contexts u i n, requested_mem_occupancyOf contexts u i n⟩,
        occupancyOf_ordered contexts u⟩,
    fun _ => ⟨rfl, rfl⟩, fun _ _ => rfl, fun _ _ => rfl, fun _ => rfl,
    Carriers.overlapsOthers_iff⟩

end Sys2Proof.Machine
end

section
/-! LEVEL (O45): what it does to its slot, and the walk that goes on from it. -/
namespace Sys2Proof.Machine

open Sys2Proof

/-! ## The walk that goes on (R77, R78) -/

section
variable {claimed : Interval → Bool} {r r' : SearchRecord}

/-- A walk that goes on begins with one step inside the limits and examines from there. -/
theorem moveOn_clear (walk : moveOn claimed r = .clear r') :
    ∃ m, r.move = some m ∧ examine claimed 65536 m = .clear r' := by
  unfold moveOn at walk
  split at walk
  · next m moves => exact ⟨m, moves, walk⟩
  · cases walk

/-- A walk that goes on to the limit meets it at its first step, or in an examination from there. -/
theorem moveOn_limit (walk : moveOn claimed r = .limit r') :
    (r.move = none ∧ r' = r) ∨
      ∃ m, r.move = some m ∧ examine claimed 65536 m = .limit r' := by
  unfold moveOn at walk
  split at walk
  · next m moves => exact .inr ⟨m, moves, walk⟩
  · next stuck =>
    cases walk
    exact .inl ⟨stuck, rfl⟩

end

namespace SearchRecord

variable {claimed : Interval → Bool} {r m r' : SearchRecord} {i : Nat}

/-- A walk from the next candidate, seen from one step before: where it has come to, and that the
candidates from the first step on lie inside the limits, the ones before its last overlapped. -/
theorem WalksTo.from_move (walks : m.WalksTo claimed i r') (moves : r.move = some m)
    (top : r.upper ≤ 65535) :
    (r'.candidate.toNat : Int) = r.valueAt (i + 1) ∧ r' = { r with candidate := r'.candidate } ∧
      (∀ j, 1 ≤ j → j ≤ i + 1 → r.InsideAt j) ∧
      ∀ j, 1 ≤ j → j < i + 1 → r.BusyAt claimed j := by
  obtain ⟨inside, same, -⟩ := move_some moves top
  obtain ⟨value, same', before⟩ := walks
  refine ⟨value.trans (valueAt_move moves top i), same'.trans (by rw [same]), ?_, ?_⟩
  · intro j one le
    obtain ⟨j, rfl⟩ := Nat.exists_eq_add_of_le' one
    cases j with
    | zero => exact inside
    | succ j => exact (insideAt_move moves top (j + 1)).mp (before j (by omega)).2
  · intro j one lt
    obtain ⟨j, rfl⟩ := Nat.exists_eq_add_of_le' one
    exact (busyAt_move moves top j).mp (before j (by omega)).1

end SearchRecord

/-! ## What a LEVEL does to its slot (R81, R82, R84) -/

section
variable {s : State} {m : SlotId} {q : SearchRecord} {v : Nat}

/-- A search record with a reported level: the level, and one more step (R81). -/
def SearchRecord.levelled (v : Nat) (q : SearchRecord) : SearchRecord :=
  { q with lastLevel := v, steps := countUp 65535 q.steps }

/-- A slot's context with its search's candidate claimed (R82). -/
def Context.searchClaimed (r : SearchRecord) (c : Context) : Context :=
  { c with
    state := .waiting
    requested := some ⟨r.tuning, .search⟩
    held := none
    search := none
    summary := r.summary }

/-- The LEVEL of an orphan: discarded, and the deferred command queued (R84). -/
theorem carrierLevel_orphan (orphan : (s.context m).orphan = true) :
    let e := carrierLevel s m v
    SlotChanged m { s.context m with orphan := false, deferred := none } none s e ∧
      e.link (slotUnit m) =
        { s.link (slotUnit m) with
          queue := (s.link (slotUnit m)).queue ++ (s.context m).deferred.toList } ∧
      e.steering = s.steering := by
  have changed := SlotChanged.setContext s m { s.context m with orphan := false, deferred := none }
  unfold carrierLevel
  simp only [orphan, if_true]
  unfold orphanLevel
  simp only
  split
  · next d deferred =>
    refine ⟨changed.onLink _ _, ?_, rfl⟩
    rw [State.link_onLink_self, deferred]
    rfl
  · next deferred =>
    refine ⟨changed, ?_, rfl⟩
    rw [deferred, Option.toList_none, List.append_nil]
    rfl

/-- The LEVEL of a SEARCHING slot, by whether its candidate is claimed. -/
theorem carrierLevel_searching (free : (s.context m).orphan = false)
    (searching : (s.context m).state = .searching) (search : (s.context m).search = some q) :
    carrierLevel s m v =
      if v ≤ q.stopLevel ∧ s.carriers.overlapsOthers m q.tuning.interval = false then
        searchClaim s m (q.levelled v)
      else searchOn s m (q.levelled v) := by
  simp only [carrierLevel, free, searching, search]
  rfl

theorem carrierLevel_other (free : (s.context m).orphan = false)
    (other : (s.context m).state ≠ .searching) : carrierLevel s m v = s := by
  unfold carrierLevel
  simp only [free, Bool.false_eq_true, if_false]
  split
  · next searching _ => exact absurd searching other
  · rfl

/-- A slot with no orphan takes the context `c` and queues the command `x`. -/
theorem updateSlot_queued {c : Context} {told : Option Operator} (x : Command)
    (free : c.orphan = false) (tells : (s.context m).told c = told) :
    let e := (s.updateSlot m c).queueOrDefer m x
    SlotChanged m c told s e ∧
      e.link (slotUnit m) =
        { s.link (slotUnit m) with queue := (s.link (slotUnit m)).queue ++ [x] } ∧
      e.steering = s.steering := by
  obtain ⟨changed, link, steering⟩ := updateSlot_queueOrDefer (s := s) (c := c) x id tells
  have queued : ¬ c.orphan = true := Bool.eq_false_iff.mp free
  rw [if_neg queued] at changed link
  exact ⟨changed, link, steering⟩

/-- The search claims its candidate: WAITING with a TUNE (R82). -/
theorem searchClaim_slot (r : SearchRecord) (free : (s.context m).orphan = false)
    (searching : (s.context m).state = .searching) :
    let e := searchClaim s m r
    SlotChanged m ((s.context m).searchClaimed r) (s.context m).owner s e ∧
      e.link (slotUnit m) =
        { s.link (slotUnit m) with
          queue := (s.link (slotUnit m)).queue ++ [.tune m r.tuning] } ∧
      e.steering = s.steering :=
  updateSlot_queued (c := (s.context m).searchClaimed r) _ free
    (Context.told_owner (searching.trans_ne nofun) nofun)

/-- The search goes on: a SCAN of the next clear candidate, and nobody is told (R78, R81). -/
theorem searchOn_clear {r r' : SearchRecord} (free : (s.context m).orphan = false)
    (walk : moveOn (s.carriers.overlapsOthers m) r = .clear r') :
    let e := searchOn s m r
    SlotChanged m { s.context m with search := some r' } none s e ∧
      e.link (slotUnit m) =
        { s.link (slotUnit m) with queue := (s.link (slotUnit m)).queue ++ [r'.scan m] } ∧
      e.steering = s.steering := by
  simp only [searchOn, walk]
  exact updateSlot_queued (c := { s.context m with search := some r' }) _ free
    (if_pos ⟨rfl, rfl⟩)

/-- The search ends at the band limit (R79). -/
theorem searchOn_limit {r r' : SearchRecord} (searching : (s.context m).state = .searching)
    (walk : moveOn (s.carriers.overlapsOthers m) r = .limit r') :
    let e := searchOn s m r
    SlotChanged m ((s.context m).atBandLimit r') (s.context m).owner s e ∧
      e.link (slotUnit m) = s.link (slotUnit m) ∧ e.steering = s.steering.lost m := by
  simp only [searchOn, walk]
  have changed := SlotChanged.updateSlot_telling ((s.context m).atBandLimit r')
    (Context.told_vacated (searching.trans_ne nofun) rfl)
  exact ⟨changed.of_carriers rfl, s.link_updateSlot m _ _, by simp⟩

end

/-! ## The event (R103) -/

theorem OtherLinksStay.carrierLevel (s : State) (m v) :
    OtherLinksStay (slotUnit m) s (carrierLevel s m v) := by
  have update (c) : OtherLinksStay (slotUnit m) s (s.updateSlot m c) :=
    .of_links (s.updateSlot_links m c)
  unfold Machine.carrierLevel orphanLevel searchOn
  simp only
  split
  · split
    · exact .onLink _ _ _
    · exact .of_links rfl
  · split
    · split
      · exact (update _).trans (.queueOrDefer _ m _)
      · split
        · exact (update _).trans (.queueOrDefer _ m _)
        · exact update _
    · exact .of_links rfl

theorem SlotEvent.carrierLevel (s : State) (m v) :
    SlotEvent (slotUnit m) s (carrierLevel (s.onLink (slotUnit m) Link.replyTaken) m v) where
  frame := (CarrierFrame.onLink s _ _).trans (.carrierLevel _ m v)
  quiet := (Quiet.onLink s _ _).trans (.carrierLevel _ m v)
  links := (OtherLinksStay.onLink s _ _).trans (.carrierLevel _ m v)

/-- What a taken reply leaves beside its slot, where its effect may queue a command. -/
theorem SlotEvent.delivering {s : State} {n : UnitId} {effect : State → State}
    (event : SlotEvent n s (effect (s.onLink n Link.replyTaken)))
    (hm : s.site.mode ≠ .stopping) :
    let t := delivering n effect s
    Ends s (effect (s.onLink n Link.replyTaken)) t ∧ OnlyCarrierSide n s t ∧ OnlyHoleLatches s t ∧
      PresentsNext (!s.depositOutstanding) s.path t ∧
      LogTells (s.noticesOf (holeChanges s t)) s t := by
  intro t
  have stages : t.setStages s.stages = t :=
    congrArg t.setStages ((close_stages _).trans
      ((UnitFrame.decideStandings _ _).stages.trans event.frame.stages)).symm
  obtain ⟨side, holes, presents, tells⟩ :=
    event.close hm (effect (s.onLink n Link.replyTaken)).stages
  exact ⟨.close s _ _, stages ▸ side, holes, presents, tells⟩

/-- Settles O45: one slot's event for each case of R81, R82 and R84, and the walk from the step it
begins with. -/
theorem levelClaimsGoesOnOrEnds : Obligations.LevelClaimsGoesOnOrEnds := by
  constructor
  · rintro s n c m v hm rfl taken x r done claimed
    obtain ⟨ends, side, holes, presents, tells⟩ :=
      (SlotEvent.carrierLevel s m v).delivering (effect := fun s => carrierLevel s m v) hm
    have taken_link : (s.onLink (slotUnit m) Link.replyTaken).link (slotUnit m) = done :=
      State.link_onLink_self s _ _
    have start : ∀ {y o t}, SlotChanged m y o (s.onLink (slotUnit m) Link.replyTaken) t →
        SlotChanged m y o s t := fun h => h.from_carriers rfl
    refine ⟨_, ?row, side, holes, presents, tells, fun orphan => ?orphan,
      fun q free searching search => ?searching, fun free other => ?other⟩
    case row => simp only [exec, execLevelReply, taken]
    case orphan =>
      obtain ⟨changed, link, steering⟩ :=
        carrierLevel_orphan (s := s.onLink (slotUnit m) Link.replyTaken) (v := v) orphan
      rw [taken_link] at link
      exact ⟨ends.slot (start changed), (ends.link _).trans link, ends.steering_same steering⟩
    case searching =>
      intro q' here tuning
      have level := carrierLevel_searching (s := s.onLink (slotUnit m) Link.replyTaken) (v := v)
        free searching search
      refine ⟨fun quiet clear => ?claims,
        fun goes => ⟨fun q'' walk => ?goesOn, fun q'' walk => ?limit⟩⟩
      case claims =>
        rw [level, if_pos ⟨quiet, clear⟩] at ends
        obtain ⟨changed, link, steering⟩ :=
          searchClaim_slot (s := s.onLink (slotUnit m) Link.replyTaken) q' free searching
        rw [taken_link] at link
        exact ⟨ends.slot (start changed), (ends.link _).trans link, ends.steering_same steering⟩
      all_goals
        rw [level, if_neg fun both => goes.elim both.1.not_gt (Bool.eq_false_iff.mp both.2)] at ends
      case goesOn =>
        obtain ⟨changed, link, steering⟩ :=
          searchOn_clear (s := s.onLink (slotUnit m) Link.replyTaken) (r := q') free walk
        rw [taken_link] at link
        exact ⟨ends.slot (start changed), (ends.link _).trans link, ends.steering_same steering⟩
      case limit =>
        obtain ⟨changed, link, steering⟩ :=
          searchOn_limit (s := s.onLink (slotUnit m) Link.replyTaken) (r := q') searching walk
        exact ⟨ends.slot (start changed), (ends.link _).trans (link.trans taken_link),
          ends.figures steering⟩
    case other =>
      rw [carrierLevel_other (s := s.onLink (slotUnit m) Link.replyTaken) free other] at ends
      exact ⟨ends.carriers, ends.steering_same rfl, (ends.link _).trans taken_link⟩
  · intro claimed q r steps top at_ inside busy
    refine ⟨fun walk => ?clear, fun walk => ?limit⟩
    case clear =>
      obtain ⟨m, moves, walk⟩ := moveOn_clear walk
      have same := (SearchRecord.move_some moves top).2.1
      obtain ⟨i, walks, free⟩ := examine_clear _ m (by rw [same]; exact top) walk
      obtain ⟨value, rest, inLimits, overlapped⟩ := walks.from_move moves top
      exact ⟨i + 1, by omega, value, rest, inLimits, overlapped,
        fun h => free ((SearchRecord.busyAt_move moves top i).mpr h)⟩
    case limit =>
      rcases moveOn_limit walk with ⟨stuck, rfl⟩ | ⟨m, moves, walk⟩
      · exact ⟨0, r.valueAt_zero.symm, rfl, fun j one none => by omega,
          SearchRecord.move_none.mp stuck⟩
      · have same := (SearchRecord.move_some moves top).2.1
        have top' : m.upper ≤ 65535 := by rw [same]; exact top
        obtain ⟨i, walks, ends⟩ := examine_limit _ m top' walk
        have inBound := walks.bound (by rw [same]; exact steps) top'
        obtain ⟨busy_i, outside⟩ := ends.resolve_left inBound.ne
        obtain ⟨value, rest, inLimits, overlapped⟩ := walks.from_move moves top
        refine ⟨i + 1, value, rest, fun j one le => ⟨inLimits j one le, ?_⟩,
          fun h => outside ((SearchRecord.insideAt_move moves top (i + 1)).mpr h)⟩
        rcases Nat.lt_or_eq_of_le le with before | rfl
        · exact overlapped j one before
        · exact (SearchRecord.busyAt_move moves top i).mp busy_i

end Sys2Proof.Machine
end

section
/-! The links' and the unit records' invariants under every step (O56). -/
namespace Sys2Proof.Machine

open Sys2Proof

/-- An event keeps the invariant of all links, and that of all unit records; neither rests on the
other. -/
structure RecordsKept (s t : State) : Prop where
  links : s.LinksInv → t.LinksInv
  units : s.UnitsInv → t.UnitsInv

theorem Link.Inv.takeGood {l : Link} (h : l.Inv) (u head b) :
    (l.takeGood u head b).Inv := by
  unfold Link.takeGood
  split
  · exact h.takeHead u b
  · exact h.takeBody u b

namespace RecordsKept

variable {s t u : State}

/-! ## Events beside the links and the unit records -/

theorem same (links : t.links = s.links) (units : t.units = s.units) : RecordsKept s t :=
  ⟨fun h => h.of_links links, fun h => h.of_units units⟩

theorem refl (s : State) : RecordsKept s s := same rfl rfl

theorem setPending (s : State) (x) : RecordsKept s (s.setPending x) := same rfl rfl

theorem setPath (s : State) (x) : RecordsKept s (s.setPath x) := same rfl rfl

theorem setSite (s : State) (x) : RecordsKept s (s.setSite x) := same rfl rfl

theorem setFaults (s : State) (x) : RecordsKept s (s.setFaults x) := same rfl rfl

theorem setSteering (s : State) (x) : RecordsKept s (s.setSteering x) := same rfl rfl

theorem setPollTimer (s : State) (x) : RecordsKept s (s.setPollTimer x) := same rfl rfl

theorem trans (h : RecordsKept s t) (k : RecordsKept t u) : RecordsKept s u :=
  ⟨k.links ∘ h.links, k.units ∘ h.units⟩

theorem close (h : RecordsKept s t) : RecordsKept s (close t) :=
  h.trans (same (close_links t) (close_units t))

/-- A command that acts under a condition. -/
theorem ite {p : Prop} [Decidable p] (acts : p → RecordsKept s t) :
    RecordsKept s (if p then t else s) := by
  split
  · next holds => exact acts holds
  · exact refl s

theorem decideStandings (b : Steering) (s : State) : RecordsKept s (decideStandings b s) :=
  ⟨fun h => h.decideStandings b, fun h => h.decideStandings b⟩

theorem settling (effect : State → State) (h : RecordsKept s (effect s)) :
    RecordsKept s (settling effect s) :=
  h.trans (decideStandings _ _)

/-- An event of Carrier Control leaves the unit records as they are. -/
theorem of_frame (frame : CarrierFrame s t) (links : s.LinksInv → t.LinksInv) : RecordsKept s t :=
  ⟨links, fun h => h.of_frame frame⟩

theorem onLink (n : UnitId) {f : Link → Link} (keeps : (s.link n).Inv → (f (s.link n)).Inv) :
    RecordsKept s (s.onLink n f) :=
  of_frame (.onLink s n f) fun h => h.onLink (keeps (h n))

/-- An operation of a link that keeps its invariant wherever it acts. -/
theorem onEveryLink (s : State) (n : UnitId) {f : Link → Link}
    (keeps : ∀ {l : Link}, l.Inv → (f l).Inv) : RecordsKept s (s.onLink n f) :=
  onLink n keeps

/-! ## The Unit Supervisor (R112 to R126) -/

theorem requestOut (u : UnitId) (s : State) : RecordsKept s (requestOut u s) :=
  ⟨fun h => h.requestOut u, fun h => h.requestOut u⟩

theorem requestIn (u : UnitId) (s : State) : RecordsKept s (requestIn u s) :=
  ⟨fun h => h.requestIn u, fun h => h.requestIn u⟩

theorem requestRevive (u : UnitId) (s : State) : RecordsKept s (requestRevive u s) :=
  ⟨fun h => h.requestRevive u, fun h => h.requestRevive u⟩

theorem deliverUnit (u : UnitId) (b : Beat) (s : State) : RecordsKept s (deliverUnit u b s) := by
  have admin (c) (s : State) : RecordsKept s (deliverAdmin u c s) := by
    unfold deliverAdmin
    split
    · exact requestOut u s
    · exact ite fun _ => requestIn u s
  have acknowledged : RecordsKept s (acknowledgeUnit u (b.data.setWidth 7) s) := setFaults s _
  have asked := acknowledged.trans (admin (field b.data 8 2) _)
  exact asked.trans (ite (p := flag b.data 12 = true) fun _ => requestRevive u _)

/-- A part of a u4 write (R123). -/
theorem unitWritten {effect : State → State} (acts : RecordsKept s (effect s)) :
    RecordsKept s (unitWritten effect s) :=
  ite fun _ => (acts.settling effect).close

theorem guardExpired {n : UnitId} (resetting : (s.unit n).state = .resetting) :
    RecordsKept s (guardExpired n s) :=
  ⟨fun h => (h.onUnit n _).onLink ((h.onUnit n _ n).queuePoll), fun h => h.guardExpired resetting⟩

/-- The recovery timer runs for a unit that is not exhausted, so the attempt may begin (R122). -/
theorem recoveryAttempt {n : UnitId} (runs : (s.unit n).recovery.isSome = true) :
    RecordsKept s (recoveryAttempt n s) where
  links h := (h.onUnit n _).enterResetting n
  units h := by
    obtain ⟨-, -, -, recovers, -⟩ := h n
    obtain ⟨down, notExhausted⟩ := recovers runs
    exact h.recoveryAttempt down notExhausted

theorem pollExpired (s : State) : RecordsKept s (pollExpired s) :=
  (setPollTimer s _).trans
    ⟨State.LinksInv.pollUnits, State.UnitsInv.pollUnits⟩

/-! ## The links (R93, R94, R99 to R105) -/

/-- The end of a break: the link is IDLE, and a RESETTING unit's guard timer starts. -/
theorem breakEnded {n : UnitId} (sending : (s.link n).tx = .sendingBreak) :
    RecordsKept s (breakEnded n s) := by
  have ended : RecordsKept s ((s.onLink n Link.endBreak).onUnit n UnitRecord.breakEnded) :=
    (onLink n fun h => h.endBreak sending).trans
      ⟨fun h => h.onUnit n _, fun h => h.onUnit (h n).breakEnded⟩
  unfold Machine.breakEnded
  simp only
  split
  · exact (ended.trans (setSite _ _)).close
  · exact ended

theorem replyTimerExpired (n : UnitId) (x : InFlight) (s : State) :
    RecordsKept s (replyTimerExpired n x s) := by
  have timedOut : RecordsKept s (secondTimeout n (s.onLink n Link.timeOut)) :=
    (onEveryLink s n .timeOut).trans ⟨fun h => h.secondTimeout n, fun h => h.secondTimeout n⟩
  unfold Machine.replyTimerExpired
  split
  · exact (timedOut.trans (decideStandings _ _)).close
  · exact onEveryLink s n fun h => h.resend x

/-- A reply that is taken (R103). -/
theorem delivering {effect : State → State} (acts : ∀ s, RecordsKept s (effect s)) (n : UnitId)
    (s : State) : RecordsKept s (delivering n effect s) :=
  (((onEveryLink s n .replyTaken).trans (acts _)).trans (decideStandings _ _)).close

theorem breakReceived (n : UnitId) (s : State) :
    RecordsKept s (Machine.close (Machine.settling (unitBreak n) (s.onLink n Link.receiveBreak))) :=
  (((onEveryLink s n .receiveBreak).trans
    ⟨fun h => h.unitBreak n, fun h => h.unitBreak n⟩).trans (decideStandings _ _)).close

theorem dispatched {n : UnitId} {c : Command} {rest : List Command}
    (sends : (s.link n).dispatchable (s.unit n).state = some (c, rest)) :
    RecordsKept s (s.onLink n (Link.dispatch c rest)) :=
  onLink n fun h => h.dispatch sends

theorem tuneDispatched (s : State) (m : SlotId) : RecordsKept s (tuneDispatched s m) :=
  of_frame (.tuneDispatched s m) fun h => h.tuneDispatched m

/-! ## The stages (R46) -/

theorem validation (m : PostMode) (s : State) : RecordsKept s (validation m s) := by
  unfold Machine.validation
  split
  · next k p _ =>
    have judged : RecordsKept s (validate k p s) :=
      (of_frame (.judgePost s k p) fun h => h.judgePost k p).trans (same rfl rfl)
    exact ite fun _ => (judged.settling _).close
  · exact refl s

theorem postWritten (k : Operator) (b : Beat) (s : State) : RecordsKept s (postWritten k b s) :=
  ite fun _ => same rfl rfl

/-! ## Site Control (R28 to R35) -/

theorem afterPinReset (anchor : BitVec 8) (q : List Instr) (s : State) :
    RecordsKept s (State.afterPinReset anchor q) where
  links _ n := by
    rw [State.link, State.afterPinReset, Bank.get_fill]
    exact .afterReset
  units _ u := by
    rw [State.unit, State.afterPinReset, Bank.get_fill]
    exact .afterReset

/-- The service stop empties each link, asks for the breaks that are owed and sets each unit OFF
(R34). -/
theorem serviceStop (s : State) : RecordsKept s (serviceStop s) where
  links h n := by
    rw [State.link, Machine.serviceStop, Bank.get_tabulate]
    unfold Link.stopped
    split
    · exact (h n).fullEmpty.askBreak
    · exact (h n).fullEmpty
  units h u := by
    rw [State.unit, Machine.serviceStop, Bank.get_tabulate]
    exact (h u).stopped

/-- The entry to SERVING gives links and records their values of R108 and Table 7-3 (R32, R109). -/
theorem enterServing (s : State) : RecordsKept s (enterServing s) where
  links _ n := by
    rw [State.link, Machine.enterServing, Bank.get_tabulate]
    unfold linkAtStart
    split
    · exact Link.Inv.afterReset.askBreak
    · exact .afterReset
  units _ u := by
    rw [State.unit, Machine.enterServing, Bank.get_tabulate]
    exact .atStart _ _

theorem requestConfig (s : State) : RecordsKept s (requestConfig s) := by
  unfold Machine.requestConfig
  split
  · exact same rfl rfl
  · exact serviceStop s
  · exact serviceStop s
  · exact refl s

theorem requestServe (s : State) : RecordsKept s (requestServe s) := by
  unfold Machine.requestServe
  split
  · exact same rfl rfl
  · exact refl s

theorem deliverMode (b : Beat) (s : State) : RecordsKept s (deliverMode b s) := by
  unfold Machine.deliverMode
  split
  · next r _ =>
    cases r with
    | config => exact requestConfig s
    | serve => exact requestServe s
  · exact refl s

theorem afterSectors (s : State) : RecordsKept s (afterSectors s) := by
  unfold Machine.afterSectors
  split
  · exact same rfl rfl
  · exact enterServing s

theorem afterSector (n : SectorId) (s : State) : RecordsKept s (afterSector n s) := by
  unfold Machine.afterSector
  split
  · split
    · exact same rfl rfl
    · exact afterSectors s
  · exact afterSectors s

theorem afterL3 (s : State) : RecordsKept s (afterL3 s) := by
  unfold Machine.afterL3
  split <;> exact same rfl rfl

theorem loadAnswered (p : OwnPurpose) (a : ReadAnswer) (s : State) :
    RecordsKept s (loadAnswered p a s) := by
  cases a with
  | fault => exact same rfl rfl
  | okay data =>
    cases p with
    | loadL1 | loadL2 => exact (setSite s _).trans (setPath _ _)
    | deposit => exact refl s
    | loadL3 => exact (setSite s _).trans (afterL3 _)
    | loadSector n => exact (setSteering s _).trans (afterSector n _)

/-! ## The words of a write (R8, R16, R147, R157) -/

theorem consume (v : Nat) (s : State) : RecordsKept s (consume v s) := by
  unfold Machine.consume
  split <;> exact same rfl rfl

theorem deliverSiteFaults (b : Beat) (s : State) : RecordsKept s (deliverSiteFaults b s) := by
  have first : RecordsKept s (if flag b.data 0 then acknowledgeSite .protection s else s) :=
    ite fun _ => setFaults s _
  have second := first.trans
    (ite (p := flag b.data 1 = true) fun _ => same (t := acknowledgeSite .lapse _) rfl rfl)
  exact second.trans
    (ite (p := flag b.data 2 = true) fun _ => setFaults _ _)

theorem deliverWord (w : WordRef) (b : Beat) (s : State) : RecordsKept s (deliverWord w b s) := by
  cases w with
  | descriptor w =>
    unfold Machine.deliverWord
    simp only
    split
    · exact (deliverMode b s).close
    · split
      · exact (consume _ s).close
      · exact ite fun _ => (deliverSiteFaults b s).close
  | stage k w =>
    unfold Machine.deliverWord
    simp only
    split
    · exact same rfl rfl
    · split
      · exact same rfl rfl
      · exact ite fun _ => same rfl rfl
  | unit n w => exact ite fun _ => ((deliverUnit n b s).settling _).close
  | sector n w => exact ite fun _ => (setFaults s _).close
  | plainMemory | carrier | ring => exact refl s

theorem mergeWord (w : WordRef) (b : Beat) (s : State) : RecordsKept s (mergeWord w b s) := by
  have modes : RecordsKept s (mergeFaultModes b s) := by
    unfold mergeFaultModes
    simp only
    split
    · exact RecordsKept.close (same rfl rfl)
    · exact same rfl rfl
  cases w with
  | descriptor w =>
    unfold Machine.mergeWord mergeDescriptor
    simp only
    split
    · exact ite fun _ => same rfl rfl
    · split
      · exact modes
      · exact ite fun _ => same rfl rfl
  | stage k w => exact ite fun _ => same rfl rfl
  | sector n w => exact ite fun _ => same rfl rfl
  | plainMemory | carrier | unit | ring => exact refl s

theorem takeEntry (x : Split) (s : State) : RecordsKept s (takeEntry x s) := by
  have put (e) : RecordsKept s (s.setPath { s.path with entries := x.put e }) := same rfl rfl
  unfold Machine.takeEntry applyVerdict
  simp only
  split
  · exact RecordsKept.close (same rfl rfl)
  · exact put _
  · exact put _
  · exact foldl_keeps (p := RecordsKept s) _ (fun _ p k => k.trans (deliverWord p.1 p.2 _)) _ (put _)

theorem writeAnswered (x : Split) (a : Answer) (s : State) : RecordsKept s (writeAnswered x a s) :=
  writeAnswered_keeps (P := RecordsKept s) (fun t w b k => k.trans (mergeWord w b t))
    (fun t w b k => k.trans (deliverWord w b t)) (fun _ => setPath s _) a

/-! ## The rows -/

/-- Every command keeps them. -/
theorem exec (c : Instr) (s : State) : ∃ t, exec c s = .next t ∧ RecordsKept s t := by
  cases c with
  | pinReset => exact ⟨_, rfl, afterPinReset _ _ s⟩
  | requestArrival => exact ⟨_, rfl, ite fun _ => setPath s _⟩
  | takeRequest =>
    refine ⟨_, rfl, ?_⟩
    split
    · exact takeEntry _ s
    · exact refl s
  | arbiterGrant => exact ⟨_, rfl, setPath s _⟩
  | memoryWriteResponse a =>
    refine ⟨_, rfl, ?_⟩
    split
    · exact writeAnswered _ a s
    · exact refl s
  | memoryReadResponse a =>
    refine ⟨_, rfl, ?_⟩
    split
    · exact ite fun _ => readAnswered_keeps (P := RecordsKept s) (fun _ _ => setPath s _) a
    · exact refl s
  | responseReturn =>
    refine ⟨_, rfl, ?_⟩
    split
    · exact same rfl rfl
    · exact refl s
  | serveRequest => exact ⟨_, rfl, requestServe s⟩
  | configRequest =>
    refine ⟨_, rfl, ?_⟩
    split
    · exact refl s
    · exact (requestConfig s).close
  | loadReadAnswer a =>
    refine ⟨_, rfl, ?_⟩
    split
    · next x _ =>
      simp only
      split
      · exact refl s
      · split
        · exact same rfl rfl
        · exact RecordsKept.close ((setPath s _).trans (loadAnswered x.purpose a _))
    · exact refl s
  | consumerWrite => exact ⟨_, rfl, ite fun _ => (consume _ s).close⟩
  | acknowledgeProtection | acknowledgeLapse | clearDepositFault | holeAcknowledge =>
    exact ⟨_, rfl, ite fun _ => (setFaults s _).close⟩
  | depositAnswer a =>
    refine ⟨_, rfl, ?_⟩
    split
    · exact ((setPath s _).trans (setFaults _ _)).close
    · exact refl s
  | lapseExpiry => exact ⟨_, rfl, ite fun _ => ((setSite s _).trans (setFaults _ _)).close⟩
  | fullPost k data => exact ⟨_, rfl, postWritten k _ s⟩
  | shortPost k data en =>
    refine ⟨_, rfl, ?_⟩
    split
    · exact refl s
    · exact postWritten k _ s
  | changedSetRemove => exact ⟨_, rfl, ite fun _ => same rfl rfl⟩
  | validateTune | validateSearch | validateRelease => exact ⟨_, rfl, validation _ s⟩
  | unitAcknowledge => exact ⟨_, rfl, unitWritten (same rfl rfl)⟩
  | adminOut u => exact ⟨_, rfl, unitWritten (requestOut u s)⟩
  | adminIn u => exact ⟨_, rfl, unitWritten (requestIn u s)⟩
  | revive u => exact ⟨_, rfl, unitWritten (requestRevive u s)⟩
  | dispatch n =>
    refine ⟨_, rfl, ?_⟩
    split
    · next sends =>
      split
      · exact (dispatched sends).trans (tuneDispatched _ _)
      · exact dispatched sends
    · exact refl s
  | frameSendEnd n => exact ⟨_, rfl, ite fun _ => onEveryLink s n fun h => h.sendEnded _⟩
  | breakBegin n => exact ⟨_, rfl, ite fun _ => onEveryLink s n .beginBreak⟩
  | breakEnd n => exact ⟨_, rfl, ite fun sending => breakEnded sending⟩
  | replyTimerExpiry n =>
    refine ⟨_, rfl, ?_⟩
    split
    · exact replyTimerExpired n _ s
    · exact refl s
  | tunedReply n =>
    refine ⟨_, rfl, ?_⟩
    split
    · exact delivering (fun s => of_frame (.carrierTuned s _ _) fun h => h.carrierTuned _ _) n s
    · exact refl s
  | droppedReply n =>
    refine ⟨_, rfl, ?_⟩
    split
    · exact delivering (fun s => of_frame (.carrierDropped s _) fun h => h.carrierDropped _) n s
    · exact refl s
  | levelReply n =>
    refine ⟨_, rfl, ?_⟩
    split
    · exact delivering (fun s => of_frame (.carrierLevel s _ _) fun h => h.carrierLevel _ _) n s
    · exact refl s
  | statusReply n =>
    refine ⟨_, rfl, ?_⟩
    split
    · exact delivering (fun s => ⟨fun h => h.takeStatus n _ _, fun h => h.takeStatus n _ _⟩) n s
    · exact refl s
  | strayFrame n | checkDiscard n =>
    refine ⟨_, rfl, ?_⟩
    split
    · exact onEveryLink s n fun h => h.frameDone.discard _ _
    · exact refl s
  | noiseDiscard n => exact ⟨_, rfl, ite fun _ => onEveryLink s n fun h => h.damaged _ _⟩
  | framingDiscard n =>
    exact ⟨_, rfl, ite fun _ => onEveryLink s n fun h =>
      (h.damaged (s.unit n).state .framing).of_eq rfl rfl rfl rfl rfl rfl⟩
  | breakReceived n => exact ⟨_, rfl, ite fun _ => breakReceived n s⟩
  | guardExpiry n => exact ⟨_, rfl, ite fun runs => guardExpired runs.2⟩
  | recoveryExpiry n => exact ⟨_, rfl, ite fun runs => recoveryAttempt runs.1⟩
  | pollExpiry => exact ⟨_, rfl, ite fun _ => (pollExpired s).close⟩
  | epochExpiry => exact ⟨_, rfl, ite fun _ => setSteering s _⟩
  | goodCharacterReceived n =>
    refine ⟨_, rfl, ?_⟩
    split
    · exact ite fun _ => onEveryLink s n fun h => h.takeGood _ _ _
    · exact refl s
  | lineConditionReady n =>
    exact ⟨_, rfl, ite fun _ => onEveryLink s n fun h => h.of_eq rfl rfl rfl rfl rfl rfl⟩
  | siteTimeCount => exact ⟨_, rfl, ite fun _ => setSite s _⟩

/-- One character time on the transmit lines. -/
theorem characterTime (s : State) : RecordsKept s s.characterTime where
  links h n := by
    rw [State.link, State.characterTime, State.setLinks_links, Bank.get_tabulate]
    exact (h n).characterEnded
  units h := h.of_units (State.setLinks_units s _)

theorem step (next : step s = .next t) : RecordsKept s t := by
  unfold Machine.step at next
  split at next
  · cases next
    exact characterTime s
  · next c rest _ =>
    obtain ⟨u, answers, kept⟩ := exec c (s.setPending rest)
    rw [answers] at next
    cases next
    exact (setPending s rest).trans kept

end RecordsKept

/-- Settles O56: every command keeps both invariants, block by block. -/
theorem stepKeepsLinksAndUnits : Obligations.StepKeepsLinksAndUnits :=
  fun _ _ next => ⟨(RecordsKept.step next).links, (RecordsKept.step next).units⟩

end Sys2Proof.Machine
end

section
/-! One step (O1). -/
namespace Sys2Proof.Machine

open Sys2Proof

/-- What the end of the character in progress leaves of a link, by the transmitter's state (R93,
R94). -/
theorem Link.characterEnded_eq (l : Link) :
    l.characterEnded =
      if l.tx = .idle ∨ l.tx = .sendingBreak then l
      else if l.breakRequest = true then l.inBreak
      else { l with tx := .frame } := by
  have staysInFrame (sending : l.tx = .frame) : l = { l with tx := .frame } := by
    rw [← sending]
  unfold Link.characterEnded
  split
  · next preamble => rw [preamble, Link.beginBreak_eq]; rfl
  · next frame => rw [frame, Link.beginBreak_eq, ← staysInFrame frame]; rfl
  · next idle => rw [if_pos (.inl idle)]
  · next sending => rw [if_pos (.inr sending)]

theorem State.link_characterTime (s : State) (n : UnitId) :
    s.characterTime.link n = (s.link n).characterEnded := by
  rw [State.link, State.characterTime, State.setLinks_links, Bank.get_tabulate]
  rfl

/-- Settles O1: the front command by the queue's match, the character time link by link. -/
theorem stepRunsTheFrontCommand : Obligations.StepRunsTheFrontCommand := by
  refine ⟨fun c rest s => ?_, fun s empty => ⟨s.characterTime, ?_, ?_, fun n => ?_⟩⟩
  · rw [step, State.setPending_pending]
    rfl
  · rw [step, empty]
  · rw [State.characterTime, State.setLinks_setLinks, State.setLinks_self]
  · rw [State.link_characterTime, Link.characterEnded_eq]

end Sys2Proof.Machine
end

section
/-! The frame of a command, its characters and their bits, and the level of the line (O40). -/
namespace Sys2Proof.Machine

open Sys2Proof

/-! ## Bytes (R91, Table 10-10) -/

theorem byteSum_append (l m : List Byte) : byteSum (l ++ m) = byteSum l + byteSum m := by
  have start : ∀ (m : List Byte) (a : Byte), m.foldl (· + ·) a = a + byteSum m := by
    intro m
    induction m with
    | nil => intro a; simp [byteSum]
    | cons b m ih =>
      intro a
      rw [byteSum, List.foldl_cons, List.foldl_cons, ih, ih (0 + b), zero_add, add_assoc]
  rw [byteSum, List.foldl_append, start]
  rfl

theorem byteSum_singleton (b : Byte) : byteSum [b] = b := BitVec.zero_add b

/-- The sum of bytes is 0 exactly where that of their values is a multiple of 256. -/
theorem toNat_byteSum (l : List Byte) : (byteSum l).toNat = (l.map BitVec.toNat).sum % 256 := by
  induction l with
  | nil => rfl
  | cons b l ih =>
    have split : byteSum (b :: l) = b + byteSum l := by
      rw [← List.singleton_append, byteSum_append, byteSum_singleton]
    rw [split, BitVec.toNat_add, ih, List.map_cons, List.sum_cons]
    omega

theorem byteSum_eq_zero_iff (l : List Byte) :
    byteSum l = 0 ↔ (l.map BitVec.toNat).sum % 256 = 0 := by
  rw [← toNat_byteSum]
  exact BitVec.toNat_inj.symm

/-- The check byte makes the sum of a frame 0. -/
theorem byteSum_frameBytes (code : Nat) (tag : BitVec 4) (body : List Byte) :
    byteSum (frameBytes code tag body) = 0 := by
  rw [frameBytes, byteSum_append, byteSum_singleton, add_neg_cancel]

/-- A two-byte field, low byte first. -/
theorem toNat_lowByte_highByte (v : BitVec 16) :
    (v.setWidth 8).toNat + 256 * ((v >>> 8).setWidth 8).toNat = v.toNat := by
  simp only [BitVec.toNat_setWidth, BitVec.toNat_ushiftRight]
  omega

/-! ## Characters (R90) -/

theorem length_frameCharacters (bytes : List Byte) :
    (frameCharacters bytes).length = bytes.length := by
  cases bytes with
  | nil => rfl
  | cons head rest => simp [frameCharacters]

/-- The first byte of a frame alone is a head character's. -/
theorem getElem?_frameCharacters {bytes : List Byte} {i : Nat} {b : Byte}
    (at_i : bytes[i]? = some b) :
    (frameCharacters bytes)[i]? = some (sentCharacter (decide (i = 0)) b) := by
  cases bytes with
  | nil => simp at at_i
  | cons head rest =>
    cases i with
    | zero =>
      obtain rfl : head = b := by simpa using at_i
      rfl
    | succ i =>
      have in_rest : rest[i]? = some b := by simpa using at_i
      simp [frameCharacters, in_rest]

/-! ## Bits on the line (R90, R93, R94) -/

theorem LineCharacter.length_bits (c : LineCharacter) : c.bits.length = 11 := by
  simp [LineCharacter.bits]

theorem LineCharacter.getElem?_bits (c : LineCharacter) {j : Nat} (hj : j < 11) :
    c.bits[j]? = some (c.getLsbD j) := by
  simp [LineCharacter.bits, hj]

theorem length_flatMap_bits (l : List LineCharacter) :
    (l.flatMap LineCharacter.bits).length = 11 * l.length := by
  induction l with
  | nil => rfl
  | cons c l ih =>
    rw [List.flatMap_cons, List.length_append, LineCharacter.length_bits, ih, List.length_cons]
    omega

/-- Bit `j` of character `i` stands behind the 11 bits of each character before it. -/
theorem getElem?_flatMap_bits {l : List LineCharacter} {i j : Nat} {c : LineCharacter}
    (at_i : l[i]? = some c) (hj : j < 11) :
    (l.flatMap LineCharacter.bits)[11 * i + j]? = some (c.getLsbD j) := by
  induction l generalizing i with
  | nil => simp at at_i
  | cons d l ih =>
    rw [List.flatMap_cons]
    cases i with
    | zero =>
      obtain rfl : d = c := by simpa using at_i
      rw [List.getElem?_append_left (by rw [LineCharacter.length_bits]; omega), Nat.mul_zero,
        Nat.zero_add, LineCharacter.getElem?_bits _ hj]
    | succ i =>
      have later : l[i]? = some c := by simpa using at_i
      rw [List.getElem?_append_right (by rw [LineCharacter.length_bits]; omega),
        LineCharacter.length_bits, show 11 * (i + 1) + j - 11 = 11 * i + j by omega, ih later]

/-- Settles O40: the bytes, the characters, their bits, and the line by the transmitter's state. -/
theorem framesFollowTheTable : Obligations.FramesFollowTheTable := by
  refine ⟨fun tag c => ⟨⟨?check, ?head⟩, ?sum, ?tune, ?drop, ?scan, ?poll⟩,
    fun bytes => ⟨length_frameCharacters bytes, fun i b => getElem?_frameCharacters⟩,
    fun mark b => ⟨sentCharacter_start mark b, sentCharacter_data mark b,
      sentCharacter_mark mark b, sentCharacter_stop mark b⟩,
    fun l => ⟨fun idle => ?idle, fun i b sent => ?level, fun preamble => ?preamble,
      fun sending => ?sending, fun frame => ?frame⟩⟩
  case check => exact -(byteSum (headByte c.code tag :: c.body))
  case head =>
    rw [Nat.mul_comm 16]
    rfl
  case sum => exact (byteSum_eq_zero_iff _).mp (byteSum_frameBytes c.code tag c.body)
  case tune =>
    rintro n t rfl
    exact ⟨rfl, rfl, _, _, rfl, toNat_lowByte_highByte t.channel⟩
  case drop =>
    rintro n rfl
    exact ⟨rfl, rfl, rfl⟩
  case scan =>
    rintro n ch b rfl
    exact ⟨rfl, rfl, _, _, rfl, toNat_lowByte_highByte ch⟩
  case poll =>
    rintro rfl
    exact ⟨rfl, rfl, rfl⟩
  case idle =>
    have nothing : l.sentBits = [] := by rw [Link.sentBits, idle]
    refine ⟨nothing, fun i => ?_⟩
    rw [Link.lineLevel, nothing]
    rfl
  case level => rw [Link.lineLevel, sent, Option.getD_some]
  case preamble => rw [Link.sentBits, preamble]; rfl
  case sending => rw [Link.sentBits, sending]
  case frame =>
    have bits : l.sentBits = l.txFrame.flatMap LineCharacter.bits := by rw [Link.sentBits, frame]
    rw [bits]
    exact ⟨length_flatMap_bits l.txFrame, fun i j c => getElem?_flatMap_bits⟩

end Sys2Proof.Machine
end

section
/-! Completed frames and the replies they are taken as (O43). -/
namespace Sys2Proof.Machine

open Sys2Proof

/-! ## The kind of a reply (Table 6-3) -/

/-- The kind code in the upper four bits of a reply's head byte. -/
def ReplyKind.code : ReplyKind → Nat
  | .tuned => 9
  | .dropped => 10
  | .level => 11
  | .status => 12

theorem ReplyKind.ofHead_eq_some_iff {b : Byte} {k : ReplyKind} :
    ReplyKind.ofHead b = some k ↔ b.toNat / 16 = k.code := by
  simp only [ReplyKind.ofHead]
  cases k <;> simp only [ReplyKind.code] <;> split_ifs <;> simp <;> omega

/-- A head byte of a known kind has one of the codes 9 to 12. -/
theorem ReplyKind.ofHead_isSome_iff {b : Byte} :
    (ReplyKind.ofHead b).isSome = true ↔ 9 ≤ b.toNat / 16 ∧ b.toNat / 16 ≤ 12 := by
  simp only [ReplyKind.ofHead]
  split_ifs <;> simp <;> omega

/-- Every body byte is stored: the receiver collects a frame of a known kind, with as many bytes
behind the head as the kind has (R102). -/
theorem Link.bodyComplete_iff {l : Link} :
    l.bodyComplete = true ↔ l.rx = .body ∧ ∃ (head : Byte) (body : List Byte) (k : ReplyKind),
      l.buffer = head :: body ∧ head.toNat / 16 = k.code ∧ body.length = k.bodyLength := by
  unfold Link.bodyComplete Link.collecting
  cases l.buffer with
  | nil => simp
  | cons head body =>
    simp only [Bool.and_eq_true, decide_eq_true_eq, List.cons.injEq]
    refine and_congr_right fun _ => ⟨fun complete => ?_, ?_⟩
    · cases known : ReplyKind.ofHead head with
      | none => simp [known] at complete
      | some k =>
        exact ⟨head, body, k, ⟨rfl, rfl⟩, ReplyKind.ofHead_eq_some_iff.mp known,
          by simpa [known] using complete⟩
    · rintro ⟨_, _, k, ⟨rfl, rfl⟩, code, length⟩
      simp [ReplyKind.ofHead_eq_some_iff.mpr code, length]

/-! ## Matching (R103) -/

/-- The frame in the buffer is of kind `k` and has the tag of the command `x` in flight. -/
def Link.answers (l : Link) (x : InFlight) (k : ReplyKind) : Bool :=
  decide (l.frameTag = x.tag ∧ l.collecting = some k)

theorem Link.answers_iff {l : Link} {x : InFlight} {head : Byte} {body : List Byte}
    (buffer : l.buffer = head :: body) (k : ReplyKind) :
    l.answers x k = true ↔ head.toNat = 16 * k.code + x.tag.toNat := by
  have tag : l.frameTag = head.setWidth 4 := by rw [Link.frameTag, buffer]; rfl
  have kind : l.collecting = ReplyKind.ofHead head := by rw [Link.collecting, buffer]
  have small := x.tag.isLt
  rw [Link.answers, decide_eq_true_iff, tag, kind, ReplyKind.ofHead_eq_some_iff, ← BitVec.toNat_inj,
    BitVec.toNat_setWidth]
  omega

theorem Link.bodyByte_eq {l : Link} {head : Byte} {body : List Byte}
    (buffer : l.buffer = head :: body) (i : Nat) : l.bodyByte i = body.getD i 0 := by
  rw [Link.bodyByte, buffer, List.getD_cons_succ]

section
variable {l : Link} {x : InFlight} (inFlight : l.inFlight = some x)
include inFlight

theorem Link.matched_tune {n : SlotId} {t : Tuning} (tune : x.command = .tune n t) :
    l.matched =
      if l.answers x .tuned = true ∧ (l.bodyByte 0).toNat = (slotIndex n).val then
        some (.tuned n (l.bodyByte 1))
      else none := by
  unfold Link.matched Link.answers
  rw [inFlight]
  dsimp only
  rw [tune]
  by_cases tag : l.frameTag = x.tag
  · rcases l.collecting with _ | (_ | _ | _ | _) <;> simp [tag]
  · simp [tag]

theorem Link.matched_drop {n : SlotId} (drop : x.command = .drop n) :
    l.matched =
      if l.answers x .dropped = true ∧ (l.bodyByte 0).toNat = (slotIndex n).val then some (.dropped n)
      else none := by
  unfold Link.matched Link.answers
  rw [inFlight]
  dsimp only
  rw [drop]
  by_cases tag : l.frameTag = x.tag
  · rcases l.collecting with _ | (_ | _ | _ | _) <;> simp [tag]
  · simp [tag]

theorem Link.matched_scan {n : SlotId} {ch : BitVec 16} {b : Byte}
    (scan : x.command = .scan n ch b) :
    l.matched =
      if l.answers x .level = true ∧ l.bodyPair 0 = ch.toNat then
        some (.level n (min 15 (l.bodyByte 2).toNat))
      else none := by
  unfold Link.matched Link.answers
  rw [inFlight]
  dsimp only
  rw [scan]
  by_cases tag : l.frameTag = x.tag
  · rcases l.collecting with _ | (_ | _ | _ | _) <;> simp [tag]
  · simp [tag]

theorem Link.matched_poll (poll : x.command = .poll) :
    l.matched =
      if l.answers x .status = true then some (.status ((l.bodyByte 0).setWidth 4) l.statusFigures)
      else none := by
  unfold Link.matched Link.answers
  rw [inFlight]
  dsimp only
  rw [poll]
  by_cases tag : l.frameTag = x.tag
  · rcases l.collecting with _ | (_ | _ | _ | _) <;> simp [tag]
  · simp [tag]

end

theorem Link.judge_check {l : Link} {check : Byte}
    (sum : ((l.buffer ++ [check]).map BitVec.toNat).sum % 256 ≠ 0) : l.judge check = .check :=
  if_neg fun zero => sum ((byteSum_eq_zero_iff _).mp zero)

/-- A frame whose sum is 0 is taken where it answers the command in flight, and STRAY otherwise. -/
theorem Link.judge_matched {l : Link} {check : Byte} {p q : Prop} [Decidable p] [Decidable q]
    {r : Reply} (sum : ((l.buffer ++ [check]).map BitVec.toNat).sum % 256 = 0) (same : p ↔ q)
    (matched : l.matched = if p then some r else none) :
    l.judge check = if q then .taken r else .stray := by
  unfold Link.judge
  rw [if_pos ((byteSum_eq_zero_iff _).mpr sum), matched]
  by_cases answers : p
  · rw [if_pos answers, if_pos (same.mp answers)]
  · rw [if_neg answers, if_neg (answers ∘ same.mpr)]

theorem Link.judge_unmatched {l : Link} {check : Byte}
    (sum : ((l.buffer ++ [check]).map BitVec.toNat).sum % 256 = 0) (none : l.matched = none) :
    l.judge check = .stray := by
  unfold Link.judge
  rw [if_pos ((byteSum_eq_zero_iff _).mpr sum), none]

/-! ## Characters as they are sent (R90, R101) -/

/-- A sample triple that shows one bit. -/
theorem majority_clean (p : Bool) : majority (if p then 7#3 else 0#3) = p := by
  cases p <;> decide

theorem unsteady_clean (p : Bool) : unsteady (if p then 7#3 else 0#3) = false := by
  cases p <;> decide

theorem majority_cleanSamples (head : Bool) (b : Byte) (i : Fin 11) :
    majority ((cleanSamples head b).get i) = (sentCharacter head b).getLsbD i.val := by
  rw [cleanSamples, Bank.get_tabulate, majority_clean]

theorem dataByte_cleanSamples (head : Bool) (b : Byte) :
    dataByte (cleanSamples head b) = b := by
  refine BitVec.eq_of_getLsbD_eq fun i hi => ?_
  rw [dataByte_getLsbD _ i hi, majority_cleanSamples, Fin.val_ofNat,
    Nat.mod_eq_of_lt (by omega), sentCharacter_data head b i hi]

theorem classify_cleanSamples (head : Bool) (b : Byte) :
    classify (cleanSamples head b) = .good head b := by
  have start : majority ((cleanSamples head b).get 0) = false :=
    (majority_cleanSamples head b 0).trans (sentCharacter_start head b)
  have mark : markBit (cleanSamples head b) = head :=
    (majority_cleanSamples head b 9).trans (sentCharacter_mark head b)
  have stop : stopBit (cleanSamples head b) = true :=
    (majority_cleanSamples head b 10).trans (sentCharacter_stop head b)
  have steady : ((List.finRange 11).any fun i => unsteady ((cleanSamples head b).get i)) = false := by
    simp [cleanSamples, unsteady_clean]
  simp [classify, start, mark, stop, steady, dataByte_cleanSamples]

/-! ## The end of a frame (R101, R102) -/

theorem Link.completion_good {l : Link} {c : Samples} {check : Byte} (ready : l.line = .ready)
    (complete : l.bodyComplete = true) (good : classify c = .good false check) :
    l.completion c = some (l.judge check) := by
  rw [Link.completion, if_pos ⟨ready, complete⟩, good]

theorem Link.completion_none {l : Link} {c : Samples}
    (h : l.line ≠ .ready ∨ l.bodyComplete = false ∨ ∀ b, classify c ≠ .good false b) :
    l.completion c = none := by
  unfold Link.completion
  split
  · next acts =>
    obtain ⟨ready, complete⟩ := acts
    split
    · next b good =>
      rcases h with line | incomplete | other
      · exact absurd ready line
      · rw [complete] at incomplete; cases incomplete
      · exact absurd good (other b)
    · rfl
  · rfl

/-- Settles O43: the sum decides CHECK, the command in flight which frames are taken. -/
theorem repliesAreMatchedToTheCommand : Obligations.RepliesAreMatchedToTheCommand := by
  intro l check
  refine ⟨Link.judge_check, fun sum => ⟨fun nothing => ?stray,
    fun x head body inFlight buffer => ?answered⟩, classify_cleanSamples,
    fun c => Link.completion_good, fun c => Link.completion_none, ?complete⟩
  case stray =>
    refine Link.judge_unmatched sum ?_
    rw [Link.matched, nothing]
  case answered =>
    have answered (k) : l.answers x k = true ↔ head.toNat = 16 * k.code + x.tag.toNat :=
      Link.answers_iff buffer k
    simp only [← Link.bodyByte_eq buffer]
    refine ⟨fun n t tune => ?tune, fun n drop => ?drop, fun n ch b scan => ?scan,
      fun poll => ⟨l.statusFigures, fun i => ?figures, ?poll⟩⟩
    case tune =>
      exact Link.judge_matched sum (and_congr_left' (answered .tuned))
        (Link.matched_tune inFlight tune)
    case drop =>
      exact Link.judge_matched sum (and_congr_left' (answered .dropped))
        (Link.matched_drop inFlight drop)
    case scan =>
      exact Link.judge_matched sum (and_congr_left' (answered .level))
        (Link.matched_scan inFlight scan)
    case figures =>
      rw [Link.statusFigures, Bank.get_tabulate, Link.bodyPair,
        show 1 + 3 * i.val + 1 = 2 + 3 * i.val by omega]
    case poll =>
      exact Link.judge_matched sum (answered .status) (Link.matched_poll inFlight poll)
  case complete =>
    rw [Link.bodyComplete_iff]
    refine and_congr_right fun _ => exists_congr fun head => exists_congr fun body => ?_
    constructor
    · rintro ⟨k, buffer, code, length⟩
      refine ⟨buffer, ?_⟩
      cases k with
      | tuned => exact .inl ⟨code, length⟩
      | dropped => exact .inr (.inl ⟨code, length⟩)
      | level => exact .inr (.inr (.inl ⟨code, length⟩))
      | status => exact .inr (.inr (.inr ⟨code, length⟩))
    · rintro ⟨buffer, ⟨code, length⟩ | ⟨code, length⟩ | ⟨code, length⟩ | ⟨code, length⟩⟩
      · exact ⟨.tuned, buffer, code, length⟩
      · exact ⟨.dropped, buffer, code, length⟩
      · exact ⟨.level, buffer, code, length⟩
      · exact ⟨.status, buffer, code, length⟩

end Sys2Proof.Machine
end

section
/-! The class of a character, and what the receiver does with it (O47). -/
namespace Sys2Proof.Machine

open Sys2Proof

/-! ## The class of a character (R101) -/

theorem dataByte_eq_zero_iff (c : Samples) :
    dataByte c = 0 ↔ ∀ i < 8, majority (c.get (Fin.ofNat 11 (i + 1))) = false := by
  constructor
  · intro zero i hi
    rw [← dataByte_getLsbD c i hi, zero]
    exact BitVec.getLsbD_zero
  · intro low
    refine BitVec.eq_of_getLsbD_eq fun i hi => ?_
    rw [dataByte_getLsbD c i hi, low i hi]
    exact BitVec.getLsbD_zero.symm

/-- The stop bit and all data and mark bits of a character are 0. -/
def Samples.Zeros (c : Samples) : Prop :=
  majority (c.get 10) = false ∧ ∀ i : Fin 11, 1 ≤ i.val → i.val ≤ 9 → majority (c.get i) = false

theorem Samples.zeros_iff (c : Samples) :
    Samples.Zeros c ↔ (!stopBit c && !markBit c && dataByte c == 0) = true := by
  simp only [Bool.and_eq_true, Bool.not_eq_true', beq_iff_eq, dataByte_eq_zero_iff]
  constructor
  · rintro ⟨stop, low⟩
    refine ⟨⟨stop, low 9 (by decide) (by decide)⟩, fun i hi => low _ ?_ ?_⟩ <;>
      rw [Fin.val_ofNat] <;> omega
  · rintro ⟨⟨stop, mark⟩, data⟩
    refine ⟨stop, fun i first last => ?_⟩
    by_cases nine : i.val = 9
    · rw [show i = 9 from Fin.ext nine]
      exact mark
    · have := data (i.val - 1) (by omega)
      rwa [show Fin.ofNat 11 (i.val - 1 + 1) = i from
        Fin.ext (by rw [Fin.val_ofNat]; omega)] at this

/-- The three samples of each bit agree. -/
def Samples.Steady (c : Samples) : Prop := ∀ i : Fin 11, c.get i = 0 ∨ c.get i = 7

theorem Samples.steady_iff (c : Samples) :
    Samples.Steady c ↔ ((List.finRange 11).any fun i => unsteady (c.get i)) = false := by
  simp only [List.any_eq_false, List.mem_finRange, true_implies, unsteady_eq, decide_eq_true_eq,
    not_not]
  rfl

section
variable {c : Samples}

theorem classify_falseStart (start : majority (c.get 0) = true) : classify c = .falseStart :=
  if_pos start

variable (start : majority (c.get 0) = false)
include start

theorem classify_break (zeros : Samples.Zeros c) : classify c = .breakCharacter := by
  rw [classify, if_neg (by simp [start]), if_pos ((Samples.zeros_iff c).mp zeros)]

theorem classify_noisy (bits : ¬ Samples.Zeros c) (noisy : ¬ Samples.Steady c) :
    classify c = .noisy := by
  rw [classify, if_neg (by simp [start]), if_neg (bits ∘ (Samples.zeros_iff c).mpr),
    if_pos (Bool.not_eq_false _ ▸ noisy ∘ (Samples.steady_iff c).mpr)]

theorem classify_framing (bits : ¬ Samples.Zeros c) (steady : Samples.Steady c)
    (stop : majority (c.get 10) = false) : classify c = .framing := by
  rw [classify, if_neg (by simp [start]), if_neg (bits ∘ (Samples.zeros_iff c).mpr),
    if_neg (by simp [(Samples.steady_iff c).mp steady]), if_pos (by simp [stopBit, stop])]

theorem classify_good (bits : ¬ Samples.Zeros c) (steady : Samples.Steady c)
    (stop : majority (c.get 10) = true) :
    classify c = .good (majority (c.get 9)) (dataByte c) := by
  rw [classify, if_neg (by simp [start]), if_neg (bits ∘ (Samples.zeros_iff c).mpr),
    if_neg (by simp [(Samples.steady_iff c).mp steady]), if_neg (by simp [stopBit, stop]), markBit]

end

/-! ## Discards (R102, R106) -/

theorem UnitState.counts_eq_false_iff {u : UnitState} :
    u.counts = false ↔ u = .off ∨ u = .resetting := by
  cases u <;> simp [UnitState.counts]

/-- A discard moves its class's counter and the error window count, where the unit's state counts. -/
theorem Link.discard_eq (u : UnitState) (d : DiscardClass) (l : Link) :
    l.discard u d = l.counted u (Counters.bump d) := by
  unfold Link.discard Link.counted
  cases counts : u.counts with
  | false => rw [if_neg nofun, if_pos (UnitState.counts_eq_false_iff.mp counts)]
  | true =>
    rw [if_pos rfl, if_neg fun idle => by simp [UnitState.counts_eq_false_iff.mpr idle] at counts]
    rfl

/-! ## Good characters (R102) -/

/-- The receiver takes no notice of a good character outside HUNT and BODY. -/
theorem Link.takeBody_skip {l : Link} (u : UnitState) (b : Byte) (skip : l.rx = .skip) :
    l.takeBody u b = l := by
  rw [Link.takeBody, skip]

theorem Link.takeBody_body {l : Link} (u : UnitState) (b : Byte) (body : l.rx = .body) :
    l.takeBody u b = { l with buffer := l.buffer ++ [b] } := by
  rw [Link.takeBody, body]

theorem Link.takeBody_hunt {l : Link} (u : UnitState) (b : Byte) (hunt : l.rx = .hunt) :
    l.takeBody u b = { l.discard u .stray with rx := .skip, buffer := [] } := by
  rw [Link.takeBody, hunt]

theorem Link.takeHead_known {l : Link} (u : UnitState) {b : Byte}
    (known : 9 ≤ b.toNat / 16 ∧ b.toNat / 16 ≤ 12) :
    l.takeHead u b =
      { (if l.rx = .body then l.discard u .stray else l) with rx := .body, buffer := [b] } :=
  if_pos (ReplyKind.ofHead_isSome_iff.mpr known)

theorem Link.takeHead_unknown {l : Link} (u : UnitState) {b : Byte}
    (unknown : ¬ (9 ≤ b.toNat / 16 ∧ b.toNat / 16 ≤ 12)) :
    l.takeHead u b = { l.discard u .stray with rx := .skip, buffer := [] } :=
  if_neg (unknown ∘ ReplyKind.ofHead_isSome_iff.mp)

/-! ## The receiver's rows -/

section
variable {s : State} {n : UnitId} {c : Samples}

/-- A character that is a false start, or meets a SETTLING line, is no event for any row. -/
theorem exec_receiver_none (h : (s.link n).line = .settling ∨ classify c = .falseStart) :
    ∀ x ∈ [Instr.tunedReply n c, .droppedReply n c, .levelReply n c, .statusReply n c,
        .strayFrame n c, .checkDiscard n c, .noiseDiscard n c, .framingDiscard n c,
        .breakReceived n c, .goodCharacterReceived n c],
      exec x s = .next s := by
  have nothing : (s.link n).completion c = none := by
    refine Link.completion_none ?_
    rcases h with settling | falseStart
    · exact .inl (settling ▸ nofun)
    · exact .inr (.inr fun b good => by rw [falseStart] at good; cases good)
  have noClass (k : Character) (other : k ≠ .falseStart) :
      ¬ ((s.link n).line = .ready ∧ classify c = k) := by
    rintro ⟨ready, same⟩
    rcases h with settling | falseStart
    · rw [ready] at settling; cases settling
    · exact other (same.symm.trans falseStart)
  intro x receiver
  simp only [List.mem_cons, List.not_mem_nil, or_false] at receiver
  rcases receiver with rfl | rfl | rfl | rfl | rfl | rfl | rfl | rfl | rfl | rfl
  · simp only [exec, execTunedReply, nothing]
  · simp only [exec, execDroppedReply, nothing]
  · simp only [exec, execLevelReply, nothing]
  · simp only [exec, execStatusReply, nothing]
  · simp only [exec, execStrayFrame, nothing]
  · simp only [exec, execCheckDiscard, nothing]
  · exact congrArg Host.Outcome.next (if_neg (noClass .noisy nofun))
  · exact congrArg Host.Outcome.next (if_neg (noClass .framing nofun))
  · exact congrArg Host.Outcome.next (if_neg (noClass .breakCharacter nofun))
  · simp only [exec, execGoodCharacterReceived]
    split
    · next head b good => rw [if_neg fun acts => noClass (.good head b) nofun ⟨acts.1, good⟩]
    · rfl

/-- A good character that completes no frame, on a READY line. -/
theorem exec_goodCharacter {head : Bool} {b : Byte} (ready : (s.link n).line = .ready)
    (good : classify c = .good head b)
    (incomplete : head = true ∨ (s.link n).bodyComplete = false) :
    exec (.goodCharacterReceived n c) s =
      .next (s.onLink n (Link.takeGood (s.unit n).state head b)) := by
  have nothing : (s.link n).completion c = none := by
    refine Link.completion_none ?_
    rcases incomplete with rfl | incomplete
    · exact .inr (.inr fun d other => by rw [good] at other; cases other)
    · exact .inr (.inl incomplete)
  simp only [exec, execGoodCharacterReceived, good, ready, nothing, and_self, if_true]

theorem exec_checkDiscard {b : Byte} (ready : (s.link n).line = .ready)
    (good : classify c = .good false b) (complete : (s.link n).bodyComplete = true)
    (judged : (s.link n).judge b = .check) :
    exec (.checkDiscard n c) s =
      .next (s.onLink n fun l => l.frameDone.discard (s.unit n).state .check) := by
  simp only [exec, execCheckDiscard, Link.completion_good ready complete good, judged]

theorem exec_strayFrame {b : Byte} (ready : (s.link n).line = .ready)
    (good : classify c = .good false b) (complete : (s.link n).bodyComplete = true)
    (judged : (s.link n).judge b = .stray) :
    exec (.strayFrame n c) s =
      .next (s.onLink n fun l => l.frameDone.discard (s.unit n).state .stray) := by
  simp only [exec, execStrayFrame, Link.completion_good ready complete good, judged]

/-- A row that changes one link, to `l`. -/
theorem next_onLink {f : Link → Link} {l : Link} (h : f (s.link n) = l) :
    (Host.Outcome.next (s.onLink n f) : Host.Outcome State Fault Refusal) =
      .next (s.setLinks (s.links.put n l)) := by
  rw [State.onLink, h]

end

/-- Settles O47: the class of each character, and then the receiver's rows, class by class. -/
theorem receiverCollectsAndDiscards : Obligations.ReceiverCollectsAndDiscards := by
  refine ⟨fun c => ?classes, fun top n => rfl, fun s n c => ?rows⟩
  case classes =>
    simp only [← majority_eq]
    refine ⟨classify_falseStart, classify_break, classify_noisy, classify_framing,
      fun start bits steady stop => ⟨_, classify_good start bits steady stop, fun i j hi hj => ?_⟩⟩
    rw [dataByte_getLsbD c i hi,
      show Fin.ofNat 11 (i + 1) = j from Fin.ext (by rw [Fin.val_ofNat, hj]; omega)]
  case rows =>
    intro l u stray goes
    refine ⟨fun ready => ⟨fun noisy => ?noisy, fun framing => ?framing,
      fun b good complete => ⟨fun judged => ?check, fun judged => ?stray⟩,
      fun b good => ⟨fun low high => ?known, fun unknown => ?unknown⟩,
      fun b good incomplete => ⟨fun body => ?body, fun hunt => ?hunt, fun skip => ?skip⟩⟩,
      exec_receiver_none, fun settling => ?ready⟩
    case noisy =>
      refine (congrArg Host.Outcome.next (if_pos ⟨ready, noisy⟩)).trans (next_onLink ?_)
      rw [Link.damaged, Link.discard_eq]
      rfl
    case framing =>
      refine (congrArg Host.Outcome.next (if_pos ⟨ready, framing⟩)).trans (next_onLink ?_)
      rw [Link.damaged, Link.discard_eq]
      rfl
    case check =>
      exact (exec_checkDiscard ready good complete judged).trans
        (next_onLink (Link.discard_eq _ _ _))
    case stray =>
      exact (exec_strayFrame ready good complete judged).trans
        (next_onLink (Link.discard_eq _ _ _))
    case known =>
      refine (exec_goodCharacter ready good (.inl rfl)).trans (next_onLink ?_)
      refine (Link.takeHead_known u ⟨low, high⟩).trans ?_
      rw [Link.discard_eq]
      rfl
    case unknown =>
      refine (exec_goodCharacter ready good (.inl rfl)).trans (next_onLink ?_)
      refine (Link.takeHead_unknown u (by omega)).trans ?_
      rw [Link.discard_eq]
      rfl
    case body =>
      exact (exec_goodCharacter ready good (.inr incomplete)).trans
        (next_onLink (Link.takeBody_body u b body))
    case hunt =>
      refine (exec_goodCharacter ready good (.inr incomplete)).trans (next_onLink ?_)
      refine (Link.takeBody_hunt u b hunt).trans ?_
      rw [Link.discard_eq]
      rfl
    case skip =>
      refine (exec_goodCharacter ready good (.inr incomplete)).trans
        ((next_onLink (Link.takeBody_skip u b skip)).trans ?_)
      exact congrArg (Host.Outcome.next ∘ s.setLinks) (Bank.put_get_self s.links n)
    case ready => exact (congrArg Host.Outcome.next (if_pos settling)).trans (next_onLink rfl)

end Sys2Proof.Machine
end

section
/-! The transmitter: the ends of frames and breaks (O41). -/
namespace Sys2Proof.Machine

open Sys2Proof

variable {s : State} {n : UnitId}

/-! ## Frames and the beginning of breaks (R93, R94) -/

theorem Link.frameCanEnd_iff {l : Link} :
    l.frameCanEnd = true ↔ l.tx = .frame ∨ (l.tx = .preamble ∧ l.breakRequest = false) := by
  unfold Link.frameCanEnd
  cases l.tx <;> simp

theorem Link.frameEnded_eq (l : Link) (timeout : Nat) :
    l.frameEnded timeout =
      { l with
        tx := .idle, txFrame := []
        replyTimer := if l.inFlight = none then l.replyTimer else some timeout } := by
  unfold Link.frameEnded
  cases l.inFlight <;> rfl

theorem exec_frameSendEnd (h : (s.link n).frameCanEnd = true) :
    exec (.frameSendEnd n) s = .next (s.onLink n (Link.sendEnded s.site.replyTimeout)) :=
  congrArg Host.Outcome.next (if_pos h)

theorem exec_frameSendEnd_none (h : ¬ (s.link n).frameCanEnd = true) :
    exec (.frameSendEnd n) s = .next s :=
  congrArg Host.Outcome.next (if_neg h)

/-! ## The end of a break (R35, R111) -/

theorem UnitRecord.breakEnded_eq (r : UnitRecord) :
    r.breakEnded = { r with guard := r.guard || decide (r.state = .resetting) } := by
  unfold UnitRecord.breakEnded
  split
  · next resetting => simp [resetting]
  · next other => simp [other]

theorem countStopBreak_bit (n m : UnitId) (s : State) :
    (countStopBreak n s).site.owingBreaks.getLsbD m.val =
      (s.site.owingBreaks.getLsbD m.val && decide (m ≠ n)) := by
  have one : (1#24 <<< n.val).getLsbD m.val = decide (m = n) := by
    have := m.isLt
    simp only [BitVec.getLsbD_shiftLeft, BitVec.getLsbD_one, Fin.ext_iff]
    by_cases same : m.val = n.val
    · simp [same]
    · simp [same]
      omega
  simp only [countStopBreak, State.setSite_site, BitVec.getLsbD_and, BitVec.getLsbD_not, one,
    m.isLt, decide_true, Bool.true_and, decide_not]

/-- The end of an event changes nothing of Site Control but the mode. -/
theorem close_site_mode (s : State) : (close s).site = { s.site with mode := (close s).site.mode } := by
  unfold close finishStop
  split
  · rw [enterConfig, State.setPath_site, State.setMode, State.setSite_site, pump_site]
  · rw [pump_site]

/-- Beside Site Control, the path and the Fault Reporter, the end of an event changes nothing. -/
theorem close_setSite_setPath_setFaults (s : State) :
    (((close s).setSite s.site).setPath s.path).setFaults s.faults = s :=
  State.ext_parts (close_pending s) rfl rfl (close_stages s) (close_carriers s) (close_links s)
    (close_linkRate s) (close_units s) (close_pollTimer s) (close_steering s) rfl

/-- Settles O41: each row by the transmitter's state; in STOPPING the break is counted, and its event
ends. -/
theorem transmitterEndsFramesAndBreaks : Obligations.TransmitterEndsFramesAndBreaks := by
  refine ⟨fun s n => ?rows, fun s n sending => ?breakEnd⟩
  case rows =>
    intro l
    refine ⟨fun sends noBreak => ?ends, fun frame asked => ?breaks, fun preamble asked => ?unsent,
      fun other => ?idle, fun asked notSending => ?begins, fun none => ?noBreak⟩
    case ends =>
      have canEnd : l.frameCanEnd = true :=
        Link.frameCanEnd_iff.mpr (sends.symm.imp_right (⟨·, noBreak⟩))
      refine (exec_frameSendEnd canEnd).trans (next_onLink ?_)
      exact (if_neg (by simp [l, noBreak])).trans (Link.frameEnded_eq l _)
    case breaks =>
      refine (exec_frameSendEnd (Link.frameCanEnd_iff.mpr (.inl frame))).trans (next_onLink ?_)
      exact if_pos asked
    case unsent =>
      refine exec_frameSendEnd_none fun canEnd => ?_
      rcases Link.frameCanEnd_iff.mp canEnd with frame | ⟨-, noBreak⟩
      · rw [preamble] at frame; cases frame
      · rw [asked] at noBreak; cases noBreak
    case idle =>
      have noFrame : l.tx ≠ .frame ∧ l.tx ≠ .preamble := by
        rcases other with idle | sending
        · exact ⟨idle.trans_ne nofun, idle.trans_ne nofun⟩
        · exact ⟨sending.trans_ne nofun, sending.trans_ne nofun⟩
      exact exec_frameSendEnd_none fun canEnd =>
        (Link.frameCanEnd_iff.mp canEnd).elim noFrame.1 fun preamble => noFrame.2 preamble.1
    case begins =>
      exact (congrArg Host.Outcome.next (if_pos ⟨asked, notSending⟩)).trans (next_onLink rfl)
    case noBreak =>
      refine congrArg Host.Outcome.next (if_neg fun ⟨asked, notSending⟩ => ?_)
      rcases none with noBreak | sending
      · rw [asked] at noBreak; cases noBreak
      · exact notSending sending
  case breakEnd =>
    intro u ended
    have made : (s.onLink n Link.endBreak).onUnit n UnitRecord.breakEnded = ended :=
      congrArg (fun r => (s.onLink n Link.endBreak).setUnits (s.units.put n r))
        (UnitRecord.breakEnded_eq u)
    have row : exec (.breakEnd n) s = .next (breakEnded n s) :=
      congrArg Host.Outcome.next (if_pos sending)
    rw [row, breakEnded, made]
    refine ⟨fun other => congrArg Host.Outcome.next (if_neg other),
      fun stopping => ⟨close (countStopBreak n ended), ?_⟩⟩
    have counted : (countStopBreak n ended).site.mode = .stopping := stopping
    have site := close_site_mode (countStopBreak n ended)
    refine ⟨congrArg Host.Outcome.next (if_pos stopping), fun m => ?_, ?_,
      close_stopping_faults counted, StopGoesOn.close counted, ?_⟩
    · rw [site]
      exact countStopBreak_bit n m ended
    · rw [site]
      rfl
    · have back := close_setSite_setPath_setFaults (countStopBreak n ended)
      exact congrArg (State.setSite · s.site) back

end Sys2Proof.Machine
end

section
/-! The ways into RESETTING, and on to PROBING (O50). -/
namespace Sys2Proof.Machine

open Sys2Proof

variable {s e : State} {n : UnitId}

/-! ## RESETTING and PROBING (R94, R111) -/

/-- The entry to RESETTING behind a change of the record: the record, and a break asked for. -/
theorem enterResetting_onUnit (s : State) (n : UnitId) (f : UnitRecord → UnitRecord) :
    enterResetting n (s.onUnit n f) =
      (s.setUnits (s.units.put n
        { f (s.unit n) with state := .resetting, guard := false, recovery := none })).setLinks
          (s.links.put n (s.link n).afterBreakRequest) := by
  simp only [enterResetting, State.onUnit, State.onLink, State.unit, State.link,
    State.setUnits_units, State.setUnits_links, State.setUnits_setUnits, Bank.get_put_self,
    Bank.put_put, Link.askBreak_eq]

theorem Link.hasPoll_iff {l : Link} :
    l.hasPoll = true ↔ .poll ∈ l.queue ∨ l.inFlight.map InFlight.command = some .poll := by
  unfold Link.hasPoll
  cases l.inFlight <;> simp

theorem Link.queuePoll_eq (l : Link) :
    l.queuePoll = { l with
      queue :=
        if .poll ∈ l.queue ∨ l.inFlight.map InFlight.command = some .poll then l.queue
        else l.queue ++ [.poll] } := by
  unfold Link.queuePoll
  split
  · next queued => rw [if_pos (Link.hasPoll_iff.mp queued)]
  · next absent => rw [if_neg (absent ∘ Link.hasPoll_iff.mpr)]; rfl

/-! ## A part of a u4 write that reports nothing (R124, R153) -/

/-- An event that touches no figure and reports nothing, at its end: the next deposit is presented,
and nothing else happens. -/
theorem Quiet.unitWritten_end {effect : State → State} (inService : s.site.mode.inService = true)
    (quiet : Quiet s (effect s)) (steering : (effect s).steering = s.steering)
    (path : (effect s).path = s.path) :
    let t := unitWritten effect s
    OnlyLog (effect s) t ∧ PresentsNext (!s.depositOutstanding) s.path t ∧ LogTells [] s t ∧
      ∀ id, t.faults.latch id = s.faults.latch id := by
  intro t
  have mode : s.site.mode ≠ .stopping := fun stopping => by rw [stopping] at inService; cases inService
  have ended : t = close (effect s) :=
    (if_pos inService).trans (congrArg close (decideStandings_same _ _ steering))
  have mode' : (effect s).site.mode ≠ .stopping := quiet.site ▸ mode
  have presents := PresentsNext.close (effect s) mode'
  rw [State.depositOutstanding, path] at presents
  rw [ended]
  exact ⟨close_onlyLog _ mode', presents, .of_closed quiet mode path, fun id => by
    rw [close_latch, quiet.faults]⟩

theorem Quiet.enterResetting (n : UnitId) (f : UnitRecord → UnitRecord) (s : State) :
    Quiet s (enterResetting n (s.onUnit n f)) :=
  ((onUnit s n f).trans (onUnit _ n _)).trans (onLink _ n _)

theorem Quiet.requestIn (n : UnitId) (s : State) : Quiet s (requestIn n s) := by
  unfold Machine.requestIn
  split
  · exact enterResetting n _ s
  · exact refl s

theorem Quiet.requestRevive (n : UnitId) (s : State) : Quiet s (requestRevive n s) := by
  unfold Machine.requestRevive
  split
  · exact enterResetting n _ s
  · exact refl s

/-- Settles O50: each way enters RESETTING by the same change of record and link, and the ways by a
write end with their event. -/
theorem unitsEnterResettingAndProbing : Obligations.UnitsEnterResettingAndProbing := by
  intro s n u l entered
  refine ⟨fun inService => ⟨?goIn, ?revive⟩, fun down runs => ?recovery, fun idle => ?noRecovery,
    fun resetting runs => ?guard, fun idle => ?noGuard⟩
  case goIn =>
    obtain ⟨log, presents, tells, latches⟩ := (Quiet.requestIn n s).unitWritten_end
      inService (requestIn_steering n s) (UnitFrame.requestIn n s).path
    refine ⟨_, rfl, ?_, presents, tells, latches⟩
    rwa [requestIn, enterResetting_onUnit] at log
  case revive =>
    obtain ⟨log, presents, tells, latches⟩ := (Quiet.requestRevive n s).unitWritten_end
      inService (requestRevive_steering n s) (UnitFrame.requestRevive n s).path
    refine ⟨_, rfl, ?_, presents, tells, latches⟩
    rwa [requestRevive, enterResetting_onUnit] at log
  case recovery =>
    refine (congrArg Host.Outcome.next (if_pos ⟨Option.isSome_iff_ne_none.mpr runs, down⟩)).trans ?_
    exact congrArg Host.Outcome.next (enterResetting_onUnit s n _)
  case noRecovery =>
    refine congrArg Host.Outcome.next (if_neg fun ⟨runs, down⟩ => ?_)
    rcases idle with other | stopped
    · exact other down
    · exact Option.isSome_iff_ne_none.mp runs stopped
  case guard =>
    refine (congrArg Host.Outcome.next (if_pos ⟨runs, resetting⟩)).trans ?_
    exact congrArg
      (fun m => Host.Outcome.next
        ((s.onUnit n fun r => { r with state := .probing, guard := false }).setLinks
          (s.links.put n m)))
      (Link.queuePoll_eq l)
  case noGuard =>
    refine congrArg Host.Outcome.next (if_neg fun ⟨runs, resetting⟩ => ?_)
    rcases idle with other | stopped
    · exact other resetting
    · rw [runs] at stopped; cases stopped

end Sys2Proof.Machine
end

section
/-! The loss of a LIVE unit (R70, R117): what becomes of its slots in Carrier Control. -/
namespace Sys2Proof.Machine

open Sys2Proof

/-- What a fold's steps keep on the members of its list, the fold keeps. -/
theorem foldl_keeps_mem {σ α : Type} {p : σ → Prop} {f : σ → α → σ} (l : List α)
    (step : ∀ s, ∀ a ∈ l, p s → p (f s a)) : ∀ s, p s → p (l.foldl f s) := by
  induction l with
  | nil => exact fun _ h => h
  | cons a l ih =>
    exact fun s h => ih (fun s b hb => step s b (List.mem_cons_of_mem a hb)) _
      (step s a List.mem_cons_self h)

theorem mem_unitSlots_iff {u : UnitId} {n : SlotId} : n ∈ unitSlots u ↔ slotUnit n = u := by
  refine ⟨mem_unitSlots, ?_⟩
  rintro rfl
  simp only [unitSlots, List.mem_cons, List.not_mem_nil, or_false, Fin.ext_iff, slotAt, slotUnit]
  have : n.val % 4 < 4 := Nat.mod_lt _ (by decide)
  simp only [Fin.isValue, Fin.val_zero, Fin.val_one, Fin.val_two,
    show (3 : CarrierIndex).val = 3 from rfl]
  omega

theorem unitSlots_nodup (u : UnitId) : (unitSlots u).Nodup := by
  simp [unitSlots, slotAt, Fin.ext_iff]

/-! ## Carrier Control (Table 4-7) -/

section
variable {s t v : State} {u : UnitId}

/-- One slot of a unit that leaves LIVE takes the context of Table 4-7. -/
theorem SlotChanged.suspendSlot (s : State) (n : SlotId) :
    SlotChanged n (s.context n).afterUnitLoss
      ((s.context n).told (s.context n).afterUnitLoss) s (suspendSlot s n) := by
  have kept {c : Context} (lost : (s.context n).afterUnitLoss = c)
      (state : (s.context n).state = c.state) (outcome : (s.context n).outcome = c.outcome) :
      SlotChanged n (s.context n).afterUnitLoss
        ((s.context n).told (s.context n).afterUnitLoss) s (s.setContext n c) := by
    have nobody : (s.context n).told c = none := if_pos ⟨state, outcome⟩
    rw [lost, nobody]
    exact .setContext s n c
  have moved {c : Context} (lost : (s.context n).afterUnitLoss = c) :
      SlotChanged n (s.context n).afterUnitLoss
        ((s.context n).told (s.context n).afterUnitLoss) s (s.updateSlot n c) := by
    rw [lost]
    exact .updateSlot s n c
  unfold Machine.suspendSlot
  simp only
  split
  · next vacant => exact kept (by rw [Context.afterUnitLoss, vacant]) rfl rfl
  · next suspended => exact kept (by rw [Context.afterUnitLoss, suspended]) rfl rfl
  · next searching =>
    refine (moved ?_).of_carriers rfl
    rw [Context.afterUnitLoss, searching, Context.searchLost]
    cases (s.context n).search <;> rfl
  · next waiting => exact moved (by rw [Context.afterUnitLoss, waiting])
  · next tuning => exact moved (by rw [Context.afterUnitLoss, tuning])
  · next onAir =>
    exact (moved (by rw [Context.afterUnitLoss, onAir])).of_carriers rfl
  · next releasing =>
    exact (moved (by rw [Context.afterUnitLoss, releasing]; rfl)).of_carriers rfl

/-- The slots of the list, all on unit `u`, have been suspended; nothing else of Carrier Control
differs. -/
structure SlotsSuspended (u : UnitId) (l : List SlotId) (s t : State) : Prop where
  context : ∀ m, t.context m = if m ∈ l then (s.context m).afterUnitLoss else s.context m
  occupancy : ∀ v, t.carriers.occupancy.get v =
    if v = u ∧ l ≠ [] then occupancyOf t.carriers.contexts u else s.carriers.occupancy.get v
  changed : ∀ (k : Operator) (m : SlotId), (t.carriers.changed.get k).getLsbD m.val =
    ((s.carriers.changed.get k).getLsbD m.val ||
      decide (m ∈ l ∧ (s.context m).told (s.context m).afterUnitLoss = some k))

theorem SlotsSuspended.foldl (u : UnitId) (l : List SlotId) (own : ∀ n ∈ l, slotUnit n = u)
    (distinct : l.Nodup) (s : State) : SlotsSuspended u l s (l.foldl suspendSlot s) := by
  induction l generalizing s with
  | nil => exact ⟨fun m => by simp, fun v => by simp, fun k m => by simp⟩
  | cons n l ih =>
    obtain ⟨new, distinct⟩ := List.nodup_cons.mp distinct
    obtain ⟨here, others, lists, sets⟩ := SlotChanged.suspendSlot s n
    obtain ⟨context, occupancy, changed⟩ :=
      ih (fun m hm => own m (List.mem_cons_of_mem n hm)) distinct (suspendSlot s n)
    have later {m} (hm : m ∈ l) : (suspendSlot s n).context m = s.context m :=
      others m fun same => new (same ▸ hm)
    have first : slotUnit n = u := own n List.mem_cons_self
    rw [List.foldl_cons]
    refine ⟨fun m => ?_, fun w => ?_, fun k m => ?_⟩
    · rw [context]
      by_cases hm : m ∈ l
      · rw [if_pos hm, if_pos (List.mem_cons_of_mem n hm), later hm]
      · by_cases same : m = n
        · rw [if_neg hm, if_pos (same ▸ List.mem_cons_self), same, here]
        · rw [if_neg hm, if_neg (by simp [same, hm]), others m same]
    · rw [occupancy, lists, first]
      by_cases mine : w = u
      · cases l with
        | nil => simp [mine]
        | cons => simp [mine]
      · simp [mine]
    · rw [changed, sets, Bool.or_assoc]
      congr 1
      by_cases hm : m ∈ l
      · have other : m ≠ n := fun same => new (same ▸ hm)
        simp [hm, later hm, other]
      · by_cases same : m = n
        · simp [same, new]
        · simp [hm, same]

/-- The four slots of a unit that leaves LIVE. -/
theorem UnitSlotsChanged.unitLeftLive (s : State) (u : UnitId) :
    UnitSlotsChanged u Context.afterUnitLoss s (unitLeftLive s u) := by
  obtain ⟨context, occupancy, changed⟩ :=
    SlotsSuspended.foldl u (unitSlots u) (fun _ => mem_unitSlots) (unitSlots_nodup u) s
  simp only [mem_unitSlots_iff] at context changed
  refine ⟨context, fun w => ?_, fun k m => ?_⟩
  · have nonempty : unitSlots u ≠ [] := by simp [unitSlots]
    simp only [nonempty, ne_eq, not_false_eq_true, and_true] at occupancy
    exact occupancy w
  · refine (changed k m).trans ?_
    by_cases mine : slotUnit m = u
    · have := context m
      rw [if_pos mine] at this
      rw [show (Machine.unitLeftLive s u).context m = _ from this]
    · simp [mine]

theorem UnitSlotsChanged.of_carriers {f : Context → Context} (h : UnitSlotsChanged u f s t)
    (before : v.carriers = s.carriers) {w : State} (after : w.carriers = t.carriers) :
    UnitSlotsChanged u f v w := by
  unfold UnitSlotsChanged State.context at h ⊢
  rw [before, after]
  exact h

theorem suspendSlot_links (s : State) (n : SlotId) : (suspendSlot s n).links = s.links := by
  unfold Machine.suspendSlot
  simp only
  split
  · rfl
  · rfl
  all_goals exact State.updateSlot_links s n _

theorem unitLeftLive_links (s : State) (u : UnitId) : (unitLeftLive s u).links = s.links :=
  foldl_field State.links _ suspendSlot_links s

end

end Sys2Proof.Machine
end

section
/-! The figures of the Steering Engine when one unit's slots change (R128 to R131): only the records
of the unit and the figures of its sector's cells move, and each cell's figures stay the sums over the
slots its operator holds. -/
namespace Sys2Proof.Machine

open Sys2Proof

/-- A cell whose figures alone may differ. -/
def Cell.Refigured (c d : Cell) : Prop :=
  d = { c with holding := d.holding, capacity := d.capacity, load := d.load }

theorem Cell.Refigured.refl (c : Cell) : c.Refigured c := rfl

theorem Cell.Refigured.trans {a b c : Cell} (h : a.Refigured b) (k : b.Refigured c) :
    a.Refigured c := by
  unfold Cell.Refigured at h k ⊢
  rw [k, h]

/-- From `g` to `h` only the records of unit `u`'s slots and the figures of its sector's cells
move. -/
structure UnitFigures (u : UnitId) (g h : Steering) : Prop where
  others : ∀ m, slotUnit m ≠ u → h.record m = g.record m
  elsewhere : ∀ d j, g.sectorOf u ≠ some d → h.cell d j = g.cell d j
  refigured : ∀ d j, (g.cell d j).Refigured (h.cell d j)
  defs : h.defs = g.defs
  loaded : h.loaded = g.loaded
  epochTimer : h.epochTimer = g.epochTimer

theorem Steering.sectorOf_congr {g h : Steering} (defs : h.defs = g.defs) (u : UnitId) :
    h.sectorOf u = g.sectorOf u := by
  unfold Steering.sectorOf
  rw [defs]

theorem Steering.sectorOf_onSlotCell (g : Steering) (n k f u) :
    (g.onSlotCell n k f).sectorOf u = g.sectorOf u :=
  Steering.sectorOf_congr (Steering.defs_onSlotCell g n k f) u

namespace UnitFigures

variable {u : UnitId} {g h i : Steering} {n : SlotId}

theorem refl (u : UnitId) (g : Steering) : UnitFigures u g g :=
  ⟨fun _ _ => rfl, fun _ _ _ => rfl, fun _ _ => .refl _, rfl, rfl, rfl⟩

theorem trans (a : UnitFigures u g h) (b : UnitFigures u h i) : UnitFigures u g i where
  others m hm := (b.others m hm).trans (a.others m hm)
  elsewhere d j off :=
    (b.elsewhere d j (by rw [Steering.sectorOf_congr a.defs]; exact off)).trans
      (a.elsewhere d j off)
  refigured d j := (a.refigured d j).trans (b.refigured d j)
  defs := b.defs.trans a.defs
  loaded := b.loaded.trans a.loaded
  epochTimer := b.epochTimer.trans a.epochTimer

theorem onRecord (g : Steering) (f) (own : slotUnit n = u) : UnitFigures u g (g.onRecord n f) where
  others m hm := by
    rw [Steering.record_onRecord, if_neg (by rintro rfl; exact hm own)]
  elsewhere _ _ _ := rfl
  refigured _ _ := .refl _
  defs := rfl
  loaded := rfl
  epochTimer := rfl

theorem onSlotCell (g : Steering) (k) {f : Cell → Cell} (own : slotUnit n = u)
    (refigures : ∀ c : Cell, c.Refigured (f c)) : UnitFigures u g (g.onSlotCell n k f) where
  others m _ := Steering.record_onSlotCell g n k f m
  elsewhere d j off := by
    rw [Steering.cell_onSlotCell, if_neg (fun here => off (own ▸ here.2))]
  refigured d j := by
    rw [Steering.cell_onSlotCell]
    split
    · exact refigures _
    · exact .refl _
  defs := Steering.defs_onSlotCell g n k f
  loaded := Steering.loaded_onSlotCell g n k f
  epochTimer := Steering.epochTimer_onSlotCell g n k f

theorem lost (g : Steering) (own : slotUnit n = u) : UnitFigures u g (g.lost n) :=
  (onRecord g _ own).trans (onSlotCell _ _ own fun _ => rfl)

theorem leftOnAir (g : Steering) (impaired) (own : slotUnit n = u) :
    UnitFigures u g (g.leftOnAir n impaired) := by
  unfold Steering.leftOnAir
  split
  · exact refl u g
  · exact (onRecord g _ own).trans (onSlotCell _ _ own fun _ => rfl)

theorem reweigh (g : Steering) (impaired) (own : slotUnit n = u) :
    UnitFigures u g (g.reweigh impaired n) := by
  unfold Steering.reweigh
  split
  · exact refl u g
  · exact onSlotCell _ _ own fun _ => rfl

/-- What each slot of the unit keeps, a pass over its slots keeps. -/
theorem foldl (g : Steering) {f : Steering → SlotId → Steering}
    (each : ∀ g n, slotUnit n = u → UnitFigures u g (f g n)) :
    UnitFigures u g ((unitSlots u).foldl f g) :=
  foldl_keeps_mem (p := UnitFigures u g) (unitSlots u)
    (fun h n own done => done.trans (each h n (mem_unitSlots own))) g (refl u g)

theorem impairedChanged (g : Steering) (impaired) : UnitFigures u g (g.impairedChanged u impaired) :=
  foldl g fun g _ own => reweigh g impaired own

theorem zeroFigures (g : Steering) : UnitFigures u g (g.zeroFigures u) :=
  foldl g fun g _ own => onRecord g _ own

end UnitFigures

/-! ## The records of a unit that leaves LIVE -/

theorem Steering.record_lost (g : Steering) (n m : SlotId) :
    (g.lost n).record m = if m = n then { g.record n with operator := none } else g.record m := by
  unfold Steering.lost
  rw [Steering.record_onSlotCell, Steering.record_onRecord]

theorem Steering.record_leftOnAir (g : Steering) (n m : SlotId) (impaired : Bool) :
    (g.leftOnAir n impaired).record m =
      if m = n then { g.record n with onAir := none } else g.record m := by
  unfold Steering.leftOnAir
  split
  · next silent =>
    split
    · next same => rw [same, ← silent]
    · rfl
  · rw [Steering.record_onSlotCell, Steering.record_onRecord]

theorem Steering.record_reweigh (g : Steering) (n m : SlotId) (impaired : Bool) :
    (g.reweigh impaired n).record m = g.record m := by
  unfold Steering.reweigh
  split
  · rfl
  · exact Steering.record_onSlotCell _ _ _ _ _

theorem Steering.record_impairedChanged (g : Steering) (u) (m : SlotId) (impaired : Bool) :
    (g.impairedChanged u impaired).record m = g.record m :=
  foldl_field (fun g : Steering => g.record m) _
    (fun g n => Steering.record_reweigh g n m impaired) g

theorem Steering.record_zeroFigures (g : Steering) (u : UnitId) (m : SlotId) :
    (g.zeroFigures u).record m =
      if slotUnit m = u then { g.record m with users := 0 } else g.record m := by
  have pass (l : List SlotId) (g : Steering) :
      (l.foldl (fun g n => g.onRecord n fun r => { r with users := 0 }) g).record m =
        if m ∈ l then { g.record m with users := 0 } else g.record m := by
    induction l generalizing g with
    | nil => rfl
    | cons n l ih =>
      rw [List.foldl_cons, ih, Steering.record_onRecord]
      by_cases same : m = n
      · simp [same]
      · simp [same]
  refine (pass (unitSlots u) g).trans ?_
  simp only [mem_unitSlots_iff]

/-! ## The sums (R128 to R130) -/

/-- The weight a record adds to its cell's capacity (R129). -/
def SteeringRecord.airWeight (impaired : Bool) (r : SteeringRecord) : Nat :=
  (r.onAir.map fun code => weight impaired code).getD 0

/-- The users a record adds to its cell's load (R130). -/
def SteeringRecord.airUsers (r : SteeringRecord) : Nat := if r.onAir.isSome then r.users else 0

/-- The sum of a figure over the slots that an operator holds in a sector. -/
def Steering.total (g : Steering) (d : SectorId) (k : Operator) (f : SlotId → SteeringRecord → Nat) :
    Nat :=
  ((g.held d k).map fun n => f n (g.record n)).sum

/-- What a slot with the record `r` adds to a total. -/
def Steering.share (g : Steering) (d : SectorId) (k : Operator) (f : SlotId → SteeringRecord → Nat)
    (n : SlotId) (r : SteeringRecord) : Nat :=
  if g.sectorOf (slotUnit n) = some d ∧ r.operator = some k then f n r else 0

/-- A figure of a cell once slot `n`'s record is `r`. -/
def Steering.moved (g : Steering) (d : SectorId) (k : Operator) (n : SlotId) (r : SteeringRecord)
    (f : SlotId → SteeringRecord → Nat) (figure : Nat) : Nat :=
  figure + g.share d k f n r - g.share d k f n (g.record n)

theorem Steering.total_eq_sum (g : Steering) (d k f) :
    g.total d k f = ∑ n, g.share d k f n (g.record n) := by
  unfold Steering.total Steering.share Steering.held
  rw [Fin.sum_univ_def, List.sum_map_ite]
  simp

section
variable {g h : Steering} {n : SlotId}

/-- One record changes, and no share but its own. -/
theorem Steering.total_change (d k f) (defs : h.defs = g.defs)
    (rest : ∀ m, m ≠ n → h.record m = g.record m) :
    h.total d k f + g.share d k f n (g.record n) =
      g.total d k f + g.share d k f n (h.record n) := by
  have shares (m r) : h.share d k f m r = g.share d k f m r := by
    unfold Steering.share
    rw [Steering.sectorOf_congr defs]
  have others : ∑ m ∈ Finset.univ.erase n, g.share d k f m (h.record m) =
      ∑ m ∈ Finset.univ.erase n, g.share d k f m (g.record m) :=
    Finset.sum_congr rfl fun m hm => by rw [rest m (Finset.ne_of_mem_erase hm)]
  rw [Steering.total_eq_sum, Steering.total_eq_sum]
  simp only [shares]
  rw [← Finset.add_sum_erase _ _ (Finset.mem_univ n), ← Finset.add_sum_erase _ _ (Finset.mem_univ n),
    others]
  omega

/-- No share changes. -/
theorem Steering.total_same (d k) {f f' : SlotId → SteeringRecord → Nat} (defs : h.defs = g.defs)
    (same : ∀ m, (h.record m).operator = (g.record m).operator ∧
      f' m (h.record m) = f m (g.record m)) : h.total d k f' = g.total d k f := by
  rw [Steering.total_eq_sum, Steering.total_eq_sum]
  refine Finset.sum_congr rfl fun m _ => ?_
  obtain ⟨operator, figure⟩ := same m
  unfold Steering.share
  rw [Steering.sectorOf_congr defs, operator, figure]

end

/-- Every cell's holding count, capacity and load are the sums over the slots its operator holds. -/
structure Steering.Summed (impaired : UnitId → Bool) (g : Steering) : Prop where
  holding : ∀ d k, (g.cell d k).holding = g.total d k fun _ _ => 1
  capacity : ∀ d k, (g.cell d k).capacity =
    g.total d k fun n r => r.airWeight (impaired (slotUnit n))
  load : ∀ d k, (g.cell d k).load = g.total d k fun _ r => r.airUsers

/-- The sums as the invariant of the steering records writes them. -/
theorem Steering.summed_iff (s : State) :
    s.steering.Summed (fun u => (s.unit u).impaired) ↔
      ∀ d k,
        (s.steering.cell d k).holding = (s.steering.held d k).length ∧
        (s.steering.cell d k).capacity = ((s.steering.held d k).map s.slotWeight).sum ∧
        (s.steering.cell d k).load = ((s.steering.held d k).map s.slotUsers).sum := by
  have count (d k) : s.steering.total d k (fun _ _ => 1) = (s.steering.held d k).length := by
    simp [Steering.total]
  refine ⟨fun ⟨holding, capacity, load⟩ d k => ?_,
    fun all => ⟨fun d k => ?_, fun d k => ?_, fun d k => ?_⟩⟩
  · exact ⟨(holding d k).trans (count d k), capacity d k, load d k⟩
  · exact (all d k).1.trans (count d k).symm
  · exact (all d k).2.1
  · exact (all d k).2.2

namespace Steering.Summed

variable {impaired : UnitId → Bool} {g h : Steering} {n : SlotId}

/-- One record changes, and each cell's figures move by what the record adds to them. -/
theorem moved (sums : g.Summed impaired) (defs : h.defs = g.defs)
    (rest : ∀ m, m ≠ n → h.record m = g.record m)
    (moves : ∀ d k,
      (h.cell d k).holding = g.moved d k n (h.record n) (fun _ _ => 1) (g.cell d k).holding ∧
      (h.cell d k).capacity =
        g.moved d k n (h.record n) (fun n r => r.airWeight (impaired (slotUnit n)))
          (g.cell d k).capacity ∧
      (h.cell d k).load = g.moved d k n (h.record n) (fun _ r => r.airUsers) (g.cell d k).load) :
    h.Summed impaired := by
  have change (d k f) : h.total d k f = g.moved d k n (h.record n) f (g.total d k f) := by
    have := Steering.total_change d k f defs rest
    unfold Steering.moved
    omega
  refine ⟨fun d k => ?_, fun d k => ?_, fun d k => ?_⟩
  all_goals obtain ⟨holding, capacity, load⟩ := moves d k
  · rw [holding, sums.holding, change]
  · rw [capacity, sums.capacity, change]
  · rw [load, sums.load, change]

/-- An operator has lost a slot with nothing on air. -/
theorem lost (sums : g.Summed impaired) (silent : (g.record n).onAir = none) :
    (g.lost n).Summed impaired := by
  refine sums.moved (n := n) (Steering.defs_onSlotCell _ _ _ _)
    (fun m other => by rw [Steering.record_lost, if_neg other]) fun d k => ?_
  have cell : (g.lost n).cell d k =
      if (g.record n).operator = some k ∧ g.sectorOf (slotUnit n) = some d then
        { g.cell d k with holding := (g.cell d k).holding - 1 } else g.cell d k :=
    Steering.cell_onSlotCell _ _ _ _ _ _
  rw [cell, Steering.record_lost, if_pos rfl]
  by_cases mine : (g.record n).operator = some k ∧ g.sectorOf (slotUnit n) = some d
  · simp [mine, Steering.moved, Steering.share, SteeringRecord.airWeight, SteeringRecord.airUsers,
      silent]
  · simp [mine, and_comm, Steering.moved, Steering.share]

/-- A carrier has left ON-AIR, with the mark of its unit. -/
theorem leftOnAir (sums : g.Summed impaired) :
    (g.leftOnAir n (impaired (slotUnit n))).Summed impaired := by
  unfold Steering.leftOnAir
  split
  · exact sums
  next code onAir =>
  refine sums.moved (n := n) (Steering.defs_onSlotCell _ _ _ _)
    (fun m other => by rw [Steering.record_onSlotCell, Steering.record_onRecord, if_neg other])
    fun d k => ?_
  rw [Steering.cell_onSlotCell, Steering.record_onSlotCell, Steering.record_onRecord, if_pos rfl]
  by_cases mine : (g.record n).operator = some k ∧ g.sectorOf (slotUnit n) = some d
  · simp [mine, Steering.moved, Steering.share, SteeringRecord.airWeight, SteeringRecord.airUsers,
      onAir]
  · simp [mine, and_comm, Steering.moved, Steering.share]

/-- The user figures of slots with nothing on air become 0. -/
theorem zeroFigures {u : UnitId} (sums : g.Summed impaired)
    (silent : ∀ m, slotUnit m = u → (g.record m).onAir = none) :
    (g.zeroFigures u).Summed impaired := by
  have defs : (g.zeroFigures u).defs = g.defs := (UnitFigures.zeroFigures g).defs
  have cell (d k) : (g.zeroFigures u).cell d k = g.cell d k :=
    by
    unfold Steering.zeroFigures
    exact foldl_field (fun g : Steering => g.cell d k) _
      (fun g n => Steering.cell_onRecord g n _ d k) g
  have total (d k) (f) (apart : ∀ m, slotUnit m = u →
      f m { g.record m with users := 0 } = f m (g.record m)) :
      (g.zeroFigures u).total d k f = g.total d k f := by
    refine Steering.total_same d k defs fun m => ?_
    rw [Steering.record_zeroFigures]
    split
    · next mine => exact ⟨rfl, apart m mine⟩
    · exact ⟨rfl, rfl⟩
  refine ⟨fun d k => ?_, fun d k => ?_, fun d k => ?_⟩
  · rw [cell, total d k _ fun _ _ => rfl, sums.holding]
  · rw [cell, total d k _ fun _ _ => rfl, sums.capacity]
  · rw [cell, total d k _ fun m mine => by simp [SteeringRecord.airUsers, silent m mine], sums.load]

/-- The mark of a unit with nothing on air weighs nothing. -/
theorem remarked {u : UnitId} {marks : UnitId → Bool} (sums : g.Summed impaired)
    (silent : ∀ m, slotUnit m = u → (g.record m).onAir = none)
    (others : ∀ v, v ≠ u → marks v = impaired v) : g.Summed marks := by
  refine ⟨sums.holding, fun d k => (sums.capacity d k).trans ?_, sums.load⟩
  refine Steering.total_same d k rfl fun m => ⟨rfl, ?_⟩
  by_cases mine : slotUnit m = u
  · simp [SteeringRecord.airWeight, silent m mine]
  · rw [others _ mine]

end Steering.Summed

/-- No slot of the unit is on air: its mark changes no weight. -/
theorem Steering.impairedChanged_silent (g : Steering) (u : UnitId) (impaired : Bool)
    (silent : ∀ m, slotUnit m = u → (g.record m).onAir = none) :
    g.impairedChanged u impaired = g := by
  refine foldl_keeps_mem (p := fun h => h = g) (unitSlots u) (fun h n own same => ?_) g rfl
  subst same
  unfold Steering.reweigh
  rw [silent n (mem_unitSlots own)]

end Sys2Proof.Machine
end

section
/-! The figures of a unit that leaves LIVE, to the end of its event (R72, R117, R128 to R132). -/
namespace Sys2Proof.Machine

open Sys2Proof

/-- A steering record when its slot, in the state `c`, leaves LIVE with its unit (R72). -/
def SteeringRecord.suspended (c : CarrierState) (r : SteeringRecord) : SteeringRecord :=
  { r with
    operator := if c = .searching ∨ c = .releasing then none else r.operator
    onAir := if c = .onAir then none else r.onAir }

section
variable {u : UnitId}

/-- What one slot's suspension does to the Steering Engine. -/
theorem suspendSlot_steering (s : State) (n : SlotId) :
    (suspendSlot s n).steering =
      match (s.context n).state with
      | .searching => s.steering.lost n
      | .releasing => s.steering.lost n
      | .onAir => s.steering.leftOnAir n (s.impairedAt n)
      | _ => s.steering := by
  unfold suspendSlot
  simp only
  cases (s.context n).state
  case vacant => rfl
  case suspended => rfl
  case waiting => exact State.updateSlot_steering _ _ _
  case tuning => exact State.updateSlot_steering _ _ _
  case searching => exact congrArg (Steering.lost n) (State.updateSlot_steering _ _ _)
  case releasing => exact congrArg (Steering.lost n) (State.updateSlot_steering _ _ _)
  case onAir => exact congrArg (Steering.leftOnAir n _) (State.updateSlot_steering _ _ _)

/-- A slot that an operator loses with its unit has nothing on air, in its record too. -/
def State.LostSlotSilent (s : State) (n : SlotId) : Prop :=
  (s.context n).state = .searching ∨ (s.context n).state = .releasing →
    (s.steering.record n).onAir = none

/-- The slots of the list, all on unit `u`, have been suspended: what the Steering Engine shows. -/
structure FiguresSuspended (u : UnitId) (l : List SlotId) (s t : State) : Prop where
  figures : UnitFigures u s.steering t.steering
  record : ∀ m, t.steering.record m =
    if m ∈ l then (s.steering.record m).suspended (s.context m).state else s.steering.record m
  summed : (∀ m ∈ l, s.LostSlotSilent m) →
    s.steering.Summed (fun v => (s.unit v).impaired) →
      t.steering.Summed fun v => (s.unit v).impaired

theorem FiguresSuspended.suspendSlot (s : State) (n : SlotId) (own : slotUnit n = u) :
    FiguresSuspended u [n] s (suspendSlot s n) := by
  have steering := suspendSlot_steering s n
  have unmoved (same : (Machine.suspendSlot s n).steering = s.steering)
      (record : (s.steering.record n).suspended (s.context n).state = s.steering.record n) :
      FiguresSuspended u [n] s (Machine.suspendSlot s n) := by
    refine ⟨same ▸ .refl u _, fun m => ?_, fun _ sums => same ▸ sums⟩
    rw [same]
    split
    · next here => rw [List.mem_singleton.mp here, record]
    · rfl
  have lost (same : (Machine.suspendSlot s n).steering = s.steering.lost n)
      (state : (s.context n).state = .searching ∨ (s.context n).state = .releasing) :
      FiguresSuspended u [n] s (Machine.suspendSlot s n) := by
    have offAir : (s.context n).state ≠ .onAir := by rcases state with h | h <;> simp [h]
    refine ⟨same ▸ .lost _ own, fun m => ?_, fun silent sums => ?_⟩
    · rw [same, Steering.record_lost]
      by_cases here : m = n
      · simp [here, SteeringRecord.suspended, state, offAir]
      · simp [here]
    · rw [same]
      exact sums.lost (silent n (List.mem_singleton_self n) state)
  cases state : (s.context n).state <;> rw [state] at steering
  case vacant => exact unmoved steering (by simp [SteeringRecord.suspended, state])
  case waiting => exact unmoved steering (by simp [SteeringRecord.suspended, state])
  case tuning => exact unmoved steering (by simp [SteeringRecord.suspended, state])
  case suspended => exact unmoved steering (by simp [SteeringRecord.suspended, state])
  case searching => exact lost steering (.inl state)
  case releasing => exact lost steering (.inr state)
  case onAir =>
    refine ⟨steering ▸ .leftOnAir _ _ own, fun m => ?_, fun _ sums => ?_⟩
    · rw [steering, Steering.record_leftOnAir]
      by_cases here : m = n
      · simp [here, SteeringRecord.suspended, state]
      · simp [here]
    · rw [steering]
      exact sums.leftOnAir

theorem suspendSlot_unit (s : State) (n : SlotId) (v : UnitId) :
    (suspendSlot s n).unit v = s.unit v := by
  unfold State.unit
  rw [(CarrierFrame.suspendSlot s n).units]

theorem FiguresSuspended.foldl (l : List SlotId) (own : ∀ n ∈ l, slotUnit n = u)
    (distinct : l.Nodup) (s : State) : FiguresSuspended u l s (l.foldl Machine.suspendSlot s) := by
  induction l generalizing s with
  | nil => exact ⟨.refl u _, fun _ => by simp, fun _ sums => sums⟩
  | cons n l ih =>
    obtain ⟨new, distinct⟩ := List.nodup_cons.mp distinct
    have first := FiguresSuspended.suspendSlot s n (own n List.mem_cons_self)
    obtain ⟨figures, record, summed⟩ :=
      ih (fun m hm => own m (List.mem_cons_of_mem n hm)) distinct (Machine.suspendSlot s n)
    have units (v : UnitId) : (Machine.suspendSlot s n).unit v = s.unit v := suspendSlot_unit s n v
    have context {m} (hm : m ≠ n) : (Machine.suspendSlot s n).context m = s.context m :=
      (SlotChanged.suspendSlot s n).2.1 m hm
    have kept {m} (hm : m ≠ n) :
        (Machine.suspendSlot s n).steering.record m = s.steering.record m := by
      rw [first.record, if_neg (by simpa using hm)]
    rw [List.foldl_cons]
    refine ⟨first.figures.trans figures, fun m => ?_, fun silent sums => ?_⟩
    · rw [record]
      by_cases here : m = n
      · rw [if_neg (here ▸ new), if_pos (here ▸ List.mem_cons_self), first.record,
          if_pos (by simpa using here)]
      · rw [kept here, context here]
        simp [here]
    · simp only [units] at summed
      refine summed (fun m hm => ?_) (first.summed (fun m hm => silent m ?_) sums)
      · have other : m ≠ n := fun same => new (same ▸ hm)
        unfold State.LostSlotSilent
        rw [context other, kept other]
        exact silent m (List.mem_cons_of_mem n hm)
      · exact List.mem_singleton.mp hm ▸ List.mem_cons_self

/-- What the Steering Engine shows of a unit that has left LIVE. -/
structure UnitLost (u : UnitId) (s t : State) : Prop where
  figures : UnitFigures u s.steering t.steering
  record : ∀ m, slotUnit m = u →
    t.steering.record m = { (s.steering.record m).suspended (s.context m).state with users := 0 }
  summed : s.SteeringInv → t.steering.Summed fun v => (t.unit v).impaired

/-- In the invariant of the steering records only a carrier ON-AIR is on air. -/
theorem State.SteeringInv.offAir {s : State} (inv : s.SteeringInv) {n : SlotId}
    (state : (s.context n).state ≠ .onAir) : (s.steering.record n).onAir = none := by
  rw [(inv.1 n).2, if_neg state]

/-- Nothing of a suspended slot is on air. -/
theorem State.SteeringInv.suspended_silent {s : State} (inv : s.SteeringInv) (n : SlotId) :
    ((s.steering.record n).suspended (s.context n).state).onAir = none := by
  by_cases state : (s.context n).state = .onAir
  · exact if_pos state
  · exact (if_neg state).trans (inv.offAir state)

theorem setImpaired_steering (u : UnitId) (v : Bool) (s : State) :
    (setImpaired u v s).steering =
      if (s.unit u).impaired = v then s.steering else s.steering.impairedChanged u v := by
  unfold setImpaired
  split <;> rfl

theorem UnitLost.leaveLive (s : State) (u : UnitId) : UnitLost u s (leaveLive u s) := by
  obtain ⟨figures, record, summed⟩ : FiguresSuspended u (unitSlots u) s (unitLeftLive s u) :=
    .foldl (unitSlots u) (fun _ => mem_unitSlots) (unitSlots_nodup u) s
  simp only [mem_unitSlots_iff] at record
  have zeroed : UnitFigures u s.steering ((unitLeftLive s u).steering.zeroFigures u) :=
    figures.trans (.zeroFigures _)
  have zeroRecord (m) (own : slotUnit m = u) :
      ((unitLeftLive s u).steering.zeroFigures u).record m =
        { (s.steering.record m).suspended (s.context m).state with users := 0 } := by
    rw [Steering.record_zeroFigures, if_pos own, record, if_pos own]
  have steering : (Machine.leaveLive u s).steering =
      if (s.unit u).impaired = false then (unitLeftLive s u).steering.zeroFigures u
      else ((unitLeftLive s u).steering.zeroFigures u).impairedChanged u false := by
    unfold Machine.leaveLive
    rw [setImpaired_steering, State.unit_onSteering', unitLeftLive_unit]
    rfl
  refine ⟨?_, fun m own => ?_, fun inv => ?_⟩
  · rw [steering]
    split
    · exact zeroed
    · exact zeroed.trans (.impairedChanged _ _)
  · rw [steering]
    split
    · exact zeroRecord m own
    · exact (Steering.record_impairedChanged _ _ _ _).trans (zeroRecord m own)
  · have silent (m) (own : slotUnit m = u) :
        (((unitLeftLive s u).steering.zeroFigures u).record m).onAir = none := by
      rw [zeroRecord m own]
      exact inv.suspended_silent m
    have sums := (summed (fun m _ lost => inv.offAir (by rcases lost with h | h <;> simp [h]))
      ((Steering.summed_iff s).mpr inv.2)).zeroFigures (u := u) fun m own => by
        rw [record, if_pos own]
        exact inv.suspended_silent m
    have same : (Machine.leaveLive u s).steering = (unitLeftLive s u).steering.zeroFigures u := by
      rw [steering, Steering.impairedChanged_silent _ _ _ silent, ite_self]
    rw [same]
    refine sums.remarked silent fun v other => ?_
    rw [leaveLive_unit, if_neg other]

/-! ## The end of the event -/

variable {s e t : State}

theorem UnitLost.of_parts {v w : State} (h : UnitLost u s t) (steering : v.steering = s.steering)
    (carriers : v.carriers = s.carriers)
    (marks : ∀ m, (v.unit m).impaired = (s.unit m).impaired)
    (after : w.steering = t.steering)
    (remarked : ∀ m, (w.unit m).impaired = (t.unit m).impaired) : UnitLost u v w := by
  obtain ⟨figures, record, summed⟩ := h
  have inv (k : v.SteeringInv) : s.SteeringInv := by
    unfold State.SteeringInv State.slotWeight State.slotUsers State.context at *
    simpa only [steering, carriers, marks] using k
  refine ⟨?_, fun m own => ?_, fun k => ?_⟩
  · rw [steering, after]
    exact figures
  · unfold State.context at record ⊢
    rw [steering, after, carriers]
    exact record m own
  · rw [after]
    simpa only [remarked] using summed (inv k)

theorem UnitLost.records (h : UnitLost u s e) (records : t.steering.records = e.steering.records) :
    UnitRecordsLost u s t := by
  intro m own
  unfold Steering.record
  rw [records]
  exact h.record m own

/-- The figures of the unit's event, once the standings have been decided. -/
theorem UnitFigures.settled (h : UnitFigures u s.steering e.steering)
    (after : t.steering = (decideStandings s.steering e).steering) : OnlyUnitFigures u s t := by
  obtain ⟨records, defs, loaded, epochTimer, -⟩ := decideStandings_rest s.steering e
  unfold OnlyUnitFigures Steering.record
  rw [after]
  refine ⟨fun m other => ?_, fun d j elsewhere => ?_, defs.trans h.defs, loaded.trans h.loaded,
    epochTimer.trans h.epochTimer⟩
  · rw [records]
    exact h.others m other
  · rw [decideStandings_cell, h.elsewhere d j elsewhere]
    exact if_pos ⟨rfl, rfl⟩

/-- The cells of the unit's sector, once the standings have been decided. -/
theorem UnitLost.settled (h : UnitLost u s e) (inv : s.SteeringInv)
    (after : t.steering = (decideStandings s.steering e).steering) (units : t.units = e.units) :
    UnitCellsDecided u s t := by
  intro d k _
  obtain ⟨records, defs, -⟩ := decideStandings_rest s.steering e
  have record (m) : t.steering.record m = e.steering.record m := by
    unfold Steering.record
    rw [after, records]
  have sector (v) : t.steering.sectorOf v = e.steering.sectorOf v :=
    Steering.sectorOf_congr (by rw [after, defs]) v
  have held : t.steering.held d k = e.steering.held d k := by
    unfold Steering.held
    simp only [sector, record]
  have weights : t.slotWeight = e.slotWeight := by
    funext m
    unfold State.slotWeight State.unit
    rw [record, units]
  have users : t.slotUsers = e.slotUsers := by
    funext m
    unfold State.slotUsers
    rw [record]
  obtain ⟨holding, capacity, load⟩ := (Steering.summed_iff e).mp (h.summed inv) d k
  simp only [held, weights, users, ← holding, ← capacity, ← load]
  rw [after, decideStandings_cell]
  exact congrArg _ (h.figures.refigured d k)

end

end Sys2Proof.Machine
end

section
/-! A unit's event, settled and closed: what it leaves to the other units, and what becomes of a unit
that was LIVE (R70, R117, R132, R153). -/
namespace Sys2Proof.Machine

open Sys2Proof

variable {n : UnitId} {s e q v w : State}

/-! ## The side of one unit -/

/-- An operation of unit `n` before its event ends: of the links and the unit records it changes
those of the unit alone. -/
structure UnitEvent (n : UnitId) (s e : State) : Prop where
  frame : UnitFrame s e
  links : OtherLinksStay n s e
  units : ∀ m, m ≠ n → e.unit m = s.unit m

namespace UnitEvent

theorem refl (n : UnitId) (s : State) : UnitEvent n s s :=
  ⟨.refl s, .of_links rfl, fun _ _ => rfl⟩

theorem trans (h : UnitEvent n s q) (k : UnitEvent n q e) : UnitEvent n s e :=
  ⟨h.frame.trans k.frame, h.links.trans k.links, fun m hm => (k.units m hm).trans (h.units m hm)⟩

theorem onLink (s : State) (n f) : UnitEvent n s (s.onLink n f) :=
  ⟨.onLink s n f, .onLink s n f, fun _ _ => rfl⟩

theorem onUnit (s : State) (n f) : UnitEvent n s (s.onUnit n f) :=
  ⟨.onUnit s n f, .of_links rfl, fun _ hm => State.unit_onUnit_ne s f hm⟩

/-- The end of a unit's event: it has stayed on the unit's side, and the next deposit is
presented. -/
theorem ended (h : UnitEvent n s e) (mode : s.site.mode ≠ .stopping) :
    let t := close (decideStandings s.steering e)
    OnlyUnitSide n s t ∧ PresentsNext (!s.depositOutstanding) s.path t := by
  intro t
  have frame : UnitFrame s (decideStandings s.steering e) := h.frame.trans (.decideStandings _ e)
  have running : (decideStandings s.steering e).site.mode ≠ .stopping := by rwa [frame.site]
  obtain ⟨stages, -, links, units, -, pollTimer⟩ := close_settled s.steering e
  have stages : t.stages = s.stages := stages.trans h.frame.stages
  have pollTimer : t.pollTimer = s.pollTimer := pollTimer.trans h.frame.pollTimer
  have pending : t.pending = s.pending := (close_pending _).trans frame.pending
  have path : { t.path with ownPresented := s.path.ownPresented } = s.path := by
    rw [show t = pump _ from close_eq _ running, pump_path, frame.path]
  have site : t.site = s.site := (close_site _ running).trans frame.site
  have putLinks : t.links.put n (s.link n) = s.links := by rw [links, h.links.put_back]
  have putUnits : t.units.put n (s.unit n) = s.units := by
    refine Bank.ext_get fun m => ?_
    rw [Bank.get_put, units]
    split
    · next here => rw [here]; rfl
    · next other => exact h.units m other
  have linkRate : t.linkRate = s.linkRate := (close_linkRate _).trans frame.linkRate
  refine ⟨?_, ?_⟩
  · generalize t = c at *
    exact OnlyLog.of_parts pending path site stages rfl putLinks linkRate
      putUnits pollTimer rfl
  · have presents := PresentsNext.close _ running
    rwa [State.depositOutstanding, frame.path] at presents

end UnitEvent

theorem setImpaired_links (n : UnitId) (v : Bool) (s : State) :
    (setImpaired n v s).links = s.links := by
  unfold setImpaired
  split <;> rfl

theorem setImpaired_carriers (n : UnitId) (v : Bool) (s : State) :
    (setImpaired n v s).carriers = s.carriers := by
  unfold setImpaired
  split <;> rfl

theorem leaveLive_links (n : UnitId) (s : State) : (leaveLive n s).links = s.links := by
  unfold leaveLive
  rw [setImpaired_links, State.onSteering_links, unitLeftLive_links]

theorem leaveLive_carriers (n : UnitId) (s : State) :
    (leaveLive n s).carriers = (unitLeftLive s n).carriers := by
  unfold leaveLive
  rw [setImpaired_carriers, State.onSteering_carriers]

theorem UnitEvent.leaveLive (s : State) (n : UnitId) : UnitEvent n s (leaveLive n s) :=
  ⟨.leaveLive n s, .of_links (leaveLive_links n s), fun m hm => by
    rw [leaveLive_unit, if_neg hm]⟩

/-! ## A unit that was LIVE -/

/-- The slots of a unit that has left LIVE, and their figures, before the standings are decided. -/
structure LiveLost (n : UnitId) (s e : State) : Prop where
  slots : UnitSlotsChanged n Context.afterUnitLoss s e
  figures : UnitLost n s e

namespace LiveLost

theorem leaveLive (s : State) (n : UnitId) : LiveLost n s (leaveLive n s) :=
  ⟨(UnitSlotsChanged.unitLeftLive s n).of_carriers rfl (leaveLive_carriers n s), .leaveLive s n⟩

/-- What neither Carrier Control, the Steering Engine nor a mark shows may come before and behind. -/
theorem of_parts (h : LiveLost n s e) (steering : v.steering = s.steering)
    (carriers : v.carriers = s.carriers)
    (marks : ∀ m, (v.unit m).impaired = (s.unit m).impaired)
    (steeringAfter : w.steering = e.steering) (carriersAfter : w.carriers = e.carriers)
    (marksAfter : ∀ m, (w.unit m).impaired = (e.unit m).impaired) : LiveLost n v w :=
  ⟨h.slots.of_carriers carriers carriersAfter,
    h.figures.of_parts steering carriers marks steeringAfter marksAfter⟩

/-- What the end of the event shows of the slots and the figures. -/
theorem ended (h : LiveLost n s e) :
    let t := close (decideStandings s.steering e)
    UnitSlotsChanged n Context.afterUnitLoss s t ∧ OnlyUnitFigures n s t ∧ UnitRecordsLost n s t ∧
      (s.carriers.Inv → s.SteeringInv → UnitCellsDecided n s t) := by
  obtain ⟨-, carriers, -, units, steering, -⟩ := close_settled s.steering e
  refine ⟨h.slots.of_carriers rfl carriers, h.figures.figures.settled steering,
    h.figures.records ?_, fun _ inv => h.figures.settled inv steering units⟩
  rw [steering]
  exact (decideStandings_rest s.steering e).1

end LiveLost

/-- An event that has touched neither Carrier Control nor a figure shows so at its end. -/
theorem untouched_ended (carriers : e.carriers = s.carriers) (steering : e.steering = s.steering) :
    let t := close (decideStandings s.steering e)
    t.carriers = s.carriers ∧ t.steering = s.steering := by
  intro t
  have same : t = close e := by
    show close (decideStandings s.steering e) = _
    rw [decideStandings_same _ e steering]
  rw [same]
  exact ⟨(close_carriers e).trans carriers, (close_steering e).trans steering⟩

theorem holeChanges_same (h : e.steering = s.steering) : holeChanges s e = [] := by
  unfold holeChanges
  rw [h]
  simp

end Sys2Proof.Machine
end

section
/-! The expiry of the reply timer (O42). -/
namespace Sys2Proof.Machine

open Sys2Proof

variable {s e : State} {n : UnitId}

/-! ## Reports touch the Fault Reporter alone -/

theorem reportChanges_links (n c) (s : State) : (reportChanges n c s).links = s.links := by
  unfold reportChanges
  refine foldl_field State.links c ?_ s
  exact fun _ _ => rfl

theorem reportChanges_carriers (n c) (s : State) : (reportChanges n c s).carriers = s.carriers := by
  unfold reportChanges
  refine foldl_field State.carriers c ?_ s
  exact fun _ _ => rfl

theorem reportChanges_unit (n c) (s : State) (m) : (reportChanges n c s).unit m = s.unit m := by
  unfold State.unit
  rw [reportChanges_units]

theorem reportChanges_link (n c) (s : State) (m) : (reportChanges n c s).link m = s.link m := by
  unfold State.link
  rw [reportChanges_links]

theorem UnitEvent.reportChanges (s : State) (n c) : UnitEvent n s (reportChanges n c s) :=
  ⟨.reportChanges n c s, .of_links (reportChanges_links n c s),
    fun m _ => reportChanges_unit n c s m⟩

/-! ## A LIVE unit enters DOWN (R116) -/

theorem UnitRecord.goDown_impaired (t : Site) (r : UnitRecord) :
    (r.goDown t).impaired = r.impaired := by
  unfold UnitRecord.goDown
  split <;> rfl

theorem UnitRecord.goDown_eq (t : Site) (r : UnitRecord) :
    ({ r with impaired := false } : UnitRecord).goDown t = r.afterDown t := by
  unfold UnitRecord.goDown UnitRecord.afterDown
  by_cases attempt : t.attemptLimit = 0 ∨ r.attempts < t.attemptLimit
  · simp only [if_pos attempt]
  · simp only [if_neg attempt]

theorem enterDown_live (live : (s.unit n).state = .live) :
    enterDown n s =
      ((leaveLive n (s.onLink n Link.fullEmpty)).onLink n Link.askBreak).onUnit n
        (UnitRecord.goDown s.site) := by
  unfold enterDown leaveIfLive
  rw [if_pos live]

theorem enterDown_link (live : (s.unit n).state = .live) :
    (enterDown n s).link n = (s.link n).afterUnitLoss := by
  rw [enterDown_live live, State.link_onUnit', State.link_onLink_self, State.link, leaveLive_links]
  exact (congrArg Link.askBreak (State.link_onLink_self s n _)).trans (Link.fullEmpty_askBreak _)

theorem enterDown_unit (live : (s.unit n).state = .live) :
    (enterDown n s).unit n = (s.unit n).afterDown s.site := by
  rw [enterDown_live live, State.unit_onUnit_self, State.unit_onLink', leaveLive_unit, if_pos rfl,
    State.unit_onLink', UnitRecord.goDown_eq]

theorem LiveLost.enterDown (live : (s.unit n).state = .live) : LiveLost n s (enterDown n s) := by
  rw [enterDown_live live]
  refine (LiveLost.leaveLive (s.onLink n Link.fullEmpty) n).of_parts rfl rfl (fun _ => rfl)
    (by rw [State.onUnit_steering, State.onLink_steering])
    (by rw [State.onUnit_carriers, State.onLink_carriers]) fun m => ?_
  rw [State.unit_onUnit]
  split
  · next here => rw [here, UnitRecord.goDown_impaired, State.unit_onLink']
  · rw [State.unit_onLink']

theorem UnitEvent.enterDown (live : (s.unit n).state = .live) : UnitEvent n s (enterDown n s) := by
  rw [enterDown_live live]
  exact (((UnitEvent.onLink s n _).trans (.leaveLive _ n)).trans (.onLink _ n _)).trans
    (.onUnit _ n _)

/-! ## The second timeout (R100, R120) -/

/-- A unit at its second timeout, before its report. -/
def silenced (n : UnitId) (s : State) : State :=
  match (s.unit n).state with
  | .live => enterDown n (s.onUnit n fun r => { r with silent := true })
  | .probing => s.onUnit n fun r => { r with silent := true }
  | _ => s

/-- The change of SILENT that a second timeout makes. -/
def UnitRecord.silentChanges (u : UnitRecord) : List ConditionChange :=
  if u.state = .live ∨ u.state = .probing then silentChange u.silent true else []

theorem secondTimeout_eq (n : UnitId) (s : State) :
    secondTimeout n s = reportChanges n (s.unit n).silentChanges (silenced n s) := by
  unfold secondTimeout silenced UnitRecord.silentChanges
  cases (s.unit n).state <;> rfl

theorem UnitRecord.silentChanges_report (u : UnitRecord) (n : UnitId) :
    u.silentChanges.map (ConditionChange.report n) =
      if (u.state = .live ∨ u.state = .probing) ∧ u.silent = false then
        [⟨.unit n 4, true, none⟩] else [] := by
  unfold UnitRecord.silentChanges silentChange
  by_cases watched : u.state = .live ∨ u.state = .probing
  · cases silent : u.silent
    · simp only [watched, if_true, and_self]
      rfl
    · simp
  · rw [if_neg watched, if_neg fun both => watched both.1]
    rfl

theorem UnitRecord.silentChanges_nodup (u : UnitRecord) :
    (u.silentChanges.map ConditionChange.kind).Nodup := by
  unfold UnitRecord.silentChanges silentChange
  split
  · split
    · exact List.nodup_nil
    · exact List.nodup_singleton _
  · exact List.nodup_nil

theorem Quiet.silenced (n : UnitId) (s : State) : Quiet s (silenced n s) := by
  unfold Machine.silenced
  split
  · exact (onUnit s n _).trans (enterDown n _)
  · exact onUnit s n _
  · exact refl s

theorem unit_silent (s : State) (n : UnitId) :
    (s.onUnit n fun r => { r with silent := true }).unit n = { s.unit n with silent := true } :=
  State.unit_onUnit_self s n _

theorem UnitEvent.silenced (n : UnitId) (s : State) : UnitEvent n s (silenced n s) := by
  unfold Machine.silenced
  split
  · next live =>
    refine (UnitEvent.onUnit s n _).trans (.enterDown ?_)
    rw [unit_silent]
    exact live
  · exact .onUnit s n _
  · exact .refl n s

/-- A LIVE unit at its second timeout becomes SILENT and DOWN. -/
theorem silenced_live (live : (s.unit n).state = .live) :
    LiveLost n s (silenced n s) ∧ (silenced n s).link n = (s.link n).afterUnitLoss ∧
      (silenced n s).unit n = ({ s.unit n with silent := true } : UnitRecord).afterDown s.site := by
  have marked : ((s.onUnit n fun r => { r with silent := true }).unit n).state = .live := by
    rw [unit_silent]
    exact live
  have down : silenced n s = enterDown n (s.onUnit n fun r => { r with silent := true }) := by
    unfold silenced
    rw [live]
  rw [down]
  refine ⟨(LiveLost.enterDown marked).of_parts rfl rfl (fun m => ?_) rfl rfl fun _ => rfl,
    enterDown_link marked, (enterDown_unit marked).trans ?_⟩
  · rw [State.unit_onUnit]
    split
    · next here => rw [here]
    · rfl
  · rw [unit_silent]
    rfl

theorem silenced_probing (probing : (s.unit n).state = .probing) :
    silenced n s = s.onUnit n fun r => { r with silent := true } := by
  unfold silenced
  rw [probing]

theorem silenced_other (live : (s.unit n).state ≠ .live) (probing : (s.unit n).state ≠ .probing) :
    silenced n s = s := by
  unfold silenced
  split
  · next h => exact absurd h live
  · next h => exact absurd h probing
  · rfl

theorem replyTimerExpiry_row {x : InFlight} {period : Nat}
    (timer : (s.link n).replyTimer = some period) (flight : (s.link n).inFlight = some x) :
    exec (.replyTimerExpiry n) s = .next (replyTimerExpired n x s) := by
  show execReplyTimerExpiry n s = _
  unfold execReplyTimerExpiry
  rw [timer, flight]

/-- Settles O42: the second timeout is one report behind a change of the unit's side that reports
nothing, and the change goes by the unit's state. -/
theorem replyTimerResendsThenTimesOut : Obligations.ReplyTimerResendsThenTimesOut := by
  intro s n x period timer flight l u timedOut
  have row := replyTimerExpiry_row timer flight
  refine ⟨fun first => ?_, fun second mode => ?_⟩
  · rw [row, replyTimerExpired, if_neg (by simp [first])]
    rfl
  let p := s.onLink n Link.timeOut
  let q := silenced n p
  let e := reportChanges n u.silentChanges q
  have meaning : replyTimerExpired n x s = close (decideStandings s.steering e) := by
    rw [replyTimerExpired, if_pos second, settling, secondTimeout_eq]
    rfl
  have link : p.link n = timedOut := State.link_onLink_self s n _
  have quiet : Quiet s q := (Quiet.onLink s n _).trans (.silenced n p)
  have event : UnitEvent n s e :=
    ((UnitEvent.onLink s n _).trans (.silenced n p)).trans (.reportChanges q n _)
  have trends (d k) : (e.steering.cell d k).trend = (q.steering.cell d k).trend := by
    rw [reportChanges_steering]
  obtain ⟨side, presents⟩ := event.ended mode
  obtain ⟨-, -, links, units, -, -⟩ := close_settled s.steering e
  have linkEnd : (close (decideStandings s.steering e)).link n = q.link n :=
    (congrArg (fun links => links.get n) links).trans (reportChanges_link n _ q n)
  have unitEnd : (close (decideStandings s.steering e)).unit n = q.unit n :=
    (congrArg (fun units => units.get n) units).trans (reportChanges_unit n _ q n)
  refine ⟨_, row.trans (congrArg _ meaning), side, presents, ?reports, fun live => ?live,
    fun probing => ?probing, fun live probing => ?other⟩
  case reports =>
    have told := u.silentChanges_report n
    have nodup := u.silentChanges_nodup
    intro reports
    have all : reports = u.silentChanges.map (ConditionChange.report n) ++
        holeChanges s (close (decideStandings s.steering e)) := congrArg (· ++ _) told.symm
    rw [all]
    exact ⟨.behind_quiet n _ nodup quiet rfl rfl trends _,
      .behind_quiet n _ nodup quiet mode event.frame.path rfl rfl trends _⟩
  case live =>
    obtain ⟨lost, lossLink, lossUnit⟩ := silenced_live (s := p) live
    have lost : LiveLost n s e := lost.of_parts rfl rfl (fun _ => rfl) (reportChanges_steering n _ q)
      (reportChanges_carriers n _ q) fun m => by rw [reportChanges_unit]
    exact ⟨linkEnd.trans (link ▸ lossLink), unitEnd.trans lossUnit, lost.ended⟩
  case probing =>
    have same : q = p.onUnit n fun r => { r with silent := true } := silenced_probing probing
    refine ⟨linkEnd.trans ?_, unitEnd.trans ?_, untouched_ended ?_ ?_⟩
    · rw [same]; exact link
    · rw [same]; exact unit_silent p n
    · rw [reportChanges_carriers, same]; rfl
    · rw [reportChanges_steering, same]; rfl
  case other =>
    have same : q = p := silenced_other live probing
    refine ⟨linkEnd.trans ?_, unitEnd.trans ?_, untouched_ended ?_ ?_⟩
    · rw [same]; exact link
    · rw [same]; rfl
    · rw [reportChanges_carriers, same]; rfl
    · rw [reportChanges_steering, same]; rfl

end Sys2Proof.Machine
end

section
/-! A break received from a unit (O48). -/
namespace Sys2Proof.Machine

open Sys2Proof

variable {s e q : State} {n : UnitId}

/-! ## The momentary trip (R121, R146) -/

namespace Faults

variable (f : Faults) (v : FaultView) (id : LatchId)

theorem momentaryTrip_idle (idle : v.mode.inService = false) : f.momentaryTrip v id = f := by
  simp [momentaryTrip, idle]

theorem latch_momentaryTrip_self :
    (f.momentaryTrip v id).latch id =
      if (f.latch id).set = true ∨ v.mode.inService = false then f.latch id
      else { f.latch id with
        set := true, acknowledged := false, raised := f.raisedNumber v id.kind 0 } := by
  unfold momentaryTrip raisedNumber
  cases set : (f.latch id).set
  · cases v.mode.inService
    · simp
    · simp [latch_raise_self]
  · simp

theorem latch_momentaryTrip_ne {j : LatchId} (other : j ≠ id) :
    (f.momentaryTrip v id).latch j = f.latch j := by
  unfold momentaryTrip
  split
  · exact f.latch_raise_ne v other
  · rfl

theorem nextNumber_momentaryTrip (inService : v.mode.inService = true) :
    (f.momentaryTrip v id).nextNumber =
      f.nextNumber + BitVec.ofNat 16 (f.tells v ⟨id, true, none⟩).toNat := by
  unfold momentaryTrip tells
  cases set : (f.latch id).set <;> cases masked : v.masked id.kind <;>
    simp [inService, set, raise, masked, nextNumber_produce]

end Faults

theorem UnitEvent.reportRestart (s : State) (n : UnitId) : UnitEvent n s (reportRestart n s) :=
  ⟨.reportRestart n s, .of_links rfl, fun _ _ => rfl⟩

@[simp] theorem reportRestart_site (n : UnitId) (s : State) : (reportRestart n s).site = s.site :=
  State.setFaults_site _ _

@[simp] theorem reportRestart_path (n : UnitId) (s : State) : (reportRestart n s).path = s.path :=
  State.setFaults_path _ _

/-! ## A RESTART behind a quiet event, settled and closed -/

section
variable (quiet : Quiet s q)
include quiet

theorem reportRestart_faults (n : UnitId) :
    (reportRestart n q).faults = s.faults.momentaryTrip s.faultView (.unit n 6) := by
  have view : q.faultView = s.faultView := by
    unfold State.faultView
    rw [quiet.site]
  rw [← quiet.faults, ← view]
  rfl

theorem reportRestart_trends (n : UnitId) (d : SectorId) (k : Operator) :
    ((reportRestart n q).steering.cell d k).trend = (s.steering.cell d k).trend := by
  rw [reportRestart_steering, quiet.trends]

/-- The latches after the RESTART trip and the reports of HOLE behind it. -/
theorem restart_latch (n : UnitId) (b : Steering) (id : LatchId) :
    let t := close (decideStandings b (reportRestart n q))
    t.faults.latch id =
      ((holeChanges s t).foldl (fun g r => g.report s.faultView r.id r.present r.alarms)
        (s.faults.momentaryTrip s.faultView (.unit n 6))).latch id := by
  intro t
  have view : (reportRestart n q).faultView = s.faultView := by
    unfold State.faultView
    rw [reportRestart_site, quiet.site]
  have changes : holeChanges s t =
      holeChanges (reportRestart n q) (decideStandings b (reportRestart n q)) :=
    holeChanges_close (reportRestart_trends quiet n) b
  rw [close_latch, decideStandings_faults, view, ← changes, reportRestart_faults quiet]

theorem restart_latch_self (n : UnitId) (b : Steering) :
    (close (decideStandings b (reportRestart n q))).faults.latch (.unit n 6) =
      (s.faults.momentaryTrip s.faultView (.unit n 6)).latch (.unit n 6) :=
  (close_settled_latch b _ _ fun _ _ same => by cases same).trans
    (congrArg (Faults.latch · _) (reportRestart_faults quiet n))

/-- The reports of HOLE act behind the RESTART trip, which takes the first number. -/
theorem OnlyReports.behind_restart (n : UnitId) (b : Steering) :
    let t := close (decideStandings b (Machine.reportRestart n q))
    OnlyReports (fun id => id = .unit n 6)
      (s.faults.tells s.faultView ⟨.unit n 6, true, none⟩).toNat (holeChanges s t) s t := by
  intro t
  have latch (id) := restart_latch quiet n b id
  have holes : ∀ r ∈ holeChanges s t, r.id ≠ .unit n 6 := fun r hr same => by
    obtain ⟨d, k, hole⟩ := holeChanges_id hr
    rw [hole] at same
    cases same
  have behind (inService : s.site.mode.inService = true) :=
    Faults.afterReports_behind s.faultView inService (holeChanges s t)
      (s.faults.momentaryTrip s.faultView (.unit n 6)) s.faults _ (holeChanges_nodup s t)
      (s.faults.nextNumber_momentaryTrip s.faultView (.unit n 6) inService)
      fun r hr => s.faults.latch_momentaryTrip_ne s.faultView _ (holes r hr)
  refine ⟨fun inService i r hi => ?_, fun id other apart => ?_⟩
  · rw [latch]
    exact (behind inService).1 i r hi
  · rw [latch, ← s.faults.latch_momentaryTrip_ne s.faultView _ other]
    cases inService : s.site.mode.inService
    · rw [Faults.reports_idle s.faultView inService]
    · exact (behind inService).2 id (apart.resolve_left (by simp [inService]))

theorem LogTells.behind_restart (n : UnitId) (mode : s.site.mode ≠ .stopping)
    (path : q.path = s.path) (b : Steering) :
    let t := Machine.close (decideStandings b (Machine.reportRestart n q))
    LogTells (s.noticesOf (⟨.unit n 6, true, none⟩ :: holeChanges s t)) s t := by
  intro t
  have faults := reportRestart_faults quiet n
  have notices := State.noticesOf_append s [⟨.unit n 6, true, none⟩] (holeChanges s t)
  rw [List.singleton_append] at notices
  rw [notices]
  refine LogTells.settled mode ((reportRestart_site n q).trans quiet.site)
    ((reportRestart_path n q).trans path) ?_ (fun d k => ?_) (reportRestart_trends quiet n) b
  · rw [faults]
    unfold State.noticesOf
    cases inService : s.site.mode.inService
    · rw [Faults.momentaryTrip_idle _ _ _ inService]
      rfl
    · rw [Faults.withLatches_momentaryTrip _ _ _ inService]
      cases told : Report.notice s.faultView s.faults ⟨.unit n 6, true, none⟩ <;> simp [told]
  · rw [faults]
    exact Faults.latch_momentaryTrip_ne _ _ _ fun same => by cases same

end

/-- A quiet event without a figure moved: nothing is reported. -/
theorem OnlyReports.of_untouched (quiet : Quiet s e) (steering : e.steering = s.steering)
    (except earlier) :
    let t := close (decideStandings s.steering e)
    OnlyReports except earlier (holeChanges s t) s t ∧
      ∀ id, t.faults.latch id = s.faults.latch id := by
  intro t
  have latch (id) : t.faults.latch id = s.faults.latch id := by
    rw [show t = close e from congrArg close (decideStandings_same _ e steering), close_latch,
      quiet.faults]
  have unchanged : holeChanges s t = [] :=
    holeChanges_same ((close_steering _).trans
      ((congrArg State.steering (decideStandings_same _ e steering)).trans steering))
  rw [unchanged]
  exact ⟨⟨fun _ i r hi => by simp at hi, fun id _ _ => latch id⟩, latch⟩

/-! ## The queue of a unit that restarts (R94, R97) -/

theorem Link.fullEmpty_queuePoll (l : Link) :
    l.fullEmpty.queuePoll = { l with queue := [.poll], inFlight := none, replyTimer := none } := by
  rw [Link.queuePoll_eq]
  simp [Link.fullEmpty, Link.abandon]

/-- The queue is purged to its POLLs, and to one where it had none. -/
theorem Link.purgeKeepingPoll_queuePoll (l : Link) :
    ∃ polls, l.purgeKeepingPoll.queuePoll =
        { l with queue := polls, inFlight := none, replyTimer := none } ∧
      polls ≠ [] ∧ (∀ x ∈ polls, x = .poll) ∧ polls.length = max 1 (l.queue.count .poll) := by
  let kept := l.queue.filter fun c => c == .poll
  have alike : ∀ x ∈ kept, x = .poll := fun x hx => by simpa using (List.mem_filter.mp hx).2
  have count : l.queue.count .poll = kept.length := List.countP_eq_length_filter
  rw [count, Link.queuePoll_eq]
  by_cases empty : kept = []
  · have absent : ¬ (.poll ∈ l.purgeKeepingPoll.queue ∨
        l.purgeKeepingPoll.inFlight.map InFlight.command = some .poll) := by
      rintro (queued | flying)
      · have queued : .poll ∈ kept := queued
        rw [empty] at queued
        exact List.not_mem_nil queued
      · cases flying
    refine ⟨[.poll], ?_, by simp, by simp, by simp [empty]⟩
    rw [if_neg absent, show l.purgeKeepingPoll.queue = [] from empty]
    rfl
  · obtain ⟨x, queued⟩ := List.exists_mem_of_ne_nil _ empty
    rw [alike x queued] at queued
    refine ⟨kept, ?_, empty, alike, ?_⟩
    · rw [if_pos (.inl queued)]
      rfl
    · have := List.length_pos_of_mem queued
      omega

/-! ## A break received (R121) -/

/-- A unit whose break has been received, before its RESTART is reported. -/
def broken (n : UnitId) (s : State) : State :=
  match (s.unit n).state with
  | .live =>
    (leaveLive n ((s.onUnit n fun r => { r with state := .probing }).onLink n
      Link.purgeKeepingPoll)).onLink n Link.queuePoll
  | .probing => s.onLink n fun l => l.fullEmpty.queuePoll
  | .down => if (s.unit n).exhausted then s else recoveryAttempt n s
  | _ => s

/-- A unit whose break is a RESTART. -/
def UnitRecord.Restarts (u : UnitRecord) : Prop := u.state = .live ∨ u.state = .probing

theorem unitBreak_restart (restarts : (s.unit n).Restarts) :
    unitBreak n s = reportRestart n (broken n s) := by
  unfold unitBreak broken
  rcases restarts with state | state <;> rw [state] <;> rfl

theorem unitBreak_silent (silent : ¬ (s.unit n).Restarts) : unitBreak n s = broken n s := by
  unfold UnitRecord.Restarts at silent
  unfold unitBreak broken
  cases state : (s.unit n).state <;> simp_all

theorem broken_live (live : (s.unit n).state = .live) :
    broken n s = (leaveLive n ((s.onUnit n fun r => { r with state := .probing }).onLink n
      Link.purgeKeepingPoll)).onLink n Link.queuePoll := by
  unfold broken
  rw [live]

theorem broken_probing (probing : (s.unit n).state = .probing) :
    broken n s = s.onLink n fun l => l.fullEmpty.queuePoll := by
  unfold broken
  rw [probing]

theorem broken_down (down : (s.unit n).state = .down) (fresh : (s.unit n).exhausted = false) :
    broken n s = recoveryAttempt n s := by
  unfold broken
  rw [down, fresh]
  rfl

theorem broken_other (other : (s.unit n).state = .off ∨ (s.unit n).state = .out ∨
    (s.unit n).state = .resetting ∨ ((s.unit n).state = .down ∧ (s.unit n).exhausted = true)) :
    broken n s = s := by
  unfold broken
  rcases other with state | state | state | ⟨state, exhausted⟩
  · rw [state]
  · rw [state]
  · rw [state]
  · rw [state, exhausted]
    rfl

theorem Quiet.broken (n : UnitId) (s : State) : Quiet s (broken n s) := by
  unfold Machine.broken
  split
  · exact (((onUnit s n _).trans (onLink _ n _)).trans (leaveLive n _)).trans (onLink _ n _)
  · exact onLink s n _
  · split
    · exact refl s
    · exact (onUnit s n _).trans ((onUnit _ n _).trans (onLink _ n _))
  · exact refl s

theorem UnitEvent.broken (n : UnitId) (s : State) : UnitEvent n s (broken n s) := by
  unfold Machine.broken
  split
  · exact (((onUnit s n _).trans (onLink _ n _)).trans (leaveLive _ n)).trans (onLink _ n _)
  · exact onLink s n _
  · split
    · exact refl n s
    · exact (onUnit s n _).trans ((onUnit _ n _).trans (onLink _ n _))
  · exact refl n s

/-- A LIVE unit whose break has been received is PROBING, its queue purged. -/
theorem broken_live_parts (live : (s.unit n).state = .live) :
    LiveLost n s (broken n s) ∧
      (broken n s).unit n = { s.unit n with state := .probing, impaired := false } ∧
      (broken n s).link n = (s.link n).purgeKeepingPoll.queuePoll := by
  rw [broken_live live]
  refine ⟨(LiveLost.leaveLive ((s.onUnit n fun r => { r with state := .probing }).onLink n
    Link.purgeKeepingPoll) n).of_parts ?_ ?_ (fun m => ?_) (State.onLink_steering _ _ _)
    (State.onLink_carriers _ _ _) (fun m => by rw [State.unit_onLink']), ?_, ?_⟩
  · rw [State.onLink_steering, State.onUnit_steering]
  · rw [State.onLink_carriers, State.onUnit_carriers]
  · rw [State.unit_onLink', State.unit_onUnit]
    split
    · next here => rw [here]
    · rfl
  · rw [State.unit_onLink', leaveLive_unit, if_pos rfl, State.unit_onLink', State.unit_onUnit_self]
  · rw [State.link_onLink_self, State.link, leaveLive_links]
    exact congrArg Link.queuePoll (State.link_onLink_self _ n _)

/-- A break that is no RESTART touches neither a slot nor a figure. -/
theorem broken_silent_keeps (silent : ¬ (s.unit n).Restarts) :
    (broken n s).carriers = s.carriers ∧ (broken n s).steering = s.steering := by
  unfold UnitRecord.Restarts at silent
  unfold broken
  split
  · next live => exact absurd (.inl live) silent
  · next probing => exact absurd (.inr probing) silent
  · split
    · exact ⟨rfl, rfl⟩
    · rw [recoveryAttempt, enterResetting_onUnit]
      exact ⟨rfl, rfl⟩
  · exact ⟨rfl, rfl⟩

theorem breakReceived_row {c : Samples} (line : (s.link n).line = .ready)
    (character : classify c = .breakCharacter) :
    exec (.breakReceived n c) s =
      .next (close (decideStandings s.steering (unitBreak n (s.onLink n Link.receiveBreak)))) :=
  congrArg Host.Outcome.next (if_pos ⟨line, character⟩)

/-- Whether it reports a RESTART or nothing, the event keeps what the change of the unit's side has
made. -/
theorem unitBreak_keeps (n : UnitId) (s : State) :
    (unitBreak n s).carriers = (broken n s).carriers ∧
      (unitBreak n s).steering = (broken n s).steering ∧
      (unitBreak n s).units = (broken n s).units ∧ (unitBreak n s).links = (broken n s).links := by
  by_cases restarts : (s.unit n).Restarts
  · rw [unitBreak_restart restarts]
    exact ⟨State.setFaults_carriers _ _, State.setFaults_steering _ _, State.setFaults_units _ _,
      State.setFaults_links _ _⟩
  · rw [unitBreak_silent restarts]
    exact ⟨rfl, rfl, rfl, rfl⟩

theorem UnitEvent.unitBreak (n : UnitId) (s : State) : UnitEvent n s (unitBreak n s) := by
  by_cases restarts : (s.unit n).Restarts
  · rw [unitBreak_restart restarts]
    exact (broken n s).trans (reportRestart _ n)
  · rw [unitBreak_silent restarts]
    exact broken n s

/-- Settles O48: the break changes the unit's side by its state and reports nothing, and a RESTART is
reported behind it where the unit was LIVE or PROBING. -/
theorem breakReceivedRestartsOrRecovers : Obligations.BreakReceivedRestartsOrRecovers := by
  intro s n c line character mode u heard dropped old restarted
  let p := s.onLink n Link.receiveBreak
  let q := broken n p
  let e := unitBreak n p
  have link : p.link n = heard := State.link_onLink_self s n _
  have quiet : Quiet s q := (Quiet.onLink s n _).trans (.broken n p)
  have path : q.path = s.path := ((UnitEvent.onLink s n _).trans (.broken n p)).frame.path
  have event : UnitEvent n s e := (UnitEvent.onLink s n _).trans (.unitBreak n p)
  obtain ⟨side, presents⟩ := event.ended mode
  obtain ⟨carriers, steering, units, links⟩ := unitBreak_keeps n p
  obtain ⟨-, -, linksEnd, unitsEnd, -, -⟩ := close_settled s.steering e
  have linkEnd : (close (decideStandings s.steering e)).link n = q.link n :=
    congrArg (fun links => links.get n) (linksEnd.trans links)
  have unitEnd : (close (decideStandings s.steering e)).unit n = q.unit n :=
    congrArg (fun units => units.get n) (unitsEnd.trans units)
  have restart (restarts : u.Restarts) : e = reportRestart n q := unitBreak_restart restarts
  have silent (others : ¬ u.Restarts) : e = q := unitBreak_silent others
  have untouched (carriers' : q.carriers = s.carriers) (steering' : q.steering = s.steering) :=
    untouched_ended (e := e) (carriers.trans carriers') (steering.trans steering')
  have restartedEnd (restarts : u.Restarts) :
      restarted (close (decideStandings s.steering e)) := by
    rw [restart restarts]
    exact (restart_latch_self quiet n _).trans (Faults.latch_momentaryTrip_self _ _ _)
  have kept (others : ¬ u.Restarts) : q.carriers = s.carriers ∧ q.steering = s.steering :=
    broken_silent_keeps (s := p) others
  have latchEnd (others : ¬ u.Restarts) :
      (close (decideStandings s.steering e)).faults.latch (.unit n 6) = old := by
    rw [silent others]
    exact (OnlyReports.of_untouched quiet (kept others).2 (fun _ => False) 0).2 _
  refine ⟨close (decideStandings s.steering e), breakReceived_row line character, side, presents,
    ?reports, ?notices,
    fun live => ?live, fun probing => ?probing, fun down fresh => ?down, fun other => ?other⟩
  case reports =>
    by_cases restarts : u.Restarts
    · rw [restart restarts]
      exact .behind_restart quiet n _
    · rw [silent restarts]
      exact (OnlyReports.of_untouched quiet (kept restarts).2 _ _).1
  case notices =>
    by_cases restarts : u.state = .live ∨ u.state = .probing
    · rw [if_pos restarts, restart restarts]
      exact .behind_restart quiet n mode path _
    · rw [if_neg restarts, silent restarts]
      exact .of_quiet quiet mode path _
  case live =>
    obtain ⟨lost, lostUnit, lostLink⟩ := broken_live_parts (s := p) live
    have lost : LiveLost n s e := lost.of_parts rfl rfl (fun _ => rfl) steering carriers fun m => by
      unfold State.unit
      rw [units]
    obtain ⟨slots, figures, records, cells⟩ := lost.ended
    obtain ⟨polls, purged, nonempty, alike, count⟩ := Link.purgeKeepingPoll_queuePoll heard
    rw [link, purged] at lostLink
    exact ⟨unitEnd.trans lostUnit, ⟨polls, linkEnd.trans lostLink, nonempty, alike, count⟩, slots,
      figures, records, cells, restartedEnd (.inl live)⟩
  case probing =>
    have same : q = p.onLink n fun l => l.fullEmpty.queuePoll := broken_probing probing
    have polled : q.link n = { dropped with queue := [.poll] } := by
      rw [same, State.link_onLink_self, link, Link.fullEmpty_queuePoll]
    obtain ⟨carriersEnd, steeringEnd⟩ := untouched (by rw [same]; rfl) (by rw [same]; rfl)
    exact ⟨unitEnd.trans (by rw [same]; rfl), linkEnd.trans polled, carriersEnd, steeringEnd,
      restartedEnd (.inr probing)⟩
  case down =>
    have others : ¬ u.Restarts := by simp [UnitRecord.Restarts, down]
    have same : q = _ := (broken_down (s := p) down fresh).trans (enterResetting_onUnit p n _)
    have unit : q.unit n = { u with
        state := .resetting, attempts := countUp 255 u.attempts
        guard := false, recovery := none } := by
      rw [same, State.unit_setLinks', State.unit, State.setUnits_units, Bank.get_put_self]
      rfl
    have asked : q.link n = heard.afterBreakRequest := by
      rw [same, State.link, State.setLinks_links, Bank.get_put_self, link]
    obtain ⟨carriersKept, steeringKept⟩ := kept others
    obtain ⟨carriersEnd, steeringEnd⟩ := untouched carriersKept steeringKept
    exact ⟨unitEnd.trans unit, linkEnd.trans asked, carriersEnd, steeringEnd, latchEnd others⟩
  case other =>
    have same : q = p := broken_other other
    have others : ¬ u.Restarts := by
      rintro (live | probing)
      · rw [live] at other; simp at other
      · rw [probing] at other; simp at other
    obtain ⟨carriersEnd, steeringEnd⟩ := untouched (by rw [same]; rfl) (by rw [same]; rfl)
    exact ⟨unitEnd.trans (by rw [same]; rfl), linkEnd.trans (by rw [same, link]), carriersEnd,
      steeringEnd, latchEnd others⟩

end Sys2Proof.Machine
end

section
/-! What an entry to DOWN and an OUT request share: the unit leaves its state with its link emptied
and a break asked for (R97, R116, R124); and a unit's event whose changes of condition are reported,
to its end. -/
namespace Sys2Proof.Machine

open Sys2Proof

variable {s q : State} {n : UnitId} {f : UnitRecord → UnitRecord}

/-! ## A unit taken out of its state (R116, R117, R124) -/

/-- The unit's link is emptied, a LIVE unit's slots take Table 4-7, a break is asked for, and `f`
makes the new record. -/
def takenOut (n : UnitId) (f : UnitRecord → UnitRecord) (s : State) : State :=
  ((leaveIfLive (s.unit n).state n (s.onLink n Link.fullEmpty)).onLink n Link.askBreak).onUnit n f

theorem enterDown_eq (n : UnitId) (s : State) :
    enterDown n s = takenOut n (UnitRecord.goDown s.site) s := rfl

theorem goOut_eq (n : UnitId) (s : State) :
    goOut n s = reportChanges n (releasedChanges (s.unit n)) (takenOut n UnitRecord.goOut s) := rfl

theorem leaveIfLive_links (was : UnitState) (n : UnitId) (s : State) :
    (leaveIfLive was n s).links = s.links := by
  unfold leaveIfLive
  split
  · exact leaveLive_links n s
  · rfl

theorem Quiet.takenOut (n f) (s : State) : Quiet s (takenOut n f s) :=
  (((onLink s n _).trans (leaveIfLive _ n _)).trans (onLink _ n _)).trans (onUnit _ n _)

theorem UnitEvent.leaveIfLive (was : UnitState) (n : UnitId) (s : State) :
    UnitEvent n s (leaveIfLive was n s) := by
  unfold Machine.leaveIfLive
  split
  · exact leaveLive s n
  · exact refl n s

theorem UnitEvent.takenOut (n f) (s : State) : UnitEvent n s (takenOut n f s) :=
  (((onLink s n _).trans (leaveIfLive _ n _)).trans (onLink _ n _)).trans (onUnit _ n _)

theorem takenOut_link (n f) (s : State) : (takenOut n f s).link n = (s.link n).afterUnitLoss := by
  unfold takenOut
  rw [State.link_onUnit', State.link_onLink_self, State.link, leaveIfLive_links]
  exact (congrArg Link.askBreak (State.link_onLink_self s n _)).trans (Link.fullEmpty_askBreak _)

theorem takenOut_unit (n f) (s : State) :
    (takenOut n f s).unit n =
      f { s.unit n with impaired := (s.unit n).impaired && decide ((s.unit n).state ≠ .live) } := by
  unfold takenOut
  rw [State.unit_onUnit_self, State.unit_onLink', leaveIfLive_unit]
  by_cases live : (s.unit n).state = .live
  · simp [live]
  · simp [live]

theorem LiveLost.takenOut (live : (s.unit n).state = .live)
    (keepsMark : ∀ r, (f r).impaired = r.impaired) : LiveLost n s (takenOut n f s) := by
  have left : Machine.takenOut n f s =
      ((Machine.leaveLive n (s.onLink n Link.fullEmpty)).onLink n Link.askBreak).onUnit n f := by
    unfold Machine.takenOut leaveIfLive
    rw [if_pos live]
  rw [left]
  refine (leaveLive (s.onLink n Link.fullEmpty) n).of_parts rfl rfl (fun _ => rfl)
    (by rw [State.onUnit_steering, State.onLink_steering])
    (by rw [State.onUnit_carriers, State.onLink_carriers]) fun m => ?_
  rw [State.unit_onUnit]
  split
  · next here => rw [here, keepsMark, State.unit_onLink']
  · rw [State.unit_onLink']

/-- A unit that was not LIVE leaves Carrier Control and the Steering Engine as they were. -/
theorem takenOut_untouched (f) (other : (s.unit n).state ≠ .live) :
    (takenOut n f s).carriers = s.carriers ∧ (takenOut n f s).steering = s.steering := by
  unfold takenOut leaveIfLive
  rw [if_neg other]
  exact ⟨rfl, rfl⟩

/-! ## Changes of condition as reports (R123) -/

/-- The report of an alarm filter whose condition differs between two records. -/
def Alarm.change (n : UnitId) (alarms : BitVec 4) (old new : UnitRecord) (a : Alarm) :
    Option Report :=
  if (old.filters.get a).present = (new.filters.get a).present then none
  else some ⟨.unit n (alarmKind a), (new.filters.get a).present, some alarms⟩

theorem filterChanges_report (n : UnitId) (alarms : BitVec 4) (old new : UnitRecord) :
    (filterChanges alarms old new).map (ConditionChange.report n) =
      (List.finRange 4).filterMap (Alarm.change n alarms old new) := by
  unfold filterChanges
  rw [List.map_map, ← List.filterMap_eq_map, List.filterMap_filter]
  refine List.filterMap_congr fun a _ => ?_
  unfold Alarm.change
  by_cases same : (old.filters.get a).present = (new.filters.get a).present
  · simp [UnitRecord.condition, same]
  · simp [UnitRecord.condition, same, ConditionChange.report]

theorem silentChange_ended (n : UnitId) (silent : Bool) :
    (silentChange silent false).map (ConditionChange.report n) =
      if silent = true then [⟨.unit n 4, false, none⟩] else [] := by
  cases silent <;> rfl

theorem garbledChange_report (n : UnitId) (old new : Bool) :
    (garbledChange old new).map (ConditionChange.report n) =
      if old = new then [] else [⟨.unit n 5, new, none⟩] := by
  unfold garbledChange
  split <;> rfl

/-- One event changes each condition of a unit at most once. -/
theorem unitChanges_nodup (alarms : BitVec 4) (old new : UnitRecord)
    (silent silent' garbled garbled' : Bool) :
    ((filterChanges alarms old new ++ silentChange silent silent' ++
      garbledChange garbled garbled').map ConditionChange.kind).Nodup := by
  have filters :
      ((filterChanges alarms old new).map ConditionChange.kind).Sublist [0, 1, 2, 3] := by
    unfold filterChanges
    rw [List.map_map]
    exact List.filter_sublist.map alarmKind
  have silents : ((silentChange silent silent').map ConditionChange.kind).Sublist [4] := by
    unfold silentChange
    split
    · exact List.nil_sublist _
    · exact .refl _
  have garbles : ((garbledChange garbled garbled').map ConditionChange.kind).Sublist [5] := by
    unfold garbledChange
    split
    · exact List.nil_sublist _
    · exact .refl _
  rw [List.map_append, List.map_append]
  exact List.Nodup.sublist ((filters.append silents).append garbles) (by decide)

/-! ## A unit's event with its reports, to its end (R123, R133, R153) -/

/-- An event of unit `n` that has changed its side quietly to `q`, with its changes of condition
reported, settled and closed. -/
def reportedEnd (n : UnitId) (changes : List ConditionChange) (s q : State) : State :=
  close (decideStandings s.steering (reportChanges n changes q))

section
variable {changes : List ConditionChange}

theorem reportedEnd_link (n changes) (s q : State) :
    (reportedEnd n changes s q).link n = q.link n :=
  (congrArg (fun links => links.get n) (close_settled s.steering _).2.2.1).trans
    (reportChanges_link n changes q n)

theorem reportedEnd_unit (n changes) (s q : State) :
    (reportedEnd n changes s q).unit n = q.unit n :=
  (congrArg (fun units => units.get n) (close_settled s.steering _).2.2.2.1).trans
    (reportChanges_unit n changes q n)

theorem reportedEnd_side (event : UnitEvent n s q) (mode : s.site.mode ≠ .stopping) (changes) :
    OnlyUnitSide n s (reportedEnd n changes s q) ∧
      PresentsNext (!s.depositOutstanding) s.path (reportedEnd n changes s q) :=
  (event.trans (.reportChanges q n changes)).ended mode

theorem reportedEnd_reports (quiet : Quiet s q) (event : UnitEvent n s q)
    (mode : s.site.mode ≠ .stopping) (once : (changes.map ConditionChange.kind).Nodup) :
    let t := reportedEnd n changes s q
    let reports := changes.map (ConditionChange.report n) ++ holeChanges s t
    OnlyReports (fun _ => False) 0 reports s t ∧ LogTells (s.noticesOf reports) s t := by
  have trends (d k) : ((reportChanges n changes q).steering.cell d k).trend =
      (q.steering.cell d k).trend := by
    rw [reportChanges_steering]
  exact ⟨.behind_quiet n changes once quiet rfl rfl trends _,
    .behind_quiet n changes once quiet mode (event.trans (.reportChanges q n changes)).frame.path
      rfl rfl trends _⟩

theorem reportedEnd_lost (lost : LiveLost n s q) (changes) :
    let t := reportedEnd n changes s q
    UnitSlotsChanged n Context.afterUnitLoss s t ∧ OnlyUnitFigures n s t ∧ UnitRecordsLost n s t ∧
      (s.carriers.Inv → s.SteeringInv → UnitCellsDecided n s t) :=
  (lost.of_parts rfl rfl (fun _ => rfl) (reportChanges_steering n changes q)
    (reportChanges_carriers n changes q) fun m => by rw [reportChanges_unit]).ended

theorem reportedEnd_untouched (carriers : q.carriers = s.carriers)
    (steering : q.steering = s.steering) (changes) :
    (reportedEnd n changes s q).carriers = s.carriers ∧
      (reportedEnd n changes s q).steering = s.steering :=
  untouched_ended ((reportChanges_carriers n changes q).trans carriers)
    ((reportChanges_steering n changes q).trans steering)

end

end Sys2Proof.Machine
end

section
/-! An OUT request (O49). -/
namespace Sys2Proof.Machine

open Sys2Proof

variable {s : State} {n : UnitId}

theorem releasedChanges_report (n : UnitId) (u : UnitRecord) :
    (releasedChanges u).map (ConditionChange.report n) =
      ((List.finRange 4).filterMap fun a =>
        if (u.filters.get a).present then some ⟨.unit n (alarmKind a), false, some 0⟩ else none) ++
      (if u.silent then [⟨.unit n 4, false, none⟩] else []) ++
      (if u.garbled then [⟨.unit n 5, false, none⟩] else []) := by
  have released (a : Alarm) : (u.goOut.filters.get a).present = false := by
    rw [show u.goOut.filters.get a = _ from Bank.get_fill _ a]
    rfl
  unfold releasedChanges
  rw [List.map_append, List.map_append, filterChanges_report, silentChange_ended,
    garbledChange_report]
  congr 1
  · congr 1
    refine List.filterMap_congr fun a _ => ?_
    unfold Alarm.change
    rw [released]
    cases (u.filters.get a).present <;> rfl
  · cases u.garbled <;> rfl

theorem requestOut_idle (idle : (s.unit n).state = .out ∨ (s.unit n).state = .off) :
    requestOut n s = s := by
  unfold requestOut
  rcases idle with state | state <;> rw [state]

theorem requestOut_acts (out : (s.unit n).state ≠ .out) (off : (s.unit n).state ≠ .off) :
    requestOut n s = goOut n s := by
  unfold requestOut
  split
  · next state => exact absurd state out
  · next state => exact absurd state off
  · rfl

/-- An OUT request in service, to the end of its event. -/
theorem adminOut_row (inService : s.site.mode.inService = true) :
    exec (.adminOut n) s = .next (close (decideStandings s.steering (requestOut n s))) :=
  congrArg Host.Outcome.next (if_pos inService)

/-- Settles O49: an idle request changes nothing before its event ends, and one that acts takes the
unit out of its state and reports the releases. -/
theorem outRequestTakesTheUnitOut : Obligations.OutRequestTakesTheUnitOut := by
  intro s n inService u releases
  have mode : s.site.mode ≠ .stopping := fun stopping => by
    rw [stopping] at inService
    cases inService
  by_cases idle : u.state = .out ∨ u.state = .off
  case pos =>
    have meaning := adminOut_row (n := n) inService
    rw [requestOut_idle idle, decideStandings_same _ s rfl] at meaning
    have presents := PresentsNext.close s mode
    have side := ((UnitEvent.refl n s).ended mode).1
    rw [decideStandings_same _ s rfl] at side
    refine ⟨_, meaning, side, presents, fun _ => ⟨close_onlyLog s mode,
      .of_closed (.refl s) mode rfl, close_latch s⟩, fun out off => ?_⟩
    exact absurd idle (not_or.mpr ⟨out, off⟩)
  case neg =>
    obtain ⟨out, off⟩ := not_or.mp idle
    let q := takenOut n UnitRecord.goOut s
    have quiet : Quiet s q := .takenOut n _ s
    have event : UnitEvent n s q := .takenOut n _ s
    have meaning : exec (.adminOut n) s = .next (reportedEnd n (releasedChanges u) s q) := by
      rw [adminOut_row inService, requestOut_acts out off, goOut_eq]
      rfl
    obtain ⟨side, presents⟩ := reportedEnd_side event mode (releasedChanges u)
    have reports := reportedEnd_reports quiet event mode
      (unitChanges_nodup 0 u u.goOut u.silent false u.garbled false)
    have unit : (reportedEnd n (releasedChanges u) s q).unit n = _ :=
      (reportedEnd_unit n _ s q).trans (takenOut_unit n _ s)
    refine ⟨_, meaning, side, presents, fun idle' => absurd idle' idle, fun _ _ =>
      ⟨⟨?record, fun a => ?filters⟩, (reportedEnd_link n _ s q).trans (takenOut_link n _ s),
        fun live => ?lost, fun other => ?untouched, ?reports⟩⟩
    case record =>
      rw [unit]
      rfl
    case filters => rw [unit]; exact Bank.get_fill _ a
    case lost =>
      have lost : LiveLost n s q := .takenOut live fun _ => rfl
      exact reportedEnd_lost lost (releasedChanges u)
    case untouched =>
      obtain ⟨carriers, steering⟩ := takenOut_untouched UnitRecord.goOut other
      exact reportedEnd_untouched carriers steering _
    case reports =>
      have told : releases = _ := (releasedChanges_report n u).symm
      rw [told]
      exact reports

end Sys2Proof.Machine
end

section
/-! The poll expiry (O51). -/
namespace Sys2Proof.Machine

open Sys2Proof

variable {s t : State} {n : UnitId}

/-! ## One unit (R118) -/

/-- A unit the poll expiry looks at: LIVE or PROBING. -/
def State.polls (s : State) (n : UnitId) : Bool :=
  decide ((s.unit n).state = .live ∨ (s.unit n).state = .probing)

/-- The GARBLED condition a unit's error window count gives (R118). -/
def State.garbles (s : State) (n : UnitId) : Bool :=
  garbledNow s.site (s.link n).errorWindow

/-- The report of a unit's change of GARBLED at the poll expiry. -/
def State.pollReport (s : State) (n : UnitId) : Option Report :=
  if s.polls n = true ∧ s.garbles n ≠ (s.unit n).garbled then some ⟨.unit n 5, s.garbles n, none⟩
  else none

theorem pollUnit_other (other : s.polls n = false) : pollUnit s n = s := by
  unfold State.polls at other
  unfold pollUnit
  cases state : (s.unit n).state <;> simp_all

theorem pollUnit_polled (polled : s.polls n = true) :
    pollUnit s n = reportChanges n (garbledChange (s.unit n).garbled (s.garbles n))
      ((s.onUnit n fun r => { r with garbled := s.garbles n }).onLink n Link.polled) := by
  unfold State.polls at polled
  rcases of_decide_eq_true polled with state | state
  all_goals
    unfold pollUnit
    rw [state]
    rfl

/-- What the poll expiry at the units of the list has done: the units that are polled have their
GARBLED and their links, their changes are reported in the list's order, and no slot or figure
differs. -/
structure UnitsPolled (l : List UnitId) (s t : State) : Prop where
  unit : ∀ m, t.unit m =
    if m ∈ l ∧ s.polls m = true then { s.unit m with garbled := s.garbles m } else s.unit m
  link : ∀ m, t.link m = if m ∈ l ∧ s.polls m = true then (s.link m).polled else s.link m
  faults : t.faults = (l.filterMap s.pollReport).foldl
    (fun g r => g.report s.faultView r.id r.present r.alarms) s.faults
  carriers : t.carriers = s.carriers
  steering : t.steering = s.steering

theorem UnitsPolled.pollUnit (s : State) (n : UnitId) : UnitsPolled [n] s (pollUnit s n) := by
  cases polled : s.polls n
  case false =>
    rw [pollUnit_other polled]
    have off {m} : ¬ (m ∈ [n] ∧ s.polls m = true) := by
      rintro ⟨here, polls⟩
      rw [List.mem_singleton.mp here, polled] at polls
      cases polls
    refine ⟨fun m => (if_neg off).symm, fun m => (if_neg off).symm, ?_, rfl, rfl⟩
    simp [State.pollReport, polled]
  case true =>
    rw [pollUnit_polled polled]
    have here {m} : m = n ↔ m ∈ [n] ∧ s.polls m = true :=
      ⟨fun same => by simp [same, polled], fun both => List.mem_singleton.mp both.1⟩
    refine ⟨fun m => ?_, fun m => ?_, ?_, reportChanges_carriers n _ _,
      reportChanges_steering n _ _⟩
    · rw [reportChanges_unit, State.unit_onLink', State.unit_onUnit]
      by_cases same : m = n
      · rw [if_pos same, if_pos (here.mp same), same]
      · rw [if_neg same, if_neg (same ∘ here.mpr)]
    · rw [reportChanges_link, State.link_onLink]
      by_cases same : m = n
      · rw [if_pos same, if_pos (here.mp same), same]
        rfl
      · rw [if_neg same, if_neg (same ∘ here.mpr)]
        rfl
    · have told : (garbledChange (s.unit n).garbled (s.garbles n)).map (ConditionChange.report n) =
          [n].filterMap s.pollReport := by
        rw [garbledChange_report]
        by_cases same : (s.unit n).garbled = s.garbles n
        · simp [State.pollReport, same]
        · simp [State.pollReport, same, polled, Ne.symm same]
      rw [reportChanges_faults, told]
      rfl

/-! ## Every unit, and the end of the event -/

/-- A unit the poll expiry has not come to yet is as it was. -/
theorem UnitsPolled.later (h : UnitsPolled [n] s t) (site : t.site = s.site) {m : UnitId}
    (later : m ≠ n) :
    t.unit m = s.unit m ∧ t.link m = s.link m ∧ t.polls m = s.polls m ∧
      t.garbles m = s.garbles m ∧ t.pollReport m = s.pollReport m := by
  have off : ¬ (m ∈ [n] ∧ s.polls m = true) := fun both => later (List.mem_singleton.mp both.1)
  have unit : t.unit m = s.unit m := (h.unit m).trans (if_neg off)
  have link : t.link m = s.link m := (h.link m).trans (if_neg off)
  have polls : t.polls m = s.polls m := by
    unfold State.polls
    rw [unit]
  have garbles : t.garbles m = s.garbles m := by
    unfold State.garbles
    rw [link, site]
  refine ⟨unit, link, polls, garbles, ?_⟩
  unfold State.pollReport
  rw [unit, polls, garbles]

theorem UnitsPolled.foldl (l : List UnitId) (distinct : l.Nodup) (s : State) :
    UnitsPolled l s (l.foldl Machine.pollUnit s) := by
  induction l generalizing s with
  | nil => exact ⟨fun m => by simp, fun m => by simp, rfl, rfl, rfl⟩
  | cons n l ih =>
    obtain ⟨new, distinct⟩ := List.nodup_cons.mp distinct
    have first := UnitsPolled.pollUnit s n
    have site : (Machine.pollUnit s n).site = s.site := (UnitFrame.pollUnit s n).site
    have view : (Machine.pollUnit s n).faultView = s.faultView := by
      unfold State.faultView
      rw [site]
    have rest {m} (hm : m ∈ l) := first.later site (m := m) fun same => new (same ▸ hm)
    obtain ⟨unit, link, faults, carriers, steering⟩ := ih distinct (Machine.pollUnit s n)
    rw [List.foldl_cons]
    refine ⟨fun m => ?_, fun m => ?_, ?_, carriers.trans first.carriers,
      steering.trans first.steering⟩
    · rw [unit]
      by_cases hm : m ∈ l
      · obtain ⟨unitKept, -, polls, garbles, -⟩ := rest hm
        simp [hm, unitKept, polls, garbles]
      · simp [hm, first.unit m]
    · rw [link]
      by_cases hm : m ∈ l
      · obtain ⟨-, linkKept, polls, -, -⟩ := rest hm
        simp [hm, linkKept, polls]
      · simp [hm, first.link m]
    · have reports : l.filterMap (Machine.pollUnit s n).pollReport = l.filterMap s.pollReport :=
        List.filterMap_congr fun m hm => (rest hm).2.2.2.2
      rw [faults, first.faults, view, reports, ← List.foldl_append, ← List.filterMap_append]
      rfl

theorem pollReport_id {m : UnitId} {r : Report} (reported : s.pollReport m = some r) :
    r.id = .unit m 5 := by
  unfold State.pollReport at reported
  split at reported
  · cases reported
    rfl
  · cases reported

theorem pollReports_nodup (s : State) :
    (((List.finRange 24).filterMap s.pollReport).map Report.id).Nodup := by
  rw [List.map_filterMap]
  refine (List.nodup_finRange 24).filterMap fun m k id hm hk => ?_
  obtain ⟨r, reported, rfl⟩ := Option.map_eq_some_iff.mp hm
  obtain ⟨r', reported', same⟩ := Option.map_eq_some_iff.mp hk
  rw [pollReport_id reported, pollReport_id reported'] at same
  injection same with same
  exact same.symm

theorem garbledNow_eq (t : Site) (count : Nat) :
    garbledNow t count = decide (t.garbleThreshold ≠ 0 ∧ t.garbleThreshold ≤ count) := by
  unfold garbledNow
  cases t.garbleThreshold <;> simp

theorem pollExpiry_row (runs : s.pollTimer ≠ none) :
    exec .pollExpiry s = .next (close (pollExpired s)) :=
  congrArg Host.Outcome.next (if_pos (Option.isSome_iff_ne_none.mpr runs))

/-- An event without a figure moved, closed: its reports on unit latches are all it reports. -/
theorem OnlyReports.close_reports {e : State} (reports : List Report)
    (once : (reports.map Report.id).Nodup) (units : ∀ r ∈ reports, ∀ d k, r.id ≠ .hole d k)
    (mode : s.site.mode ≠ .stopping) (site : e.site = s.site) (path : e.path = s.path)
    (steering : e.steering = s.steering)
    (faults : e.faults =
      reports.foldl (fun g r => g.report s.faultView r.id r.present r.alarms) s.faults) :
    OnlyReports (fun _ => False) 0 reports s (close e) ∧
      LogTells (s.noticesOf reports) s (close e) := by
  have trends (d k) : (e.steering.cell d k).trend = (s.steering.cell d k).trend := by rw [steering]
  have only := close_settled reports once units site faults trends s.steering
  have tells := LogTells.close_settled reports once units mode site path faults trends s.steering
  have unmoved : holeChanges s (close e) = [] :=
    holeChanges_same ((close_steering e).trans steering)
  simp only [decideStandings_same s.steering e steering, unmoved, List.append_nil] at only tells
  exact ⟨only, tells⟩

/-- Settles O51: the units are polled one by one, each on its own record, link and latch. -/
theorem pollExpiryPollsAndWatches : Obligations.PollExpiryPollsAndWatches := by
  intro s
  refine ⟨fun stopped => congrArg Host.Outcome.next (if_neg (by simp [stopped])), ?_⟩
  intro runs mode polled garbled
  let p := s.setPollTimer (some s.site.pollInterval)
  let e := pollExpired s
  have frame : UnitFrame p e := .pollUnits p
  obtain ⟨unit, link, faults, carriers, steering⟩ : UnitsPolled (List.finRange 24) p e :=
    .foldl (List.finRange 24) (List.nodup_finRange 24) p
  have garbles (m) : p.garbles m = garbled m := garbledNow_eq _ _
  have running : e.site.mode ≠ .stopping := by rwa [frame.site]
  have unitEnd (m) : (close e).unit m = _ :=
    (congrArg (fun units => units.get m) (close_units e)).trans (unit m)
  have linkEnd (m) : (close e).link m = _ :=
    (congrArg (fun links => links.get m) (close_links e)).trans (link m)
  have pollTimer : (close e).pollTimer = some s.site.pollInterval := by
    rw [close_pollTimer, frame.pollTimer]
    rfl
  have path : { (close e).path with ownPresented := s.path.ownPresented } = s.path := by
    rw [close_eq e running, pump_path, frame.path]
    rfl
  have presents := PresentsNext.close e running
  rw [State.depositOutstanding, frame.path] at presents
  refine ⟨close e, pollExpiry_row runs, pollTimer, ?log, presents, fun m polls => ⟨?unit, ?link⟩,
    fun m rests => ?rests, ?_⟩
  case log =>
    have pending : (close e).pending = s.pending := (close_pending e).trans frame.pending
    have site : (close e).site = s.site := (close_site e running).trans frame.site
    have stages : (close e).stages = s.stages := (close_stages e).trans frame.stages
    have carriers : (close e).carriers = s.carriers := (close_carriers e).trans carriers
    have linkRate : (close e).linkRate = s.linkRate := (close_linkRate e).trans frame.linkRate
    have steering : (close e).steering = s.steering := (close_steering e).trans steering
    generalize close e = t at *
    exact OnlyLog.of_parts pending path site stages carriers rfl linkRate rfl rfl steering
  case unit =>
    rw [unitEnd, if_pos ⟨List.mem_finRange m, polls⟩, garbles]
    rfl
  case link =>
    rw [linkEnd, if_pos ⟨List.mem_finRange m, polls⟩]
    exact Link.queuePoll_eq _
  case rests =>
    have off : ¬ (m ∈ List.finRange 24 ∧ p.polls m = true) := fun both => by
      have polls : polled m = true := both.2
      rw [rests] at polls
      cases polls
    exact ⟨(unitEnd m).trans (if_neg off), (linkEnd m).trans (if_neg off)⟩
  intro reports
  have told : reports = (List.finRange 24).filterMap p.pollReport :=
    List.filterMap_congr fun m _ => by
      rw [State.pollReport, garbles]
      rfl
  rw [told]
  refine OnlyReports.close_reports _ (pollReports_nodup p) (fun r member d k same => ?_) mode
    frame.site frame.path steering faults
  obtain ⟨m, -, reported⟩ := List.mem_filterMap.mp member
  rw [pollReport_id reported] at same
  cases same

end Sys2Proof.Machine
end

section
/-! The figures of a STATUS at the Steering Engine (R129, R130): the user figures and the attaches
of one unit's slots, and the weights under a changed mark. -/
namespace Sys2Proof.Machine

open Sys2Proof

variable {u : UnitId} {n : SlotId} {g h i : Steering} {c d e : Cell} {a b : Nat}

/-! ## Attaches (R130) -/

namespace Cell

theorem addAttaches_addAttaches (c : Cell) (a b : Nat) :
    (c.addAttaches a).addAttaches b = c.addAttaches (a + b) := by
  unfold addAttaches Config.halfTop
  by_cases full : c.saturated = true
  · simp [full]
  by_cases first : 65535 < c.accumulator + a
  · have both : 65535 < c.accumulator + (a + b) := by omega
    simp [full, first, both]
  · simp [full, first, Nat.add_assoc]

theorem addAttaches_zero (small : c.accumulator ≤ 65535) : c.addAttaches 0 = c := by
  unfold addAttaches Config.halfTop
  split
  · rfl
  · rw [if_neg (by omega)]
    rfl

/-- An accumulator stops at its top, and the saturation mark is set there. -/
theorem addAttaches_eq (c : Cell) (a : Nat) :
    c.addAttaches a = { c with
      accumulator := if c.saturated then c.accumulator else min 65535 (c.accumulator + a)
      saturated := c.saturated || decide (65535 < c.accumulator + a) } := by
  unfold addAttaches Config.halfTop
  by_cases full : c.saturated = true
  · simp [full]
    rw [← full]
  by_cases past : 65535 < c.accumulator + a
  · simp [full, past, Nat.min_eq_left past.le]
  · simp [full, past, Nat.min_eq_right (Nat.le_of_not_lt past)]

/-- A cell whose figures may differ, and whose accumulator `a` attaches have joined. -/
def Attached (a : Nat) (c d : Cell) : Prop :=
  d = ({ c with holding := d.holding, capacity := d.capacity, load := d.load } : Cell).addAttaches a

theorem Refigured.attached (refigured : c.Refigured d) (small : c.accumulator ≤ 65535) :
    c.Attached 0 d :=
  Eq.trans refigured (addAttaches_zero (c := { c with
    holding := d.holding, capacity := d.capacity, load := d.load }) small).symm

theorem Attached.accumulator_le (attached : c.Attached a d) (small : c.accumulator ≤ 65535) :
    d.accumulator ≤ 65535 := by
  rw [attached, addAttaches_eq]
  simp only
  split
  · exact small
  · exact Nat.min_le_left _ _

theorem Attached.trans (first : c.Attached a d) (second : d.Attached b e) :
    c.Attached (a + b) e := by
  unfold Attached at *
  rw [← addAttaches_addAttaches]
  generalize e.holding = x, e.capacity = y, e.load = z at *
  rw [second, first]
  simp only [addAttaches_eq]

end Cell

/-! ## One slot's part of a STATUS -/

/-- From `g` to `h` only the records of unit `u`'s slots and the cells of its sector move. -/
structure UnitCells (u : UnitId) (g h : Steering) : Prop where
  others : ∀ m, slotUnit m ≠ u → h.record m = g.record m
  elsewhere : ∀ d j, g.sectorOf u ≠ some d → h.cell d j = g.cell d j
  defs : h.defs = g.defs
  loaded : h.loaded = g.loaded
  epochTimer : h.epochTimer = g.epochTimer

theorem UnitFigures.cells (figures : UnitFigures u g h) : UnitCells u g h :=
  ⟨figures.others, figures.elsewhere, figures.defs, figures.loaded, figures.epochTimer⟩

namespace UnitCells

theorem trans (first : UnitCells u g h) (second : UnitCells u h i) : UnitCells u g i where
  others m other := (second.others m other).trans (first.others m other)
  elsewhere d j off :=
    (second.elsewhere d j (by rwa [Steering.sectorOf_congr first.defs])).trans
      (first.elsewhere d j off)
  defs := second.defs.trans first.defs
  loaded := second.loaded.trans first.loaded
  epochTimer := second.epochTimer.trans first.epochTimer

end UnitCells

namespace Steering

/-- The attaches a slot brings to a cell of its sector: those of its operator's carrier on air. -/
def slotAttaches (g : Steering) (k : Operator) (n : SlotId) (x : Figures) : Nat :=
  if (g.record n).operator = some k ∧ (g.record n).onAir.isSome = true then x.attaches else 0

theorem record_slotStatus (g : Steering) (n m : SlotId) (x : Figures) :
    (g.slotStatus n x).record m =
      if m = n then { g.record n with users := x.users } else g.record m := by
  unfold slotStatus
  simp only
  split
  · rw [record_onSlotCell, record_onRecord]
  · exact record_onRecord _ _ _ _

theorem defs_slotStatus (g : Steering) (n) (x : Figures) : (g.slotStatus n x).defs = g.defs := by
  unfold slotStatus
  simp only
  split
  · exact defs_onSlotCell _ _ _ _
  · rfl

theorem cell_slotStatus (g : Steering) (n) (x : Figures) (d : SectorId) (k : Operator) :
    (g.slotStatus n x).cell d k =
      if (g.record n).operator = some k ∧ (g.record n).onAir.isSome = true ∧
          g.sectorOf (slotUnit n) = some d then
        ({ g.cell d k with
          load := (g.cell d k).load - (g.record n).users + x.users }).addAttaches x.attaches
      else g.cell d k := by
  unfold slotStatus
  simp only
  split
  · next onAir =>
    rw [cell_onSlotCell]
    simp [onAir]
    rfl
  · next silent => simp [silent]

end Steering

theorem UnitCells.slotStatus (g : Steering) (x : Figures) (own : slotUnit n = u) :
    UnitCells u g (g.slotStatus n x) where
  others m other := by
    rw [Steering.record_slotStatus, if_neg (by rintro rfl; exact other own)]
  elsewhere d j off := by
    rw [Steering.cell_slotStatus, if_neg fun here => off (own ▸ here.2.2)]
  defs := Steering.defs_slotStatus g n x
  loaded := by
    unfold Steering.slotStatus
    simp only
    split
    · exact Steering.loaded_onSlotCell _ _ _ _
    · rfl
  epochTimer := by
    unfold Steering.slotStatus
    simp only
    split
    · exact Steering.epochTimer_onSlotCell _ _ _ _
    · rfl

theorem Steering.attached_slotStatus (g : Steering) (x : Figures) {d : SectorId} (k : Operator)
    (sector : g.sectorOf (slotUnit n) = some d) (small : (g.cell d k).accumulator ≤ 65535) :
    (g.cell d k).Attached (g.slotAttaches k n x) ((g.slotStatus n x).cell d k) := by
  rw [Steering.cell_slotStatus, Steering.slotAttaches]
  simp only [sector, and_true]
  split
  · simp only [Cell.Attached, Cell.addAttaches_eq]
  · exact (Cell.Refigured.refl _).attached small

/-! ## The four slots -/

/-- A pass of a STATUS over some slots of the unit. -/
def Steering.statusPass (u : UnitId) (figures : Bank 4 Figures) (l : List CarrierIndex)
    (g : Steering) : Steering :=
  l.foldl (fun g i => g.slotStatus (slotAt u i) (figures.get i)) g

theorem Steering.status_eq_statusPass (g : Steering) (u : UnitId) (figures : Bank 4 Figures) :
    g.status u figures = g.statusPass u figures (List.finRange 4) := rfl

theorem slotAt_inj {i j : CarrierIndex} : slotAt u i = slotAt u j ↔ i = j := by
  simp [slotAt, Fin.ext_iff]

theorem UnitCells.status (g : Steering) (figures : Bank 4 Figures) :
    UnitCells u g (g.status u figures) :=
  foldl_keeps_mem (p := UnitCells u g) (List.finRange 4)
    (fun _ i _ done => done.trans (.slotStatus _ _ (slotUnit_slotAt u i))) g
    (UnitFigures.refl u g).cells

namespace Steering

/-- Of a record a STATUS changes the user figure alone. -/
theorem airs_slotStatus (g : Steering) (n m : SlotId) (x : Figures) :
    ((g.slotStatus n x).record m).operator = (g.record m).operator ∧
      ((g.slotStatus n x).record m).onAir = (g.record m).onAir := by
  rw [record_slotStatus]
  split
  · next here => exact here ▸ ⟨rfl, rfl⟩
  · exact ⟨rfl, rfl⟩

theorem record_status (g : Steering) (u : UnitId) (figures : Bank 4 Figures) (j : CarrierIndex) :
    (g.status u figures).record (slotAt u j) =
      { g.record (slotAt u j) with users := (figures.get j).users } := by
  have pass (l : List CarrierIndex) (g : Steering) :
      (g.statusPass u figures l).record (slotAt u j) =
        if j ∈ l then { g.record (slotAt u j) with users := (figures.get j).users }
        else g.record (slotAt u j) := by
    induction l generalizing g with
    | nil => rfl
    | cons i l ih =>
      refine (ih (g.slotStatus (slotAt u i) (figures.get i))).trans ?_
      simp only [record_slotStatus, slotAt_inj]
      by_cases same : j = i
      · simp [same]
      · simp [same]
  rw [status_eq_statusPass, pass, if_pos (List.mem_finRange j)]

/-- The attaches of the operator's carriers on air join the accumulator of its cell. -/
theorem attached_status (g : Steering) (figures : Bank 4 Figures) {d : SectorId} (k : Operator)
    (sector : g.sectorOf u = some d) (small : (g.cell d k).accumulator ≤ 65535) :
    (g.cell d k).Attached
      ((List.finRange 4).map fun i => g.slotAttaches k (slotAt u i) (figures.get i)).sum
      ((g.status u figures).cell d k) := by
  have pass (l : List CarrierIndex) (g : Steering) (sector : g.sectorOf u = some d)
      (small : (g.cell d k).accumulator ≤ 65535) :
      (g.cell d k).Attached
        (l.map fun i => g.slotAttaches k (slotAt u i) (figures.get i)).sum
        ((g.statusPass u figures l).cell d k) := by
    induction l generalizing g with
    | nil => exact (Cell.Refigured.refl _).attached small
    | cons i l ih =>
      have first := g.attached_slotStatus (n := slotAt u i) (figures.get i) k
        (by rwa [slotUnit_slotAt]) small
      have rest := ih (g.slotStatus (slotAt u i) (figures.get i))
        (by rwa [sectorOf_congr (defs_slotStatus _ _ _)]) (first.accumulator_le small)
      have kept (m x) : (g.slotStatus (slotAt u i) (figures.get i)).slotAttaches k m x =
          g.slotAttaches k m x := by
        obtain ⟨operator, onAir⟩ := g.airs_slotStatus (slotAt u i) m (figures.get i)
        unfold slotAttaches
        rw [operator, onAir]
      simp only [kept] at rest
      rw [List.map_cons, List.sum_cons]
      exact first.trans rest
  rw [status_eq_statusPass]
  exact pass (List.finRange 4) g sector small

/-! ## The sums (R129, R130) -/

theorem share_le_total (g : Steering) (d k f) (n : SlotId) :
    g.share d k f n (g.record n) ≤ g.total d k f := by
  rw [total_eq_sum]
  exact Finset.single_le_sum (f := fun n => g.share d k f n (g.record n))
    (fun _ _ => Nat.zero_le _) (Finset.mem_univ n)

namespace Summed

variable {impaired : UnitId → Bool}

theorem slotStatus (sums : g.Summed impaired) (n : SlotId) (x : Figures) :
    (g.slotStatus n x).Summed impaired := by
  refine sums.moved (n := n) (defs_slotStatus g n x)
    (fun m other => by rw [record_slotStatus, if_neg other]) fun d k => ?_
  have users := g.share_le_total d k (fun _ r => r.airUsers) n
  rw [← sums.load d k] at users
  rw [cell_slotStatus, record_slotStatus, if_pos rfl]
  by_cases mine : (g.record n).operator = some k ∧ g.sectorOf (slotUnit n) = some d
  · cases onAir : (g.record n).onAir with
    | none =>
      simp [mine, Steering.moved, share, SteeringRecord.airWeight, SteeringRecord.airUsers, onAir]
    | some code =>
      simp [mine, share, SteeringRecord.airUsers, onAir] at users
      simp [mine, Steering.moved, share, SteeringRecord.airWeight, SteeringRecord.airUsers, onAir,
        Cell.addAttaches_eq]
      omega
  · have apart : ¬ ((g.record n).operator = some k ∧ (g.record n).onAir.isSome = true ∧
        g.sectorOf (slotUnit n) = some d) := fun here => mine ⟨here.1, here.2.2⟩
    rw [if_neg apart]
    simp [mine, and_comm, Steering.moved, share]

theorem status (sums : g.Summed impaired) (u : UnitId) (figures : Bank 4 Figures) :
    (g.status u figures).Summed impaired :=
  foldl_keeps (p := fun g => g.Summed impaired) (List.finRange 4)
    (fun _ i sums => sums.slotStatus (slotAt u i) (figures.get i)) g sums

end Summed

/-! ## A changed mark (R129) -/

theorem cell_reweigh (g : Steering) (v : Bool) (n : SlotId) (d : SectorId) (k : Operator) :
    (g.reweigh v n).cell d k = { g.cell d k with
      capacity := (g.cell d k).capacity
        - g.share d k (fun _ r => r.airWeight (!v)) n (g.record n)
        + g.share d k (fun _ r => r.airWeight v) n (g.record n) } := by
  unfold reweigh
  split
  · next silent => simp [share, SteeringRecord.airWeight, silent]
  · next onAir =>
    rw [cell_onSlotCell]
    by_cases mine : g.sectorOf (slotUnit n) = some d ∧ (g.record n).operator = some k
    · simp [share, SteeringRecord.airWeight, onAir, mine]
    · rw [if_neg fun here => mine here.symm]
      simp [share, mine]

theorem share_congr {f f' : SlotId → SteeringRecord → Nat} {n : SlotId} (same : f n = f' n)
    (d k r) : g.share d k f n r = g.share d k f' n r := by
  unfold share
  rw [same]

/-- Figures that differ at one slot differ by its share. -/
theorem total_differing (g : Steering) (d k) {f f' : SlotId → SteeringRecord → Nat} (n : SlotId)
    (rest : ∀ m, m ≠ n → f' m = f m) :
    g.total d k f' + g.share d k f n (g.record n) =
      g.total d k f + g.share d k f' n (g.record n) := by
  have others : ∑ m ∈ Finset.univ.erase n, g.share d k f' m (g.record m) =
      ∑ m ∈ Finset.univ.erase n, g.share d k f m (g.record m) :=
    Finset.sum_congr rfl fun m hm => share_congr (rest m (Finset.ne_of_mem_erase hm)) d k _
  rw [total_eq_sum, total_eq_sum, ← Finset.add_sum_erase _ _ (Finset.mem_univ n),
    ← Finset.add_sum_erase _ _ (Finset.mem_univ n), others]
  omega

section
variable {v : Bool} {mark : SlotId → Bool} {d : SectorId} {k : Operator}

/-- One slot's mark changes to `v`: what the capacity then sums. -/
theorem capacity_reweigh {n : SlotId} (before : mark n = !v)
    (sums : (g.cell d k).capacity = g.total d k fun m r => r.airWeight (mark m)) :
    ((g.reweigh v n).cell d k).capacity =
      (g.reweigh v n).total d k fun m r => r.airWeight (Function.update mark n v m) := by
  have record (m) : (g.reweigh v n).record m = g.record m := record_reweigh g n m v
  have defs : (g.reweigh v n).defs = g.defs := (UnitFigures.reweigh (u := slotUnit n) g v rfl).defs
  have same := total_same (f := fun m r => r.airWeight (Function.update mark n v m)) d k defs
    fun m => by rw [record]; exact ⟨rfl, rfl⟩
  have moved := g.total_differing d k (f := fun m r => r.airWeight (mark m))
    (f' := fun m r => r.airWeight (Function.update mark n v m)) n fun m other => by
      rw [Function.update_of_ne other]
  have part := g.share_le_total d k (fun m r => r.airWeight (mark m)) n
  rw [share_congr (f' := fun _ r => r.airWeight (!v)) (by rw [before]) d k] at moved part
  rw [share_congr (f := fun m r => r.airWeight (Function.update mark n v m))
    (f' := fun _ r => r.airWeight v) (by rw [Function.update_self]) d k] at moved
  rw [cell_reweigh, same]
  simp only [sums]
  omega

/-- The marks of some slots change to `v`. -/
theorem capacity_reweighs (l : List SlotId) (distinct : l.Nodup) (before : ∀ n ∈ l, mark n = !v)
    (sums : (g.cell d k).capacity = g.total d k fun n r => r.airWeight (mark n)) :
    ((l.foldl (reweigh v) g).cell d k).capacity =
      (l.foldl (reweigh v) g).total d k fun n r => r.airWeight (if n ∈ l then v else mark n) := by
  induction l generalizing g mark with
  | nil => simpa using sums
  | cons n l ih =>
    obtain ⟨new, distinct⟩ := List.nodup_cons.mp distinct
    have first := capacity_reweigh (before n List.mem_cons_self) sums
    have later (m) (hm : m ∈ l) : Function.update mark n v m = !v := by
      have other : m ≠ n := fun same => new (same ▸ hm)
      rw [Function.update_of_ne other, before m (List.mem_cons_of_mem n hm)]
    have rest := ih distinct later first
    rw [List.foldl_cons, rest]
    congr 1
    funext m r
    by_cases hm : m ∈ l
    · simp [hm]
    · simp [hm, Function.update_apply]

end

theorem Summed.impairedChanged {impaired marks : UnitId → Bool} (sums : g.Summed impaired)
    {v : Bool} (before : impaired u = !v) (after : ∀ w, marks w = if w = u then v else impaired w) :
    (g.impairedChanged u v).Summed marks := by
  have figures : UnitFigures u g (g.impairedChanged u v) := .impairedChanged g v
  have record (m) : (g.impairedChanged u v).record m = g.record m := record_impairedChanged g u m v
  have apart (d k) : ((g.impairedChanged u v).cell d k).holding = (g.cell d k).holding ∧
      ((g.impairedChanged u v).cell d k).load = (g.cell d k).load := by
    refine foldl_field (fun g : Steering => ((g.cell d k).holding, (g.cell d k).load)) (unitSlots u)
      (fun g n => ?_) g |> Prod.ext_iff.mp
    rw [cell_reweigh]
  have total (d k f) : (g.impairedChanged u v).total d k f = g.total d k f :=
    total_same d k figures.defs fun m => by rw [record]; exact ⟨rfl, rfl⟩
  refine ⟨fun d k => ?_, fun d k => ?_, fun d k => ?_⟩
  · rw [(apart d k).1, total, sums.holding]
  · refine (capacity_reweighs (mark := fun n => impaired (slotUnit n)) (unitSlots u)
      (unitSlots_nodup u) (fun n own => ?_) (sums.capacity d k)).trans ?_
    · rw [mem_unitSlots own, before]
    · simp only [mem_unitSlots_iff, after]
      rfl
  · rw [(apart d k).2, total, sums.load]

end Steering

end Sys2Proof.Machine
end

section
/-! A unit that reaches LIVE (R71, R112): its SUSPENDED slots, and its mark. -/
namespace Sys2Proof.Machine

open Sys2Proof

variable {s t : State} {u : UnitId} {n : SlotId}

/-! ## One slot (R71) -/

/-- A slot's context once its unit has reached LIVE. -/
def Context.restored (x : Context) : Context :=
  if x.state = .suspended then { x with state := .waiting } else x

/-- The TUNE a slot queues when its unit reaches LIVE. -/
def State.restoreTune (s : State) (n : SlotId) : Option Command :=
  if (s.context n).state = .suspended then
    (s.context n).requested.map fun q => .tune n q.tuning
  else none

/-- A SUSPENDED slot has a tuning to ask for, and no SCAN it must wait for. -/
def State.RestoresAtOnce (s : State) (n : SlotId) : Prop :=
  (s.context n).state = .suspended →
    (s.context n).requested.isSome = true ∧ (s.context n).orphan = false

/-- The occupancy list of a unit agrees with the contexts (R56). -/
def State.Listed (s : State) (u : UnitId) : Prop :=
  s.carriers.occupancy.get u = occupancyOf s.carriers.contexts u

theorem restoreSlot_other (other : (s.context n).state ≠ .suspended) : restoreSlot s n = s := by
  unfold restoreSlot
  simp only
  split
  · next suspended _ => exact absurd suspended other
  · rfl

theorem restoreSlot_suspended {q : Requested} (suspended : (s.context n).state = .suspended)
    (requested : (s.context n).requested = some q) :
    restoreSlot s n =
      (s.updateSlot n (s.context n).restored).queueOrDefer n (.tune n q.tuning) := by
  rw [Context.restored, if_pos suspended]
  simp only [restoreSlot, suspended, requested]

/-- A command of a slot that is no orphan is queued: the context stays. -/
theorem SlotChanged.queued {c : Context} {o : Option Operator} (changed : SlotChanged n c o s t)
    (orphan : c.orphan = false) (x : Command) : SlotChanged n c o s (t.queueOrDefer n x) := by
  have here : t.context n = c := changed.1
  unfold State.queueOrDefer
  rw [here, if_neg (by simp [orphan])]
  exact changed.onLink _ _

theorem restoreSlot_steering (s : State) (n : SlotId) :
    (restoreSlot s n).steering = s.steering := by
  unfold restoreSlot
  simp only
  split
  · rw [State.queueOrDefer_steering, State.updateSlot_steering]
  · rfl

theorem OtherLinksStay.restoreSlot (s : State) (n : SlotId) :
    OtherLinksStay (slotUnit n) s (restoreSlot s n) := by
  unfold Machine.restoreSlot
  simp only
  split
  · exact (OtherLinksStay.of_links (State.updateSlot_links s n _)).trans (.queueOrDefer _ _ _)
  · exact .of_links rfl

/-- The slots of the list, all on unit `u`, have been restored; nothing else of Carrier Control
differs, and each SUSPENDED one has queued its TUNE. -/
structure SlotsRestored (u : UnitId) (l : List SlotId) (s t : State) : Prop where
  context : ∀ m, t.context m = if m ∈ l then (s.context m).restored else s.context m
  occupancy : ∀ v, t.carriers.occupancy.get v =
    if v = u then occupancyOf t.carriers.contexts u else s.carriers.occupancy.get v
  changed : ∀ (k : Operator) (m : SlotId), (t.carriers.changed.get k).getLsbD m.val =
    ((s.carriers.changed.get k).getLsbD m.val ||
      decide (m ∈ l ∧ (s.context m).told (s.context m).restored = some k))
  link : t.link u = { s.link u with queue := (s.link u).queue ++ l.filterMap s.restoreTune }

theorem SlotsRestored.none (listed : s.Listed u) : SlotsRestored u [] s s where
  context _ := by simp
  occupancy v := by
    split
    · next here => rw [here, listed]
    · rfl
  changed _ _ := by simp
  link := by simp

theorem SlotsRestored.restoreSlot (own : slotUnit n = u) (listed : s.Listed u)
    (ready : s.RestoresAtOnce n) : SlotsRestored u [n] s (restoreSlot s n) := by
  by_cases suspended : (s.context n).state = .suspended
  case neg =>
    have same : (s.context n).restored = s.context n := if_neg suspended
    have nobody : (s.context n).told (s.context n) = Option.none := if_pos ⟨rfl, rfl⟩
    obtain ⟨context, occupancy, changed, link⟩ := none listed
    rw [restoreSlot_other suspended]
    refine ⟨fun m => ?_, occupancy, fun k m => ?_, ?_⟩
    · by_cases here : m = n
      · simp [here, same]
      · simp [here]
    · by_cases here : m = n
      · simp [here, same, nobody]
      · simp [here]
    · simp [State.restoreTune, suspended]
  case pos =>
    obtain ⟨requested, orphan⟩ := ready suspended
    obtain ⟨q, requested⟩ := Option.isSome_iff_exists.mp requested
    have unorphaned : (s.context n).restored.orphan = false := by
      rw [Context.restored, if_pos suspended]
      exact orphan
    obtain ⟨here, others, lists, sets⟩ :=
      (SlotChanged.updateSlot s n (s.context n).restored).queued unorphaned (.tune n q.tuning)
    rw [restoreSlot_suspended suspended requested]
    refine ⟨fun m => ?_, fun v => ?_, fun k m => ?_, ?_⟩
    · by_cases same : m = n
      · rw [same, here, if_pos List.mem_cons_self]
      · rw [others m same, if_neg (by simpa using same)]
    · rw [lists, own]
      split
      · next same => rw [same]
      · rfl
    · rw [sets]
      by_cases same : m = n
      · simp [same]
      · simp [same]
    · subst own
      rw [State.link_queueOrDefer, State.context_updateSlot, State.link_updateSlot]
      simp [State.restoreTune, suspended, requested, unorphaned]

/-! ## The four slots -/

theorem SlotsRestored.foldl (l : List SlotId) (own : ∀ n ∈ l, slotUnit n = u) (distinct : l.Nodup)
    (listed : s.Listed u) (ready : ∀ n ∈ l, s.RestoresAtOnce n) :
    SlotsRestored u l s (l.foldl Machine.restoreSlot s) := by
  induction l generalizing s with
  | nil => exact none listed
  | cons n l ih =>
    obtain ⟨new, distinct⟩ := List.nodup_cons.mp distinct
    obtain ⟨context, occupancy, changed, link⟩ :=
      SlotsRestored.restoreSlot (own n List.mem_cons_self) listed (ready n List.mem_cons_self)
    have later {m} (hm : m ∈ l) : (Machine.restoreSlot s n).context m = s.context m := by
      have other : m ≠ n := fun same => new (same ▸ hm)
      rw [context, if_neg (by simpa using other)]
    have listed' : (Machine.restoreSlot s n).Listed u := (occupancy u).trans (if_pos rfl)
    have ready' (m) (hm : m ∈ l) : (Machine.restoreSlot s n).RestoresAtOnce m := by
      unfold State.RestoresAtOnce
      rw [later hm]
      exact ready m (List.mem_cons_of_mem n hm)
    obtain ⟨context', occupancy', changed', link'⟩ :=
      ih (fun m hm => own m (List.mem_cons_of_mem n hm)) distinct listed' ready'
    rw [List.foldl_cons]
    refine ⟨fun m => ?_, fun v => ?_, fun k m => ?_, ?_⟩
    · rw [context']
      by_cases hm : m ∈ l
      · simp [hm, later hm]
      · simp [hm, context m]
    · rw [occupancy', occupancy]
      split <;> rfl
    · rw [changed', changed, Bool.or_assoc]
      congr 1
      by_cases hm : m ∈ l
      · have other : m ≠ n := fun same => new (same ▸ hm)
        simp [hm, later hm, other]
      · simp [hm]
    · have tunes : l.filterMap (Machine.restoreSlot s n).restoreTune = l.filterMap s.restoreTune :=
        List.filterMap_congr fun m hm => by
          unfold State.restoreTune
          rw [later hm]
      rw [link', link, tunes, List.append_assoc, ← List.filterMap_append]
      rfl

/-- The four slots of a unit that reaches LIVE. -/
theorem UnitSlotsChanged.unitReachedLive (listed : s.Listed u)
    (ready : ∀ m, slotUnit m = u → s.RestoresAtOnce m) :
    UnitSlotsChanged u Context.restored s (unitReachedLive s u) ∧
      (unitReachedLive s u).link u = { s.link u with
        queue := (s.link u).queue ++
          (List.finRange 4).filterMap fun i => s.restoreTune (slotAt u i) } := by
  obtain ⟨context, occupancy, changed, link⟩ := SlotsRestored.foldl (unitSlots u)
    (fun _ => mem_unitSlots) (unitSlots_nodup u) listed fun m own => ready m (mem_unitSlots own)
  simp only [mem_unitSlots_iff] at context changed
  refine ⟨⟨context, occupancy, fun k m => (changed k m).trans ?_⟩, link⟩
  by_cases mine : slotUnit m = u
  · have := context m
    rw [if_pos mine] at this
    rw [show (Machine.unitReachedLive s u).context m = _ from this]
  · simp [mine]

theorem unitReachedLive_steering (s : State) (u : UnitId) :
    (unitReachedLive s u).steering = s.steering :=
  foldl_field State.steering _ restoreSlot_steering s

theorem UnitEvent.unitReachedLive (s : State) (u : UnitId) : UnitEvent u s (unitReachedLive s u) :=
  ⟨(CarrierFrame.unitReachedLive s u).unitFrame,
    foldl_keeps_mem (p := OtherLinksStay u s) (unitSlots u)
      (fun t n own done => done.trans (mem_unitSlots own ▸ .restoreSlot t n)) s (.of_links rfl),
    fun m _ => unitReachedLive_unit s u m⟩

/-! ## The mark (R119, R129) -/

theorem UnitEvent.setImpaired (u : UnitId) (v : Bool) (s : State) :
    UnitEvent u s (setImpaired u v s) :=
  ⟨.setImpaired u v s, .of_links (setImpaired_links u v s), fun m other => by
    rw [setImpaired_unit, if_neg other]⟩

/-- The figures of a unit whose mark alone changes. -/
theorem setImpaired_figures (u : UnitId) (v : Bool) (s : State) :
    UnitFigures u s.steering (setImpaired u v s).steering ∧
      (∀ m, (setImpaired u v s).steering.record m = s.steering.record m) ∧
      (s.steering.Summed (fun w => (s.unit w).impaired) →
        (setImpaired u v s).steering.Summed fun w => ((setImpaired u v s).unit w).impaired) := by
  have marks (w) : ((setImpaired u v s).unit w).impaired =
      if w = u then v else (s.unit w).impaired := by
    rw [setImpaired_unit]
    split <;> rfl
  have steering := setImpaired_steering u v s
  by_cases same : (s.unit u).impaired = v
  · rw [if_pos same] at steering
    have kept (w) : ((setImpaired u v s).unit w).impaired = (s.unit w).impaired := by
      rw [marks]
      split
      · next here => rw [here, same]
      · rfl
    rw [steering]
    exact ⟨.refl u _, fun _ => rfl, fun sums => by simpa only [kept] using sums⟩
  · rw [if_neg same] at steering
    rw [steering]
    exact ⟨.impairedChanged _ _, fun m => Steering.record_impairedChanged _ u m v,
      fun sums => sums.impairedChanged (Bool.eq_not_of_ne same) marks⟩

end Sys2Proof.Machine
end

section
/-! A STATUS that is taken, at its unit (R112 to R115): what becomes of the unit in each of its
states, and which conditions change. -/
namespace Sys2Proof.Machine

open Sys2Proof

variable {s t q : State} {n : UnitId} {alarms : BitVec 4} {figures : Bank 4 Figures}
  {u new : UnitRecord}

/-! ## The decision and its changes of condition -/

/-- The record of a PROBING unit with its STATUS taken (R112, steps 1 to 3). -/
def UnitRecord.probed (t : Site) (alarms : BitVec 4) (figures : Bank 4 Figures) (u : UnitRecord) :
    UnitRecord :=
  { u with silent := false }.takeStatus t alarms figures

/-- A STATUS at its unit, before its reports and the Steering Engine's figures. -/
def statusDecided (n : UnitId) (alarms : BitVec 4) (figures : Bank 4 Figures) (s : State) : State :=
  match (s.unit n).state with
  | .probing =>
    probingDecision n alarms (s.onUnit n (UnitRecord.probed s.site alarms figures))
  | .live =>
    if failureTrip (s.unit n) ((s.unit n).takeStatus s.site alarms figures) then
      enterDown n (s.onUnit n (UnitRecord.takeStatus s.site alarms figures))
    else decideImpaired n (s.onUnit n (UnitRecord.takeStatus s.site alarms figures))
  | _ => s

/-- The changes of condition that a STATUS makes. -/
def UnitRecord.statusChanges (t : Site) (alarms : BitVec 4) (figures : Bank 4 Figures)
    (u : UnitRecord) : List ConditionChange :=
  match u.state with
  | .probing =>
    filterChanges alarms u (u.takeStatus t alarms figures) ++ silentChange u.silent false
  | .live => filterChanges alarms u (u.takeStatus t alarms figures)
  | _ => []

/-- The reports of a unit touch the Fault Reporter alone, so the Steering Engine's part may come
first. -/
theorem reportChanges_onSteering (n : UnitId) (l : List ConditionChange) (f : Steering → Steering)
    (s : State) : (reportChanges n l s).onSteering f = reportChanges n l (s.onSteering f) := by
  unfold reportChanges
  induction l generalizing s with
  | nil => rfl
  | cons c l ih => exact ih _

theorem takeStatus_eq (n : UnitId) (alarms : BitVec 4) (figures : Bank 4 Figures) (s : State) :
    takeStatus n alarms figures s =
      reportChanges n ((s.unit n).statusChanges s.site alarms figures)
        ((statusDecided n alarms figures s).onSteering (Steering.status n figures)) := by
  rw [← reportChanges_onSteering]
  unfold takeStatus statusDecided UnitRecord.statusChanges
  cases (s.unit n).state <;> rfl

theorem statusReply_row {c : Samples}
    (taken : (s.link n).completion c = some (.taken (.status alarms figures))) :
    exec (.statusReply n c) s =
      .next (close (decideStandings s.steering
        (takeStatus n alarms figures (s.onLink n Link.replyTaken)))) := by
  show execStatusReply n c s = _
  unfold execStatusReply
  rw [taken]
  rfl

theorem UnitRecord.statusChanges_report (t : Site) (alarms : BitVec 4) (figures : Bank 4 Figures)
    (u : UnitRecord) (n : UnitId) :
    (u.statusChanges t alarms figures).map (ConditionChange.report n) =
      (if u.state = .probing ∨ u.state = .live then
        (List.finRange 4).filterMap (Alarm.change n alarms u (u.takeStatus t alarms figures))
      else []) ++
      if u.state = .probing ∧ u.silent = true then [⟨.unit n 4, false, none⟩] else [] := by
  unfold statusChanges
  cases state : u.state
  case probing => simp [filterChanges_report, silentChange_ended]
  case live => simp [filterChanges_report]
  all_goals simp

theorem UnitRecord.statusChanges_nodup (t : Site) (alarms : BitVec 4) (figures : Bank 4 Figures)
    (u : UnitRecord) : ((u.statusChanges t alarms figures).map ConditionChange.kind).Nodup := by
  have all := unitChanges_nodup alarms u (u.takeStatus t alarms figures) u.silent false false false
  rw [show garbledChange false false = [] from rfl, List.append_nil] at all
  unfold statusChanges
  split
  · exact all
  · rw [List.map_append] at all
    exact (List.nodup_append.mp all).1
  · exact List.nodup_nil

theorem UnitRecord.afterStatus_takeStatus (t : Site) (alarms : BitVec 4) (figures : Bank 4 Figures)
    (u : UnitRecord) : u.AfterStatus t alarms figures (u.takeStatus t alarms figures) := by
  refine ⟨rfl, rfl, rfl, fun a => ?_⟩
  rw [show (u.takeStatus t alarms figures).filters.get a = _ from Bank.get_tabulate _ a]
  rfl

theorem rawFailure_iff :
    rawFailure alarms = true ↔ alarms.getLsbD 0 = true ∨ alarms.getLsbD 1 = true :=
  Bool.or_eq_true_iff

/-- SUPPLY and AMPLIFIER are the first two alarms. -/
theorem Alarm.failure_iff {a : Alarm} : a.val < 2 ↔ a = 0 ∨ a = 1 := by
  simp only [Fin.ext_iff, Fin.val_zero, Fin.val_one]
  omega

theorem failureTrip_iff : failureTrip u new = true ↔
    ∃ a : Fin 4, a.val < 2 ∧ (u.filters.get a).present = false ∧
      (new.filters.get a).present = true := by
  unfold failureTrip UnitRecord.condition
  simp only [Bool.or_eq_true, Bool.and_eq_true, Bool.not_eq_true']
  constructor
  · rintro (supply | amplifier)
    · exact ⟨0, by decide, supply⟩
    · exact ⟨1, by decide, amplifier⟩
  · rintro ⟨a, low, tripped⟩
    rcases Alarm.failure_iff.mp low with rfl | rfl
    · exact .inl tripped
    · exact .inr tripped

theorem Quiet.statusDecided (n alarms figures) (s : State) :
    Quiet s (statusDecided n alarms figures s) := by
  unfold Machine.statusDecided
  split
  · exact (onUnit s n _).trans (probingDecision n alarms _)
  · split
    · exact (onUnit s n _).trans (enterDown n _)
    · exact (onUnit s n _).trans (setImpaired n _ _)
  · exact refl s

theorem UnitEvent.goLive (n) (s : State) : UnitEvent n s (goLive n s) :=
  ((onUnit s n _).trans (unitReachedLive _ n)).trans (setImpaired n _ _)

theorem UnitEvent.probingDecision (n alarms) (s : State) :
    UnitEvent n s (probingDecision n alarms s) := by
  unfold Machine.probingDecision
  split
  · exact takenOut n _ s
  · split
    · exact goLive n s
    · exact refl n s

theorem UnitEvent.statusDecided (n alarms figures) (s : State) :
    UnitEvent n s (statusDecided n alarms figures s) := by
  unfold Machine.statusDecided
  split
  · exact (onUnit s n _).trans (probingDecision n alarms _)
  · split
    · exact (onUnit s n _).trans (takenOut n _ _)
    · exact (onUnit s n _).trans (setImpaired n _ _)
  · exact refl n s

theorem UnitEvent.onSteering (n) (s : State) (f) : UnitEvent n s (s.onSteering f) :=
  ⟨.onSteering s f, .of_links rfl, fun _ _ => rfl⟩

/-! ## The figures of a unit that is not lost (R129) -/

/-- From `s` to `q` no steering record differs, only the figures of the cells of unit `n`'s sector
move, and they stay the sums. -/
structure FiguresKept (n : UnitId) (s q : State) : Prop where
  figures : UnitFigures n s.steering q.steering
  record : ∀ m, q.steering.record m = s.steering.record m
  summed : s.SteeringInv → q.steering.Summed fun v => (q.unit v).impaired

theorem State.SteeringInv.summed (inv : s.SteeringInv) {marks : UnitId → Bool}
    (same : ∀ m, marks m = (s.unit m).impaired) : s.steering.Summed marks := by
  rw [show marks = _ from funext same]
  exact (Steering.summed_iff s).mpr inv.2

theorem FiguresKept.of_same (steering : q.steering = s.steering)
    (marks : ∀ m, (q.unit m).impaired = (s.unit m).impaired) : FiguresKept n s q := by
  refine ⟨steering ▸ .refl n _, fun m => by rw [steering], fun inv => ?_⟩
  rw [steering]
  exact inv.summed marks

theorem FiguresKept.setImpaired (v : Bool) (steering : q.steering = s.steering)
    (marks : ∀ m, (q.unit m).impaired = (s.unit m).impaired) :
    FiguresKept n s (setImpaired n v q) := by
  obtain ⟨figures, record, summed⟩ := setImpaired_figures n v q
  rw [steering] at figures record summed
  exact ⟨figures, record, fun inv => summed (inv.summed marks)⟩

/-- A change of one record that keeps its mark keeps every mark. -/
theorem marks_onUnit (s : State) (n : UnitId) (f : UnitRecord → UnitRecord)
    (keepsMark : ∀ r, (f r).impaired = r.impaired) (m : UnitId) :
    ((s.onUnit n f).unit m).impaired = (s.unit m).impaired := by
  rw [State.unit_onUnit]
  split
  · next here => rw [keepsMark, here]
  · rfl

/-! ## The unit, by its state (R112, R115) -/

theorem UnitRecord.goDown_afterDown (t : Site) (r : UnitRecord) :
    r.goDown t = { r.afterDown t with impaired := r.impaired } := by
  unfold goDown afterDown
  by_cases attempt : t.attemptLimit = 0 ∨ r.attempts < t.attemptLimit
  · simp only [if_pos attempt]
  · simp only [if_neg attempt]

section
variable (probing : (s.unit n).state = .probing)
include probing

theorem statusDecided_probing (alarms figures) : statusDecided n alarms figures s =
    probingDecision n alarms (s.onUnit n (UnitRecord.probed s.site alarms figures)) := by
  unfold statusDecided
  rw [probing]

/-- A PROBING unit with SUPPLY or AMPLIFIER raw goes DOWN. -/
theorem statusDecided_failing (figures) (failing : rawFailure alarms = true) :
    let q := statusDecided n alarms figures s
    q.unit n = { ((s.unit n).probed s.site alarms figures).afterDown s.site with
        impaired := (s.unit n).impaired } ∧
      q.link n = (s.link n).afterUnitLoss ∧ q.carriers = s.carriers ∧ FiguresKept n s q := by
  intro q
  let r := s.onUnit n (UnitRecord.probed s.site alarms figures)
  have down : q = takenOut n (UnitRecord.goDown s.site) r := by
    rw [show q = _ from statusDecided_probing probing alarms figures, probingDecision,
      if_pos failing]
    exact enterDown_eq n r
  have noted : r.unit n = (s.unit n).probed s.site alarms figures := State.unit_onUnit_self s n _
  have state : (r.unit n).state = .probing := noted ▸ probing
  have unit : q.unit n = { ((s.unit n).probed s.site alarms figures).afterDown s.site with
      impaired := (s.unit n).impaired } := by
    rw [down, takenOut_unit, UnitRecord.goDown_afterDown, state, noted]
    simp [UnitRecord.afterDown, UnitRecord.probed, UnitRecord.takeStatus]
  obtain ⟨carriers, steering⟩ := takenOut_untouched (s := r) (UnitRecord.goDown s.site)
    (by rw [state]; decide)
  refine ⟨unit, ?_, ?_, .of_same ?_ fun m => ?_⟩
  · rw [down]; exact takenOut_link n _ r
  · rw [down]; exact carriers
  · rw [down]; exact steering
  · by_cases here : m = n
    · rw [here, unit]
    · rw [(UnitEvent.statusDecided n alarms figures s).units m here]

/-- A clean PROBING unit goes LIVE. -/
theorem statusDecided_clean (figures) (sound : rawFailure alarms = false)
    (clean : ∀ a : Alarm, a.val < 2 →
      (((s.unit n).probed s.site alarms figures).filters.get a).present = false) :
    let new := (s.unit n).probed s.site alarms figures
    let q := statusDecided n alarms figures s
    q.unit n = { new with
        state := .live, attempts := 0
        impaired := (new.filters.get 2).present || (new.filters.get 3).present } ∧
      FiguresKept n s q ∧
      (s.Listed n → (∀ m, slotUnit m = n → s.RestoresAtOnce m) →
        UnitSlotsChanged n Context.restored s q ∧
          q.link n = { s.link n with
            queue := (s.link n).queue ++
              (List.finRange 4).filterMap fun i => s.restoreTune (slotAt n i) }) := by
  intro new q
  let r := s.onUnit n (UnitRecord.probed s.site alarms figures)
  let v := r.onUnit n fun u => { u with state := .live, attempts := 0 }
  let w := unitReachedLive v n
  have noted : r.unit n = new := State.unit_onUnit_self s n _
  have live : v.unit n = { new with state := .live, attempts := 0 } := by
    rw [← noted]
    exact State.unit_onUnit_self r n _
  have reached : w.unit n = v.unit n := unitReachedLive_unit v n n
  have decided : q = setImpaired n (w.unit n).shouldImpair w := by
    rw [show q = _ from statusDecided_probing probing alarms figures, probingDecision,
      if_neg (by simp [sound]), noted, if_pos ⟨clean 0 (by decide), clean 1 (by decide), rfl⟩]
    rfl
  have mark : (w.unit n).shouldImpair =
      ((new.filters.get 2).present || (new.filters.get 3).present) := by
    rw [reached, live]
    rfl
  have marksNoted (m) : (r.unit m).impaired = (s.unit m).impaired :=
    marks_onUnit s n _ (fun _ => by rfl) m
  have marksLive (m) : (v.unit m).impaired = (r.unit m).impaired :=
    marks_onUnit r n _ (fun _ => by rfl) m
  have marks (m) : (w.unit m).impaired = (s.unit m).impaired := by
    rw [unitReachedLive_unit, marksLive, marksNoted]
  refine ⟨?_, ?_, fun listed ready => ?_⟩
  · rw [decided, setImpaired_unit, if_pos rfl, mark, reached, live]
  · rw [decided]
    exact .setImpaired _ (unitReachedLive_steering v n) marks
  · obtain ⟨slots, link⟩ := UnitSlotsChanged.unitReachedLive (s := v) listed ready
    rw [decided]
    refine ⟨slots.of_carriers rfl (setImpaired_carriers n _ w), ?_⟩
    rw [State.link, setImpaired_links]
    exact link

/-- Another PROBING unit stays so. -/
theorem statusDecided_stays (figures) (sound : rawFailure alarms = false)
    (failed : ∃ a : Alarm, a.val < 2 ∧
      (((s.unit n).probed s.site alarms figures).filters.get a).present = true) :
    let q := statusDecided n alarms figures s
    q.unit n = (s.unit n).probed s.site alarms figures ∧ q.link n = s.link n ∧
      q.carriers = s.carriers ∧ FiguresKept n s q := by
  intro q
  let r := s.onUnit n (UnitRecord.probed s.site alarms figures)
  have noted : r.unit n = (s.unit n).probed s.site alarms figures := State.unit_onUnit_self s n _
  have same : q = r := by
    rw [show q = _ from statusDecided_probing probing alarms figures, probingDecision,
      if_neg (by simp [sound]), if_neg]
    rw [noted]
    rintro ⟨supply, amplifier, -⟩
    obtain ⟨a, low, failed⟩ := failed
    rcases Alarm.failure_iff.mp low with rfl | rfl
    · exact Bool.eq_false_iff.mp supply failed
    · exact Bool.eq_false_iff.mp amplifier failed
  rw [same]
  exact ⟨noted, rfl, rfl, .of_same rfl (marks_onUnit s n _ fun _ => rfl)⟩

end

section
variable (live : (s.unit n).state = .live)
include live

/-- A LIVE unit at which SUPPLY or AMPLIFIER trips goes DOWN. -/
theorem statusDecided_tripped (figures)
    (trip : failureTrip (s.unit n) ((s.unit n).takeStatus s.site alarms figures) = true) :
    let q := statusDecided n alarms figures s
    LiveLost n s q ∧ q.link n = (s.link n).afterUnitLoss ∧
      q.unit n = ((s.unit n).takeStatus s.site alarms figures).afterDown s.site := by
  intro q
  let r := s.onUnit n (UnitRecord.takeStatus s.site alarms figures)
  have noted : r.unit n = (s.unit n).takeStatus s.site alarms figures :=
    State.unit_onUnit_self s n _
  have state : (r.unit n).state = .live := noted ▸ live
  have down : q = enterDown n r := by
    show statusDecided n alarms figures s = _
    unfold statusDecided
    rw [live]
    exact if_pos trip
  have marks (m) : (r.unit m).impaired = (s.unit m).impaired :=
    marks_onUnit s n _ (fun _ => by rfl) m
  rw [down]
  exact ⟨(LiveLost.enterDown state).of_parts rfl rfl (fun m => (marks m).symm) rfl rfl
    fun _ => rfl, enterDown_link state, noted ▸ enterDown_unit state⟩

/-- Another LIVE unit stays so, and its mark is decided. -/
theorem statusDecided_marked (figures)
    (sound : failureTrip (s.unit n) ((s.unit n).takeStatus s.site alarms figures) = false) :
    let new := (s.unit n).takeStatus s.site alarms figures
    let q := statusDecided n alarms figures s
    q.unit n = { new with
        impaired := (new.filters.get 2).present || (new.filters.get 3).present } ∧
      q.link n = s.link n ∧ q.carriers = s.carriers ∧ FiguresKept n s q := by
  intro new q
  let r := s.onUnit n (UnitRecord.takeStatus s.site alarms figures)
  have noted : r.unit n = new := State.unit_onUnit_self s n _
  have decided : q = setImpaired n (r.unit n).shouldImpair r := by
    show statusDecided n alarms figures s = _
    unfold statusDecided
    rw [live]
    exact if_neg (by simp [sound])
  have mark : (r.unit n).shouldImpair =
      ((new.filters.get 2).present || (new.filters.get 3).present) := by
    have state : new.state = .live := live
    rw [noted, UnitRecord.shouldImpair, state]
    rfl
  rw [decided]
  refine ⟨?_, ?_, setImpaired_carriers n _ r, .setImpaired _ rfl (marks_onUnit s n _ fun _ => rfl)⟩
  · rw [setImpaired_unit, if_pos rfl, mark, noted]
  · rw [State.link, setImpaired_links]
    rfl

end

/-- The unit in another state stays as it is (log 27). -/
theorem statusDecided_other (alarms figures) (live : (s.unit n).state ≠ .live)
    (probing : (s.unit n).state ≠ .probing) : statusDecided n alarms figures s = s := by
  unfold statusDecided
  split
  · next h => exact absurd h probing
  · next h => exact absurd h live
  · rfl

end Sys2Proof.Machine
end

section
/-! A STATUS that is taken, to the end of its event (O46). -/
namespace Sys2Proof.Machine

open Sys2Proof

variable {s t e q : State} {n u : UnitId} {alarms : BitVec 4} {figures : Bank 4 Figures}

/-! ## Sums over what an operator holds, at the end of the event -/

theorem Steering.held_congr {g h : Steering} (defs : h.defs = g.defs)
    (operators : ∀ m, (h.record m).operator = (g.record m).operator) (d k) :
    h.held d k = g.held d k := by
  unfold Steering.held
  simp only [Steering.sectorOf_congr defs, operators]

theorem State.slotWeight_congr (units : t.units = s.units)
    (records : ∀ m, t.steering.record m = s.steering.record m) : t.slotWeight = s.slotWeight := by
  funext m
  unfold State.slotWeight State.unit
  rw [records, units]

theorem State.slotUsers_congr (records : ∀ m, t.steering.record m = s.steering.record m) :
    t.slotUsers = s.slotUsers := by
  funext m
  unfold State.slotUsers
  rw [records]

/-- The records and the other units' figures, once the standings have been decided. -/
theorem UnitCells.settled (cells : UnitCells n s.steering e.steering)
    (after : t.steering = (decideStandings s.steering e).steering) : OnlyUnitFigures n s t := by
  obtain ⟨records, defs, loaded, epochTimer, -⟩ := decideStandings_rest s.steering e
  unfold OnlyUnitFigures Steering.record
  rw [after]
  refine ⟨fun m other => ?_, fun d j elsewhere => ?_, defs.trans cells.defs,
    loaded.trans cells.loaded, epochTimer.trans cells.epochTimer⟩
  · rw [records]
    exact cells.others m other
  · rw [decideStandings_cell, cells.elsewhere d j elsewhere]
    exact if_pos ⟨rfl, rfl⟩

/-! ## The end of a unit's event, and of a STATUS (R130, R132) -/

section
variable (n : UnitId) (changes : List ConditionChange) (s x : State)

theorem reportedEnd_steering : (reportedEnd n changes s x).steering =
    (decideStandings s.steering (reportChanges n changes x)).steering :=
  close_steering _

theorem reportedEnd_carriers : (reportedEnd n changes s x).carriers = x.carriers :=
  (close_settled s.steering _).2.1.trans (reportChanges_carriers n changes x)

theorem reportedEnd_units : (reportedEnd n changes s x).units = x.units :=
  (close_settled s.steering _).2.2.2.1.trans (reportChanges_units n changes x)

theorem reportedEnd_record (m : SlotId) :
    (reportedEnd n changes s x).steering.record m = x.steering.record m := by
  unfold Steering.record
  rw [reportedEnd_steering, (decideStandings_rest _ _).1, reportChanges_steering]

theorem reportedEnd_defs : (reportedEnd n changes s x).steering.defs = x.steering.defs := by
  rw [reportedEnd_steering, (decideStandings_rest _ _).2.1, reportChanges_steering]

theorem reportedEnd_cell (d : SectorId) (k : Operator) :
    (reportedEnd n changes s x).steering.cell d k =
      (s.steering.cell d k).decided (x.steering.cell d k) := by
  rw [reportedEnd_steering, decideStandings_cell, reportChanges_steering]

end

section
variable {x : State} (changes : List ConditionChange)

theorem reportedEnd_onlyUnit (cells : UnitCells n s.steering x.steering) :
    OnlyUnitFigures n s (reportedEnd n changes s x) :=
  UnitCells.settled ((reportChanges_steering n changes x).symm ▸ cells)
    (reportedEnd_steering n changes s x)

/-- A cell whose figures have stayed the sums and which attaches have joined: its standing is
decided. -/
theorem reportedEnd_decided (sums : x.steering.Summed fun v => (x.unit v).impaired) {d : SectorId}
    {k : Operator} {a : Nat} (attached : (s.steering.cell d k).Attached a (x.steering.cell d k)) :
    let t := reportedEnd n changes s x
    let held := t.steering.held d k
    t.steering.cell d k = (s.steering.cell d k).decided
      (({ s.steering.cell d k with
        holding := held.length
        capacity := (held.map t.slotWeight).sum
        load := (held.map t.slotUsers).sum } : Cell).addAttaches a) := by
  intro t held
  have records (m) : t.steering.record m = x.steering.record m := reportedEnd_record n changes s x m
  have heldSame : held = x.steering.held d k :=
    Steering.held_congr (reportedEnd_defs n changes s x)
      (fun m => congrArg SteeringRecord.operator (records m)) d k
  have weights : t.slotWeight = x.slotWeight :=
    State.slotWeight_congr (reportedEnd_units n changes s x) records
  have users : t.slotUsers = x.slotUsers := State.slotUsers_congr records
  obtain ⟨holding, capacity, load⟩ := (Steering.summed_iff x).mp sums d k
  rw [show t.steering.cell d k = _ from reportedEnd_cell n changes s x d k, heldSame, weights,
    users, ← holding, ← capacity, ← load]
  exact congrArg _ attached

end

/-- The Steering Engine takes the figures of a STATUS. -/
theorem steering_status (n : UnitId) (figures : Bank 4 Figures) (q : State) :
    (q.onSteering (Steering.status n figures)).steering = q.steering.status n figures :=
  State.onSteering_steering q _

theorem Steering.Summed.statusTaken (sums : q.steering.Summed fun v => (q.unit v).impaired)
    (n : UnitId) (figures : Bank 4 Figures) :
    (q.onSteering (Steering.status n figures)).steering.Summed
      fun v => ((q.onSteering (Steering.status n figures)).unit v).impaired :=
  sums.status n figures

section
variable (moved : UnitFigures n s.steering q.steering)
include moved

theorem UnitFigures.status_cells :
    UnitCells n s.steering (q.onSteering (Steering.status n figures)).steering := by
  rw [steering_status]
  exact moved.cells.trans (.status _ figures)

/-- The attaches join the accumulators of the unit's sector. -/
theorem UnitFigures.status_attached {d : SectorId} (k : Operator)
    (sector : s.steering.sectorOf n = some d) (small : (s.steering.cell d k).accumulator ≤ 65535) :
    (s.steering.cell d k).Attached
      ((List.finRange 4).map fun i =>
        q.steering.slotAttaches k (slotAt n i) (figures.get i)).sum
      ((q.onSteering (Steering.status n figures)).steering.cell d k) := by
  have refigured := (moved.refigured d k).attached small
  have attached := refigured.trans (q.steering.attached_status (u := n) figures k
    ((Steering.sectorOf_congr moved.defs n).trans sector) (refigured.accumulator_le small))
  rwa [Nat.zero_add, ← steering_status] at attached

end

/-! ## Whether the unit is lost -/

/-- A STATUS either takes a LIVE unit DOWN, or leaves the records and the sums as they are. -/
theorem statusDecided_cases (n : UnitId) (alarms : BitVec 4) (figures : Bank 4 Figures)
    (s : State) :
    let q := statusDecided n alarms figures s
    ((s.unit n).state = .live ∧ (q.unit n).state = .down) ∧ LiveLost n s q ∨
      ¬ ((s.unit n).state = .live ∧ (q.unit n).state = .down) ∧ FiguresKept n s q := by
  intro q
  by_cases live : (s.unit n).state = .live
  · cases trip : failureTrip (s.unit n) ((s.unit n).takeStatus s.site alarms figures)
    · obtain ⟨unit, -, -, kept⟩ := statusDecided_marked live figures trip
      refine .inr ⟨fun down => ?_, kept⟩
      have stays : (q.unit n).state = .live := (congrArg UnitRecord.state unit).trans live
      rw [stays] at down
      cases down.2
    · obtain ⟨lost, -, unit⟩ := statusDecided_tripped live figures trip
      exact .inl ⟨⟨live, congrArg UnitRecord.state unit⟩, lost⟩
  refine .inr ⟨fun down => live down.1, ?_⟩
  by_cases probing : (s.unit n).state = .probing
  · cases failing : rawFailure alarms
    · by_cases failed : ∃ a : Alarm, a.val < 2 ∧
          (((s.unit n).probed s.site alarms figures).filters.get a).present = true
      · exact (statusDecided_stays probing figures failing failed).2.2.2
      · refine (statusDecided_clean probing figures failing fun a low => ?_).2.1
        exact Bool.eq_false_iff.mpr fun present => failed ⟨a, low, present⟩
    · exact (statusDecided_failing probing figures failing).2.2.2
  · rw [show q = s from statusDecided_other alarms figures live probing]
    exact .of_same rfl fun _ => rfl

/-- Settles O46: a STATUS decides its unit by the unit's state, and the Steering Engine then takes
the figures of the unit's slots as they have become. -/
theorem statusDecidesTheUnit : Obligations.StatusDecidesTheUnit := by
  intro s n c alarms figures mode taken u done failing watched
  let p := s.onLink n Link.replyTaken
  let new := u.takeStatus s.site alarms figures
  let changes := u.statusChanges s.site alarms figures
  let q := statusDecided n alarms figures p
  let x := q.onSteering (Steering.status n figures)
  let t := reportedEnd n changes s x
  have link : p.link n = done := State.link_onLink_self s n _
  have meaning : exec (.statusReply n c) s = .next t := by
    rw [statusReply_row taken, takeStatus_eq]
    rfl
  have event : UnitEvent n s x :=
    ((UnitEvent.onLink s n _).trans (.statusDecided n alarms figures p)).trans (.onSteering n q _)
  have quiet : Quiet s x :=
    ((Quiet.onLink s n _).trans (.statusDecided n alarms figures p)).trans
      (.onSteering q fun d k => q.steering.trend_status d k n figures)
  have unitEnd : t.unit n = q.unit n :=
    (reportedEnd_unit n changes s x).trans (State.unit_onSteering' q _ n)
  have linkEnd : t.link n = q.link n :=
    (reportedEnd_link n changes s x).trans (State.link_onSteering' q _ n)
  have carriersEnd : t.carriers = q.carriers :=
    (reportedEnd_carriers n changes s x).trans (State.onSteering_carriers q _)
  have recordEnd (i) : t.steering.record (slotAt n i) =
      { q.steering.record (slotAt n i) with users := (figures.get i).users } := by
    rw [reportedEnd_record, steering_status, Steering.record_status]
  have lostOrKept : (u.state = .live ∧ (q.unit n).state = .down) ∧ LiveLost n s q ∨
      ¬ (u.state = .live ∧ (q.unit n).state = .down) ∧ FiguresKept n s q :=
    (statusDecided_cases n alarms figures p).imp
      (fun ⟨down, lost⟩ => ⟨down, lost.of_parts rfl rfl (fun _ => rfl) rfl rfl fun _ => rfl⟩)
      fun ⟨stays, moved, record, sums⟩ => ⟨stays, moved, record, sums⟩
  have moved : UnitFigures n s.steering q.steering :=
    lostOrKept.elim (fun lost => lost.2.figures.figures) fun kept => kept.2.figures
  have sums (inv : s.SteeringInv) : q.steering.Summed fun v => (q.unit v).impaired :=
    lostOrKept.elim (fun lost => lost.2.figures.summed inv) fun kept => kept.2.summed inv
  obtain ⟨side, presents⟩ := reportedEnd_side event mode changes
  refine ⟨t, new, meaning, side, reportedEnd_onlyUnit changes moved.status_cells, presents,
    fun _ => u.afterStatus_takeStatus s.site alarms figures, ?reports, fun i => ?records,
    fun _ inv d k sector small => ?cells, fun probing fails => ?failing,
    fun probing sound clean => ?clean, fun probing sound failed => ?stays,
    fun live trip => ?tripped, fun live sound => ?marked, fun others => ?other⟩
  case reports =>
    intro changed reports
    have told : reports = changes.map (ConditionChange.report n) ++ holeChanges s t :=
      congrArg (· ++ _) (u.statusChanges_report s.site alarms figures n).symm
    rw [told]
    exact reportedEnd_reports quiet event mode (u.statusChanges_nodup s.site alarms figures)
  case records =>
    intro m
    rw [recordEnd, unitEnd]
    rcases lostOrKept with ⟨down, lost⟩ | ⟨stays, kept⟩
    · rw [if_pos down, lost.figures.record _ (slotUnit_slotAt n i)]
      rfl
    · rw [if_neg stays, kept.record]
  case cells =>
    intro y held total
    have attaches (i : CarrierIndex) : q.steering.slotAttaches k (slotAt n i) (figures.get i) =
        t.steering.slotAttaches k (slotAt n i) (figures.get i) := by
      unfold Steering.slotAttaches
      rw [recordEnd]
    have attached := moved.status_attached (figures := figures) k sector small
    simp only [attaches] at attached
    exact (reportedEnd_decided changes ((sums inv).statusTaken n figures) attached).trans
      (congrArg _ (Cell.addAttaches_eq _ _))
  case failing =>
    obtain ⟨unit, emptied, carriers, -⟩ :=
      statusDecided_failing (s := p) probing figures (rawFailure_iff.mpr fails)
    exact ⟨unitEnd.trans unit, linkEnd.trans (link ▸ emptied), carriersEnd.trans carriers⟩
  case clean =>
    obtain ⟨supply, amplifier⟩ := clean
    have sound := Bool.eq_false_iff.mpr (sound ∘ rawFailure_iff.mp)
    obtain ⟨unit, -, restored⟩ := statusDecided_clean (s := p) probing figures sound fun a low => by
      rcases Alarm.failure_iff.mp low with rfl | rfl
      · exact supply
      · exact amplifier
    refine ⟨unitEnd.trans unit, fun inv unorphaned => ?_⟩
    obtain ⟨coherent, listed⟩ := inv
    obtain ⟨slots, tunes⟩ := restored (listed n) fun m own suspended => by
      obtain ⟨-, -, requested, -⟩ := coherent m
      exact ⟨requested.mpr (.inr (.inr (.inr suspended))), unorphaned m own suspended⟩
    rw [link] at tunes
    exact ⟨slots.of_carriers rfl carriersEnd, linkEnd.trans tunes⟩
  case stays =>
    have sound := Bool.eq_false_iff.mpr (sound ∘ rawFailure_iff.mp)
    obtain ⟨unit, kept, carriers, -⟩ := statusDecided_stays (s := p) probing figures sound
      (failed.elim (fun supply => ⟨0, by decide, supply⟩)
        fun amplifier => ⟨1, by decide, amplifier⟩)
    exact ⟨unitEnd.trans unit, linkEnd.trans (kept.trans link), carriersEnd.trans carriers⟩
  case tripped =>
    obtain ⟨lost, emptied, unit⟩ :=
      statusDecided_tripped (s := p) live figures (failureTrip_iff.mpr trip)
    exact ⟨unitEnd.trans unit, linkEnd.trans (link ▸ emptied),
      lost.slots.of_carriers rfl carriersEnd⟩
  case marked =>
    have untripped : failureTrip u new = false := Bool.eq_false_iff.mpr fun trip => by
      obtain ⟨a, low, before, after⟩ := failureTrip_iff.mp trip
      rcases sound a low with present | absent
      · rw [before] at present; cases present
      · rw [after] at absent; cases absent
    obtain ⟨unit, kept, carriers, -⟩ := statusDecided_marked (s := p) live figures untripped
    exact ⟨unitEnd.trans unit, linkEnd.trans (kept.trans link), carriersEnd.trans carriers⟩
  case other =>
    have same : q = p := statusDecided_other (s := p) alarms figures (others ∘ .inr) (others ∘ .inl)
    exact ⟨unitEnd.trans (by rw [same]; rfl), linkEnd.trans (by rw [same, link]),
      carriersEnd.trans (by rw [same]; rfl)⟩

end Sys2Proof.Machine
end

section
/-! What one slot's event tells the Steering Engine (R72, R128 to R132), and the records and sums
behind it. -/
namespace Sys2Proof.Machine

open Sys2Proof

variable {s e t : State} {n : SlotId} {g : Steering} {c : Context}

/-! ## Records that agree with their contexts (R128) -/

/-- The bandwidth code that a slot's context has on air. -/
def Context.airs (c : Context) : Option Nat :=
  if c.state = .onAir then c.held.map fun t => t.bandwidth.toNat else none

theorem Context.airs_of_ne (off : c.state ≠ .onAir) : c.airs = none := if_neg off

/-- A steering record shows its slot's operator and what the slot has on air. -/
def SteeringRecord.Agrees (r : SteeringRecord) (c : Context) : Prop :=
  r.operator = c.owner ∧ r.onAir = c.airs

/-- The steering invariant: each record agrees with its context, and the figures are the sums. -/
theorem State.steeringInv_iff (s : State) :
    s.SteeringInv ↔ (∀ n, (s.steering.record n).Agrees (s.context n)) ∧
      s.steering.Summed fun u => (s.unit u).impaired := by
  rw [Steering.summed_iff]
  rfl

/-! ## The sums behind a slot that is gained or goes ON-AIR (R72, R129, R130) -/

theorem Steering.record_gained (g : Steering) (n m : SlotId) (k : Operator) :
    (g.gained n k).record m =
      if m = n then { g.record n with operator := some k } else g.record m := by
  unfold Steering.gained
  rw [Steering.record_onSlotCell, Steering.record_onRecord]

theorem Steering.record_enteredOnAir (g : Steering) (n m : SlotId) (code : Nat) (impaired : Bool) :
    (g.enteredOnAir n code impaired).record m =
      if m = n then { g.record n with onAir := some code } else g.record m := by
  unfold Steering.enteredOnAir
  rw [Steering.record_onSlotCell, Steering.record_onRecord]

namespace Steering.Summed

variable {impaired : UnitId → Bool}

/-- An operator has gained a slot that had none, with nothing on air. -/
theorem gained (sums : g.Summed impaired) (k : Operator) (free : (g.record n).operator = none)
    (silent : (g.record n).onAir = none) : (g.gained n k).Summed impaired := by
  refine sums.moved (n := n) (Steering.defs_onSlotCell _ _ _ _)
    (fun m other => by rw [Steering.record_gained, if_neg other]) fun d j => ?_
  have cell : (g.gained n k).cell d j =
      if some k = some j ∧ g.sectorOf (slotUnit n) = some d then
        { g.cell d j with holding := (g.cell d j).holding + 1 } else g.cell d j :=
    Steering.cell_onSlotCell _ _ _ _ _ _
  rw [cell, Steering.record_gained, if_pos rfl]
  by_cases mine : k = j ∧ g.sectorOf (slotUnit n) = some d
  · simp [mine, Steering.moved, Steering.share, SteeringRecord.airWeight, SteeringRecord.airUsers,
      free, silent]
  · simp [mine, and_comm, Steering.moved, Steering.share, free]

/-- A carrier has entered ON-AIR, with the mark of its unit. -/
theorem enteredOnAir (sums : g.Summed impaired) (code : Nat) (silent : (g.record n).onAir = none) :
    (g.enteredOnAir n code (impaired (slotUnit n))).Summed impaired := by
  refine sums.moved (n := n) (Steering.defs_onSlotCell _ _ _ _)
    (fun m other => by rw [Steering.record_enteredOnAir, if_neg other]) fun d k => ?_
  have cell : (g.enteredOnAir n code (impaired (slotUnit n))).cell d k =
      if (g.record n).operator = some k ∧ g.sectorOf (slotUnit n) = some d then
        { g.cell d k with
          capacity := (g.cell d k).capacity + weight (impaired (slotUnit n)) code
          load := (g.cell d k).load + (g.record n).users }
      else g.cell d k :=
    Steering.cell_onSlotCell _ _ _ _ _ _
  rw [cell, Steering.record_enteredOnAir, if_pos rfl]
  by_cases mine : (g.record n).operator = some k ∧ g.sectorOf (slotUnit n) = some d
  · simp [mine, Steering.moved, Steering.share, SteeringRecord.airWeight, SteeringRecord.airUsers,
      silent]
  · simp [mine, and_comm, Steering.moved, Steering.share]

end Steering.Summed

/-! ## The reports (R72) -/

/-- What Carrier Control reports of slot `n` as it takes the context `c`: the Steering Engine behind
the report. -/
inductive SlotReport (s : State) (n : SlotId) (c : Context) : Steering → Prop where
  /-- Neither the operator nor what is on air changes. -/
  | still (owner : c.owner = (s.context n).owner) (airs : c.airs = (s.context n).airs) :
    SlotReport s n c s.steering
  /-- A search ends at the event that began it, so its VACANT slot is VACANT again. -/
  | unheld (vacant : (s.context n).state = .vacant) (owner : c.owner = none) (off : c.airs = none) :
    SlotReport s n c s.steering
  /-- An operator gains a VACANT slot. -/
  | gained (k : Operator) (vacant : (s.context n).state = .vacant) (owner : c.owner = some k)
    (off : c.airs = none) : SlotReport s n c (s.steering.gained n k)
  /-- Its operator loses a slot that is not ON-AIR. -/
  | lost (before : (s.context n).state ≠ .onAir) (owner : c.owner = none) (off : c.airs = none) :
    SlotReport s n c (s.steering.lost n)
  /-- A carrier enters ON-AIR. -/
  | entered (code : Nat) (before : (s.context n).state ≠ .onAir)
    (owner : c.owner = (s.context n).owner) (airs : c.airs = some code) :
    SlotReport s n c (s.steering.enteredOnAir n code (s.impairedAt n))
  /-- A carrier leaves ON-AIR. -/
  | left (owner : c.owner = (s.context n).owner) (off : c.airs = none) :
    SlotReport s n c (s.steering.leftOnAir n (s.impairedAt n))

namespace SlotReport

variable (report : SlotReport s n c g)
include report

theorem record_other {m : SlotId} (other : m ≠ n) : g.record m = s.steering.record m := by
  cases report with
  | still | unheld => rfl
  | gained => rw [Steering.record_gained, if_neg other]
  | lost => rw [Steering.record_lost, if_neg other]
  | entered => rw [Steering.record_enteredOnAir, if_neg other]
  | left => rw [Steering.record_leftOnAir, if_neg other]

theorem agrees (coherent : (s.context n).Coherent)
    (before : (s.steering.record n).Agrees (s.context n)) : (g.record n).Agrees c := by
  obtain ⟨operator, onAir⟩ := before
  obtain ⟨ownerless, -⟩ := coherent
  cases report with
  | still owner airs => exact ⟨operator.trans owner.symm, onAir.trans airs.symm⟩
  | unheld vacant owner off =>
    have silent := Context.airs_of_ne (vacant.trans_ne nofun)
    exact ⟨operator.trans ((ownerless.mp vacant).trans owner.symm),
      onAir.trans (silent.trans off.symm)⟩
  | gained k vacant owner off =>
    rw [Steering.record_gained, if_pos rfl]
    have silent := Context.airs_of_ne (vacant.trans_ne nofun)
    exact ⟨owner.symm, onAir.trans (silent.trans off.symm)⟩
  | lost before owner off =>
    rw [Steering.record_lost, if_pos rfl]
    exact ⟨owner.symm, onAir.trans ((Context.airs_of_ne before).trans off.symm)⟩
  | entered code _ owner airs =>
    rw [Steering.record_enteredOnAir, if_pos rfl]
    exact ⟨operator.trans owner.symm, airs.symm⟩
  | left owner off =>
    rw [Steering.record_leftOnAir, if_pos rfl]
    exact ⟨operator.trans owner.symm, off.symm⟩

theorem summed (coherent : (s.context n).Coherent)
    (before : (s.steering.record n).Agrees (s.context n))
    (sums : s.steering.Summed fun u => (s.unit u).impaired) :
    g.Summed fun u => (s.unit u).impaired := by
  obtain ⟨operator, onAir⟩ := before
  obtain ⟨ownerless, -⟩ := coherent
  cases report with
  | still | unheld => exact sums
  | gained k vacant =>
    exact sums.gained k (operator.trans (ownerless.mp vacant))
      (onAir.trans (Context.airs_of_ne (vacant.trans_ne nofun)))
  | lost before => exact sums.lost (onAir.trans (Context.airs_of_ne before))
  | entered code before => exact sums.enteredOnAir code (onAir.trans (Context.airs_of_ne before))
  | left => exact sums.leftOnAir

theorem cellsInv (cells : s.steering.CellsInv) : g.CellsInv := by
  cases report with
  | still | unheld => exact cells
  | gained => exact cells.gained n _
  | lost => exact cells.lost n
  | entered => exact cells.enteredOnAir n _ _
  | left => exact cells.leftOnAir n _

theorem trends (d : SectorId) (k : Operator) :
    (g.cell d k).trend = (s.steering.cell d k).trend := by
  cases report with
  | still | unheld => rfl
  | gained => exact Steering.trend_gained _ d k n _
  | lost => exact Steering.trend_lost _ d k n
  | entered => exact Steering.trend_enteredOnAir _ d k n _ _
  | left => exact Steering.trend_leftOnAir _ d k n _

end SlotReport

/-- One slot's event: no other slot's context changes, and the Steering Engine is told what its own
has become. -/
structure SlotReported (n : SlotId) (s e : State) : Prop where
  units : e.units = s.units
  others : ∀ m, m ≠ n → e.context m = s.context m
  report : SlotReport s n (e.context n) e.steering

namespace SlotReported

theorem of_same (same : e = s) : SlotReported n s e := by
  subst same
  exact ⟨rfl, fun _ _ => rfl, .still rfl rfl⟩

theorem of_changed {o : Option Operator} (frame : CarrierFrame s e)
    (changed : SlotChanged n c o s e) (steering : e.steering = g) (report : SlotReport s n c g) :
    SlotReported n s e := by
  obtain ⟨here, others, -⟩ := changed
  exact ⟨frame.units, others, here.symm ▸ steering ▸ report⟩

/-! ### Posts (R61 to R66) -/

theorem tuneEffect (s : State) (k : Operator) (p : Post) (n : SlotId) :
    SlotReported n s (tuneEffect s k p n).1 := by
  have frame := CarrierFrame.tuneEffect s k p n
  cases state : (s.context n).state with
  | vacant =>
    rw [tuneEffect_vacant state] at frame ⊢
    obtain ⟨changed, -, steering⟩ := updateSlot_queueOrDefer (c := { (s.context n).tunePosted p with
      state := .waiting, owner := some k, held := none }) (.tune n p.tuningFields)
      (Steering.gained n k) rfl
    exact of_changed frame changed steering (.gained k state rfl rfl)
  | onAir =>
    rw [tuneEffect_onAir state] at frame ⊢
    obtain ⟨changed, -, steering⟩ := updateSlot_queueOrDefer (c := { (s.context n).tunePosted p with
      state := .waiting }) (.tune n p.tuningFields) (Steering.leftOnAir n (s.impairedAt n)) rfl
    exact of_changed frame changed steering (.left rfl rfl)
  | waiting =>
    rw [tuneEffect_waiting state] at frame ⊢
    exact of_changed frame ((SlotChanged.updateSlot s n _).supersede _) (by simp) (.still rfl rfl)
  | suspended =>
    rw [tuneEffect_suspended state] at frame ⊢
    exact of_changed frame (.updateSlot s n _) (by simp) (.still rfl rfl)
  | searching | tuning | releasing =>
    exact of_same (by simp only [Machine.tuneEffect, state])

theorem searchEffect (s : State) (k : Operator) (p : Post)
    (vacant : (s.context n).state = .vacant) : SlotReported n s (searchEffect s k p n).1 := by
  have frame := CarrierFrame.searchEffect s k p n
  cases walk : examine (s.carriers.overlapsOthers n) 65536 (searchRecordOf s.site k p) with
  | clear r =>
    rw [searchEffect_clear walk] at frame ⊢
    obtain ⟨changed, -, steering⟩ := updateSlot_queueOrDefer (c := (s.context n).searchPosted k r)
      (r.scan n) (Steering.gained n k) rfl
    exact of_changed frame changed steering (.gained k vacant rfl rfl)
  | limit r =>
    rw [searchEffect_limit walk] at frame ⊢
    exact of_changed frame (.searchedOut vacant) (by simp) (.unheld vacant rfl rfl)

theorem releaseEffect (s : State) (n : SlotId) : SlotReported n s (releaseEffect s n).1 := by
  have frame := CarrierFrame.releaseEffect s n
  cases state : (s.context n).state with
  | searching =>
    rw [releaseEffect_searching state] at frame ⊢
    obtain ⟨changed, -, steering⟩ := releaseSearch_slot (s := s) (n := n)
      (c := (s.context n).validated .released) rfl
    exact of_changed frame (changed.of_carriers rfl) (congrArg (Steering.lost n) steering)
      (.lost (state.trans_ne nofun) rfl rfl)
  | waiting =>
    by_cases held : (s.context n).held = none
    · rw [releaseEffect_first state held] at frame ⊢
      exact of_changed frame ((SlotChanged.updateSlot s n _).withdraw.of_carriers rfl)
        (congrArg (Steering.lost n) (by simp)) (.lost (state.trans_ne nofun) rfl rfl)
    · rw [releaseEffect_retune state held] at frame ⊢
      exact of_changed frame ((SlotChanged.updateSlot s n _).onLink _ _) (by simp)
        (.still rfl (Context.airs_of_ne (state.trans_ne nofun)).symm)
  | onAir =>
    rw [releaseEffect_onAir state] at frame ⊢
    obtain ⟨changed, -, steering⟩ := updateSlot_queueOrDefer (c := (s.context n).releasing)
      (.drop n) (Steering.leftOnAir n (s.impairedAt n)) rfl
    exact of_changed frame changed steering (.left rfl rfl)
  | suspended =>
    rw [releaseEffect_suspended state] at frame ⊢
    exact of_changed frame ((SlotChanged.updateSlot s n _).of_carriers rfl)
      (congrArg (Steering.lost n) (by simp)) (.lost (state.trans_ne nofun) rfl rfl)
  | vacant | tuning | releasing =>
    exact of_same (by simp only [Machine.releaseEffect, state])

/-! ### Replies (R68, R69, R81 to R84) -/

theorem carrierTuned (s : State) (n : SlotId) (result : Byte) :
    SlotReported n s (carrierTuned s n result) := by
  have frame := CarrierFrame.carrierTuned s n result
  by_cases tuning : (s.context n).state = .tuning
  case neg => exact of_same (carrierTuned_other result tuning)
  have before : (s.context n).state ≠ .onAir := tuning.trans_ne nofun
  cases requested : (s.context n).requested with
  | none =>
    exact of_same (by simp only [Machine.carrierTuned, tuning, requested])
  | some q =>
    by_cases accepted : result = 0
    · subst accepted
      obtain ⟨changed, steering⟩ := carrierTuned_accepted tuning requested
      exact of_changed frame changed steering (.entered _ before rfl rfl)
    cases held : (s.context n).held with
    | none =>
      obtain ⟨changed, steering⟩ := carrierTuned_first tuning requested held accepted
      exact of_changed frame changed steering (.lost before rfl rfl)
    | some v =>
      obtain ⟨changed, steering⟩ := carrierTuned_retune tuning requested held accepted
      have airs : ((s.context n).retuneRejected q v result).airs = some v.bandwidth.toNat := by
        rw [Context.airs, Context.retuneRejected, if_pos rfl, held]
        rfl
      exact of_changed frame changed steering (.entered _ before rfl airs)

theorem carrierDropped (s : State) (n : SlotId) : SlotReported n s (carrierDropped s n) := by
  by_cases releasing : (s.context n).state = .releasing
  case neg => exact of_same (carrierDropped_other releasing)
  obtain ⟨changed, steering⟩ := carrierDropped_releasing releasing
  exact of_changed (.carrierDropped s n) changed steering (.lost (releasing.trans_ne nofun) rfl rfl)

theorem searchOn (s : State) (r : SearchRecord) (free : (s.context n).orphan = false)
    (searching : (s.context n).state = .searching) : SlotReported n s (searchOn s n r) := by
  have before : (s.context n).state ≠ .onAir := searching.trans_ne nofun
  cases walk : moveOn (s.carriers.overlapsOthers n) r with
  | clear r' =>
    obtain ⟨changed, -, steering⟩ := searchOn_clear free walk
    exact of_changed (.searchOn s n r) changed steering (.still rfl rfl)
  | limit r' =>
    obtain ⟨changed, -, steering⟩ := searchOn_limit searching walk
    exact of_changed (.searchOn s n r) changed steering (.lost before rfl rfl)

theorem carrierLevel (s : State) (n : SlotId) (level : Nat) :
    SlotReported n s (carrierLevel s n level) := by
  have frame := CarrierFrame.carrierLevel s n level
  cases free : (s.context n).orphan with
  | true =>
    obtain ⟨changed, -, steering⟩ := carrierLevel_orphan (v := level) free
    exact of_changed frame changed steering (.still rfl rfl)
  | false =>
    by_cases searching : (s.context n).state = .searching
    case neg => exact of_same (carrierLevel_other free searching)
    cases search : (s.context n).search with
    | none =>
      exact of_same (by simp [Machine.carrierLevel, free, searching, search])
    | some q =>
      rw [carrierLevel_searching free searching search]
      split
      · obtain ⟨changed, -, steering⟩ := searchClaim_slot (q.levelled level) free searching
        exact of_changed (.searchClaim s n _) changed steering
          (.still rfl (Context.airs_of_ne (searching.trans_ne nofun)).symm)
      · exact searchOn s _ free searching

end SlotReported

end Sys2Proof.Machine
end

section
/-! What a state tells the Steering Engine, and the events before their standings are decided (R128
to R132): they keep the cells' bounds and trends, and the steering records with their sums. -/
namespace Sys2Proof.Machine

open Sys2Proof

variable {s t e q : State} {n : SlotId} {u : UnitId}

/-! ## All cells -/

/-- Every place of the bank is that of its sector and its operator. -/
theorem cellPlace_of_place (i : Fin 72) : cellPlace (placeSector i) (placeOperator i) = i := by
  refine Fin.ext ?_
  simp only [cellPlace, placeSector, placeOperator]
  omega

theorem Steering.cellsInv_iff (g : Steering) : g.CellsInv ↔ ∀ d k, (g.cell d k).Inv :=
  ⟨fun cells d k => cells (cellPlace d k),
    fun cells i => cellPlace_of_place i ▸ cells (placeSector i) (placeOperator i)⟩

theorem Cell.Refigured.inv {c d : Cell} (refigured : c.Refigured d) (inv : c.Inv) : d.Inv := by
  rw [refigured]
  exact inv.of_eq rfl rfl rfl rfl rfl

theorem Cell.Refigured.trend {c d : Cell} (refigured : c.Refigured d) : d.trend = c.trend := by
  rw [refigured]

/-! ## States that differ beside what the Steering Engine is told -/

/-- Neither the cells, the records and the definitions differ, nor what they rest on: each context's
operator and what it has on air, and each unit's mark. -/
structure SteeringStill (s t : State) : Prop where
  carriers : s.CarriersInv → t.CarriersInv
  told : ∀ n, (t.context n).owner = (s.context n).owner ∧ (t.context n).airs = (s.context n).airs
  cells : t.steering.cells = s.steering.cells
  records : t.steering.records = s.steering.records
  defs : t.steering.defs = s.steering.defs
  marks : ∀ v, (t.unit v).impaired = (s.unit v).impaired

namespace SteeringStill

theorem trans (h : SteeringStill s t) (k : SteeringStill t q) : SteeringStill s q where
  carriers := k.carriers ∘ h.carriers
  told m := ⟨(k.told m).1.trans (h.told m).1, (k.told m).2.trans (h.told m).2⟩
  cells := k.cells.trans h.cells
  records := k.records.trans h.records
  defs := k.defs.trans h.defs
  marks v := (k.marks v).trans (h.marks v)

theorem beside (carriers : t.carriers = s.carriers) (steering : t.steering = s.steering)
    (units : t.units = s.units) : SteeringStill s t where
  carriers h := h.of_carriers carriers
  told m := by unfold State.context; rw [carriers]; exact ⟨rfl, rfl⟩
  cells := by rw [steering]
  records := by rw [steering]
  defs := by rw [steering]
  marks v := by unfold State.unit; rw [units]

theorem refl (s : State) : SteeringStill s s := beside rfl rfl rfl

theorem close (s : State) : SteeringStill s (close s) :=
  beside (close_carriers s) (close_steering s) (close_units s)

theorem onLink (s : State) (u f) : SteeringStill s (s.onLink u f) := beside rfl rfl rfl

theorem setFaults (s : State) (x) : SteeringStill s (s.setFaults x) := beside rfl rfl rfl

theorem setPath (s : State) (x) : SteeringStill s (s.setPath x) := beside rfl rfl rfl

theorem setSite (s : State) (x) : SteeringStill s (s.setSite x) := beside rfl rfl rfl

theorem setStages (s : State) (x) : SteeringStill s (s.setStages x) := beside rfl rfl rfl

theorem reportChanges (u l) (s : State) : SteeringStill s (reportChanges u l s) :=
  beside (reportChanges_carriers u l s) (reportChanges_steering u l s) (reportChanges_units u l s)

theorem onUnit (s : State) (u) {f : UnitRecord → UnitRecord}
    (keepsMark : ∀ r, (f r).impaired = r.impaired := by exact fun _ => rfl) :
    SteeringStill s (s.onUnit u f) where
  carriers h := h.onUnit u f
  told _ := ⟨rfl, rfl⟩
  cells := rfl
  records := rfl
  defs := rfl
  marks := marks_onUnit s u f keepsMark

/-- Of the Steering Engine the words it has loaded alone differ. -/
theorem onLoaded (s : State) {f : Steering → Steering}
    (cells : (f s.steering).cells = s.steering.cells)
    (records : (f s.steering).records = s.steering.records)
    (defs : (f s.steering).defs = s.steering.defs) : SteeringStill s (s.onSteering f) where
  carriers h := h.onSteering f
  told _ := ⟨rfl, rfl⟩
  cells := cells
  records := records
  defs := defs
  marks _ := rfl

theorem enterResetting (u) (s : State) : SteeringStill s (enterResetting u s) :=
  (onUnit s u).trans (onLink _ u _)

theorem recoveryAttempt (u) (s : State) : SteeringStill s (recoveryAttempt u s) :=
  (onUnit s u).trans (enterResetting u _)

/-- A slot takes a context with the same operator and the same on air. -/
theorem of_changed {c : Context} {o : Option Operator} (frame : CarrierFrame s t)
    (changed : SlotChanged n c o s t) (steering : t.steering = s.steering)
    (owner : c.owner = (s.context n).owner) (airs : c.airs = (s.context n).airs)
    (carriers : s.CarriersInv → t.CarriersInv) : SteeringStill s t where
  carriers := carriers
  told m := by
    obtain ⟨here, others, -⟩ := changed
    by_cases mine : m = n
    · subst mine
      rw [here]
      exact ⟨owner, airs⟩
    · rw [others m mine]
      exact ⟨rfl, rfl⟩
  cells := by rw [steering]
  records := by rw [steering]
  defs := by rw [steering]
  marks v := by unfold State.unit; rw [frame.units]

/-- A WAITING slot becomes TUNING at its dispatch (R67). -/
theorem tuneDispatched (s : State) (n : SlotId) : SteeringStill s (tuneDispatched s n) := by
  have frame := CarrierFrame.tuneDispatched s n
  have carriers : s.CarriersInv → (Machine.tuneDispatched s n).CarriersInv :=
    fun h => h.tuneDispatched n
  by_cases waiting : (s.context n).state = .waiting
  · rw [Machine.tuneDispatched, if_pos waiting] at frame carriers ⊢
    exact of_changed frame (.updateSlot s n _) (by simp) rfl
      (Context.airs_of_ne (waiting.trans_ne nofun)).symm carriers
  · rw [Machine.tuneDispatched, if_neg waiting]
    exact refl s

/-- A SUSPENDED slot becomes WAITING as its unit reaches LIVE (R71). -/
theorem restoreSlot (s : State) (n : SlotId) : SteeringStill s (restoreSlot s n) := by
  have frame := CarrierFrame.restoreSlot s n
  have carriers : s.CarriersInv → (Machine.restoreSlot s n).CarriersInv := fun h => h.restoreSlot n
  by_cases suspended : (s.context n).state = .suspended
  case neg => exact (restoreSlot_other suspended).symm ▸ refl s
  cases requested : (s.context n).requested with
  | none =>
    have same : Machine.restoreSlot s n = s := by simp [Machine.restoreSlot, suspended, requested]
    exact same.symm ▸ refl s
  | some q =>
    rw [restoreSlot_suspended suspended requested] at frame carriers ⊢
    refine of_changed frame (.queueOrDefer (.updateSlot s n _) _) (by simp) ?_ ?_ carriers
    · simp [Context.restored, suspended]
    · simp [Context.restored, Context.airs, suspended]

theorem unitReachedLive (s : State) (u : UnitId) : SteeringStill s (unitReachedLive s u) :=
  foldl_related (r := SteeringStill) _ refl restoreSlot (fun _ _ _ => trans) s

theorem cell (h : SteeringStill s t) (d k) : t.steering.cell d k = s.steering.cell d k := by
  unfold Steering.cell
  rw [h.cells]

theorem record (h : SteeringStill s t) (m) : t.steering.record m = s.steering.record m := by
  unfold Steering.record
  rw [h.records]

end SteeringStill

/-- Cells, records and definitions that do not differ have the same sums. -/
theorem Steering.Summed.of_same {g h : Steering} {impaired marks : UnitId → Bool}
    (sums : g.Summed impaired) (figures : ∀ d k, (h.cell d k).holding = (g.cell d k).holding ∧
      (h.cell d k).capacity = (g.cell d k).capacity ∧ (h.cell d k).load = (g.cell d k).load)
    (records : h.records = g.records) (defs : h.defs = g.defs)
    (same : ∀ v, marks v = impaired v) : h.Summed marks := by
  have total (d k f) : h.total d k f = g.total d k f :=
    Steering.total_same d k defs fun m => by
      unfold Steering.record
      rw [records]
      exact ⟨rfl, rfl⟩
  obtain rfl : marks = impaired := funext same
  refine ⟨fun d k => ?_, fun d k => ?_, fun d k => ?_⟩
  all_goals
    obtain ⟨holding, capacity, load⟩ := figures d k
    rw [total]
  · exact holding.trans (sums.holding d k)
  · exact capacity.trans (sums.capacity d k)
  · exact load.trans (sums.load d k)

theorem SteeringStill.steeringInv (h : SteeringStill s t) (inv : s.SteeringInv) :
    t.SteeringInv := by
  obtain ⟨agree, sums⟩ := s.steeringInv_iff.mp inv
  refine t.steeringInv_iff.mpr ⟨fun m => ?_,
    sums.of_same (fun d k => by rw [h.cell]; exact ⟨rfl, rfl, rfl⟩) h.records h.defs h.marks⟩
  obtain ⟨owner, airs⟩ := h.told m
  obtain ⟨operator, onAir⟩ := agree m
  rw [h.record]
  exact ⟨operator.trans owner.symm, onAir.trans airs.symm⟩

/-! ## Events before their standings are decided -/

/-- An event that keeps the cells and their trends, and the steering records with their sums. -/
structure SteeringEvent (s e : State) : Prop where
  carriers : s.CarriersInv → e.CarriersInv
  cells : s.steering.CellsInv → e.steering.CellsInv
  trends : ∀ d k, (e.steering.cell d k).trend = (s.steering.cell d k).trend
  steering : s.CarriersInv → s.SteeringInv → e.SteeringInv

theorem SteeringStill.event (h : SteeringStill s e) : SteeringEvent s e where
  carriers := h.carriers
  cells inv i := by
    rw [h.cells]
    exact inv i
  trends d k := by rw [h.cell]
  steering _ := h.steeringInv

/-- What one slot's event tells is all that the Steering Engine needs (R72). -/
theorem SlotReported.event (h : SlotReported n s e) (carriers : s.CarriersInv → e.CarriersInv) :
    SteeringEvent s e where
  carriers := carriers
  cells := h.report.cellsInv
  trends := h.report.trends
  steering inv steering := by
    obtain ⟨agree, sums⟩ := s.steeringInv_iff.mp steering
    refine e.steeringInv_iff.mpr ⟨fun m => ?_, ?_⟩
    · by_cases mine : m = n
      · subst mine
        exact h.report.agrees (inv.context m) (agree m)
      · rw [h.report.record_other mine, h.others m mine]
        exact agree m
    · unfold State.unit
      rw [h.units]
      exact h.report.summed (inv.context n) (agree n) sums

/-- A slot of a unit that leaves LIVE and its record agree (Table 4-7, R72, R131). -/
theorem SteeringRecord.Agrees.unitLost {r : SteeringRecord} {c : Context} (agrees : r.Agrees c) :
    ({ r.suspended c.state with users := 0 } : SteeringRecord).Agrees c.afterUnitLoss := by
  obtain ⟨operator, onAir⟩ := agrees
  unfold Context.airs at onAir
  unfold SteeringRecord.Agrees Context.airs Context.afterUnitLoss SteeringRecord.suspended
  cases state : c.state <;> simp [state, operator, onAir]

/-- Of the records a STATUS changes the user figures alone. -/
theorem Steering.airs_status (g : Steering) (u : UnitId) (figures : Bank 4 Figures) (m : SlotId) :
    ((g.status u figures).record m).operator = (g.record m).operator ∧
      ((g.status u figures).record m).onAir = (g.record m).onAir :=
  foldl_related (r := fun g h : Steering => (h.record m).operator = (g.record m).operator ∧
      (h.record m).onAir = (g.record m).onAir) (List.finRange 4) (fun _ => ⟨rfl, rfl⟩)
    (fun g i => g.airs_slotStatus (slotAt u i) m (figures.get i))
    (fun _ _ _ h k => ⟨k.1.trans h.1, k.2.trans h.2⟩) g

namespace SteeringEvent

theorem trans (h : SteeringEvent s t) (k : SteeringEvent t q) : SteeringEvent s q where
  carriers := k.carriers ∘ h.carriers
  cells := k.cells ∘ h.cells
  trends d j := (k.trends d j).trans (h.trends d j)
  steering inv := k.steering (h.carriers inv) ∘ h.steering inv

theorem refl (s : State) : SteeringEvent s s := (SteeringStill.refl s).event

theorem onLink (s : State) (u f) : SteeringEvent s (s.onLink u f) :=
  (SteeringStill.onLink s u f).event

theorem onUnit (s : State) (u) {f : UnitRecord → UnitRecord}
    (keepsMark : ∀ r, (f r).impaired = r.impaired := by exact fun _ => rfl) :
    SteeringEvent s (s.onUnit u f) :=
  (SteeringStill.onUnit s u keepsMark).event

theorem setFaults (s : State) (x) : SteeringEvent s (s.setFaults x) :=
  (SteeringStill.setFaults s x).event

theorem reportChanges (u l) (s : State) : SteeringEvent s (reportChanges u l s) :=
  (SteeringStill.reportChanges u l s).event

/-- A command that acts under a condition. -/
theorem ite {p : Prop} [Decidable p] (acts : p → SteeringEvent s t) :
    SteeringEvent s (if p then t else s) := by
  split
  · next holds => exact acts holds
  · exact refl s

/-- The figures of one unit's cells alone differ. -/
theorem of_figures (figures : UnitFigures u s.steering e.steering)
    (carriers : s.CarriersInv → e.CarriersInv)
    (steering : s.CarriersInv → s.SteeringInv → e.SteeringInv) : SteeringEvent s e where
  carriers := carriers
  cells inv := (Steering.cellsInv_iff _).mpr fun d k =>
    (figures.refigured d k).inv ((Steering.cellsInv_iff _).mp inv d k)
  trends d k := (figures.refigured d k).trend
  steering := steering

/-! ### The Unit Supervisor (R71, R112 to R126) -/

/-- A LIVE unit is lost with its slots (R117). -/
theorem leaveLive (u) (s : State) : SteeringEvent s (leaveLive u s) := by
  obtain ⟨⟨contexts, -⟩, figures, record, summed⟩ := LiveLost.leaveLive s u
  refine of_figures figures (fun h => h.leaveLive u) fun _ inv => ?_
  obtain ⟨agree, -⟩ := s.steeringInv_iff.mp inv
  refine (State.steeringInv_iff _).mpr ⟨fun m => ?_, summed inv⟩
  rw [contexts m]
  split
  · next own =>
    rw [record m own]
    exact (agree m).unitLost
  · next other =>
    rw [figures.others m other]
    exact agree m

/-- A unit's mark takes a value (R119, R129). -/
theorem setImpaired (u v) (s : State) : SteeringEvent s (setImpaired u v s) := by
  obtain ⟨figures, record, summed⟩ := setImpaired_figures u v s
  refine of_figures figures (fun h => h.setImpaired u v) fun _ inv => ?_
  obtain ⟨agree, sums⟩ := s.steeringInv_iff.mp inv
  refine (State.steeringInv_iff _).mpr ⟨fun m => ?_, summed sums⟩
  rw [record, State.context, setImpaired_carriers]
  exact agree m

/-- The figures of a STATUS are taken (R130). -/
theorem status (u figures) (s : State) :
    SteeringEvent s (s.onSteering (Steering.status u figures)) where
  carriers h := h.onSteering _
  cells h := h.status u figures
  trends d k := s.steering.trend_status d k u figures
  steering _ inv := by
    obtain ⟨agree, sums⟩ := s.steeringInv_iff.mp inv
    refine (State.steeringInv_iff _).mpr ⟨fun m => ?_, sums.statusTaken u figures⟩
    obtain ⟨operator, onAir⟩ := agree m
    obtain ⟨operator', onAir'⟩ := s.steering.airs_status u figures m
    rw [steering_status]
    exact ⟨operator'.trans operator, onAir'.trans onAir⟩

theorem leaveIfLive (was u) (s : State) : SteeringEvent s (leaveIfLive was u s) :=
  ite fun _ => leaveLive u s

theorem enterResetting (u) (s : State) : SteeringEvent s (enterResetting u s) :=
  (SteeringStill.enterResetting u s).event

/-- A unit is taken out of its state (R116, R124). -/
theorem takenOut (s : State) (u) {f : UnitRecord → UnitRecord}
    (keepsMark : ∀ r, (f r).impaired = r.impaired := by exact fun _ => rfl) :
    SteeringEvent s (takenOut u f s) :=
  (((onLink s u _).trans (leaveIfLive _ u _)).trans (onLink _ u _)).trans (onUnit _ u keepsMark)

theorem enterDown (u) (s : State) : SteeringEvent s (enterDown u s) :=
  takenOut s u (UnitRecord.goDown_impaired s.site)

theorem goLive (u) (s : State) : SteeringEvent s (goLive u s) :=
  ((onUnit s u).trans (SteeringStill.unitReachedLive _ u).event).trans (setImpaired u _ _)

theorem probingDecision (u alarms) (s : State) : SteeringEvent s (probingDecision u alarms s) := by
  unfold Machine.probingDecision
  split
  · exact enterDown u s
  · exact ite fun _ => goLive u s

theorem statusDecided (u alarms figures) (s : State) :
    SteeringEvent s (statusDecided u alarms figures s) := by
  unfold Machine.statusDecided
  split
  · exact (onUnit s u).trans (probingDecision u alarms _)
  · split
    · exact (onUnit s u).trans (enterDown u _)
    · exact (onUnit s u).trans (setImpaired u _ _)
  · exact refl s

theorem takeStatus (u alarms figures) (s : State) :
    SteeringEvent s (takeStatus u alarms figures s) := by
  rw [takeStatus_eq]
  exact ((statusDecided u alarms figures s).trans (status u figures _)).trans (reportChanges u _ _)

theorem secondTimeout (u) (s : State) : SteeringEvent s (secondTimeout u s) := by
  have noted : SteeringEvent s (s.onUnit u fun r => { r with silent := true }) := onUnit s u
  unfold Machine.secondTimeout
  split
  · exact (noted.trans (enterDown u _)).trans (reportChanges u _ _)
  · exact noted.trans (reportChanges u _ _)
  · exact refl s

/-- A break received, by its unit's state (R121). -/
theorem unitBreak (u) (s : State) : SteeringEvent s (unitBreak u s) := by
  unfold Machine.unitBreak
  split
  · exact ((((onUnit s u).trans (onLink _ u _)).trans (leaveLive u _)).trans
      (onLink _ u _)).trans (setFaults _ _)
  · exact (onLink s u _).trans (setFaults _ _)
  · split
    · exact refl s
    · exact (SteeringStill.recoveryAttempt u s).event
  · exact refl s

theorem requestOut (u) (s : State) : SteeringEvent s (requestOut u s) := by
  unfold Machine.requestOut
  split
  · exact refl s
  · exact refl s
  · rw [goOut_eq]
    exact (takenOut s u).trans (reportChanges u _ _)

theorem requestIn (u) (s : State) : SteeringEvent s (requestIn u s) :=
  ite fun _ => (onUnit s u).trans (enterResetting u _)

theorem requestRevive (u) (s : State) : SteeringEvent s (requestRevive u s) :=
  ite fun _ => (onUnit s u).trans (enterResetting u _)

theorem deliverUnit (u b) (s : State) : SteeringEvent s (deliverUnit u b s) := by
  have admin (c) (s : State) : SteeringEvent s (deliverAdmin u c s) := by
    unfold deliverAdmin
    split
    · exact requestOut u s
    · exact ite fun _ => requestIn u s
  have acknowledged : SteeringEvent s (acknowledgeUnit u (b.data.setWidth 7) s) := setFaults s _
  have asked := acknowledged.trans (admin (field b.data 8 2) _)
  exact asked.trans (ite (p := flag b.data 12 = true) fun _ => requestRevive u _)

/-! ### Carrier Control (R46, R61 to R66) -/

theorem judgePost (s : State) (k p) : SteeringEvent s (judgePost s k p).1 := by
  have carriers : s.CarriersInv → (Machine.judgePost s k p).1.CarriersInv :=
    fun h => h.judgePost k p
  cases pass : checkPost s k p with
  | inr o =>
    simp only [Machine.judgePost, pass]
    exact refl s
  | inl n =>
    have judged : Machine.judgePost s k p = postEffect s k p n := by
      simp only [Machine.judgePost, pass]
    rw [judged] at carriers ⊢
    refine SlotReported.event (n := n) ?_ carriers
    unfold postEffect
    split
    · exact .tuneEffect s k p n
    · next search => exact .searchEffect s k p (State.CarriersInv.checkPost_search pass search)
    · exact .releaseEffect s n

theorem validate (k p) (s : State) : SteeringEvent s (validate k p s) :=
  (judgePost s k p).trans (SteeringStill.setStages _ _).event

/-! ### Replies (R68, R69, R81 to R84) -/

theorem carrierTuned (s : State) (n result) : SteeringEvent s (carrierTuned s n result) :=
  (SlotReported.carrierTuned s n result).event fun h => h.carrierTuned n result

theorem carrierDropped (s : State) (n) : SteeringEvent s (carrierDropped s n) :=
  (SlotReported.carrierDropped s n).event fun h => h.carrierDropped n

theorem carrierLevel (s : State) (n level) : SteeringEvent s (carrierLevel s n level) :=
  (SlotReported.carrierLevel s n level).event fun h => h.carrierLevel n level

end SteeringEvent

end Sys2Proof.Machine
end

section
/-! Every command keeps the cells, their standings, and the steering records with their sums (O57,
O58). -/
namespace Sys2Proof.Machine

open Sys2Proof

variable {s t e q : State} {n : SlotId} {u : UnitId}

/-- A command that keeps the cells and their standings, and the steering records with their sums. -/
structure SteeringKept (s t : State) : Prop where
  carriers : s.CarriersInv → t.CarriersInv
  cells : s.steering.CellsInv → t.steering.CellsInv
  standings : s.Standings → t.Standings
  steering : s.CarriersInv → s.SteeringInv → t.SteeringInv

theorem SteeringStill.kept (h : SteeringStill s t) : SteeringKept s t where
  carriers := h.carriers
  cells := h.event.cells
  standings k := k.of_cells h.cells
  steering _ := h.steeringInv

theorem Cell.settle_figures (c : Cell) :
    c.settle.holding = c.holding ∧ c.settle.capacity = c.capacity ∧ c.settle.load = c.load := by
  unfold Cell.settle
  split
  · split
    · split <;> exact ⟨rfl, rfl, rfl⟩
    · split <;> exact ⟨rfl, rfl, rfl⟩
  · split <;> exact ⟨rfl, rfl, rfl⟩

theorem Cell.decided_figures (old now : Cell) : (old.decided now).holding = now.holding ∧
    (old.decided now).capacity = now.capacity ∧ (old.decided now).load = now.load := by
  unfold Cell.decided
  split
  · exact ⟨rfl, rfl, rfl⟩
  · exact now.settle_figures

/-- An operator holds no slot anywhere: nothing is held, and every figure is 0 (R141). -/
theorem State.SteeringInv.cleared (cells : t.steering.cells = Bank.fill Cell.afterReset)
    (records : t.steering.records = Bank.fill SteeringRecord.afterReset)
    (idle : ∀ n, (t.context n).owner = none ∧ (t.context n).state = .vacant) : t.SteeringInv := by
  have record (m) : t.steering.record m = SteeringRecord.afterReset := by
    unfold Steering.record
    rw [records, Bank.get_fill]
  have cell (d k) : t.steering.cell d k = Cell.afterReset := by
    unfold Steering.cell
    rw [cells, Bank.get_fill]
  have none_held (d k) : t.steering.held d k = [] := by
    unfold Steering.held
    simp [record, SteeringRecord.afterReset]
  refine ⟨fun m => ?_, fun d k => ?_⟩
  · obtain ⟨owner, vacant⟩ := idle m
    rw [record, owner, vacant]
    exact ⟨rfl, rfl⟩
  · rw [cell, none_held]
    exact ⟨rfl, rfl, rfl⟩

theorem placeSector_cellPlace (d : SectorId) (k : Operator) : placeSector (cellPlace d k) = d := by
  refine Fin.ext ?_
  simp only [placeSector, cellPlace]
  omega

theorem placeOperator_cellPlace (d : SectorId) (k : Operator) :
    placeOperator (cellPlace d k) = k := by
  refine Fin.ext ?_
  simp only [placeOperator, cellPlace]
  omega

/-- A judged cell of the same operator is pressed in a neighbour of the sector (R135). -/
def Steering.pressedNear (g : Steering) (t : Site) (d : SectorId) (k : Operator) : Bool :=
  (g.defs.get d).neighbours.any fun m => ((g.cell m k).judge t).pressed t

/-- A cell behind the evaluation: judged, stepped by its neighbours, and rolled (R135, R136). -/
theorem Steering.cell_evaluate (g : Steering) (t : Site) (d : SectorId) (k : Operator) :
    (g.evaluate t).cell d k = (((g.cell d k).judge t).stepOffset t (g.pressedNear t d k)).roll := by
  unfold Steering.evaluate Steering.cell Steering.neighbourPressed Steering.pressedNear
  simp only [Bank.get_tabulate, placeSector_cellPlace, placeOperator_cellPlace]
  rfl

/-- The first pass moves trend, streak and surge alone. -/
theorem Cell.judge_eq (c : Cell) (t : Site) : c.judge t =
    { c with
      trend := (c.judge t).trend, streak := (c.judge t).streak, surge := (c.judge t).surge } := by
  unfold Cell.judge
  split <;> rfl

/-- The second pass and the roll move the offset and the attaches alone. -/
theorem Cell.stepOffset_roll (c : Cell) (t : Site) (p : Bool) : (c.stepOffset t p).roll =
    { c with
      offset := (c.stepOffset t p).offset
      lastAttaches := c.accumulator, accumulator := 0, saturated := false } := by
  unfold Cell.stepOffset Cell.roll
  split
  · split
    · rfl
    · split <;> rfl
  · rfl

/-- The evaluation moves no figure (R135, R136). -/
theorem Steering.evaluate_figures (g : Steering) (t : Site) (d : SectorId) (k : Operator) :
    ((g.evaluate t).cell d k).holding = (g.cell d k).holding ∧
      ((g.evaluate t).cell d k).capacity = (g.cell d k).capacity ∧
      ((g.evaluate t).cell d k).load = (g.cell d k).load := by
  rw [g.cell_evaluate, Cell.stepOffset_roll, Cell.judge_eq]
  exact ⟨rfl, rfl, rfl⟩

namespace SteeringKept

theorem trans (h : SteeringKept s t) (k : SteeringKept t q) : SteeringKept s q where
  carriers := k.carriers ∘ h.carriers
  cells := k.cells ∘ h.cells
  standings := k.standings ∘ h.standings
  steering inv := k.steering (h.carriers inv) ∘ h.steering inv

theorem beside (carriers : t.carriers = s.carriers) (steering : t.steering = s.steering)
    (units : t.units = s.units) : SteeringKept s t :=
  (SteeringStill.beside carriers steering units).kept

theorem refl (s : State) : SteeringKept s s := beside rfl rfl rfl

theorem close (h : SteeringKept s t) : SteeringKept s (close t) :=
  h.trans (SteeringStill.close t).kept

/-- A command that acts under a condition. -/
theorem ite {p : Prop} [Decidable p] (acts : p → SteeringKept s t) :
    SteeringKept s (if p then t else s) := by
  split
  · next holds => exact acts holds
  · exact refl s

theorem onLink (s : State) (u f) : SteeringKept s (s.onLink u f) :=
  (SteeringStill.onLink s u f).kept

theorem setLinks (s : State) (x) : SteeringKept s (s.setLinks x) := beside rfl rfl rfl

theorem setFaults (s : State) (x) : SteeringKept s (s.setFaults x) :=
  (SteeringStill.setFaults s x).kept

theorem setPath (s : State) (x) : SteeringKept s (s.setPath x) := (SteeringStill.setPath s x).kept

theorem setSite (s : State) (x) : SteeringKept s (s.setSite x) := (SteeringStill.setSite s x).kept

theorem setPending (s : State) (x) : SteeringKept s (s.setPending x) := beside rfl rfl rfl

/-- The standings decided behind an event: the figures stay the sums, and each cell goes with its
own (R132). -/
theorem settled (event : SteeringEvent s e) : SteeringKept s (decideStandings s.steering e) where
  carriers h := (event.carriers h).decideStandings _
  cells h := decideStandings_cells _ e (event.cells h)
  standings h := h.decide event.trends
  steering inv steering := by
    obtain ⟨agree, sums⟩ := e.steeringInv_iff.mp (event.steering inv steering)
    obtain ⟨records, defs, -, -, carriers, -, units⟩ := decideStandings_rest s.steering e
    refine (State.steeringInv_iff _).mpr ⟨fun m => ?_,
      sums.of_same (fun d k => ?_) records defs fun v => ?_⟩
    · unfold Steering.record State.context
      rw [records, carriers]
      exact agree m
    · rw [decideStandings_cell]
      exact Cell.decided_figures _ _
    · unfold State.unit
      rw [units]

theorem settling {effect : State → State} (event : SteeringEvent s (effect s)) :
    SteeringKept s (settling effect s) := settled event

/-- Cells, records and contexts take their values of Table 8-3 and of R74. -/
theorem cleared (carriers : t.CarriersInv) (cells : t.steering.cells = Bank.fill Cell.afterReset)
    (records : t.steering.records = Bank.fill SteeringRecord.afterReset)
    (idle : ∀ n, (t.context n).owner = none ∧ (t.context n).state = .vacant) :
    SteeringKept s t where
  carriers _ := carriers
  cells _ i := by
    rw [cells, Bank.get_fill]
    exact .afterReset
  standings _ := .reset cells
  steering _ _ := .cleared cells records idle

/-- The cells are evaluated; the records and the definitions stay (R135, R136). -/
theorem evaluated (s : State) (x : Steering) (cells : x.cells = (s.steering.evaluate s.site).cells)
    (records : x.records = s.steering.records) (defs : x.defs = s.steering.defs) :
    SteeringKept s (s.setSteering x) where
  carriers h := h.setSteering x
  cells h i := cells.symm ▸ Steering.CellsInv.evaluate h s.site i
  standings h := (h.evaluate s.site none).of_cells cells
  steering _ inv := by
    obtain ⟨agree, sums⟩ := s.steeringInv_iff.mp inv
    have figures (d k) : x.cell d k = (s.steering.evaluate s.site).cell d k := by
      unfold Steering.cell
      rw [cells]
    refine (State.steeringInv_iff _).mpr
      ⟨fun m => ?_, sums.of_same (fun d k => ?_) records defs fun _ => rfl⟩
    · rw [State.setSteering_steering, Steering.record, records]
      exact agree m
    · rw [State.setSteering_steering, figures]
      exact s.steering.evaluate_figures s.site d k

theorem epochExpired (s : State) : SteeringKept s (epochExpired s) := by
  unfold Machine.epochExpired
  refine evaluated s _ ?_ ?_ ?_ <;> unfold Steering.evaluate <;> rfl

/-! ## Site Control (R28 to R35) -/

theorem afterPinReset (anchor : BitVec 8) (x : List Instr) (s : State) :
    SteeringKept s (State.afterPinReset anchor x) :=
  cleared .afterReset rfl rfl fun n => by
    rw [show (State.afterPinReset anchor x).context n = Context.afterReset from Bank.get_fill _ n]
    exact ⟨rfl, rfl⟩

theorem serviceStop (s : State) : SteeringKept s (serviceStop s) :=
  cleared (.stop s.carriers) rfl rfl fun n => by
    rw [show (Machine.serviceStop s).context n = (s.context n).stopped from Bank.get_tabulate _ n]
    exact ⟨rfl, rfl⟩

theorem enterServing (s : State) : SteeringKept s (enterServing s) :=
  cleared .afterReset rfl rfl fun n => by
    rw [show (Machine.enterServing s).context n = Context.afterReset from Bank.get_fill _ n]
    exact ⟨rfl, rfl⟩

theorem requestConfig (s : State) : SteeringKept s (requestConfig s) := by
  unfold Machine.requestConfig
  split
  · exact beside rfl rfl rfl
  · exact serviceStop s
  · exact serviceStop s
  · exact refl s

theorem requestServe (s : State) : SteeringKept s (requestServe s) := by
  unfold Machine.requestServe
  split
  · exact beside rfl rfl rfl
  · exact refl s

theorem deliverMode (b) (s : State) : SteeringKept s (deliverMode b s) := by
  unfold Machine.deliverMode
  split
  · next r _ =>
    cases r with
    | config => exact requestConfig s
    | serve => exact requestServe s
  · exact refl s

theorem afterSectors (s : State) : SteeringKept s (afterSectors s) := by
  unfold Machine.afterSectors
  split
  · exact beside rfl rfl rfl
  · exact enterServing s

theorem afterSector (n) (s : State) : SteeringKept s (afterSector n s) := by
  unfold Machine.afterSector
  split
  · split
    · exact beside rfl rfl rfl
    · exact afterSectors s
  · exact afterSectors s

theorem afterL3 (s : State) : SteeringKept s (afterL3 s) := by
  unfold Machine.afterL3
  split <;> exact beside rfl rfl rfl

theorem loadAnswered (p a) (s : State) : SteeringKept s (loadAnswered p a s) := by
  cases a with
  | fault => exact beside rfl rfl rfl
  | okay data =>
    cases p with
    | loadL1 | loadL2 => exact (setSite s _).trans (setPath _ _)
    | deposit => exact refl s
    | loadL3 => exact (setSite s _).trans (afterL3 _)
    | loadSector n =>
      have loaded := SteeringStill.onLoaded (f := Steering.loadSector n data) s rfl rfl rfl
      exact loaded.kept.trans (afterSector n _)

/-! ## The words of a write (R8, R16, R123, R147, R157) -/

theorem consume (v : Nat) (s : State) : SteeringKept s (consume v s) := by
  unfold Machine.consume
  split <;> exact beside rfl rfl rfl

theorem deliverSiteFaults (b) (s : State) : SteeringKept s (deliverSiteFaults b s) := by
  unfold Machine.deliverSiteFaults
  simp only
  split <;> split <;> split <;> exact beside rfl rfl rfl

/-- The removal from a changed set tells the Steering Engine nothing (R51). -/
theorem removeChanged (k high names) (s : State) : SteeringKept s (removeChanged k high names s) :=
  SteeringStill.kept
    ⟨fun h => h.removeChanged k high names, fun _ => ⟨rfl, rfl⟩, rfl, rfl, rfl, fun _ => rfl⟩

theorem deliverWord (w b) (s : State) : SteeringKept s (deliverWord w b s) := by
  cases w with
  | descriptor w =>
    unfold Machine.deliverWord
    simp only
    split
    · exact (deliverMode b s).close
    · split
      · exact (consume _ s).close
      · exact ite fun _ => (deliverSiteFaults b s).close
  | stage k w =>
    unfold Machine.deliverWord
    simp only
    split
    · exact beside rfl rfl rfl
    · split
      · exact removeChanged _ _ _ s
      · exact ite fun _ => removeChanged _ _ _ s
  | unit n w => exact ite fun _ => (settling (.deliverUnit n b s)).close
  | sector n w => exact ite fun _ => (setFaults s _).close
  | plainMemory | carrier | ring => exact refl s

theorem mergeWord (w b) (s : State) : SteeringKept s (mergeWord w b s) := by
  have modes : SteeringKept s (mergeFaultModes b s) := by
    unfold mergeFaultModes
    simp only
    split
    · exact close (beside rfl rfl rfl)
    · exact beside rfl rfl rfl
  cases w with
  | descriptor w =>
    unfold Machine.mergeWord mergeDescriptor
    simp only
    split
    · exact ite fun _ => beside rfl rfl rfl
    · split
      · exact modes
      · exact ite fun _ => beside rfl rfl rfl
  | stage k w => exact ite fun _ => beside rfl rfl rfl
  | sector n w => exact ite fun _ => (SteeringStill.onLoaded s rfl rfl rfl).kept
  | plainMemory | carrier | unit | ring => exact refl s

theorem takeEntry (x : Split) (s : State) : SteeringKept s (takeEntry x s) := by
  have put (e) : SteeringKept s (s.setPath { s.path with entries := x.put e }) := setPath s _
  unfold Machine.takeEntry applyVerdict
  simp only
  split
  · exact close (beside rfl rfl rfl)
  · exact put _
  · exact put _
  · exact foldl_keeps (p := SteeringKept s) _ (fun t p k => k.trans (deliverWord p.1 p.2 t)) _
      (put _)

theorem writeAnswered (x : Split) (a : Answer) (s : State) : SteeringKept s (writeAnswered x a s) :=
  writeAnswered_keeps (P := SteeringKept s) (fun t w b k => k.trans (mergeWord w b t))
    (fun t w b k => k.trans (deliverWord w b t)) (fun _ => setPath s _) a

/-! ## The rows -/

/-- A part of a u4 write (R123). -/
theorem unitWritten {effect : State → State} (acts : SteeringEvent s (effect s)) :
    SteeringKept s (unitWritten effect s) := ite fun _ => (settling acts).close

/-- A reply that is taken (R103). -/
theorem delivering {effect : State → State} (acts : ∀ s, SteeringEvent s (effect s)) (n : UnitId)
    (s : State) : SteeringKept s (delivering n effect s) :=
  (settled ((SteeringEvent.onLink s n _).trans (acts _))).close

theorem validation (m) (s : State) : SteeringKept s (validation m s) := by
  unfold Machine.validation
  split
  · next k p _ => exact ite fun _ => (settling (.validate k p s)).close
  · exact refl s

theorem breakEnded (n) (s : State) : SteeringKept s (breakEnded n s) := by
  have keepsMark (r : UnitRecord) : r.breakEnded.impaired = r.impaired := by
    unfold UnitRecord.breakEnded
    split <;> rfl
  have ended : SteeringKept s ((s.onLink n Link.endBreak).onUnit n UnitRecord.breakEnded) :=
    (onLink s n _).trans (SteeringStill.onUnit _ n keepsMark).kept
  unfold Machine.breakEnded
  simp only
  split
  · exact (ended.trans (setSite _ _)).close
  · exact ended

theorem replyTimerExpired (n x) (s : State) : SteeringKept s (replyTimerExpired n x s) := by
  unfold Machine.replyTimerExpired
  split
  · exact ((onLink s n _).trans (settling (.secondTimeout n _))).close
  · exact onLink s n _

theorem pollUnit (s : State) (u) : SteeringKept s (pollUnit s u) := by
  have polled (v : Bool) :
      SteeringStill s ((s.onUnit u fun r => { r with garbled := v }).onLink u Link.polled) :=
    (SteeringStill.onUnit s u).trans (.onLink _ u _)
  unfold Machine.pollUnit
  split
  · exact ((polled _).trans (.reportChanges u _ _)).kept
  · exact ((polled _).trans (.reportChanges u _ _)).kept
  · exact refl s

theorem pollExpired (s : State) : SteeringKept s (pollExpired s) :=
  foldl_keeps (p := SteeringKept s) _ (fun t u k => k.trans (pollUnit t u)) _ (beside rfl rfl rfl)

/-- Every command keeps them. -/
theorem exec (c : Instr) (s : State) : ∃ t, exec c s = .next t ∧ SteeringKept s t := by
  cases c with
  | pinReset => exact ⟨_, rfl, afterPinReset _ _ s⟩
  | requestArrival => exact ⟨_, rfl, ite fun _ => setPath s _⟩
  | takeRequest =>
    refine ⟨_, rfl, ?_⟩
    split
    · exact takeEntry _ s
    · exact refl s
  | arbiterGrant => exact ⟨_, rfl, setPath s _⟩
  | memoryWriteResponse a =>
    refine ⟨_, rfl, ?_⟩
    split
    · exact writeAnswered _ a s
    · exact refl s
  | memoryReadResponse a =>
    refine ⟨_, rfl, ?_⟩
    split
    · exact ite fun _ => readAnswered_keeps (P := SteeringKept s) (fun _ _ => setPath s _) a
    · exact refl s
  | responseReturn =>
    refine ⟨_, rfl, ?_⟩
    split
    · exact setPath s _
    · exact refl s
  | serveRequest => exact ⟨_, rfl, requestServe s⟩
  | configRequest =>
    refine ⟨_, rfl, ?_⟩
    split
    · exact refl s
    · exact (requestConfig s).close
  | loadReadAnswer a =>
    refine ⟨_, rfl, ?_⟩
    split
    · next x _ =>
      simp only
      split
      · exact refl s
      · split
        · exact setPath s _
        · exact close ((setPath s _).trans (loadAnswered x.purpose a _))
    · exact refl s
  | consumerWrite => exact ⟨_, rfl, ite fun _ => (consume _ s).close⟩
  | acknowledgeProtection | acknowledgeLapse | clearDepositFault | holeAcknowledge =>
    exact ⟨_, rfl, ite fun _ => (setFaults s _).close⟩
  | depositAnswer a =>
    refine ⟨_, rfl, ?_⟩
    split
    · exact ((setPath s _).trans (setFaults _ _)).close
    · exact refl s
  | lapseExpiry => exact ⟨_, rfl, ite fun _ => ((setSite s _).trans (setFaults _ _)).close⟩
  | fullPost => exact ⟨_, rfl, ite fun _ => beside rfl rfl rfl⟩
  | shortPost =>
    refine ⟨_, rfl, ?_⟩
    split
    · exact refl s
    · exact ite fun _ => beside rfl rfl rfl
  | changedSetRemove => exact ⟨_, rfl, ite fun _ => removeChanged _ _ _ s⟩
  | validateTune | validateSearch | validateRelease => exact ⟨_, rfl, validation _ s⟩
  | unitAcknowledge => exact ⟨_, rfl, unitWritten (.setFaults s _)⟩
  | adminOut u => exact ⟨_, rfl, unitWritten (.requestOut u s)⟩
  | adminIn u => exact ⟨_, rfl, unitWritten (.requestIn u s)⟩
  | revive u => exact ⟨_, rfl, unitWritten (.requestRevive u s)⟩
  | dispatch n =>
    refine ⟨_, rfl, ?_⟩
    split
    · split
      · exact (onLink s n _).trans (SteeringStill.tuneDispatched _ _).kept
      · exact onLink s n _
    · exact refl s
  | frameSendEnd n | breakBegin n | noiseDiscard n | framingDiscard n | lineConditionReady n =>
    exact ⟨_, rfl, ite fun _ => onLink s n _⟩
  | breakEnd n => exact ⟨_, rfl, ite fun _ => breakEnded n s⟩
  | replyTimerExpiry n =>
    refine ⟨_, rfl, ?_⟩
    split
    · exact replyTimerExpired n _ s
    · exact refl s
  | tunedReply n =>
    refine ⟨_, rfl, ?_⟩
    split
    · exact delivering (fun s => .carrierTuned s _ _) n s
    · exact refl s
  | droppedReply n =>
    refine ⟨_, rfl, ?_⟩
    split
    · exact delivering (fun s => .carrierDropped s _) n s
    · exact refl s
  | levelReply n =>
    refine ⟨_, rfl, ?_⟩
    split
    · exact delivering (fun s => .carrierLevel s _ _) n s
    · exact refl s
  | statusReply n =>
    refine ⟨_, rfl, ?_⟩
    split
    · exact delivering (fun s => .takeStatus n _ _ s) n s
    · exact refl s
  | strayFrame n | checkDiscard n =>
    refine ⟨_, rfl, ?_⟩
    split
    · exact onLink s n _
    · exact refl s
  | breakReceived n =>
    exact ⟨_, rfl, ite fun _ => ((onLink s n _).trans (settling (.unitBreak n _))).close⟩
  | guardExpiry n =>
    exact ⟨_, rfl, ite fun _ => (SteeringStill.onUnit s n).kept.trans (onLink _ n _)⟩
  | recoveryExpiry n => exact ⟨_, rfl, ite fun _ => (SteeringStill.recoveryAttempt n s).kept⟩
  | pollExpiry => exact ⟨_, rfl, ite fun _ => (pollExpired s).close⟩
  | epochExpiry => exact ⟨_, rfl, ite fun _ => epochExpired s⟩
  | goodCharacterReceived n =>
    refine ⟨_, rfl, ?_⟩
    split
    · exact ite fun _ => onLink s n _
    · exact refl s
  | siteTimeCount => exact ⟨_, rfl, ite fun _ => setSite s _⟩

theorem step (next : step s = .next t) : SteeringKept s t := by
  unfold Machine.step at next
  split at next
  · cases next
    exact setLinks s _
  · next c rest _ =>
    obtain ⟨u, answers, kept⟩ := exec c (s.setPending rest)
    rw [answers] at next
    cases next
    exact (setPending s rest).trans kept

end SteeringKept

/-- Settles O57: every command keeps both, block by block. -/
theorem stepKeepsCells : Obligations.StepKeepsCells := fun s t next =>
  have kept := SteeringKept.step next
  ⟨fun cells => t.steering.cellsInv_iff.mp (kept.cells (s.steering.cellsInv_iff.mpr cells)),
    kept.standings⟩

/-- Settles O58: every command keeps the records in agreement and the figures the sums. -/
theorem stepKeepsSteeringSums : Obligations.StepKeepsSteeringSums :=
  fun _ _ next => (SteeringKept.step next).steering

end Sys2Proof.Machine
end

section
/-! The standings decided at the end of an event, and HOLE at its latches (O52). -/
namespace Sys2Proof.Machine

open Sys2Proof

variable {s e t : State}

/-! ## What the decision changes (R132, R133) -/

/-- The decision touches the Steering Engine and the Fault Reporter alone. -/
theorem decideStandings_beside (b : Steering) (s : State) :
    ((decideStandings b s).setSteering s.steering).setFaults s.faults = s := by
  have frame := UnitFrame.decideStandings b s
  obtain ⟨-, -, -, -, carriers, links, units⟩ := decideStandings_rest b s
  unfold State.setSteering State.setFaults
  rw [frame.pending, frame.path, frame.site, frame.stages, carriers, links, frame.linkRate, units,
    frame.pollTimer]

/-- Of the Steering Engine the decision touches the cells alone. -/
theorem decideStandings_steering (b : Steering) (s : State) :
    (decideStandings b s).steering =
      { s.steering with cells := (decideStandings b s).steering.cells } := by
  obtain ⟨records, defs, loaded, epochTimer, -⟩ := decideStandings_rest b s
  dsimp only
  rw [← records, ← defs, ← loaded, ← epochTimer]

/-- Reports on different latches are all that the latches learn (R143 to R145). -/
theorem OnlyReports.of_foldl {l : List Report} (distinct : (l.map Report.id).Nodup)
    (faults : t.faults =
      l.foldl (fun g r => g.report s.faultView r.id r.present r.alarms) s.faults) :
    OnlyReports (fun _ => False) 0 l s t := by
  rw [OnlyReports, faults]
  cases mode : s.site.mode.inService with
  | false =>
    refine ⟨nofun, fun id _ _ => ?_⟩
    rw [Faults.reports_idle s.faultView mode]
  | true =>
    obtain ⟨after, others⟩ := Faults.afterReports_foldl s.faultView mode l s.faults distinct
    exact ⟨fun _ => after, fun id _ unnamed => others id (unnamed.resolve_left nofun)⟩

theorem decideStandings_reports (b : Steering) (s : State) :
    OnlyReports (fun _ => False) 0 (holeChanges s (decideStandings b s)) s (decideStandings b s) :=
  .of_foldl (holeChanges_nodup _ _) (decideStandings_faults b s)

/-! ## One cell (Table 8-2) -/

theorem Cell.hole_iff (c : Cell) : c.hole = true ↔ c.trend = .dark := decide_eq_true_iff

theorem Cell.decided_changed {old now : Cell}
    (changed : old.holding ≠ now.holding ∨ old.capacity ≠ now.capacity) :
    old.decided now = now.settle :=
  if_neg fun same => changed.elim (absurd same.1) (absurd same.2)

/-- A cell with capacity leaves DARK and INACTIVE for NEUTRAL. -/
theorem Cell.settle_capacity {c : Cell} (capacity : c.capacity ≠ 0) :
    c.settle = if c.trend = .dark then { c with trend := .neutral, streak := 0 }
      else if c.trend = .inactive then { c with trend := .neutral, offset := 0, streak := 0 }
      else c := by
  unfold Cell.settle
  rw [if_neg capacity]
  cases c.trend <;> rfl

/-! ## Validations and replies (R46, R103) -/

theorem validation_reports (m : PostMode) (s : State) :
    OnlyReports (fun _ => False) 0 (holeChanges s (validation m s)) s (validation m s) := by
  unfold validation
  split
  · next k p _ =>
    split
    · exact .of_quiet (.validate s k p) s.steering
    · exact .refl _ _ s
  · exact .refl _ _ s

theorem delivering_reports {effect : State → State} (quiet : ∀ s, Quiet s (effect s)) (n : UnitId)
    (s : State) :
    OnlyReports (fun _ => False) 0 (holeChanges s (delivering n effect s)) s
      (delivering n effect s) :=
  .of_quiet ((Quiet.onLink s n _).trans (quiet _)) s.steering

/-- Settles O52: the decision cell by cell, and the events that a validation and a reply make, which
are quiet before it. -/
theorem standingFollowsTheTable : Obligations.StandingFollowsTheTable := by
  refine ⟨fun b s => ⟨decideStandings_beside b s, decideStandings_steering b s,
    decideStandings_reports b s, decideStandings_cell b s⟩, fun old now => ⟨fun holding capacity =>
      if_pos ⟨holding, capacity⟩, fun changed => ?table⟩, Cell.hole_iff, rfl, fun s c row => ?rows⟩
  case table =>
    rw [Cell.decided_changed changed]
    refine ⟨fun capacity holding => ?_, fun capacity holding => ?_, Cell.settle_capacity⟩
    · rw [Cell.settle, if_pos capacity, if_pos holding]
    · rw [Cell.settle, if_pos capacity, if_neg holding]
  case rows =>
    rcases row with rfl | rfl | rfl | ⟨n, x, rfl | rfl | rfl⟩
    · exact ⟨_, rfl, validation_reports _ s⟩
    · exact ⟨_, rfl, validation_reports _ s⟩
    · exact ⟨_, rfl, validation_reports _ s⟩
    · refine ⟨_, rfl, ?_⟩
      split
      · exact delivering_reports (fun s => .carrierTuned s _ _) n s
      · exact .refl _ _ s
    · refine ⟨_, rfl, ?_⟩
      split
      · exact delivering_reports (fun s => .carrierDropped s _) n s
      · exact .refl _ _ s
    · refine ⟨_, rfl, ?_⟩
      split
      · exact delivering_reports (fun s => .carrierLevel s _ _) n s
      · exact .refl _ _ s

end Sys2Proof.Machine
end

section
/-! EPOCH_EXPIRY (O53). -/
namespace Sys2Proof.Machine

open Sys2Proof

variable {c : Cell} {t : Site} {p : Bool}

/-! ## One cell (R135, R136) -/

/-- The epoch evaluation takes the cells with a load trend. -/
theorem Cell.evaluated_iff_load :
    c.evaluated = true ↔ c.trend = .neutral ∨ c.trend = .over ∨ c.trend = .under := by
  unfold Cell.evaluated
  cases c.trend <;> simp

theorem Cell.pressed_iff : c.pressed t = true ↔ c.isPressed t := by
  unfold Cell.pressed Cell.isPressed
  simp only [Bool.and_eq_true, Bool.or_eq_true, decide_eq_true_eq, c.evaluated_iff]
  tauto

/-- Whether a cell is pressed shows in its trend, streak and surge. -/
theorem Cell.isPressed_congr {d : Cell} (trend : d.trend = c.trend) (streak : d.streak = c.streak)
    (surge : d.surge = c.surge) : d.isPressed t ↔ c.isPressed t := by
  unfold Cell.isPressed
  rw [trend, streak, surge]

theorem Cell.judge_evaluated (takes : c.evaluated = true) : c.judge t =
    { c with
      trend := c.newTrend t, streak := c.newStreak (c.newTrend t), surge := c.newSurge t } :=
  if_pos takes

theorem Cell.judge_takes (takes : c.evaluated = true) : (c.judge t).evaluated = true := by
  rw [c.judge_evaluated takes]
  exact (Cell.evaluated_iff _).mpr (c.newTrend_load t)

theorem Cell.newSurge_iff : c.newSurge t = true ↔ c.saturated = true ∨
    (t.surgeMark ≠ 0 ∧ t.surgeMark * c.capacity < c.accumulator) := by
  simp [Cell.newSurge]

section
variable (takes : c.evaluated = true)
include takes

theorem Cell.stepOffset_pressed (pressed : c.isPressed t) :
    (c.stepOffset t p).offset = min 7 (c.offset + 1) := by
  rw [Cell.stepOffset, if_pos takes, if_pos (Cell.pressed_iff.mpr pressed)]

theorem Cell.stepOffset_drawn (free : ¬ c.isPressed t)
    (drawn : c.trend = .under ∧ t.persistence ≤ c.streak ∧ p = true) :
    (c.stepOffset t p).offset = max (-8) (c.offset - 1) := by
  rw [Cell.stepOffset, if_pos takes, if_neg (free ∘ Cell.pressed_iff.mp), if_pos drawn]

theorem Cell.stepOffset_relaxed (free : ¬ c.isPressed t)
    (undrawn : ¬ (c.trend = .under ∧ t.persistence ≤ c.streak ∧ p = true)) :
    (c.stepOffset t p).offset =
      if 0 < c.offset then c.offset - 1 else if c.offset < 0 then c.offset + 1 else 0 := by
  rw [Cell.stepOffset, if_pos takes, if_neg (free ∘ Cell.pressed_iff.mp), if_neg undrawn]
  rfl

end

/-! ## The row (R134 to R136) -/

variable {s : State}

theorem OnlySteering.setSteering (s : State) (x : Steering) : OnlySteering s (s.setSteering x) :=
  rfl

theorem epochExpired_steering (s : State) : (epochExpired s).steering =
    { s.steering with
      cells := (s.steering.evaluate s.site).cells, epochTimer := some s.site.epochLength } := by
  unfold epochExpired
  rw [State.setSteering_steering]
  unfold Steering.evaluate
  rfl

section
variable (s : State) (d : SectorId) (k : Operator)

/-- A cell at the expiry: judged, its offset stepped, and its attaches recorded. -/
theorem epochExpired_cell :
    let c := s.steering.cell d k
    let j := c.judge s.site
    (epochExpired s).steering.cell d k = { c with
      trend := j.trend, streak := j.streak, surge := j.surge
      offset := (j.stepOffset s.site (s.steering.pressedNear s.site d k)).offset
      lastAttaches := c.accumulator, accumulator := 0, saturated := false } := by
  intro c j
  have judged : j = { c with trend := j.trend, streak := j.streak, surge := j.surge } :=
    c.judge_eq s.site
  have accumulator : j.accumulator = c.accumulator := by rw [judged]
  have rolled : (epochExpired s).steering.cell d k =
      (j.stepOffset s.site (s.steering.pressedNear s.site d k)).roll := by
    rw [← s.steering.cell_evaluate, epochExpired_steering]
    rfl
  rw [rolled, Cell.stepOffset_roll]
  generalize (j.stepOffset s.site _).offset = o
  rw [accumulator]
  rw [judged]

theorem epochExpired_isPressed :
    ((epochExpired s).steering.cell d k).isPressed s.site ↔
      ((s.steering.cell d k).judge s.site).isPressed s.site := by
  rw [epochExpired_cell]
  exact Cell.isPressed_congr rfl rfl rfl

/-- A neighbour's cell is pressed, as the expiry shows it. -/
theorem pressedNear_iff :
    s.steering.pressedNear s.site d k = true ↔ ∃ m ∈ (s.steering.defs.get d).neighbours,
      ((epochExpired s).steering.cell m k).isPressed s.site := by
  simp only [Steering.pressedNear, List.any_eq_true, Cell.pressed_iff, epochExpired_isPressed]

end

/-- Settles O53: each cell judged, then its offset stepped by the cells judged beside it. -/
theorem epochStepsEveryOffset : Obligations.EpochStepsEveryOffset := by
  intro s
  refine ⟨fun stopped => ?stopped, fun runs => ⟨epochExpired s, ?row, ?rest, ?steering, ?cells⟩⟩
  case stopped =>
    show execEpochExpiry s = _
    rw [execEpochExpiry, stopped]
    rfl
  case row =>
    show execEpochExpiry s = _
    rw [execEpochExpiry, if_pos (Option.isSome_iff_ne_none.mpr runs)]
  case rest => exact .setSteering s _
  case steering => rw [epochExpired_steering]
  case cells =>
    intro d k c c'
    let j := c.judge s.site
    let near := s.steering.pressedNear s.site d k
    have cell : c' = { c with
        trend := j.trend, streak := j.streak, surge := j.surge
        offset := (j.stepOffset s.site near).offset
        lastAttaches := c.accumulator, accumulator := 0, saturated := false } :=
      epochExpired_cell s d k
    have trend : c'.trend = j.trend := by rw [cell]
    have streak : c'.streak = j.streak := by rw [cell]
    have surge : c'.surge = j.surge := by rw [cell]
    have offset : c'.offset = (j.stepOffset s.site near).offset := by rw [cell]
    have pressed : c'.isPressed s.site ↔ j.isPressed s.site := epochExpired_isPressed s d k
    refine ⟨?fields, fun passed => ?passed, fun load => ?evaluated⟩
    case fields =>
      rw [trend, streak, surge, offset]
      exact cell
    case passed =>
      have passes : ¬ c.evaluated = true := fun takes => by
        obtain ⟨dark, inactive⟩ := c.evaluated_iff.mp takes
        exact passed.elim inactive dark
      have same : j = c := if_neg passes
      have kept : j.stepOffset s.site near = j := if_neg (same ▸ passes)
      rw [trend, streak, surge, offset, kept, same]
      exact ⟨rfl, rfl, rfl, rfl⟩
    case evaluated =>
      have takes : c.evaluated = true := Cell.evaluated_iff_load.mpr load
      have again : j.evaluated = true := Cell.judge_takes takes
      have judged : j = _ := c.judge_evaluated takes
      have newTrend : c'.trend = c.newTrend s.site := by rw [trend, judged]
      have before : j.offset = c.offset := by rw [judged]
      have steers : near = true ↔ ∃ m ∈ (s.steering.defs.get d).neighbours,
          ((epochExpired s).steering.cell m k).isPressed s.site := pressedNear_iff s d k
      refine ⟨newTrend, ?streak, ?surge, fun presses => ?pressed, fun free =>
        ⟨fun under persists drawn => ?drawn, fun undrawn => ?relaxed⟩⟩
      case streak =>
        rw [newTrend, streak, judged]
        rfl
      case surge =>
        rw [surge, judged]
        exact Cell.newSurge_iff
      case pressed =>
        rw [offset, Cell.stepOffset_pressed again (pressed.mp presses), before]
      case drawn =>
        rw [offset, Cell.stepOffset_drawn again (free ∘ pressed.mpr)
          ⟨trend.symm.trans under, persists.trans_eq streak, steers.mpr drawn⟩, before]
      case relaxed =>
        rw [offset, Cell.stepOffset_relaxed again (free ∘ pressed.mpr), before]
        rintro ⟨under, persists, drawn⟩
        obtain ⟨m, neighbour, presses⟩ := steers.mp drawn
        rcases undrawn with other | short | none_pressed
        · exact other (trend.trans under)
        · exact short.not_ge (persists.trans_eq streak.symm)
        · exact none_pressed m neighbour presses

end Sys2Proof.Machine
end

section
/-! Notices: how they are produced, laid out and presented (O23, O31). -/
namespace Sys2Proof.Machine

open Sys2Proof

variable {s : State} {f : Faults} {v : FaultView} {b : NoticeBody} {x : Notice} {rest : List Notice}

/-! ## Production (R150) -/

/-- The places a notice needs: one, or two while notices have been suppressed. -/
theorem Faults.hasRoom_iff :
    f.hasRoom = true ↔
      (f.suppressed = 0 ∧ f.queue.length < 16) ∨ (0 < f.suppressed ∧ f.queue.length < 15) := by
  unfold Faults.hasRoom Config.noticeRoom
  split <;> rw [decide_eq_true_iff] <;> omega

theorem Faults.produce_alone (clear : f.suppressed = 0) (room : f.queue.length < 16) :
    f.produce v b = f.enqueue v b := by
  simp [Faults.produce, Faults.hasRoom_iff.mpr (.inl ⟨clear, room⟩), clear]

theorem Faults.produce_behind (counted : 0 < f.suppressed) (room : f.queue.length < 15) :
    f.produce v b = (f.enqueueSuppressed v).enqueue v b := by
  simp [Faults.produce, Faults.hasRoom_iff.mpr (.inr ⟨counted, room⟩), counted.ne']

theorem Faults.produce_suppressed
    (full : 16 ≤ f.queue.length ∨ (0 < f.suppressed ∧ f.queue.length = 15)) :
    f.produce v b =
      { f with
        suppressed := countUp Config.halfTop f.suppressed, sequence := f.sequence + 1 } := by
  have noRoom : ¬ f.hasRoom = true := by
    rw [Faults.hasRoom_iff]
    omega
  exact if_neg noRoom

/-- Settles O23: one case for each row of the table, and the number by the places free. -/
theorem noticeProductionFollowsTheTable : Obligations.NoticeProductionFollowsTheTable := by
  intro v b f
  refine ⟨fun clear room => ?alone, fun full => ?suppressed, fun counted room => ?behind, ?number⟩
  case alone => exact Faults.produce_alone clear room
  case suppressed => exact Faults.produce_suppressed full
  case behind =>
    rw [Faults.produce_behind counted room]
    simp [Faults.enqueueSuppressed, Faults.enqueue, suppressedBody, BitVec.add_assoc]
  case number =>
    have behind : (f.hasRoom = true ∧ f.suppressed ≠ 0) ↔ 0 < f.suppressed ∧ f.queue.length < 15 := by
      rw [Faults.hasRoom_iff]
      omega
    exact if_congr behind rfl rfl

/-! ## The two words of a notice (Table 10-9) -/

/-- A unit fault kind's code is its place in kind order. -/
theorem unitFaultKind_code (k : UnitKind) : (unitFaultKind k).code = k.val := by
  fin_cases k <;> rfl

/-- The fault kind field, latch by latch. -/
theorem NoticeBody.kindCode_eq (b : NoticeBody) :
    b.kindCode = match b.latch with
      | some (.unit _ k) => k.val
      | some (.hole _ _) => 7
      | some .protection => 8
      | some .lapse => 9
      | none => 15 := by
  unfold NoticeBody.kindCode
  cases b.latch with
  | none => rfl
  | some id =>
    cases id with
    | unit n k => exact unitFaultKind_code k
    | hole n k => rfl
    | protection => rfl
    | lapse => rfl

theorem NoticeKind.code_lt (k : NoticeKind) : k.code < 2 ^ 3 := by
  cases k <;> decide

theorem FaultKind.code_lt (k : FaultKind) : k.code < 2 ^ 4 := by
  cases k <;> decide

theorem NoticeBody.kindCode_lt (b : NoticeBody) : b.kindCode < 2 ^ 4 := by
  unfold NoticeBody.kindCode
  cases b.latch with
  | none => decide
  | some id => exact id.kind.code_lt

/-- Word 0: every field fits its width, so the word is the sum of the fields at their places. -/
theorem Notice.word0_toNat (x : Notice) :
    x.word0.toNat =
      x.sequence.toNat + 2 ^ 16 * x.body.kind.code + 2 ^ 20 * x.body.kindCode +
        2 ^ 24 * x.body.subject.toNat + 2 ^ 29 * x.body.operator.toNat + 2 ^ 32 * x.time.toNat := by
  rw [Notice.word0, toNat_pack _ rfl]
  simp only [placedSum_cons, placedSum_nil, Nat.mod_eq_of_lt, x.sequence.isLt, x.body.subject.isLt,
    x.body.operator.isLt, x.time.isLt, x.body.kind.code_lt, x.body.kindCode_lt]
  omega

theorem Notice.word1_toNat (x : Notice) : x.word1.toNat = x.body.detail.toNat := by
  rw [Notice.word1, toNat_pack _ rfl]
  simp only [placedSum_cons, placedSum_nil, Nat.mod_eq_of_lt, x.body.detail.isLt]
  omega

/-! ## Presentation (R153, R155, R35) -/

theorem OwnAccess.isDeposit_iff (a : OwnAccess) : a.isDeposit = true ↔ a.purpose = .deposit :=
  beq_iff_eq

theorem State.depositOutstanding_iff (s : State) :
    s.depositOutstanding = true ↔
      ∃ a : OwnAccess, (s.path.ownPresented = some a ∨ s.path.ownInFlight = some a) ∧
        a.purpose = .deposit := by
  simp only [State.depositOutstanding, Bool.or_eq_true, Option.any_eq_true, OwnAccess.isDeposit_iff,
    or_and_right, exists_or]

section
variable (queued : s.faults.queue = x :: rest) (free : s.depositOutstanding = false)
include queued free

/-- Where the head notice may be deposited, room is made and its deposit presented. -/
theorem pump_deposits (may : s.faults.mayDeposit s.site.mode = true) :
    pump s = (s.setFaults (s.faults.makeRoom s.site.mode)).present
      ((s.faults.makeRoom s.site.mode).depositOf x) := by
  simp [pump, free, queued, may]

/-- Where it may not, room is made all the same. -/
theorem pump_keeps (mayNot : s.faults.mayDeposit s.site.mode = false) :
    pump s = s.setFaults (s.faults.makeRoom s.site.mode) := by
  simp [pump, free, queued, mayNot]

/-- A ring with room takes the head notice's deposit in each of the three modes that deposit. -/
theorem close_presents (up : s.site.mode.windowsUp = true) (room : s.faults.ringFull = false) :
    close s = s.present (s.faults.headDeposit x) := by
  have may : s.faults.mayDeposit s.site.mode = true := by simp [Faults.mayDeposit, up, room]
  have same : s.faults.makeRoom s.site.mode = s.faults := by
    unfold Faults.makeRoom Faults.freeEntry
    cases s.site.mode <;> simp [room]
  have presented : pump s = s.present (s.faults.headDeposit x) := by
    rw [pump_deposits queued free may, same]
    rfl
  have goesOn : ¬ (s.present (s.faults.headDeposit x)).stopDone = true := by
    simp [State.stopDone, State.present, queued]
  rw [close, presented]
  exact if_neg goesOn

/-- In HOLD a full ring gives up its oldest entry to the head notice. -/
theorem close_presents_hold (hold : s.site.mode = .hold) (full : s.faults.ringFull = true) :
    close s = (s.setFaults
      { s.faults with consumer := (s.faults.consumer + 1) % s.faults.ringSize }).present
        (s.faults.headDeposit x) := by
  have may : s.faults.mayDeposit s.site.mode = true := by rw [hold, mayDeposit_hold]
  have freed : s.faults.makeRoom s.site.mode =
      { s.faults with consumer := (s.faults.consumer + 1) % s.faults.ringSize } := by
    rw [hold]
    exact if_pos full
  rw [close_eq s (by simp [hold]), pump_deposits queued free may, freed]
  rfl

/-- In SERVING a full ring presents nothing. -/
theorem close_serving_full (serving : s.site.mode = .serving) (full : s.faults.ringFull = true) :
    close s = s := by
  have mayNot : s.faults.mayDeposit s.site.mode = false := by
    rw [serving, mayDeposit_serving, full]
    rfl
  rw [close_eq s (by simp [serving]), pump_keeps queued free mayNot, serving]
  rfl

end

/-- Settles O31: the end of an event by the mode and the room in the ring, and the words by their
fields. -/
theorem depositsArePresented : Obligations.DepositsArePresented := by
  refine ⟨fun s x queue queued free => ⟨?serving, ?servingFull, ?hold, ?holdFull,
    ?stopping, ?stoppingFull, ?idle⟩, fun f => decide_eq_true_iff, State.depositOutstanding_iff,
    OwnAccess.isDeposit_iff, fun x => ⟨?_, x.word1_toNat⟩⟩
  case serving => exact fun mode => close_presents queued free (by rw [mode]; rfl)
  case servingFull => exact close_serving_full queued free
  case hold => exact fun mode => close_presents queued free (by rw [mode]; rfl)
  case holdFull => exact close_presents_hold queued free
  case stopping => exact fun mode => close_presents queued free (by rw [mode]; rfl)
  case stoppingFull =>
    intro mode _
    have faults := close_stopping_faults mode
    have goesOn := StopGoesOn.close mode
    rw [free] at faults goesOn
    exact ⟨faults, goesOn⟩
  case idle =>
    intro mode
    refine close_idle s ?_
    rcases mode with mode | mode <;> rw [mode] <;> rfl
  rw [x.word0_toNat, x.body.kindCode_eq]
  cases x.body.kind <;> rfl

end Sys2Proof.Machine
end

section
/-! Reports, acknowledgements and changes of modes at the latches, and the notices they make (O24). -/
namespace Sys2Proof.Machine

open Sys2Proof

variable {f : Faults} {v : FaultView} {id : LatchId}

/-! ## Which reports make a notice (R144, R145, R149) -/

theorem Faults.tells_trip_iff (alarms : Option (BitVec 4)) :
    f.tells v ⟨id, true, alarms⟩ = true ↔ (f.latch id).set = false ∧ v.masked id.kind = false := by
  simp [Faults.tells, and_comm]

theorem Faults.tells_release_iff (alarms : Option (BitVec 4)) :
    f.tells v ⟨id, false, alarms⟩ = true ↔
      ((f.latch id).set = true ∧ v.latches id.kind = true ∧ v.masked id.kind = false) ∧
        (f.latch id).acknowledged = true := by
  simp only [Faults.tells, Bool.false_eq_true, if_false, Bool.and_eq_true, Bool.not_eq_true']
  tauto

theorem Faults.clearsAt_iff :
    f.clearsAt v id = true ↔
      ((f.latch id).set = true ∧ v.latches id.kind = true ∧ v.masked id.kind = false) ∧
        (f.latch id).acknowledged = false ∧ (f.latch id).condition = false := by
  simp only [Faults.clearsAt, Bool.and_eq_true, Bool.not_eq_true']
  tauto

section
variable (inService : v.mode.inService = true)
include inService

/-- A report that tells: its notice is produced, and nothing else moves beside the latches. -/
theorem Faults.report_told {r : Report} (told : f.tells v r = true) :
    (f.report v r.id r.present r.alarms).withLatches f =
      f.produce v (r.id.noticeBody (if r.present then .raised else .cleared)
        (r.alarms.getD (f.latch r.id).alarms) f.detail) := by
  rw [Faults.withLatches_report f f v inService r, Report.notice, if_pos told]
  rfl

theorem Faults.report_quiet {r : Report} (quiet : ¬ f.tells v r = true) :
    (f.report v r.id r.present r.alarms).withLatches f = f := by
  rw [Faults.withLatches_report f f v inService r, Report.notice, if_neg quiet]
  rfl

theorem Faults.momentaryTrip_told (told : f.tells v ⟨id, true, none⟩ = true) :
    (f.momentaryTrip v id).withLatches f =
      f.produce v (id.noticeBody .raised (f.latch id).alarms f.detail) := by
  rw [Faults.withLatches_momentaryTrip f f v inService, Report.notice, if_pos told]
  rfl

theorem Faults.momentaryTrip_quiet (quiet : ¬ f.tells v ⟨id, true, none⟩ = true) :
    (f.momentaryTrip v id).withLatches f = f := by
  rw [Faults.withLatches_momentaryTrip f f v inService, Report.notice, if_neg quiet]
  rfl

end

theorem Faults.acknowledge_told (clears : f.clearsAt v id = true) :
    (f.acknowledge v id).withLatches f =
      f.produce v (id.noticeBody .cleared (f.latch id).alarms f.detail) := by
  rw [Faults.withLatches_acknowledge, if_pos clears]
  rfl

theorem Faults.acknowledge_quiet (quiet : ¬ f.clearsAt v id = true) :
    (f.acknowledge v id).withLatches f = f := by
  rw [Faults.withLatches_acknowledge, if_neg quiet]
  rfl

theorem Faults.report_idle (idle : v.mode.inService = false) (present : Bool)
    (alarms : Option (BitVec 4)) : f.report v id present alarms = f := by
  simp [Faults.report, idle]

/-! ## A change of modes (R148) -/

/-- A kind goes from EDGE to HELD: it is not momentary, HELD now, and was not before. -/
theorem FaultView.turned_eq (v : FaultView) (old : Word) (k : FaultKind) :
    (!k.momentary && v.isHeld k && !old.getLsbD k.code) = (v.actsHeld k && !flag old k.code) := by
  rw [FaultView.actsHeld, Bool.and_comm (v.isHeld k)]
  rfl

/-- A latch of such a kind is set with a notice: the kind is not masked, the latch clear, and its
condition present. -/
theorem Faults.raises_eq (v : FaultView) (old : Word) (f : Faults) (j : LatchId) :
    (v.actsHeld j.kind && !flag old j.kind.code && !v.masked j.kind && !(f.latch j).set &&
        (f.latch j).condition) =
      (v.actsHeld j.kind && !flag old j.kind.code && f.raisesAtTurn v j) := by
  simp only [Faults.raisesAtTurn, Bool.and_assoc]

/-! ## The kinds (Table 9-1, R145) -/

theorem unitFaultKind_getElem? (k : UnitKind) :
    [FaultKind.supply, .amplifier, .temp, .antenna, .silent, .garbled, .restart][k.val]? =
      some (unitFaultKind k) := by
  fin_cases k <;> rfl

theorem FaultKind.momentary_iff (k : FaultKind) :
    k.momentary = true ↔ k = .restart ∨ k = .protection := by
  cases k <;> decide

theorem latchesOf_unitFaultKind (k : UnitKind) :
    latchesOf (unitFaultKind k) = (List.finRange 24).map fun n => .unit n k := by
  fin_cases k <;> rfl

/-- Settles O24: the latches by their tables, the notices by what each operation tells, and a change of
modes latch by latch in kind order. -/
theorem reportsFollowTheLatchTables : Obligations.ReportsFollowTheLatchTables := by
  refine ⟨fun v id alarms f => ?latches, fun v id alarms f => ?notices, fun v old f => ?modes,
    fun n k => ⟨unitFaultKind_getElem? k, rfl⟩, fun _ _ => rfl, rfl, rfl, FaultKind.momentary_iff,
    latchesOf_unitFaultKind, rfl, rfl, rfl, fun _ => rfl, fun _ => rfl⟩
  case latches =>
    refine ⟨fun inService => ⟨?_, ?_, ?_⟩, f.latch_acknowledge_self v id, fun present j other =>
      ⟨f.latch_report_ne v present alarms other, f.latch_momentaryTrip_ne v id other,
        f.latch_acknowledge_ne v other⟩, fun present idle =>
      ⟨Faults.report_idle idle present alarms, f.momentaryTrip_idle v id idle⟩⟩
    · exact f.latch_report_self v ⟨id, true, alarms⟩ inService
    · exact f.latch_report_self v ⟨id, false, alarms⟩ inService
    · rw [f.latch_momentaryTrip_self]
      simp [inService]
  case notices =>
    refine ⟨fun inService => ⟨fun trips => ⟨?_, ?_⟩, fun quiet => ⟨?_, ?_⟩, fun clears marked => ?_,
      fun quiet => ?_⟩, fun clears unmarked gone => ?_, fun quiet => ?_⟩
    · exact Faults.report_told inService (r := ⟨id, true, alarms⟩)
        ((Faults.tells_trip_iff alarms).mpr trips)
    · exact Faults.momentaryTrip_told inService ((Faults.tells_trip_iff none).mpr trips)
    · exact Faults.report_quiet inService (r := ⟨id, true, alarms⟩)
        (quiet ∘ (Faults.tells_trip_iff alarms).mp)
    · exact Faults.momentaryTrip_quiet inService (quiet ∘ (Faults.tells_trip_iff none).mp)
    · exact Faults.report_told inService (r := ⟨id, false, alarms⟩)
        ((Faults.tells_release_iff alarms).mpr ⟨clears, marked⟩)
    · refine Faults.report_quiet inService (r := ⟨id, false, alarms⟩) fun told => ?_
      obtain ⟨clears, marked⟩ := (Faults.tells_release_iff alarms).mp told
      rcases quiet with quiet | unmarked
      · exact quiet clears
      · exact Bool.false_ne_true (unmarked.symm.trans marked)
    · exact Faults.acknowledge_told (Faults.clearsAt_iff.mpr ⟨clears, unmarked, gone⟩)
    · refine Faults.acknowledge_quiet fun told => ?_
      obtain ⟨clears, unmarked, gone⟩ := Faults.clearsAt_iff.mp told
      rcases quiet with quiet | marked | present
      · exact quiet clears
      · exact Bool.false_ne_true (unmarked.symm.trans marked)
      · exact Bool.false_ne_true (gone.symm.trans present)
  case modes =>
    simp only [FaultView.turned_eq, Faults.raises_eq]
    exact ⟨f.latch_modesChanged v old, Faults.withLatches_modesChanged f f v old⟩

end Sys2Proof.Machine
end

section
/-! The acknowledgements of w3, u4 and d2, and the deposit-fault mark (O25). -/
namespace Sys2Proof.Machine

open Sys2Proof

variable {s : State}

/-! ## The acknowledgements of one write (R147) -/

/-- Acknowledgements of different latches: each latch named is acknowledged once, the others stay. -/
theorem Faults.latch_acknowledges (v : FaultView) (j : LatchId) (ids : List LatchId) :
    ∀ f : Faults, ids.Nodup →
      (ids.foldl (fun f id => f.acknowledge v id) f).latch j =
        if j ∈ ids then (f.latch j).afterAcknowledge (v.actsHeld j.kind) else f.latch j := by
  induction ids with
  | nil => intro f _; rfl
  | cons id ids ih =>
    intro f nodup
    obtain ⟨absent, nodup⟩ := List.nodup_cons.mp nodup
    rw [List.foldl_cons, ih _ nodup]
    by_cases same : j = id
    · subst same
      simp [absent, f.latch_acknowledge_self]
    · simp [same, f.latch_acknowledge_ne v same]

theorem Faults.detail_acknowledges (v : FaultView) (ids : List LatchId) (f : Faults) :
    (ids.foldl (fun f id => f.acknowledge v id) f).detail = f.detail :=
  foldl_field Faults.detail ids (fun f id => f.detail_acknowledge v id) f

/-- The latches named are acknowledged. -/
def acknowledgeAll (ids : List LatchId) (s : State) : State :=
  s.setFaults (ids.foldl (fun f id => f.acknowledge s.faultView id) s.faults)

theorem acknowledgeUnit_eq (u : UnitId) (kinds : BitVec 7) (s : State) :
    acknowledgeUnit u kinds s =
      acknowledgeAll (((List.finRange 7).filter fun k => kinds.getLsbD k.val).map fun k => .unit u k)
        s :=
  congrArg s.setFaults (Faults.acknowledges_eq _ _ _ _ _)

theorem acknowledgeHoles_eq (n : SectorId) (operators : BitVec 6) (s : State) :
    acknowledgeHoles n operators s =
      acknowledgeAll
        (((List.finRange 6).filter fun k => operators.getLsbD k.val).map fun k => .hole n k) s :=
  congrArg s.setFaults (Faults.acknowledges_eq _ _ _ _ _)

/-- The latches named, `t` being the state after the end of the event: each becomes what an
acknowledgement makes it, the others and the detail stay, the CLEARED notices join the log, and the next
deposit is presented. -/
structure Acknowledged (ids : List LatchId) (s t : State) : Prop where
  onlyLog : OnlyLog s t
  presents : PresentsNext (!s.depositOutstanding) s.path t
  tells : LogTells (s.clearings ids) s t
  detail : t.faults.detail = s.faults.detail
  named : ∀ id ∈ ids,
    t.faults.latch id = (s.faults.latch id).afterAcknowledge (s.faultView.actsHeld id.kind)
  others : ∀ id ∉ ids, t.faults.latch id = s.faults.latch id

theorem Acknowledged.close (ids : List LatchId) (nodup : ids.Nodup)
    (mode : s.site.mode ≠ .stopping) : Acknowledged ids s (close (acknowledgeAll ids s)) where
  onlyLog := .close_setFaults s _ mode
  presents := .close (acknowledgeAll ids s) mode
  tells := .acknowledged ids nodup mode
  detail := (close_detail _).trans (Faults.detail_acknowledges _ ids _)
  named id member :=
    (close_latch _ id).trans ((Faults.latch_acknowledges _ id ids _ nodup).trans (if_pos member))
  others id absent :=
    (close_latch _ id).trans ((Faults.latch_acknowledges _ id ids _ nodup).trans (if_neg absent))

/-! ## Latches named by a mask -/

section
variable {n : Nat} {latch : Fin n → LatchId} {mask : Fin n → Bool}

theorem nodup_named (inj : Function.Injective latch) :
    (((List.finRange n).filter mask).map latch).Nodup :=
  ((List.nodup_finRange n).filter mask).map inj

theorem mem_named (inj : Function.Injective latch) (k : Fin n) :
    latch k ∈ ((List.finRange n).filter mask).map latch ↔ mask k = true := by
  simp [List.mem_map, inj.eq_iff]

/-- A latch of the family is acknowledged where the mask names it. -/
theorem Acknowledged.latch_eq {t : State} (inj : Function.Injective latch)
    (acknowledged : Acknowledged (((List.finRange n).filter mask).map latch) s t) (k : Fin n) :
    t.faults.latch (latch k) =
      if mask k then
        (s.faults.latch (latch k)).afterAcknowledge (s.faultView.actsHeld (latch k).kind)
      else s.faults.latch (latch k) := by
  split
  · next named => exact acknowledged.named _ ((mem_named inj k).mpr named)
  · next unnamed => exact acknowledged.others _ (unnamed ∘ (mem_named inj k).mp)

theorem Acknowledged.latch_outside {t : State}
    (acknowledged : Acknowledged (((List.finRange n).filter mask).map latch) s t) (j : LatchId)
    (outside : ∀ k, j ≠ latch k) : t.faults.latch j = s.faults.latch j := by
  refine acknowledged.others j fun member => ?_
  obtain ⟨k, -, same⟩ := List.mem_map.mp member
  exact outside k same.symm

end

theorem LatchId.unit_injective (u : UnitId) : Function.Injective (LatchId.unit u) :=
  fun _ _ same => (LatchId.unit.inj same).2

theorem LatchId.hole_injective (n : SectorId) : Function.Injective (LatchId.hole n) :=
  fun _ _ same => (LatchId.hole.inj same).2

/-- Of a unit's kinds RESTART alone acts as EDGE whatever its mode (R145). -/
theorem FaultView.actsHeld_unit (v : FaultView) (k : UnitKind) :
    v.actsHeld (unitFaultKind k) = (v.isHeld (unitFaultKind k) && decide (k ≠ 6)) := by
  have momentary : (!(unitFaultKind k).momentary) = decide (k ≠ 6) := by fin_cases k <;> rfl
  rw [FaultView.actsHeld, momentary]

/-- PROTECTION acts as EDGE, so its acknowledgement makes no notice (R145, R149). -/
theorem State.clearings_protection (s : State) : s.clearings [.protection] = [] := by
  have edge : s.faults.clearsAt s.faultView .protection = false := by
    simp [Faults.clearsAt, FaultView.latches, LatchId.kind, FaultKind.momentary]
  simp [State.clearings, edge]

/-! ## The rows -/

theorem Mode.admitsWrites_iff (m : Mode) :
    m.admitsWrites = true ↔ m = .serving ∨ m = .hold ∨ m = .config := by
  cases m <;> decide

theorem Mode.not_admitsWrites_iff (m : Mode) :
    ¬ m.admitsWrites = true ↔ m = .starting ∨ m = .stopping := by
  cases m <;> decide

theorem Mode.ne_stopping_of_admitsWrites {m : Mode} (admits : m.admitsWrites = true) :
    m ≠ .stopping := fun stopping => by rw [stopping] at admits; cases admits

/-- One of the two site latches (R147). -/
theorem Acknowledged.site (id : LatchId) (admits : s.site.mode.admitsWrites = true) :
    Acknowledged [id] s (Machine.close (acknowledgeSite id s)) :=
  .close [id] (List.nodup_singleton id) (Mode.ne_stopping_of_admitsWrites admits)

/-- Settles O25: each row is the acknowledgement of the latches it names and the end of its event, and
CLEAR_DEPOSIT_FAULT changes the mark alone. -/
theorem acknowledgementsActByTheMode : Obligations.AcknowledgementsActByTheMode := by
  refine ⟨fun s => ⟨fun mode => ⟨?protection, ?lapse⟩, fun mode => ?refused⟩,
    fun s => ⟨fun mode => ?mark, fun mode => ?markRefused⟩,
    fun s inService => ⟨fun u kinds => ?unit, fun n operators => ?hole⟩⟩
  case protection =>
    have admits := (Mode.admitsWrites_iff _).mpr mode
    have done := Acknowledged.site .protection admits
    have named := done.named .protection (List.mem_singleton_self _)
    have tells := done.tells
    rw [show s.faultView.actsHeld LatchId.protection.kind = false from Bool.and_false _] at named
    rw [s.clearings_protection] at tells
    exact ⟨_, exec_acknowledgeProtection admits, done.onlyLog, done.presents, tells, named,
      done.detail, fun j other => done.others j (other ∘ List.mem_singleton.mp)⟩
  case lapse =>
    have admits := (Mode.admitsWrites_iff _).mpr mode
    have done := Acknowledged.site .lapse admits
    have named := done.named .lapse (List.mem_singleton_self _)
    rw [show s.faultView.actsHeld LatchId.lapse.kind = s.faultView.isHeld .lapse
      from Bool.and_true _] at named
    exact ⟨_, exec_acknowledgeLapse admits, done.onlyLog, done.presents, done.tells, named,
      done.detail, fun j other => done.others j (other ∘ List.mem_singleton.mp)⟩
  case refused =>
    have refused := (Mode.not_admitsWrites_iff _).mpr mode
    exact ⟨congrArg Host.Outcome.next (if_neg refused), congrArg Host.Outcome.next (if_neg refused)⟩
  case mark =>
    have admits := (Mode.admitsWrites_iff _).mpr mode
    have running := Mode.ne_stopping_of_admitsWrites admits
    exact ⟨_, exec_clearDepositFault admits, .close_setFaults s _ running,
      .close (clearDepositMark s) running, close_log (clearDepositMark s) running⟩
  case markRefused =>
    exact congrArg Host.Outcome.next (if_neg ((Mode.not_admitsWrites_iff _).mpr mode))
  case unit =>
    have running := Mode.ne_stopping_of_admitsWrites (Mode.admitsWrites_of_inService inService)
    have done := Acknowledged.close _
      (nodup_named (mask := fun k : UnitKind => kinds.getLsbD k.val) (LatchId.unit_injective u))
      running
    have meaning := exec_unitAcknowledge inService u kinds
    rw [settling_acknowledgeUnit, acknowledgeUnit_eq] at meaning
    refine ⟨_, meaning, done.onlyLog, done.presents, done.tells, fun k => ?_, done.latch_outside⟩
    rw [done.latch_eq (LatchId.unit_injective u), ← FaultView.actsHeld_unit]
    rfl
  case hole =>
    have running := Mode.ne_stopping_of_admitsWrites (Mode.admitsWrites_of_inService inService)
    have done := Acknowledged.close _
      (nodup_named (mask := fun k : Operator => operators.getLsbD k.val) (LatchId.hole_injective n))
      running
    have meaning : exec (.holeAcknowledge n operators) s =
        .next (close (acknowledgeHoles n operators s)) := congrArg Host.Outcome.next (if_pos inService)
    rw [acknowledgeHoles_eq] at meaning
    have held : s.faultView.actsHeld .hole = s.faultView.isHeld .hole := Bool.and_true _
    refine ⟨_, meaning, done.onlyLog, done.presents, done.tells, fun k => ?_, done.latch_outside⟩
    rw [done.latch_eq (LatchId.hole_injective n), ← held]
    rfl

end Sys2Proof.Machine
end

section
/-! The consumer index, the lapse timer and HOLD: CONSUMER_WRITE (O27) and LAPSE_EXPIRY (O30). -/
namespace Sys2Proof.Machine

open Sys2Proof

variable {s : State} {f : Faults} {v : FaultView}

/-! ## The whole Fault Reporter behind a report (R143 to R145) -/

theorem unitLatchPlace_surjective (i : Fin 168) : ∃ n k, unitLatchPlace n k = i :=
  ⟨⟨i.val / 7, by omega⟩, ⟨i.val % 7, by omega⟩, Fin.ext (Nat.div_add_mod i.val 7)⟩

theorem cellPlace_surjective (i : Fin 72) : ∃ n k, cellPlace n k = i :=
  ⟨⟨i.val / 6, by omega⟩, ⟨i.val % 6, by omega⟩, Fin.ext (Nat.div_add_mod i.val 6)⟩

/-- Two Fault Reporters with the same latches that agree beside them are the same. -/
theorem Faults.ext_latches {f g h : Faults} (rest : f.withLatches h = g.withLatches h)
    (latches : ∀ id, f.latch id = g.latch id) : f = g := by
  have units : f.unitLatches = g.unitLatches := Bank.ext_get fun i => by
    obtain ⟨n, k, rfl⟩ := unitLatchPlace_surjective i
    exact latches (.unit n k)
  have holes : f.holeLatches = g.holeLatches := Bank.ext_get fun i => by
    obtain ⟨n, k, rfl⟩ := cellPlace_surjective i
    exact latches (.hole n k)
  calc
    f = (f.withLatches h).withLatches f := rfl
    _ = (g.withLatches h).withLatches f := congrArg (Faults.withLatches · f) rest
    _ = { g with
          unitLatches := f.unitLatches, holeLatches := f.holeLatches
          protection := f.protection, lapse := f.lapse } := rfl
    _ = g := by rw [units, holes, show f.protection = g.protection from latches .protection,
      show f.lapse = g.lapse from latches .lapse]

theorem Faults.latch_produceAll (v : FaultView) (bodies : List NoticeBody) (f : Faults)
    (id : LatchId) : (f.produceAll v bodies).latch id = f.latch id :=
  foldl_field (Faults.latch · id) bodies (fun f b => f.latch_produce v b id) f

/-- A report in service: the notice it tells is produced, and its own latch acts. -/
theorem Faults.report_eq (inService : v.mode.inService = true) (r : Report) :
    f.report v r.id r.present r.alarms =
      (f.produceAll v (r.notice v f).toList).setLatch r.id
        (if r.present then
          (f.latch r.id).afterTrip (f.raisedNumber v r.id.kind 0)
            (r.alarms.getD (f.latch r.id).alarms)
        else
          (f.latch r.id).afterRelease (v.latches r.id.kind)
            (r.alarms.getD (f.latch r.id).alarms)) := by
  refine Faults.ext_latches (h := f) ?_ fun id => ?_
  · rw [Faults.withLatches_report f f v inService r, Faults.withLatches_setLatch,
      Faults.withLatches_produceAll]
  · by_cases own : id = r.id
    · rw [own, f.latch_report_self v r inService, Faults.latch_setLatch_self]
    · rw [f.latch_report_ne v _ _ own, Faults.latch_setLatch_ne _ _ own, Faults.latch_produceAll]

/-! ## LAPSE beside the ring and the timer (R158, R159) -/

/-- The Fault Reporter with another consumer index, lapse timer and LAPSE latch. -/
def Faults.withLapse (consumer : Nat) (timer : Option Nat) (l : Latch) (f : Faults) : Faults :=
  { f with consumer := consumer, lapseTimer := timer, lapse := l }

/-- Notices look at none of the three. -/
theorem Faults.produce_withLapse (f : Faults) (c timer l v b) :
    (f.withLapse c timer l).produce v b = (f.produce v b).withLapse c timer l := by
  unfold Faults.produce
  have room : (f.withLapse c timer l).hasRoom = f.hasRoom := rfl
  have count : (f.withLapse c timer l).suppressed = f.suppressed := rfl
  rw [room, count]
  split
  · split <;> rfl
  · rfl

/-- Of the view a notice takes its time alone. -/
theorem Faults.produce_of_time {w : FaultView} (time : v.time = w.time) (f : Faults) (b) :
    f.produce v b = f.produce w b := by
  simp [Faults.produce, Faults.enqueueSuppressed, Faults.enqueue, time]

theorem Faults.startLapse_withLapse (f : Faults) (c timer l period) :
    (f.withLapse c timer l).startLapse period =
      f.withLapse c (if period = 0 then timer else some period) l := by
  unfold Faults.startLapse
  split <;> rfl

theorem Faults.latch_withLapse_ne (f : Faults) (c timer l) {j : LatchId} (other : j ≠ .lapse) :
    (f.withLapse c timer l).latch j = f.latch j := by
  cases j with
  | unit n k => rfl
  | hole n k => rfl
  | protection => rfl
  | lapse => exact absurd rfl other

/-- A report of LAPSE at any consumer index and lapse timer. -/
theorem Faults.report_lapse (inService : v.mode.inService = true) (c : Nat) (timer : Option Nat)
    (present : Bool) :
    (f.withLapse c timer f.lapse).report v .lapse present none =
      (if f.tells v ⟨.lapse, present, none⟩ then
        f.produce v (LatchId.lapse.noticeBody (if present then .raised else .cleared) 0 f.detail)
        else f).withLapse c timer
        (if present then f.lapse.afterTrip (f.raisedNumber v .lapse 0) f.lapse.alarms
        else f.lapse.afterRelease (v.latches .lapse) f.lapse.alarms) := by
  have notice : Report.notice v (f.withLapse c timer f.lapse) ⟨.lapse, present, none⟩ =
      if f.tells v ⟨.lapse, present, none⟩ then
        some (LatchId.lapse.noticeBody (if present then .raised else .cleared) 0 f.detail)
      else none := rfl
  refine (Faults.report_eq inService ⟨.lapse, present, none⟩).trans ?_
  rw [notice]
  split
  · exact congrArg (Faults.setLatch · .lapse _) (Faults.produce_withLapse f c timer f.lapse v _)
  · rfl

/-- LAPSE trips: a clear latch that is not masked has its RAISED notice join the log. -/
theorem Faults.trip_lapse (inService : v.mode.inService = true) (c : Nat) (timer : Option Nat) :
    (f.withLapse c timer f.lapse).report v .lapse true none =
      (if f.lapse.set = true ∨ v.masked .lapse = true then f
        else f.produce v (LatchId.lapse.noticeBody .raised 0 f.detail)).withLapse c timer
        (f.lapse.afterTrip (f.raisedNumber v .lapse 0) f.lapse.alarms) := by
  have quiet : ¬ f.tells v ⟨.lapse, true, none⟩ = true ↔
      f.lapse.set = true ∨ v.masked .lapse = true := by
    rw [Faults.tells_trip_iff, not_and_or, Bool.not_eq_false, Bool.not_eq_false]
    rfl
  rw [Faults.report_lapse inService, ← if_congr quiet rfl rfl, ite_not]
  rfl

/-- LAPSE is released: a marked latch that acts as HELD is cleared, with a CLEARED notice where it is
not masked (R145). -/
theorem Faults.release_lapse (inService : v.mode.inService = true) (c : Nat)
    (timer : Option Nat) :
    (f.withLapse c timer f.lapse).report v .lapse false none =
      (if f.lapse.set = true ∧ f.lapse.acknowledged = true ∧ v.isHeld .lapse = true ∧
          v.masked .lapse = false then
        f.produce v (LatchId.lapse.noticeBody .cleared 0 f.detail) else f).withLapse c timer
        (f.lapse.afterRelease (v.isHeld .lapse) f.lapse.alarms) := by
  have held : v.latches .lapse = v.isHeld .lapse := Bool.and_true _
  have told : f.tells v ⟨.lapse, false, none⟩ = true ↔
      f.lapse.set = true ∧ f.lapse.acknowledged = true ∧ v.isHeld .lapse = true ∧
        v.masked .lapse = false := by
    rw [Faults.tells_release_iff, ← held]
    show (f.lapse.set = true ∧ v.latches .lapse = true ∧ v.masked .lapse = false) ∧
      f.lapse.acknowledged = true ↔ _
    tauto
  rw [Faults.report_lapse inService, if_congr told rfl rfl, held]
  rfl

/-! ## The way into HOLD and back (R159) -/

theorem close_faults_hold (hold : s.site.mode = .hold) :
    (close s).faults = s.faults.afterRoomMade (!s.depositOutstanding) :=
  (close_log s (by simp [hold])).trans (if_pos hold)

theorem close_faults_serving (serving : s.site.mode = .serving) : (close s).faults = s.faults :=
  (close_log s (by simp [serving])).trans (if_neg (by simp [serving]))

/-- An event that changes the mode and the Fault Reporter, and its end, outside STOPPING: beside the
log side only the mode differs. -/
theorem OnlyLog.close_setMode (s : State) (m : Mode) (f : Faults) (running : m ≠ .stopping) :
    let t := close ((s.setMode m).setFaults f)
    t.site.mode = m ∧ OnlyLog s (t.setSite { t.site with mode := s.site.mode }) := by
  intro t
  refine ⟨congrArg Site.mode (close_site ((s.setMode m).setFaults f) running), ?_⟩
  have log : OnlyLog (s.setMode m) t := OnlyLog.close_setFaults (s.setMode m) f running
  exact congrArg (fun u : State => u.setSite { u.site with mode := s.site.mode }) log

/-- The return to SERVING: LAPSE is released, and the lapse timer starts at a ring that is not empty
(R158, R159). -/
theorem Faults.leaveHold_eq (inService : v.mode.inService = true) (c period : Nat) :
    Faults.leaveHold v period { f with consumer := c } =
      (if f.lapse.set = true ∧ f.lapse.acknowledged = true ∧ v.isHeld .lapse = true ∧
          v.masked .lapse = false then
        f.produce v (LatchId.lapse.noticeBody .cleared 0 f.detail) else f).withLapse c
        (if f.producer = c ∨ period = 0 then f.lapseTimer else some period)
        (f.lapse.afterRelease (v.isHeld .lapse) f.lapse.alarms) := by
  have empty (g : Faults) (same : SameRing f g) (l : Latch) :
      (g.withLapse c f.lapseTimer l).ringEmpty = decide (f.producer = c) := by
    rw [← same.1]
    rfl
  have released := Faults.release_lapse inService c f.lapseTimer (f := f)
  unfold Faults.leaveHold
  simp only
  rw [show ({ f with consumer := c } : Faults) = f.withLapse c f.lapseTimer f.lapse from rfl,
    released, empty _ (by split; exacts [f.produce_ring v _, .refl f])]
  by_cases consumed : f.producer = c
  · simp [consumed]
  · simp [consumed, Faults.startLapse_withLapse]

theorem Faults.latch_leaveHold_ne (f : Faults) (inService : v.mode.inService = true)
    (c period : Nat) {j : LatchId} (other : j ≠ .lapse) :
    (Faults.leaveHold v period { f with consumer := c }).latch j = f.latch j := by
  rw [Faults.leaveHold_eq inService, Faults.latch_withLapse_ne _ _ _ _ other]
  split
  · exact f.latch_produce v _ j
  · rfl

theorem Faults.lapseAfterConsume_eq (c period : Nat) :
    Faults.lapseAfterConsume period { f with consumer := c } =
      { f with
        consumer := c
        lapseTimer :=
          if f.producer = c then none
          else if period = 0 then f.lapseTimer else some period } := by
  unfold Faults.lapseAfterConsume Faults.startLapse
  by_cases consumed : f.producer = c
  · simp [Faults.ringEmpty, consumed]
  · by_cases off : period = 0 <;> simp [Faults.ringEmpty, consumed, off]

theorem not_accepts_iff (value : Nat) :
    ¬ f.accepts value = true ↔ f.ringSize ≤ value ∨
      (f.producer + f.ringSize - f.consumer) % f.ringSize <
        (value + f.ringSize - f.consumer) % f.ringSize := by
  rw [f.accepts_iff]
  omega

/-- Settles O27: an accepted value moves the index by the mode, and its event ends; any other is
refused. -/
theorem consumerWriteMovesTheIndexOrIsRefused :
    Obligations.ConsumerWriteMovesTheIndexOrIsRefused := by
  refine ⟨fun s v below onTheWay => ?_, fun s v refused => ?refused⟩
  · have accepted := (s.faults.accepts_iff v.toNat).mpr ⟨below, onTheWay⟩
    have meaning (mode : s.site.mode = .serving ∨ s.site.mode = .hold ∨ s.site.mode = .config) :=
      exec_consumerWrite ((Mode.admitsWrites_iff _).mpr mode) accepted
    refine ⟨fun serving => ?serving, fun hold => ?hold, fun config => ?config⟩
    case serving =>
      have running : s.site.mode ≠ .stopping := by simp [serving]
      have moved : consume v.toNat s = s.setFaults
          (Faults.lapseAfterConsume s.site.lapsePeriod { s.faults with consumer := v.toNat }) := by
        simp [consume, serving]
      rw [meaning (.inl serving), moved, Faults.lapseAfterConsume_eq]
      exact ⟨_, rfl, .close_setFaults s _ running, .close (s.setFaults _) running,
        close_faults_serving serving⟩
    case hold =>
      have moved : consume v.toNat s = (s.setMode .serving).setFaults
          (Faults.leaveHold (s.setMode .serving).faultView s.site.lapsePeriod
            { s.faults with consumer := v.toNat }) := by
        simp [consume, hold]
      obtain ⟨mode, log⟩ := OnlyLog.close_setMode s .serving
        (Faults.leaveHold (s.setMode .serving).faultView s.site.lapsePeriod
          { s.faults with consumer := v.toNat }) nofun
      rw [hold] at log
      refine ⟨_, (meaning (.inr (.inl hold))).trans (congrArg (Host.Outcome.next ∘ close) moved),
        log, mode, .close ((s.setMode .serving).setFaults _) nofun, ?_, fun j other => ?_⟩
      · refine (close_faults_serving rfl).trans ((Faults.leaveHold_eq rfl _ _).trans ?_)
        rw [Faults.produce_of_time (v := (s.setMode .serving).faultView) (w := s.faultView) rfl]
        rfl
      · exact (close_latch _ j).trans (s.faults.latch_leaveHold_ne rfl _ _ other)
    case config =>
      have moved : consume v.toNat s = s.setFaults { s.faults with consumer := v.toNat } := by
        simp [consume, config]
      rw [meaning (.inr (.inr config)), moved, close_idle]
      rw [State.setFaults_site, config]
      rfl
  case refused =>
    refine congrArg Host.Outcome.next (if_neg ?_)
    rw [Bool.and_eq_true, not_and_or, Mode.not_admitsWrites_iff, not_accepts_iff]
    tauto

/-! ## LAPSE_EXPIRY (R159) -/

theorem Faults.afterRoomMade_queue (f : Faults) (free : Bool) :
    (f.afterRoomMade free).queue = f.queue := by
  unfold Faults.afterRoomMade
  split <;> rfl

theorem Faults.afterRoomMade_producer (f : Faults) (free : Bool) :
    (f.afterRoomMade free).producer = f.producer := by
  unfold Faults.afterRoomMade
  split <;> rfl

theorem Faults.afterRoomMade_consumer (f : Faults) (free : Bool) :
    (f.afterRoomMade free).consumer =
      if free = true ∧ f.queue ≠ [] ∧ f.ringFull = true then (f.consumer + 1) % f.ringSize
      else f.consumer := by
  unfold Faults.afterRoomMade
  split <;> rfl

/-- The expiry stops the timer and trips LAPSE. -/
theorem lapseExpired_eq (s : State) :
    lapseExpired s = (s.setMode .hold).setFaults
      ((if s.faults.lapse.set = true ∨ s.faultView.masked .lapse = true then s.faults
        else s.faults.produce s.faultView
          (LatchId.lapse.noticeBody .raised 0 s.faults.detail)).withLapse s.faults.consumer none
        (s.faults.lapse.afterTrip (s.faults.raisedNumber s.faultView .lapse 0)
          s.faults.lapse.alarms)) := by
  have trip := Faults.trip_lapse (v := (s.setMode .hold).faultView) (f := s.faults) rfl
    s.faults.consumer none
  rw [Faults.produce_of_time (v := (s.setMode .hold).faultView) (w := s.faultView) rfl] at trip
  exact congrArg (s.setMode .hold).setFaults trip

/-- Settles O30: the trip of LAPSE in HOLD, and the end of its event there. -/
theorem lapseExpiryEntersHold : Obligations.LapseExpiryEntersHold := by
  intro s period serving running told lapsed
  have ring : SameRing s.faults told := by
    unfold told
    split
    · exact .refl _
    · exact s.faults.produce_ring _ _
  obtain ⟨producer, consumer, ringSize, -⟩ := ring
  have full : lapsed.ringFull = s.faults.ringFull :=
    Faults.ringFull_congr producer consumer ringSize
  have expired : lapseExpired s = (s.setMode .hold).setFaults lapsed := by
    rw [lapseExpired_eq, ← consumer]
    rfl
  obtain ⟨mode, log⟩ := OnlyLog.close_setMode s .hold lapsed nofun
  rw [serving] at log
  have faults : (close ((s.setMode .hold).setFaults lapsed)).faults =
      lapsed.afterRoomMade (!s.depositOutstanding) := close_faults_hold rfl
  refine ⟨close ((s.setMode .hold).setFaults lapsed), ?meaning, mode, log,
    .close ((s.setMode .hold).setFaults lapsed) nofun, faults, fun j other => ?latch, ?producer,
    ?consumer⟩
  case meaning =>
    rw [← expired]
    exact congrArg Host.Outcome.next (if_pos ⟨serving, by rw [running]; rfl⟩)
  case latch =>
    rw [close_latch]
    refine (told.latch_withLapse_ne told.consumer none _ other).trans ?_
    unfold told
    split
    · rfl
    · exact s.faults.latch_produce _ _ j
  case producer => rw [faults, Faults.afterRoomMade_producer, ← producer]
  case consumer =>
    rw [faults, Faults.afterRoomMade_consumer, Faults.afterRoomMade_queue, full,
      show lapsed.consumer = s.faults.consumer from consumer,
      show lapsed.ringSize = s.faults.ringSize from ringSize]
    simp only [Bool.not_eq_true']

end Sys2Proof.Machine
end

section
/-! DEPOSIT_ANSWER by the mode (O28), and what it acknowledges in HOLD (O29). -/
namespace Sys2Proof.Machine

open Sys2Proof

variable {s : State} {f : Faults} {v : FaultView} {x : Notice} {queue : List Notice}
  {answer : Answer}

/-! ## Step 1: the notice leaves the queue (R154) -/

theorem Faults.deposited_eq (queued : f.queue = x :: queue) :
    f.deposited answer =
      if answer = .okay then
        { f with queue := queue, producer := (f.producer + 1) % f.ringSize }
      else { f with queue := queue, depositFault := true } := by
  cases answer <;> simp [Faults.deposited, queued]

@[simp] theorem Faults.latch_deposited (f : Faults) (answer) (j : LatchId) :
    (f.deposited answer).latch j = f.latch j := by
  cases answer <;> cases j <;> rfl

/-- The producer index, moved on in a ring of more than one entry, is another. -/
theorem next_index_ne {producer size : Nat} (many : 1 < size) (below : producer < size) :
    (producer + 1) % size ≠ producer := by
  rcases Nat.lt_or_ge (producer + 1) size with inside | last
  · rw [Nat.mod_eq_of_lt inside]
    omega
  · rw [show producer + 1 = size by omega, Nat.mod_self]
    omega

/-! ## Step 2: the acknowledgement of HOLD (R156) -/

theorem Faults.raisedBy_deposited (id : LatchId) :
    (f.deposited answer).RaisedBy x id ↔ f.RaisedBy x id := by
  simp [Faults.RaisedBy]

theorem Faults.holdLatch_eq_some_iff (id : LatchId) :
    f.holdLatch x = some id ↔ f.RaisedBy x id := by
  unfold Faults.holdLatch Faults.RaisedBy
  split
  · next j kind latch =>
    rw [kind, latch]
    simp only [Option.ite_none_right_eq_some, Option.some.injEq, true_and]
    constructor
    · rintro ⟨set, rfl⟩
      exact ⟨rfl, set⟩
    · rintro ⟨rfl, set⟩
      exact ⟨set, rfl⟩
  · next other =>
    refine iff_of_false nofun ?_
    rintro ⟨kind, latch, -⟩
    exact other id kind latch

theorem Faults.holdAcknowledge_raised (hold : v.mode = .hold) {id : LatchId}
    (raised : f.RaisedBy x id) : f.holdAcknowledge v .okay x = f.acknowledge v id := by
  simp [Faults.holdAcknowledge, hold, (Faults.holdLatch_eq_some_iff id).mpr raised]

theorem Faults.holdAcknowledge_none
    (why : v.mode ≠ .hold ∨ answer = .fault ∨ ∀ id, ¬ f.RaisedBy x id) :
    f.holdAcknowledge v answer x = f := by
  unfold Faults.holdAcknowledge
  split
  · next acts =>
    obtain ⟨okay, hold⟩ := acts
    rcases why with other | fault | unraised
    · exact absurd hold other
    · rw [okay] at fault
      cases fault
    · split
      · next id found => exact absurd ((Faults.holdLatch_eq_some_iff id).mp found) (unraised id)
      · rfl
  · rfl

/-! ## Steps 3 and 4: the lapse timer and the SUPPRESSED notice (R151, R158) -/

theorem Faults.lapseAfterDeposit_of_ne {m : Mode} (other : m ≠ .serving) (period : Nat)
    (wasEmpty : Bool) : f.lapseAfterDeposit m period wasEmpty = f :=
  if_neg fun ⟨serving, _⟩ => other serving

/-- In SERVING the timer starts where the answer is OKAY and the ring was empty, for a period above
0. -/
theorem Faults.lapseAfterDeposit_serving (many : 1 < f.ringSize) (below : f.producer < f.ringSize)
    (period : Nat) :
    (f.deposited answer).lapseAfterDeposit .serving period f.ringEmpty =
      { f.deposited answer with
        lapseTimer :=
          if answer = .okay ∧ f.producer = f.consumer ∧ period ≠ 0 then some period
          else f.lapseTimer } := by
  unfold Faults.lapseAfterDeposit Faults.startLapse
  cases answer with
  | fault =>
    have empty : (f.deposited .fault).ringEmpty = f.ringEmpty := rfl
    rw [empty, if_neg (by simp), if_neg (by simp)]
    rfl
  | okay =>
    by_cases was : f.producer = f.consumer
    · have filled : (f.deposited .okay).ringEmpty = false :=
        decide_eq_false fun same => next_index_ne many below (same.trans was.symm)
      rw [if_pos ⟨rfl, decide_eq_true was, filled⟩]
      by_cases off : period = 0
      · simp [off, Faults.deposited]
      · simp [was, off]
    · simp [was, Faults.ringEmpty, Faults.deposited]

theorem Faults.reportSuppressed_inService (inService : v.mode.inService = true) :
    f.reportSuppressed v = f.afterSuppressedReport v.time := by
  unfold Faults.reportSuppressed Faults.afterSuppressedReport
  by_cases reports : f.queue = [] ∧ 0 < f.suppressed
  · rw [if_pos ⟨reports.1, reports.2, inService⟩, if_pos reports]
    simp [Faults.enqueueSuppressed, Faults.enqueue, suppressedBody, reports.1]
  · rw [if_neg fun h => reports ⟨h.1, h.2.1⟩, if_neg reports]

theorem Faults.reportSuppressed_idle (idle : v.mode.inService = false) :
    f.reportSuppressed v = f :=
  if_neg fun ⟨_, _, inService⟩ => by simp [idle] at inService

/-- The report of what was suppressed does not look at the lapse timer. -/
theorem Faults.afterSuppressedReport_lapseTimer (time : BitVec 32) (timer : Option Nat) :
    Faults.afterSuppressedReport time { f with lapseTimer := timer } =
      { f.afterSuppressedReport time with lapseTimer := timer } := by
  unfold Faults.afterSuppressedReport
  simp only
  split <;> rfl

theorem Faults.latch_lapseAfterDeposit (f : Faults) (m period wasEmpty) (j : LatchId) :
    (f.lapseAfterDeposit m period wasEmpty).latch j = f.latch j := by
  unfold Faults.lapseAfterDeposit Faults.startLapse
  split
  · split
    · rfl
    · cases j <;> rfl
  · rfl

theorem Faults.latch_reportSuppressed (f : Faults) (v) (j : LatchId) :
    (f.reportSuppressed v).latch j = f.latch j := by
  unfold Faults.reportSuppressed
  split
  · exact f.latch_enqueueSuppressed v j
  · rfl

/-! ## The answer by the mode (R154) -/

theorem Faults.depositAnswered_serving (serving : v.mode = .serving) (many : 1 < f.ringSize)
    (below : f.producer < f.ringSize) (period : Nat) :
    f.depositAnswered v period answer x =
      { (f.deposited answer).afterSuppressedReport v.time with
        lapseTimer :=
          if answer = .okay ∧ f.producer = f.consumer ∧ period ≠ 0 then some period
          else f.lapseTimer } := by
  have unacknowledged : (f.deposited answer).holdAcknowledge v answer x = f.deposited answer :=
    Faults.holdAcknowledge_none (.inl (by simp [serving]))
  rw [Faults.depositAnswered, unacknowledged, serving, Faults.lapseAfterDeposit_serving many below,
    Faults.reportSuppressed_inService (by rw [serving]; rfl),
    Faults.afterSuppressedReport_lapseTimer]

theorem Faults.depositAnswered_hold (hold : v.mode = .hold) (period : Nat) :
    f.depositAnswered v period answer x =
      ((f.deposited answer).holdAcknowledge v answer x).afterSuppressedReport v.time := by
  rw [Faults.depositAnswered, Faults.lapseAfterDeposit_of_ne (by simp [hold]),
    Faults.reportSuppressed_inService (by rw [hold]; rfl)]

theorem Faults.depositAnswered_idle (idle : v.mode.inService = false) (period : Nat) :
    f.depositAnswered v period answer x = f.deposited answer := by
  have other : v.mode ≠ .hold ∧ v.mode ≠ .serving := by
    constructor <;> intro mode <;> rw [mode] at idle <;> cases idle
  rw [Faults.depositAnswered, Faults.reportSuppressed_idle idle,
    Faults.lapseAfterDeposit_of_ne other.2, Faults.holdAcknowledge_none (.inl other.1)]

/-- Of the latches an answer touches those alone that HOLD acknowledges. -/
theorem Faults.latch_depositAnswered (f : Faults) (v period answer x) (j : LatchId) :
    (f.depositAnswered v period answer x).latch j =
      ((f.deposited answer).holdAcknowledge v answer x).latch j := by
  rw [Faults.depositAnswered, Faults.latch_reportSuppressed, Faults.latch_lapseAfterDeposit]

/-! ## The row -/

/-- The path once the own access in flight is answered. -/
def Path.ownDone (rest : List Granted) (p : Path) : Path :=
  { p with granted := rest, ownInFlight := none }

section
variable {g : Granted} {rest : List Granted} {d : OwnAccess} (granted : s.path.granted = g :: rest)
  (own : g.own = true) (inFlight : s.path.ownInFlight = some d) (write : d.access.kind = .write)
  (queued : s.faults.queue = x :: queue)
include granted own inFlight write queued

theorem exec_depositAnswer (answer : Answer) :
    exec (.depositAnswer answer) s =
      .next (close ((s.setPath (s.path.ownDone rest)).setFaults
        (s.faults.depositAnswered s.faultView s.site.lapsePeriod answer x))) := by
  have answering : s.path.answeringOwn .write = some d := by
    simp [Path.answeringOwn, granted, inFlight, own, write]
  have path : s.path.ownAnswered = s.path.ownDone rest := by
    simp [Path.ownAnswered, Path.ownDone, granted]
  simp only [exec, execDepositAnswer, answering, queued, path]

end

/-- Behind the answer a deposit is outstanding where one is presented. -/
theorem depositOutstanding_ownDone (s : State) (rest : List Granted) (f : Faults) :
    ((s.setPath (s.path.ownDone rest)).setFaults f).depositOutstanding =
      s.path.ownPresented.any OwnAccess.isDeposit :=
  Bool.or_false _

/-- Beside Site Control, the path and the Fault Reporter, an event that changed those two and its end
change nothing. -/
theorem close_setPath_setFaults (s : State) (p : Path) (f : Faults) :
    let t := close ((s.setPath p).setFaults f)
    (t.setFaults s.faults).setPath s.path = s.setSite t.site :=
  State.ext_parts (close_pending _) rfl rfl (close_stages _) (close_carriers _) (close_links _)
    (close_linkRate _) (close_units _) (close_pollTimer _) (close_steering _) rfl

/-- Settles O28: the four steps of the answer by the mode, and the end of the event. -/
theorem depositAnswerByTheMode : Obligations.DepositAnswerByTheMode := by
  intro s g rest d x queue answer granted own inFlight write queued free path settled
  have meaning := exec_depositAnswer granted own inFlight write queued answer
  have deposited : s.faults.deposited answer = settled := Faults.deposited_eq queued
  obtain ⟨answered, steps⟩ :
      ∃ f, s.faults.depositAnswered s.faultView s.site.lapsePeriod answer x = f := ⟨_, rfl⟩
  rw [steps] at meaning
  have outstanding : (!((s.setPath path).setFaults answered).depositOutstanding) = free :=
    congrArg not (depositOutstanding_ownDone s rest answered)
  have presents (running : s.site.mode ≠ .stopping) :
      PresentsNext free path (close ((s.setPath path).setFaults answered)) := by
    rw [← outstanding]
    exact .close ((s.setPath path).setFaults answered) running
  refine ⟨_, meaning, fun serving many below => ?serving, fun hold => ?hold,
    fun stopping => ?stopping⟩
  case serving =>
    have running : s.site.mode ≠ .stopping := by simp [serving]
    rw [Faults.depositAnswered_serving serving many below, deposited] at steps
    exact ⟨.close_setFaults _ answered running, presents running,
      (close_faults_serving (s := (s.setPath path).setFaults answered) serving).trans steps.symm⟩
  case hold =>
    have running : s.site.mode ≠ .stopping := by simp [hold]
    rw [Faults.depositAnswered_hold hold, deposited] at steps
    have faults := close_faults_hold (s := (s.setPath path).setFaults answered) hold
    rw [outstanding] at faults
    have raisedBy (id) : settled.RaisedBy x id ↔ s.faults.RaisedBy x id := by
      rw [← deposited, Faults.raisedBy_deposited]
    refine ⟨.close_setFaults _ answered running, presents running,
      fun id okay raised => faults.trans (congrArg (Faults.afterRoomMade free) ?_),
      fun why => faults.trans (congrArg (Faults.afterRoomMade free) ?_)⟩
    · rw [okay, Faults.holdAcknowledge_raised hold ((raisedBy id).mpr raised)] at steps
      exact steps.symm
    · rw [Faults.holdAcknowledge_none
        (.inr (why.imp_right fun none id => none id ∘ (raisedBy id).mp))] at steps
      exact steps.symm
  case stopping =>
    rw [Faults.depositAnswered_idle (congrArg Mode.inService stopping), deposited] at steps
    have faults := close_stopping_faults (s := (s.setPath path).setFaults answered) stopping
    have goesOn := StopGoesOn.close (s := (s.setPath path).setFaults answered) stopping
    rw [outstanding] at faults goesOn
    exact ⟨faults.trans (congrArg (Faults.afterFullRing free) steps.symm),
      close_setPath_setFaults s path answered, close_site_mode _, goesOn⟩

/-- Settles O29: of the steps of the answer the acknowledgement of HOLD alone acts on a latch. -/
theorem holdAcknowledgesTheDepositedRaise : Obligations.HoldAcknowledgesTheDepositedRaise := by
  intro s g rest d x queue answer granted own inFlight write queued
  have latch (id : LatchId) := (close_latch ((s.setPath (s.path.ownDone rest)).setFaults
    (s.faults.depositAnswered s.faultView s.site.lapsePeriod answer x)) id).trans
      (s.faults.latch_depositAnswered s.faultView s.site.lapsePeriod answer x id)
  refine ⟨_, exec_depositAnswer granted own inFlight write queued answer,
    fun id hold okay raised => ?_, fun why j => ?_⟩
  · subst okay
    have acknowledged := Faults.holdAcknowledge_raised (v := s.faultView) hold
      ((Faults.raisedBy_deposited (answer := .okay) id).mpr raised)
    refine ⟨?_, fun j other => ?_⟩
    · rw [latch, acknowledged, Faults.latch_acknowledge_self, Faults.latch_deposited]
      rfl
    · rw [latch, acknowledged, Faults.latch_acknowledge_ne _ _ other, Faults.latch_deposited]
  · have unraised : s.faultView.mode ≠ .hold ∨ answer = .fault ∨
        ∀ id, ¬ (s.faults.deposited answer).RaisedBy x id :=
      why.imp_right (Or.imp_right fun none id => none id ∘ (Faults.raisedBy_deposited id).mp)
    rw [latch, Faults.holdAcknowledge_none unraised, Faults.latch_deposited]

end Sys2Proof.Machine
end

section
/-! What reads of ACTION and OVERLAID words return, and what another operator does not see (O13). -/
namespace Sys2Proof.Machine

open Sys2Proof

/-! ## Codes fit their fields (Table 10-1) -/

theorem bit_lt (b : Bool) : bit b < 2 ^ 1 := by cases b <;> decide

theorem Mode.code_lt (m : Mode) : m.code < 2 ^ 3 := by cases m <;> decide

theorem ErrorCode.code_lt (e : ErrorCode) : e.code < 2 ^ 4 := by cases e <;> decide

theorem Outcome.code_lt (o : Outcome) : o.code < 2 ^ 4 := by cases o <;> decide

theorem CarrierState.code_lt (c : CarrierState) : c.code < 2 ^ 3 := by cases c <;> decide

theorem UnitState.code_lt (u : UnitState) : u.code < 2 ^ 3 := by cases u <;> decide

theorem Trend.code_lt (t : Trend) : t.code < 2 ^ 3 := by cases t <;> decide

theorem RefusalReason.code_lt (r : RefusalReason) : r.code < 2 ^ 2 := by cases r <;> decide

theorem AccessKind.code_lt (k : AccessKind) : k.code < 2 ^ 1 := by cases k <;> decide

theorem PostMode.code_lt (m : PostMode) : m.code < 2 ^ 2 := by cases m <;> decide

theorem Command.code_lt (c : Command) : c.code < 2 ^ 3 := by cases c <;> simp [Command.code]

theorem operatorCode_eq (k : Option Operator) : operatorCode k = k.elim 0 fun k => k.val + 1 := by
  cases k <;> rfl

theorem operatorCode_lt (k : Option Operator) : operatorCode k < 2 ^ 3 := by
  cases k with
  | none => decide
  | some k => exact Nat.lt_of_le_of_lt k.isLt (by decide)

theorem sectorCode_eq (d : Option SectorId) : sectorCode d = d.elim 15 fun d => d.val := by
  cases d <;> rfl

theorem sectorCode_lt (d : Option SectorId) : sectorCode d < 2 ^ 4 := by
  cases d with
  | none => decide
  | some d => exact d.isLt.trans (by decide)

/-! ## Descriptor words (Table 10-2) -/

section
variable (s : State)

theorem readMode_toNat : (readMode s).toNat = s.site.mode.code + 2 ^ 8 * s.site.error.code := by
  rw [readMode, toNat_pack _ rfl]
  simp only [placedSum_cons, placedSum_nil, Nat.mod_eq_of_lt, Mode.code_lt, ErrorCode.code_lt]
  omega

theorem readConsumer_toNat : (readConsumer s).toNat = s.faults.consumer % 65536 := by
  rw [readConsumer, toNat_pack _ rfl, placedSum_cons, placedSum_nil]
  omega

theorem readLogStatus_toNat :
    (readLogStatus s).toNat =
      s.faults.producer % 65536 + 2 ^ 16 * (s.faults.ringSize % 65536) +
        2 ^ 32 * s.faults.ringFull.toNat + 2 ^ 33 * (decide (s.site.mode = .hold)).toNat +
        2 ^ 34 * s.faults.depositFault.toNat + 2 ^ 48 * (s.faults.suppressed % 65536) := by
  have hold : (s.site.mode == .hold) = decide (s.site.mode = .hold) := rfl
  rw [readLogStatus, toNat_pack _ rfl, hold]
  simp only [placedSum_cons, placedSum_nil, Nat.mod_eq_of_lt, bit_lt]
  simp only [bit_eq_toNat]
  omega

theorem readSiteFaults_toNat :
    (readSiteFaults s).toNat =
      s.faults.protection.set.toNat + 2 ^ 2 * s.faults.lapse.condition.toNat +
        2 ^ 3 * s.faults.lapse.set.toNat + 2 ^ 4 * s.faults.lapse.acknowledged.toNat +
        2 ^ 8 * s.faults.detail.initiator.val + 2 ^ 12 * s.faults.detail.reason.code +
        2 ^ 14 * s.faults.detail.kind.code + 2 ^ 32 * s.faults.detail.address.toNat := by
  have initiator : s.faults.detail.initiator.val < 2 ^ 3 := s.faults.detail.initiator.isLt
  rw [readSiteFaults, toNat_pack _ rfl]
  simp only [placedSum_cons, placedSum_nil, Nat.mod_eq_of_lt, bit_lt, initiator,
    RefusalReason.code_lt, AccessKind.code_lt, BitVec.isLt]
  simp only [bit_eq_toNat]
  omega

theorem readTime_toNat : (readTime s).toNat = s.site.time.toNat := by
  rw [readTime, toNat_pack _ rfl, placedSum_cons, placedSum_nil, Nat.mod_eq_of_lt (BitVec.isLt _)]
  omega

end

/-! ## Stage words (Table 10-5) -/

theorem Stage.status_toNat (g : Stage) :
    g.status.toNat =
      g.front.mode.code + 2 ^ 8 * g.front.slot.toNat + 2 ^ 16 * g.back.isSome.toNat +
        2 ^ 17 * g.pending.toNat + 2 ^ 24 * g.lastOutcome.code + 2 ^ 32 * g.lastSlot.toNat +
        2 ^ 40 * g.serial.toNat := by
  rw [Stage.status, toNat_pack _ rfl]
  simp only [placedSum_cons, placedSum_nil, Nat.mod_eq_of_lt, bit_lt, PostMode.code_lt,
    Outcome.code_lt, BitVec.isLt]
  simp only [bit_eq_toNat]
  omega

/-- s3 shows the slots below 64 of a changed set, and s4 the rest. -/
theorem changedSet_halves (changed : BitVec 96) (n : SlotId) :
    changed.getLsbD n.val =
      if n.val < 64 then (changed.setWidth 64).getLsbD n.val
      else ((changed >>> 64).setWidth 64).getLsbD (n.val - 64) := by
  split
  · next low => simp [low]
  · next high =>
    have place : 64 + (n.val - 64) = n.val := by omega
    have inWord : n.val - 64 < 64 := by omega
    simp [place, inWord]

theorem changedSet_high_unused (changed : BitVec 96) {i : Nat} (unused : 32 ≤ i) :
    ((changed >>> 64).setWidth 64).getLsbD i = false := by
  have past : changed.getLsbD (64 + i) = false := BitVec.getLsbD_of_ge _ _ (by omega)
  simp [past]

/-! ## Concealment (R9) -/

theorem concealed_iff (role : Role) (owner : Option Operator) :
    concealed role owner = true ↔ ∃ j k, role = .operator j ∧ owner = some k ∧ j ≠ k := by
  cases role <;> cases owner <;> simp [concealed]

section
variable {s : State} {role : Role}

theorem readCarrier_concealed {n : SlotId} (w : Fin 4) {k : Operator}
    (owned : (s.context n).owner = some k) (other : ∃ j, role = .operator j ∧ j ≠ k) :
    readCarrier s role n w = 0 := by
  obtain ⟨j, reader, ne⟩ := other
  exact if_pos ((concealed_iff _ _).mpr ⟨j, k, reader, owned, ne⟩)

theorem readCarrier_shown {n : SlotId} (w : Fin 4)
    (own : ∀ j k, role = .operator j → (s.context n).owner = some k → j = k) :
    readCarrier s role n w = (s.context n).word n w := by
  refine if_neg fun hidden => ?_
  obtain ⟨j, k, reader, owned, ne⟩ := (concealed_iff _ _).mp hidden
  exact ne (own j k reader owned)

theorem readCell_concealed (d : SectorId) {k : Operator}
    (other : ∃ j, role = .operator j ∧ j ≠ k) : readCell s role d k = 0 := by
  obtain ⟨j, reader, ne⟩ := other
  exact if_pos ((concealed_iff _ _).mpr ⟨j, k, reader, rfl, ne⟩)

theorem readCell_shown (d : SectorId) {k : Operator} (own : ∀ j, role = .operator j → j = k) :
    readCell s role d k = (s.steering.cell d k).word := by
  refine if_neg fun hidden => ?_
  obtain ⟨j, _, reader, ⟨⟩, ne⟩ := (concealed_iff _ _).mp hidden
  exact ne (own j reader)

end

/-! ## Carrier words (Table 10-6) -/

section
variable (c : Context) (n : SlotId)

theorem Context.word_zero_toNat :
    (c.word n 0).toNat =
      c.state.code + 2 ^ 8 * c.owner.elim 0 (fun k => k.val + 1) + 2 ^ 16 * (n.val / 4) +
        2 ^ 24 * (n.val % 4) + 2 ^ 32 * c.held.isSome.toNat + 2 ^ 33 * c.ready.toNat := by
  have unit : n.val / 4 < 2 ^ 5 := by omega
  have index : n.val % 4 < 2 ^ 2 := by omega
  rw [Context.word, toNat_pack _ rfl]
  simp only [placedSum_cons, placedSum_nil, Nat.mod_eq_of_lt, bit_lt, CarrierState.code_lt,
    operatorCode_lt, slotUnit, slotIndex, unit, index]
  simp only [bit_eq_toNat, operatorCode_eq]
  omega

theorem tuningWord_toNat (t : Option Tuning) :
    (tuningWord t).toNat =
      t.elim 0 fun t => t.channel.toNat + 2 ^ 16 * t.bandwidth.toNat + 2 ^ 24 * t.power.toNat := by
  cases t with
  | none => rfl
  | some t =>
    rw [tuningWord, toNat_pack _ rfl]
    simp only [placedSum_cons, placedSum_nil, Nat.mod_eq_of_lt, BitVec.isLt, Option.elim_some]
    omega

theorem Context.shownSummary_eq :
    c.shownSummary =
      if c.state = .searching then
        c.search.elim c.summary fun r => ⟨r.candidate, r.lastLevel, r.steps⟩
      else c.summary := by
  unfold Context.shownSummary
  split
  · next searching running => rw [if_pos searching, running]; rfl
  · next other =>
    split
    · next searching =>
      cases running : c.search with
      | none => rfl
      | some r => exact (other r searching running).elim
    · rfl

theorem Context.word_three_toNat :
    (c.word n 3).toNat =
      c.outcome.code + 2 ^ 4 * c.bandLimit.toNat + 2 ^ 8 * c.reason.toNat +
        2 ^ 16 * c.shownSummary.candidate.toNat + 2 ^ 32 * (c.shownSummary.lastLevel % 16) +
        2 ^ 48 * (c.shownSummary.steps % 65536) := by
  rw [Context.word, toNat_pack _ rfl]
  simp only [placedSum_cons, placedSum_nil, Nat.mod_eq_of_lt, bit_lt, Outcome.code_lt, BitVec.isLt]
  simp only [bit_eq_toNat]
  omega

end

/-! ## Flags in groups of four bits (u1 and d3) -/

/-- In each group of four bits a condition, a latch and a mark, and an unused bit. -/
def flagGroups {n : Nat} (condition : Fin n → Bool) (latch : Fin n → Latch) : List Placed :=
  (List.finRange n).flatMap fun k =>
    [⟨4 * k.val, 1, bit (condition k)⟩, ⟨4 * k.val + 1, 1, bit (latch k).set⟩,
      ⟨4 * k.val + 2, 1, bit (latch k).acknowledged⟩]

theorem Placed.holds_bit (i lo : Nat) (b : Bool) :
    Placed.holds i ⟨lo, 1, bit b⟩ = (decide (i = lo) && b) := by
  by_cases here : i = lo
  · subst here
    cases b <;> simp [Placed.holds, bit]
  · have apart : ¬ (lo ≤ i ∧ i < lo + 1) := by omega
    rw [Placed.holds, ← Bool.decide_and, decide_eq_false apart, decide_eq_false here,
      Bool.false_and, Bool.false_and]

section
variable {n : Nat} (condition : Fin n → Bool) (latch : Fin n → Latch)

theorem any_holds_flagGroups_iff (i : Nat) :
    (flagGroups condition latch).any (Placed.holds i) = true ↔
      ∃ k : Fin n, (i = 4 * k.val ∧ condition k = true) ∨
        (i = 4 * k.val + 1 ∧ (latch k).set = true) ∨
        (i = 4 * k.val + 2 ∧ (latch k).acknowledged = true) := by
  simp [flagGroups, List.any_flatMap, Placed.holds_bit]

/-- Bit 4k is the condition of group k, bit 4k + 1 its latch and bit 4k + 2 its mark. -/
theorem any_holds_flagGroups (k : Fin n) :
    (flagGroups condition latch).any (Placed.holds (4 * k.val)) = condition k ∧
    (flagGroups condition latch).any (Placed.holds (4 * k.val + 1)) = (latch k).set ∧
    (flagGroups condition latch).any (Placed.holds (4 * k.val + 2)) = (latch k).acknowledged := by
  have group {j : Fin n} (same : k.val = j.val) : k = j := Fin.ext same
  refine ⟨?condition, ?set, ?acknowledged⟩ <;>
    rw [Bool.eq_iff_iff, any_holds_flagGroups_iff]
  case condition =>
    refine ⟨?_, fun h => ⟨k, .inl ⟨rfl, h⟩⟩⟩
    rintro ⟨j, ⟨place, h⟩ | ⟨place, -⟩ | ⟨place, -⟩⟩
    · rwa [group (by omega : k.val = j.val)]
    all_goals omega
  case set =>
    refine ⟨?_, fun h => ⟨k, .inr (.inl ⟨rfl, h⟩)⟩⟩
    rintro ⟨j, ⟨place, -⟩ | ⟨place, h⟩ | ⟨place, -⟩⟩
    · omega
    · rwa [group (by omega : k.val = j.val)]
    · omega
  case acknowledged =>
    refine ⟨?_, fun h => ⟨k, .inr (.inr ⟨rfl, h⟩)⟩⟩
    rintro ⟨j, ⟨place, -⟩ | ⟨place, -⟩ | ⟨place, h⟩⟩
    · omega
    · omega
    · rwa [group (by omega : k.val = j.val)]

theorem any_holds_flagGroups_unused {i : Nat} (unused : i % 4 = 3 ∨ 4 * n ≤ i) :
    (flagGroups condition latch).any (Placed.holds i) = false := by
  rw [Bool.eq_false_iff, ne_eq, any_holds_flagGroups_iff]
  rintro ⟨k, ⟨place, -⟩ | ⟨place, -⟩ | ⟨place, -⟩⟩ <;> omega

end

/-! ## Unit words (Table 10-7) -/

section
variable (s : State) (n : UnitId)

theorem readU0_toNat :
    (readU0 s n).toNat =
      (s.unit n).state.code + 2 ^ 4 * (s.unit n).impaired.toNat +
        2 ^ 5 * (s.unit n).exhausted.toNat + 2 ^ 8 * ((s.unit n).attempts % 256) +
        2 ^ 16 * (s.steering.sectorOf n).elim 15 (fun d => d.val) := by
  rw [readU0, toNat_pack _ rfl]
  simp only [placedSum_cons, placedSum_nil, Nat.mod_eq_of_lt, bit_lt, UnitState.code_lt,
    sectorCode_lt]
  simp only [bit_eq_toNat, sectorCode_eq]
  omega

theorem UnitRecord.conditionOf_eq (u : UnitRecord) (k : UnitKind) :
    u.conditionOf k =
      if h : k.val < 4 then (u.filters.get ⟨k.val, h⟩).present
      else if k.val = 4 then u.silent else if k.val = 5 then u.garbled else false := by
  fin_cases k <;> rfl

theorem readU1_getLsbD (i : Nat) :
    (readU1 s n).getLsbD i =
      (flagGroups (s.unit n).conditionOf fun k => s.faults.latch (.unit n k)).any
        (Placed.holds i) :=
  getLsbD_pack (flagGroups (s.unit n).conditionOf fun k => s.faults.latch (.unit n k)) rfl i

theorem readU2_toNat :
    (readU2 s n).toNat =
      (s.link n).counters.framing % 256 + 2 ^ 8 * ((s.link n).counters.noise % 256) +
        2 ^ 16 * ((s.link n).counters.check % 256) + 2 ^ 24 * ((s.link n).counters.stray % 256) +
        2 ^ 32 * ((s.link n).counters.resends % 256) +
        2 ^ 40 * ((s.link n).counters.timeouts % 256) := by
  rw [readU2, toNat_pack _ rfl]
  simp only [placedSum_cons, placedSum_nil]
  omega

theorem readU3_toNat :
    (readU3 s n).toNat = (s.unit n).lastAlarms.toNat + 2 ^ 32 * (s.unit n).lastTime.toNat := by
  rw [readU3, toNat_pack _ rfl]
  simp only [placedSum_cons, placedSum_nil, Nat.mod_eq_of_lt, BitVec.isLt]
  omega

theorem readU4_eq :
    readU4 s n = if (s.unit n).admin = .goOut then 0x100#64 else 0x200#64 := by
  rw [readU4]
  cases (s.unit n).admin <;> rfl

theorem figuresWord_toNat (a b : Figures) :
    (figuresWord a b).toNat =
      a.users % 1024 + 2 ^ 16 * (a.attaches % 256) + 2 ^ 32 * (b.users % 1024) +
        2 ^ 48 * (b.attaches % 256) := by
  rw [figuresWord, toNat_pack _ rfl]
  simp only [placedSum_cons, placedSum_nil]
  omega

theorem readU7_toNat :
    (readU7 s n).toNat =
      (s.link n).inFlight.elim 0 (fun x => x.command.code) +
        2 ^ 8 * ((s.link n).queue.length % 8) := by
  rw [readU7, toNat_pack _ rfl]
  cases (s.link n).inFlight with
  | none =>
    simp only [placedSum_cons, placedSum_nil, Option.elim_none]
    omega
  | some x =>
    simp only [placedSum_cons, placedSum_nil, Nat.mod_eq_of_lt, Command.code_lt, Option.elim_some]
    omega

end

/-! ## Sector words (Table 10-8) -/

theorem SectorDef.memberCount_eq_countP (d : SectorDef) :
    d.memberCount = (List.range 24).countP fun u => d.members.getLsbD u :=
  List.countP_eq_length_filter.symm

theorem SectorDef.memberCount_lt (d : SectorDef) : d.memberCount < 2 ^ 8 :=
  Nat.lt_of_le_of_lt (List.length_filter_le _ _) (by decide)

section
variable (s : State) (d : SectorId)

theorem readD3_getLsbD (i : Nat) :
    (readD3 s d).getLsbD i =
      ((flagGroups (fun k => (s.steering.cell d k).hole) fun k =>
          s.faults.latch (.hole d k)).any (Placed.holds i) ||
        Placed.holds i ⟨32, 8, (s.steering.defs.get d).memberCount⟩) := by
  have bits := getLsbD_pack
    (flagGroups (fun k => (s.steering.cell d k).hole) (fun k => s.faults.latch (.hole d k)) ++
      [⟨32, 8, (s.steering.defs.get d).memberCount⟩]) rfl i
  rw [List.any_append, List.any_cons, List.any_nil, Bool.or_false] at bits
  exact bits

/-- The low half of d3 holds the flags alone. -/
theorem readD3_getLsbD_low {i : Nat} (low : i < 32) :
    (readD3 s d).getLsbD i =
      (flagGroups (fun k => (s.steering.cell d k).hole) fun k =>
        s.faults.latch (.hole d k)).any (Placed.holds i) := by
  have below : Placed.holds i ⟨32, 8, (s.steering.defs.get d).memberCount⟩ = false := by
    simp [Placed.holds, Nat.not_le_of_lt low]
  rw [readD3_getLsbD, below, Bool.or_false]

/-- The high half of d3 is the member count. -/
theorem readD3_toNat_high :
    (readD3 s d).toNat / 2 ^ 32 =
      (List.range 24).countP fun u => (s.steering.defs.get d).members.getLsbD u := by
  rw [← SectorDef.memberCount_eq_countP]
  refine Nat.eq_of_testBit_eq fun i => ?_
  have groups := any_holds_flagGroups_unused (fun k => (s.steering.cell d k).hole)
    (fun k => s.faults.latch (.hole d k)) (i := i + 32) (.inr (by omega))
  rw [Nat.testBit_div_two_pow, BitVec.testBit_toNat, readD3_getLsbD, groups, Bool.false_or]
  by_cases inField : i < 8
  · simp [Placed.holds, show i + 32 < 32 + 8 by omega]
  · have small := Nat.lt_of_lt_of_le (s.steering.defs.get d).memberCount_lt
      (Nat.pow_le_pow_right (by decide : 0 < 2) (Nat.le_of_not_lt inField))
    simp [Placed.holds, Nat.testBit_lt_two_pow small]

theorem Cell.word_toNat (c : Cell) :
    c.word.toNat =
      (c.offset % 16).toNat + 2 ^ 4 * c.trend.code + 2 ^ 7 * c.surge.toNat +
        2 ^ 8 * (c.streak % 256) + 2 ^ 16 * (c.lastAttaches % 65536) +
        2 ^ 32 * (c.capacity % 1024) + 2 ^ 47 * (c.load % 131072) := by
  have offset : (BitVec.ofInt 4 c.offset).toNat = (c.offset % 16).toNat := BitVec.toNat_ofInt ..
  rw [Cell.word, toNat_pack _ rfl]
  simp only [placedSum_cons, placedSum_nil, Nat.mod_eq_of_lt, bit_lt, Trend.code_lt, BitVec.isLt]
  simp only [bit_eq_toNat, offset]
  omega

variable (role : Role) (memory : Word)

theorem readSector_cell (k : Operator) {w : Fin 16} (place : w.val = 4 + k.val) :
    readSector s role d w memory = readCell s role d k := by
  have entry : 4 ≤ w.val ∧ w.val - 4 < 6 := by omega
  have operator : (⟨w.val - 4, entry.2⟩ : Operator) = k :=
    Fin.ext (show w.val - 4 = k.val by omega)
  rw [readSector, if_neg (by omega), if_neg (by omega), dif_pos entry, operator]

end

/-! ## Words of memory (R8) -/

section
variable {w : Nat}

theorem five_le_of_descriptorClass
    (kept : descriptorClass w = .captured ∨ descriptorClass w = .plain) : 5 ≤ w := by
  by_contra low
  have part : w < 5 := by omega
  interval_cases w <;> simp [descriptorClass] at kept

theorem le_one_or_five_le_of_stageClass
    (kept : stageClass w = .captured ∨ stageClass w = .plain) : w ≤ 1 ∨ 5 ≤ w := by
  by_contra part
  have between : 1 < w ∧ w < 5 := by omega
  simp [stageClass, show ¬ w ≤ 1 by omega, show w ≤ 4 by omega] at kept

theorem le_one_or_ten_le_of_sectorClass
    (kept : sectorClass w = .captured ∨ sectorClass w = .plain) : w ≤ 1 ∨ 10 ≤ w := by
  by_contra part
  have between : w = 2 ∨ 3 ≤ w ∧ w ≤ 9 := by omega
  rcases between with rfl | ⟨low, high⟩
  · simp [sectorClass] at kept
  · simp [sectorClass, show ¬ w ≤ 1 by omega, show w ≠ 2 by omega, high] at kept

theorem readDescriptor_memory (s : State) (memory : Word) (kept : 5 ≤ w) :
    readDescriptor s w memory = memory := by
  obtain ⟨i, rfl⟩ := Nat.exists_eq_add_of_le' kept
  rfl

theorem readStage_memory (s : State) (k : Operator) (memory : Word) (kept : w ≤ 1 ∨ 5 ≤ w) :
    readStage s k w memory = memory := by
  rcases kept with low | high
  · interval_cases w <;> rfl
  · obtain ⟨i, rfl⟩ := Nat.exists_eq_add_of_le' high
    rfl

end

theorem readSector_memory (s : State) (role : Role) (d : SectorId) (memory : Word) {w : Fin 16}
    (kept : w.val ≤ 1 ∨ 10 ≤ w.val) : readSector s role d w memory = memory := by
  rw [readSector, if_neg (by omega), if_neg (by omega), dif_neg (by omega)]

/-- The part keeps no CAPTURED and no PLAIN word for its reads. -/
theorem composeWord_memory (s : State) (role : Role) (memory : Word) (w : WordRef)
    (kept : w.wordClass = .captured ∨ w.wordClass = .plain) :
    composeWord s role w memory = memory := by
  cases w with
  | plainMemory => rfl
  | ring => rfl
  | descriptor w => exact readDescriptor_memory s memory (five_le_of_descriptorClass kept)
  | stage k w => exact readStage_memory s k memory (le_one_or_five_le_of_stageClass kept)
  | sector d w => exact readSector_memory s role d memory (le_one_or_ten_le_of_sectorClass kept)
  | carrier n w => simp [WordRef.wordClass] at kept
  | unit n w =>
    have partOwned : (WordRef.unit n w).wordClass = .action ∨
        (WordRef.unit n w).wordClass = .overlaid := ite_eq_or_eq ..
    rcases partOwned with own | own <;> simp [own] at kept

/-! ## Sectors of units (R127) -/

theorem Steering.sectorOf_eq_some_iff (g : Steering) (u : UnitId) (d : SectorId) :
    g.sectorOf u = some d ↔
      (g.defs.get d).members.getLsbD u.val = true ∧
        ∀ e < d, (g.defs.get e).members.getLsbD u.val = false := by
  rw [Steering.sectorOf, ← Fin.find?_eq_find?_finRange, Fin.find?_eq_some_iff]

/-- Settles O13, window by window. -/
theorem wordsAreComposedAndConcealed : Obligations.WordsAreComposedAndConcealed := by
  refine ⟨fun s role memory => ⟨?descriptor, fun k => ?stage, fun n own => ?carrier,
    fun n w k owned other => readCarrier_concealed w owned other, fun n => ?unit,
    fun d => ⟨rfl, fun k => ?flags, fun i unused => ?unused, readD3_toNat_high s d,
      fun k w place => ?cell⟩, composeWord_memory s role memory⟩, ?codes,
    Steering.sectorOf_eq_some_iff⟩
  case descriptor =>
    exact ⟨readMode_toNat s, readConsumer_toNat s, readLogStatus_toNat s, readSiteFaults_toNat s,
      readTime_toNat s⟩
  case stage =>
    exact ⟨(s.stage k).status_toNat, changedSet_halves _, fun _ => changedSet_high_unused _⟩
  case carrier =>
    have shown (w) : composeWord s role (.carrier n w) memory = (s.context n).word n w :=
      readCarrier_shown w own
    simp only [shown, ← Context.shownSummary_eq]
    exact ⟨Context.word_zero_toNat _ n, tuningWord_toNat _, tuningWord_toNat _,
      Context.word_three_toNat _ n⟩
  case unit =>
    refine ⟨readU0_toNat s n, fun k => ?_, fun i unused => ?_, readU2_toNat s n, readU3_toNat s n,
      readU4_eq s n, figuresWord_toNat _ _, figuresWord_toNat _ _, readU7_toNat s n⟩
    · obtain ⟨condition, set, acknowledged⟩ := any_holds_flagGroups (s.unit n).conditionOf
        (fun k => s.faults.latch (.unit n k)) k
      exact ⟨(readU1_getLsbD s n _).trans (condition.trans (UnitRecord.conditionOf_eq _ k)),
        (readU1_getLsbD s n _).trans set, (readU1_getLsbD s n _).trans acknowledged⟩
    · exact (readU1_getLsbD s n i).trans (any_holds_flagGroups_unused _ _ unused)
  case flags =>
    obtain ⟨condition, set, acknowledged⟩ :=
      any_holds_flagGroups (fun k => (s.steering.cell d k).hole)
        (fun k => s.faults.latch (.hole d k)) k
    exact ⟨(readD3_getLsbD_low s d (by omega)).trans condition,
      (readD3_getLsbD_low s d (by omega)).trans set,
      (readD3_getLsbD_low s d (by omega)).trans acknowledged⟩
  case unused =>
    exact (readD3_getLsbD_low s d (by omega)).trans
      (any_holds_flagGroups_unused _ _ (by omega))
  case cell =>
    have entry : composeWord s role (.sector d w) memory = readCell s role d k :=
      readSector_cell s d role memory k place
    refine ⟨fun other => entry.trans (readCell_concealed d other), fun own => ?_⟩
    rw [← Cell.word_toNat, ← readCell_shown d own, ← entry]
  case codes => exact ⟨rfl, rfl, rfl, rfl, rfl, rfl, rfl, rfl, rfl⟩

end Sys2Proof.Machine
end

section
/-! Every command answers a next state and keeps the queue (O2). -/
namespace Sys2Proof.Machine

open Sys2Proof

variable {s t : State}

/-! ## Conditions and ends of events -/

/-- A command that acts under a condition. -/
theorem ite_pending {p : Prop} [Decidable p] (acts : p → t.pending = s.pending) :
    (if p then t else s).pending = s.pending := by
  split
  · next holds => exact acts holds
  · rfl

/-- An event after which the standings are decided and the next deposit is presented (R132, R153). -/
theorem close_settling_pending {event : State → State} (acts : (event s).pending = s.pending) :
    (close (settling event s)).pending = s.pending :=
  (close_pending _).trans ((UnitFrame.decideStandings _ _).pending.trans acts)

/-! ## Links, units and stages -/

/-- A reply that is taken (R103). -/
theorem delivering_pending {effect : State → State} (acts : ∀ s, (effect s).pending = s.pending)
    (n : UnitId) (s : State) : (delivering n effect s).pending = s.pending :=
  close_settling_pending (acts _)

theorem replyTimerExpired_pending (n : UnitId) (x : InFlight) (s : State) :
    (replyTimerExpired n x s).pending = s.pending := by
  unfold replyTimerExpired
  split
  · exact close_settling_pending (UnitFrame.secondTimeout n _).pending
  · rfl

theorem breakEnded_pending (n : UnitId) (s : State) : (breakEnded n s).pending = s.pending := by
  unfold breakEnded
  simp only
  split
  · exact close_pending _
  · rfl

theorem pollExpired_pending (s : State) : (pollExpired s).pending = s.pending :=
  (UnitFrame.pollUnits _).pending

/-- A part of a u4 write (R123). -/
theorem unitWritten_pending {effect : State → State} (acts : (effect s).pending = s.pending) :
    (unitWritten effect s).pending = s.pending :=
  ite_pending fun _ => close_settling_pending acts

theorem validation_pending (m : PostMode) (s : State) :
    (validation m s).pending = s.pending := by
  unfold validation
  split
  · next k p _ =>
    exact ite_pending fun _ =>
      close_settling_pending (event := validate k p) (UnitFrame.validateJudged s k p).pending
  · rfl

/-! ## Site Control (R24, R28 to R35) -/

theorem requestConfig_pending (s : State) : (requestConfig s).pending = s.pending := by
  unfold requestConfig
  split <;> rfl

theorem requestServe_pending (s : State) : (requestServe s).pending = s.pending := by
  unfold requestServe
  split <;> rfl

theorem deliverMode_pending (b : Beat) (s : State) : (deliverMode b s).pending = s.pending := by
  unfold deliverMode
  split
  · next r _ =>
    cases r with
    | config => exact requestConfig_pending s
    | serve => exact requestServe_pending s
  · rfl

theorem afterL3_pending (s : State) : (afterL3 s).pending = s.pending := by
  unfold afterL3
  split <;> rfl

theorem afterSectors_pending (s : State) : (afterSectors s).pending = s.pending := by
  unfold afterSectors
  split <;> rfl

theorem afterSector_pending (n : SectorId) (s : State) :
    (afterSector n s).pending = s.pending := by
  unfold afterSector
  split
  · split
    · rfl
    · exact afterSectors_pending s
  · exact afterSectors_pending s

theorem loadAnswered_pending (p : OwnPurpose) (a : ReadAnswer) (s : State) :
    (loadAnswered p a s).pending = s.pending := by
  cases a with
  | fault => rfl
  | okay data =>
    cases p with
    | loadL1 | loadL2 => exact (State.present_pending _ _).trans (State.setSite_pending s _)
    | deposit => rfl
    | loadL3 => exact (afterL3_pending _).trans (State.setSite_pending s _)
    | loadSector n => exact (afterSector_pending n _).trans (State.onSteering_pending s _)

/-! ## The words of a write (R8, R16, R147, R157) -/

theorem consume_pending (v : Nat) (s : State) : (consume v s).pending = s.pending := by
  unfold consume
  split <;> rfl

theorem deliverSiteFaults_pending (b : Beat) (s : State) :
    (deliverSiteFaults b s).pending = s.pending := by
  have acknowledged (named : Bool) (id) (u : State) :
      (if named then acknowledgeSite id u else u).pending = u.pending :=
    ite_pending fun _ => (UnitFrame.acknowledgeSite id u).pending
  unfold deliverSiteFaults
  simp only
  exact (ite_pending fun _ => State.setFaults_pending _ _).trans
    ((acknowledged _ .lapse _).trans (acknowledged _ .protection s))

theorem deliverWord_pending (w : WordRef) (b : Beat) (s : State) :
    (deliverWord w b s).pending = s.pending := by
  cases w with
  | descriptor w =>
    unfold deliverWord
    simp only
    split
    · exact (close_pending _).trans (deliverMode_pending b s)
    · split
      · exact (close_pending _).trans (consume_pending _ s)
      · exact ite_pending fun _ => (close_pending _).trans (deliverSiteFaults_pending b s)
  | stage k w =>
    unfold deliverWord
    simp only
    split
    · rfl
    · split
      · rfl
      · exact ite_pending fun _ => rfl
  | unit n w =>
    exact ite_pending fun _ => close_settling_pending (UnitFrame.deliverUnit n b s).pending
  | sector n w => exact ite_pending fun _ => close_pending _
  | plainMemory | carrier | ring => rfl

theorem mergeFaultModes_pending (b : Beat) (s : State) :
    (mergeFaultModes b s).pending = s.pending := by
  unfold mergeFaultModes
  simp only
  split
  · exact close_pending _
  · rfl

theorem mergeWord_pending (w : WordRef) (b : Beat) (s : State) :
    (mergeWord w b s).pending = s.pending := by
  cases w with
  | descriptor w =>
    unfold mergeWord mergeDescriptor
    simp only
    split
    · exact ite_pending fun _ => rfl
    · split
      · exact mergeFaultModes_pending b s
      · exact ite_pending fun _ => rfl
  | stage | sector => exact ite_pending fun _ => rfl
  | plainMemory | carrier | unit | ring => rfl

/-! ## The memory path (R3, R16, R19) -/

theorem deliverAll_pending (words : List WordRef) (beats : List Beat) (s : State) :
    (deliverAll words beats s).pending = s.pending :=
  foldl_field State.pending _ (fun s (p : WordRef × Beat) => deliverWord_pending p.1 p.2 s) s

theorem takeEntry_pending (x : Split) (s : State) : (takeEntry x s).pending = s.pending := by
  unfold takeEntry applyVerdict
  simp only
  split
  · exact close_pending _
  · rfl
  · rfl
  · exact deliverAll_pending _ _ _

theorem writeAnswered_pending (x : Split) (a : Answer) (s : State) :
    (writeAnswered x a s).pending = s.pending :=
  writeAnswered_keeps (P := fun u => u.pending = s.pending)
    (fun u w b kept => (mergeWord_pending w b u).trans kept)
    (fun u w b kept => (deliverWord_pending w b u).trans kept) (fun _ => rfl) a

theorem readAnswered_pending (x : Split) (a : ReadAnswer) (s : State) :
    (readAnswered x a s).pending = s.pending :=
  readAnswered_keeps (P := fun u => u.pending = s.pending) (fun _ _ => rfl) a

/-! ## The rows -/

/-- Settles O2, row by row: every row's meaning is a next state, and its event keeps the queue. -/
theorem everyCommandAnswersNextAndKeepsTheQueue :
    Obligations.EveryCommandAnswersNextAndKeepsTheQueue := by
  intro c s
  cases c with
  | pinReset | arbiterGrant => exact ⟨_, rfl, rfl⟩
  | requestArrival => exact ⟨_, rfl, ite_pending fun _ => State.setPath_pending s _⟩
  | fullPost => exact ⟨_, rfl, ite_pending fun _ => State.setStage_pending s _ _⟩
  | changedSetRemove => exact ⟨_, rfl, ite_pending fun _ => State.setCarriers_pending s _⟩
  | frameSendEnd | breakBegin | noiseDiscard | framingDiscard | lineConditionReady =>
    exact ⟨_, rfl, ite_pending fun _ => State.onLink_pending s _ _⟩
  | guardExpiry u => exact ⟨_, rfl, ite_pending fun _ => (UnitFrame.guardExpired u s).pending⟩
  | recoveryExpiry u =>
    exact ⟨_, rfl, ite_pending fun _ => (UnitFrame.recoveryAttempt u s).pending⟩
  | epochExpiry => exact ⟨_, rfl, ite_pending fun _ => State.setSteering_pending s _⟩
  | siteTimeCount => exact ⟨_, rfl, ite_pending fun _ => State.setSite_pending s _⟩
  | acknowledgeProtection | acknowledgeLapse | clearDepositFault | holeAcknowledge | lapseExpiry =>
    exact ⟨_, rfl, ite_pending fun _ => close_pending _⟩
  | takeRequest =>
    refine ⟨_, rfl, ?_⟩
    split
    · exact takeEntry_pending _ s
    · rfl
  | memoryWriteResponse a =>
    refine ⟨_, rfl, ?_⟩
    split
    · exact writeAnswered_pending _ a s
    · rfl
  | memoryReadResponse a =>
    refine ⟨_, rfl, ?_⟩
    split
    · exact ite_pending fun _ => readAnswered_pending _ a s
    · rfl
  | responseReturn =>
    refine ⟨_, rfl, ?_⟩
    split <;> rfl
  | serveRequest => exact ⟨_, rfl, requestServe_pending s⟩
  | configRequest =>
    refine ⟨_, rfl, ?_⟩
    split
    · rfl
    · exact (close_pending _).trans (requestConfig_pending s)
  | loadReadAnswer a =>
    refine ⟨_, rfl, ?_⟩
    split
    · next x _ =>
      simp only
      split
      · rfl
      · split
        · rfl
        · exact (close_pending _).trans (loadAnswered_pending x.purpose a _)
    · rfl
  | consumerWrite =>
    exact ⟨_, rfl, ite_pending fun _ => (close_pending _).trans (consume_pending _ s)⟩
  | depositAnswer =>
    refine ⟨_, rfl, ?_⟩
    split
    · exact close_pending _
    · rfl
  | shortPost =>
    refine ⟨_, rfl, ?_⟩
    split
    · rfl
    · exact ite_pending fun _ => rfl
  | validateTune | validateSearch | validateRelease => exact ⟨_, rfl, validation_pending _ s⟩
  | unitAcknowledge u kinds =>
    exact ⟨_, rfl, unitWritten_pending (UnitFrame.acknowledgeUnit u kinds s).pending⟩
  | adminOut u => exact ⟨_, rfl, unitWritten_pending (UnitFrame.requestOut u s).pending⟩
  | adminIn u => exact ⟨_, rfl, unitWritten_pending (UnitFrame.requestIn u s).pending⟩
  | revive u => exact ⟨_, rfl, unitWritten_pending (UnitFrame.requestRevive u s).pending⟩
  | dispatch =>
    refine ⟨_, rfl, ?_⟩
    split
    · split
      · exact (CarrierFrame.tuneDispatched _ _).pending
      · rfl
    · rfl
  | breakEnd n => exact ⟨_, rfl, ite_pending fun _ => breakEnded_pending n s⟩
  | replyTimerExpiry n =>
    refine ⟨_, rfl, ?_⟩
    split
    · exact replyTimerExpired_pending n _ s
    · rfl
  | tunedReply n =>
    refine ⟨_, rfl, ?_⟩
    split
    · exact delivering_pending (fun s => (CarrierFrame.carrierTuned s _ _).pending) n s
    · rfl
  | droppedReply n =>
    refine ⟨_, rfl, ?_⟩
    split
    · exact delivering_pending (fun s => (CarrierFrame.carrierDropped s _).pending) n s
    · rfl
  | levelReply n =>
    refine ⟨_, rfl, ?_⟩
    split
    · exact delivering_pending (fun s => (CarrierFrame.carrierLevel s _ _).pending) n s
    · rfl
  | statusReply n =>
    refine ⟨_, rfl, ?_⟩
    split
    · exact delivering_pending (fun s => (UnitFrame.takeStatus n _ _ s).pending) n s
    · rfl
  | strayFrame | checkDiscard =>
    refine ⟨_, rfl, ?_⟩
    split <;> rfl
  | breakReceived n =>
    exact ⟨_, rfl, ite_pending fun _ => close_settling_pending (UnitFrame.unitBreak n _).pending⟩
  | pollExpiry =>
    exact ⟨_, rfl, ite_pending fun _ => (close_pending _).trans (pollExpired_pending s)⟩
  | goodCharacterReceived =>
    refine ⟨_, rfl, ?_⟩
    split
    · exact ite_pending fun _ => rfl
    · rfl

end Sys2Proof.Machine
end
